-- ==== Sys2Proof/Word.lean ====
section
/-! DEFINITION. The words of the T512's manual: bytes, halves, words, and a list of fixed length. -/

namespace Sys2Proof

/-- One byte of a cell. -/
abbrev Byte := BitVec 8

/-- A two-byte field: a channel id, a sequence number, a 16-bit counter. -/
abbrev Half := BitVec 16

/-- A 32-bit word: a pool word, a reading float, the epoch count. -/
abbrev Word := BitVec 32

/-- An input or output channel id, 0..65535 (R3). -/
abbrev ChannelId := BitVec 16

/-- The number of a state slot, 0..511 (R79). -/
abbrev SlotId := Fin 512

/-- The unit address read from the strap pins, 0..15 (R134). -/
abbrev UnitAddress := BitVec 4

/-- A list of exactly `n` things: plain data whose length is part of its type. -/
abbrev Table (α : Type) (n : Nat) := { l : List α // l.length = n }

/-- A cell: 24 bytes, byte 0 first (R174). -/
abbrev Cell := Table Byte 24

/-- The 16 payload bytes of a response (R178). -/
abbrev Payload := Table Byte 16

end Sys2Proof
end

