-- ==== Sys2Proof/Syntax.lean ====
section
/-! DEFINITION. The commands of the T512: one constructor per row of spec/opcode_table.json.
An event at a pin carries the level or byte the outside presents there. A management command carries no operand of its own:
its row is the step in which the Command Unit takes the oldest cell of the Command Queue and executes it, and the
operands are that cell's (R133, R137). -/

namespace Sys2Proof

/-- The steps of the part, each whole and indivisible (95_what_each_step_holds.md). -/
inductive Instr where
  /-- The reset pin is asserted (R131). -/
  | powerOnReset
  /-- The reset pin releases; `straps` is what the four strap pins present at that moment (R134, R152). -/
  | powerOnResetRelease (straps : BitVec 4)
  /-- A byte arrives with the cell-start strobe (R168). -/
  | cellStartStrobe (byte : BitVec 8)
  /-- The 24th byte of a cell arrives (R168, R171). -/
  | cellComplete (byte : BitVec 8)
  /-- The Engine takes a READING cell (R56). -/
  | takeReading
  /-- A WAITING Engine tries its waiting step (R60). -/
  | engineResume
  /-- The Classifier takes an EPOCH cell (R106). -/
  | takeEpoch
  /-- The Classifier takes a COMMAND cell for this unit or broadcast (R135). -/
  | takeCommand
  /-- The Classifier takes a cell that only passes through (R172). -/
  | passThroughCell
  /-- IDENTIFY (R142). -/
  | identify
  /-- READ STATUS (R143). -/
  | readStatus
  /-- SET MODE (R144). -/
  | setMode
  /-- ENTRY INSERT (R10). -/
  | entryInsert
  /-- ENTRY CONVERT (R11). -/
  | entryConvert
  /-- ENTRY WINDOW (R12). -/
  | entryWindow
  /-- ENTRY REMOVE (R13). -/
  | entryRemove
  /-- ENTRY READ (R14). -/
  | entryRead
  /-- POOL WRITE (R32). -/
  | poolWrite
  /-- POOL READ (R33). -/
  | poolRead
  /-- COMMIT (R120). -/
  | commit
  /-- ABANDON (R121). -/
  | abandon
  /-- SLOT READ (R146). -/
  | slotRead
  /-- SLOT CLEAR (R147). -/
  | slotClear
  /-- ARM DIVERT (R87). -/
  | armDivert
  /-- FLUSH WINDOW (R103). -/
  | flushWindow
  /-- RESET PART (R149). -/
  | resetPart
  /-- A command whose code names no command (R140). -/
  | badCommand
  /-- A WAITING Command Unit tries its waiting step (R141). -/
  | commandResume
  /-- The verify walk ends (R122). -/
  | verifyComplete
  /-- A pending swap takes place (R127). -/
  | swap
  /-- The mirror completes (R129). -/
  | mirrorComplete
  /-- The reconciliation cursor acts at its slot (R92). -/
  | reconciliationCursorStep
  /-- The Epoch Sweep acts at its slot (R109). -/
  | epochSweepStep
  /-- A grant opportunity of the Output Arbiter; `ready` is the downstream ready line's level at it (R161). -/
  | grant (ready : Bool)
  /-- The cell in transmission completes (R173). -/
  | cellDeparture
  /-- The soft reset completes (R151). -/
  | softResetComplete
  /-- A byte arrives without the cell-start strobe (R168). -/
  | byteWithoutTheStrobe (byte : BitVec 8)
  deriving DecidableEq, Repr

end Sys2Proof
end

