-- ==== Sys2Proof/WellFormed.lean ====
section
/-! DEFINITION. Which commands are well formed. The widths of the operands are in their types (four strap pins, eight data
pins, one ready line), and the manual forbids no combination of pin levels, so every term of `Instr` is well formed and no
check is left to make. -/

namespace Sys2Proof

/-- Every pin level is admissible: a strap of 0..15 (R134), any byte (R168), either level of the ready line (R161). -/
def Instr.wellFormed : Instr → Bool
  | .powerOnReset => true
  | .powerOnResetRelease _ => true
  | .cellStartStrobe _ => true
  | .cellComplete _ => true
  | .takeReading => true
  | .engineResume => true
  | .takeEpoch => true
  | .takeCommand => true
  | .passThroughCell => true
  | .identify => true
  | .readStatus => true
  | .setMode => true
  | .entryInsert => true
  | .entryConvert => true
  | .entryWindow => true
  | .entryRemove => true
  | .entryRead => true
  | .poolWrite => true
  | .poolRead => true
  | .commit => true
  | .abandon => true
  | .slotRead => true
  | .slotClear => true
  | .armDivert => true
  | .flushWindow => true
  | .resetPart => true
  | .badCommand => true
  | .commandResume => true
  | .verifyComplete => true
  | .swap => true
  | .mirrorComplete => true
  | .reconciliationCursorStep => true
  | .epochSweepStep => true
  | .grant _ => true
  | .cellDeparture => true
  | .softResetComplete => true
  | .byteWithoutTheStrobe _ => true

end Sys2Proof
end

