-- ==== Sys2Proof/Config.lean ====
section
/-! DEFINITION. What the part fixes: the capacities and identification values of R1, R17, R79, R142 and R154 to R157.
The one value the manual does not state is the uninterpreted constant `freeHalf` (notes/assumptions/1.md). -/

namespace Sys2Proof.Config

/-- The Ingress Buffer holds at most 32 good cells (R171). -/
@[reducible, simp] def ingressCapacity : Nat := 32

/-- The Command Queue holds at most 8 command cells (R136). -/
@[reducible, simp] def commandCapacity : Nat := 8

/-- The Forward Queue holds at most 16 cells (R154). -/
@[reducible, simp] def forwardCapacity : Nat := 16

/-- The Response Queue holds at most 8 cells (R155). -/
@[reducible, simp] def responseCapacity : Nat := 8

/-- The Notice Queue holds at most 32 notices (R157). -/
@[reducible, simp] def noticeCapacity : Nat := 32

/-- The Summary Queue holds at most 64 cells (R156). -/
@[reducible, simp] def summaryCapacity : Nat := 64

/-- A directory holds at most 512 entries (R1). -/
@[reducible, simp] def directoryCapacity : Nat := 512

/-- A pool holds 4096 words, at addresses 0..4095 (R17). -/
@[reducible, simp] def poolWords : Nat := 4096

/-- The largest pool address (R17). -/
@[reducible, simp] def lastPoolAddress : Nat := 4095

/-- The Slot Store holds 512 slots (R79). -/
@[reducible, simp] def slotCount : Nat := 512

/-- One link chain consults at most four tables (R27, R142). -/
@[reducible, simp] def tablesPerChain : Nat := 4

/-- An EPOCH window holds at most 4096 counted readings (R99). -/
@[reducible, simp] def epochWindowCapacity : Nat := 4096

/-- The part code that IDENTIFY reports (R142). -/
@[reducible, simp] def partCode : Half := 0x0512

/-- The revision that IDENTIFY reports (R142). -/
@[reducible, simp] def revision : BitVec 4 := 1

/-- A two-byte value the manual does not state: the owner field that SLOT READ part A reports for an UNOWNED slot, under its
owner-none flag (R146, R178). Nothing constrains it; each use has a fresh argument. -/
opaque freeHalf : Nat → Half

end Sys2Proof.Config
end

