-- ==== Sys2Proof/Machine/State.lean ====
section
/-! DEFINITION. The state of the T512, block by block, and the machine at power-on reset. Plain data throughout. -/

namespace Sys2Proof.Machine

/-! ### Fault marks and quality (R37, R69, R76) -/

/-- A set of fault marks (R69, R175). -/
structure FaultSet where
  ovf : Bool
  unf : Bool
  dvz : Bool
  mof : Bool
  rng : Bool
  noref : Bool
  deriving DecidableEq, Repr

/-- How a reading's sequence number stands to the slot's (R62). -/
inductive SequenceMark where
  | inOrder | gap | repeated | late
  deriving DecidableEq, Repr

/-- The quality field (R76). -/
structure Quality where
  faults : FaultSet
  sequence : SequenceMark
  segmentMark : BitVec 2
  held : Bool
  zeroed : Bool
  deriving DecidableEq, Repr

/-! ### The Channel Directory and the Segment Pool (R1 to R6, R17) -/

/-- How the raw field is read (R3). -/
inductive InputForm where
  | int16 | int24 | uint16 | float
  deriving DecidableEq, Repr

/-- The form of the output value; INTEGER has an output scale (R3). -/
inductive OutputForm where
  | float
  | integer (scale : Int)
  deriving DecidableEq, Repr

/-- The conversion part of an entry: a kind with exactly the operands of that kind (R4). -/
inductive Conversion where
  | none
  | linear (gain offset : Word)
  | segmented (table : BitVec 12)
  | ratio (reference : ChannelId) (gain : Word)
  deriving DecidableEq, Repr

/-- A window definition: COUNT with a length 1..4096, or EPOCH with a span 1..255 (R5). -/
inductive WindowDef where
  | count (length : Nat)
  | epoch (span : Nat)
  deriving DecidableEq, Repr

/-- A directory entry (R3, R4, R5). -/
structure Entry where
  input : ChannelId
  output : ChannelId
  slot : SlotId
  inputForm : InputForm
  outputForm : OutputForm
  emit : Bool
  conversion : Conversion
  window : Option WindowDef
  divertPermitted : Bool
  deriving DecidableEq, Repr

/-- The addressed memory of a Segment Pool: (address, word) pairs, addresses strictly rising, no word zero.
An address that is not listed holds zero, the word's value after power-on reset (R17). -/
abbrev Memory := List (Nat × Word)

/-- A bank: one Channel Directory and one Segment Pool (R115). -/
structure Bank where
  directory : List Entry
  pool : Memory
  deriving DecidableEq, Repr

/-- The letters of the two banks (R115). -/
inductive BankId where
  | a | b
  deriving DecidableEq, Repr

/-- What started a mirror (R129). -/
inductive MirrorCause where
  | swap | abandon
  deriving DecidableEq, Repr

/-- The shadow state; VERIFYING stands as its two phases (R117). -/
inductive ShadowState where
  | editable
  | walking
  | swapPending
  | mirroring (cause : MirrorCause)
  deriving DecidableEq, Repr

/-- The Table Store (R115, R116, R117). -/
structure TableStore where
  bankA : Bank
  bankB : Bank
  active : BankId
  generation : Byte
  shadowState : ShadowState
  deriving DecidableEq, Repr

/-! ### Slots and windows (R79, R80, R95) -/

/-- A wide float: sign, exponent held as e + 64, ten hexadecimal digits (R50). -/
structure WideFloat where
  negative : Bool
  exponent : BitVec 7
  fraction : BitVec 40
  deriving DecidableEq, Repr

/-- The least and the greatest value counted into a window (R95). -/
structure Extremes where
  minimum : Word
  maximum : Word
  deriving DecidableEq, Repr

/-- An open window (R95). `extremes` is absent while counted is 0. -/
structure Window where
  definition : WindowDef
  openedAt : Word
  counted : Nat
  missed : Byte
  sum : WideFloat
  extremes : Option Extremes
  faults : FaultSet
  deriving DecidableEq, Repr

/-- The settings of the owning entry that a slot follows (R80). -/
structure Terms where
  output : ChannelId
  window : Option WindowDef
  divertPermitted : Bool
  deriving DecidableEq, Repr

/-- The runtime of an owned slot (R79). Its phase is LIVE or IDLE as `live` says. -/
structure Runtime where
  owner : ChannelId
  live : Bool
  lastSequence : Half
  lastGood : Option Word
  sticky : FaultSet
  armed : Bool
  dropCount : Half
  windowSequence : Byte
  window : Option Window
  terms : Terms
  deriving DecidableEq, Repr

/-- A state slot. No runtime is the phase UNOWNED, in which every other field has the one value that R81 and R83 give it. -/
structure Slot where
  runtime : Option Runtime
  pending : Bool
  deriving DecidableEq, Repr

/-- The reconciliation: in flight, its cursor, and whether it holds the claim of its cursor slot while it waits (R89, R92). -/
structure Reconciliation where
  inFlight : Bool
  cursor : SlotId
  claim : Bool
  deriving DecidableEq, Repr

/-- The Epoch Sweep: in flight, its cursor, the rescan flag (R108), and whether it holds its cursor slot's claim (R88). -/
structure Sweep where
  inFlight : Bool
  cursor : SlotId
  rescan : Bool
  claim : Bool
  deriving DecidableEq, Repr

/-- The claimants of a slot (R88); the Engine claims for the reading it holds. -/
inductive Party where
  | engine | command | sweep | cursor
  deriving DecidableEq, Repr

/-! ### Cells in the queues (R75, R101, R138, R159) -/

/-- The contents of a CONVERTED cell (R75). -/
structure ConvertedCell where
  output : ChannelId
  sequence : Half
  generation : Byte
  value : Word
  rawEcho : Word
  quality : Quality
  segmentTag : Half
  slot : SlotId
  upstreamQuality : Byte
  unit : UnitAddress
  deriving DecidableEq, Repr

/-- What stands at a place of the Forward Queue: a received cell, unchanged, or a CONVERTED cell the Engine formed (R154). -/
inductive ForwardBody where
  | received (cell : Cell)
  | converted (cell : ConvertedCell)
  deriving DecidableEq, Repr

/-- A place of the Forward Queue with its reset mark, which is not sent (R154). -/
structure ForwardCell where
  body : ForwardBody
  resetMark : Bool
  deriving DecidableEq, Repr

/-- The nine statuses (R139). -/
inductive Status where
  | done | accepted | busy | notFound | duplicate | full | badOperand | badCommand | noWindow
  deriving DecidableEq, Repr

/-- A RESPONSE cell (R138). -/
structure Response where
  unit : UnitAddress
  tag : Byte
  code : Byte
  status : Status
  generation : Byte
  contents : Payload
  deriving DecidableEq, Repr

/-- Why a window closed (R100). -/
inductive ClosingCause where
  | count | epoch | flush | truncated
  deriving DecidableEq, Repr

/-- A SUMMARY cell (R101). -/
structure Summary where
  output : ChannelId
  windowSequence : Byte
  cause : ClosingCause
  faults : FaultSet
  mean : Word
  minimum : Word
  maximum : Word
  counted : Nat
  missed : Byte
  span : Byte
  deriving DecidableEq, Repr

/-- Why a verify failed (R122). -/
inductive VerifyReason where
  | slotShared | outShared | form | refMissing | refRatio | poolBounds | limits | shift | linkDepth
  deriving DecidableEq, Repr

/-- What cancelled a verify (R125). -/
inductive CancelCause where
  | edit | abandon
  deriving DecidableEq, Repr

/-- Which reset a RESET DONE reports (R151, R152). -/
inductive ResetCause where
  | power | soft
  deriving DecidableEq, Repr

/-- Why a cell is bad (R170). -/
inductive LinkReason where
  | runt | crc | overrun
  deriving DecidableEq, Repr

/-- The reasons seen by a LINK ERROR notice (R160, R179). -/
structure LinkReasons where
  runt : Bool
  crc : Bool
  overrun : Bool
  deriving DecidableEq, Repr

/-- The eight kinds of notice with their contents (R159). -/
inductive NoticeBody where
  | diverted (channel : ChannelId) (sequence : Half) (raw : Word) (slot : SlotId) (generation : Byte)
      (quality : Quality) (segmentTag : Half)
  | commitDone (generation : Byte)
  | commitFailed (reason : VerifyReason) (channel : ChannelId) (address : Half) (generation : Byte)
  | commitCancelled (cause : CancelCause) (code tag generation : Byte)
  | mirrorDone (generation : Byte) (cause : MirrorCause)
  | commandDiscarded (unit tag code : Byte)
  | linkError (first : LinkReason) (seen : LinkReasons) (count : Half)
  | resetDone (cause : ResetCause) (generation : Byte)
  deriving DecidableEq, Repr

/-- A numbered notice in the Notice Queue (R157, R159). -/
structure Notice where
  sequence : Half
  lost : Half
  unit : UnitAddress
  body : NoticeBody
  deriving DecidableEq, Repr

/-- The cell in transmission at the egress port, with what its departure records (R161, R165). -/
structure Transmission where
  cell : Cell
  resetResponse : Bool
  resetMark : Bool
  deriving DecidableEq, Repr

/-! ### The Conversion Engine (R55, R60) -/

/-- A reading decided but for its window step: its value y, the readings missed before it, and its CONVERTED cell (R73). -/
structure CountStep where
  y : Word
  missed : Nat
  cell : ConvertedCell
  deriving DecidableEq, Repr

/-- Where a held reading stands: at the slot preparation of R58 and R59, or at the count closure of R73. -/
inductive EngineStep where
  | prepare
  | count (step : CountStep)
  deriving DecidableEq, Repr

/-- The reading the Engine holds, the generation latched for it, the entry found, and its claims (R55, R61, R88). -/
structure HeldReading where
  cell : Cell
  generation : Byte
  entry : Entry
  ownClaim : Bool
  referenceClaim : Option SlotId
  step : EngineStep
  deriving DecidableEq, Repr

/-- The three states of the Engine (R55). -/
inductive Engine where
  | idle
  | converting (held : HeldReading)
  | waiting (held : HeldReading)
  deriving DecidableEq, Repr

/-! ### The Command Unit (R137, R141, R144) -/

/-- A waiting slot command: its cell, the slot it has reached, and whether it holds that slot's claim (R141). -/
structure WaitingCommand where
  cell : Cell
  slot : SlotId
  claim : Bool
  deriving DecidableEq, Repr

/-- The five states of the Command Unit (R137). RESET REQUESTED knows whether its RESET PART was a broadcast (R150). -/
inductive CommandUnit where
  | idle
  | executing (cell : Cell)
  | waiting (command : WaitingCommand)
  | resetRequested (broadcast : Bool)
  | resetting
  deriving DecidableEq, Repr

/-- What becomes of a reading whose channel is not in the directory (R57). -/
inductive UnknownPolicy where
  | forward | discard
  deriving DecidableEq, Repr

/-- The mode settings (R144). -/
structure Mode where
  unknownPolicy : UnknownPolicy
  linkErrorEnable : Bool
  starvationLimit : BitVec 4
  deriving DecidableEq, Repr

/-! ### The Ingress Port (R168, R170) -/

/-- The receiver's framing state; RECEIVING holds the bytes so far and whether the cell is OVERRUN, judged at its strobe. -/
inductive Receiver where
  | idle
  | receiving (bytes : List Byte) (overrun : Bool)
  deriving DecidableEq, Repr

/-! ### The whole part -/

/-- Every piece of state the manual gives the T512, and the queue of commands that wait to be stepped. -/
structure State where
  /-- The reset pin RESETN is asserted (R131, R168). -/
  resetAsserted : Bool
  /-- The level of the downstream ready line ORDY at the last grant opportunity (R161). -/
  downstreamReady : Bool
  /-- The strap address (R134). -/
  strap : UnitAddress
  /-- The framing state (R168). -/
  receiver : Receiver
  /-- The Ingress Buffer (R171). -/
  ingressBuffer : List Cell
  /-- The bad-cell counter (R170). -/
  badCells : Half
  /-- The unknown-channel counter (R57, R172). -/
  unknownChannels : Half
  /-- The discarded-command counter (R136, R172). -/
  discardedCommands : Half
  /-- The Conversion Engine (R55). -/
  engine : Engine
  /-- The Table Store (R115). -/
  tables : TableStore
  /-- The Slot Store's 512 slots (R79). -/
  slots : Table Slot 512
  /-- The Slot Store's reconciliation (R89, R92). -/
  reconciliation : Reconciliation
  /-- The epoch count (R106). -/
  epochCount : Word
  /-- The Epoch Sweep (R108). -/
  sweep : Sweep
  /-- The Command Queue (R136). -/
  commandQueue : List Cell
  /-- The Command Unit (R137). -/
  commandUnit : CommandUnit
  /-- The mode settings (R144). -/
  mode : Mode
  /-- The Forward Queue (R154). -/
  forwardQueue : List ForwardCell
  /-- The Response Queue (R155). -/
  responseQueue : List Response
  /-- The Notice Queue (R157). -/
  noticeQueue : List Notice
  /-- The Summary Queue (R156). -/
  summaryQueue : List Summary
  /-- The notice sequence counter (R157). -/
  noticeSequence : Half
  /-- The notice lost counter (R157). -/
  noticeLost : Half
  /-- The starvation count (R162). -/
  starvationCount : BitVec 4
  /-- The egress port: free, or transmitting one cell (R161). -/
  port : Option Transmission
  /-- The departure record response sent (R165). -/
  responseSent : Bool
  /-- The departure record copy sent (R165). -/
  copySent : Bool
  /-- How many free values have been used: the model's own counter, applied to `Config.freeHalf`. -/
  freeCount : Nat
  /-- The commands that wait to be stepped, first in, first out: the model's own queue. -/
  pending : List Instr
  deriving DecidableEq, Repr

/-- Why the machine stops. Each reason is a use of a table, a reference or a slot that the manual says cannot arise, because the
active bank has passed verify (R27, R124) and the slot has been reconciled (R82). All are safe: the model stops where
the manual gives no effect. -/
inductive Fault where
  /-- A lookup would consult a fifth table; raised by TAKE_READING and ENGINE_RESUME (R27). Safe. -/
  | linkChainTooLong
  /-- A lookup would consult an address above 4095; raised by TAKE_READING and ENGINE_RESUME (R27). Safe. -/
  | poolAddressOutside
  /-- A RATIO entry's reference is not in the latched directory; raised by TAKE_READING and ENGINE_RESUME (R7). Safe. -/
  | referenceMissing
  /-- A SEGMENTED entry has input form FLOAT and so no raw integer; raised by TAKE_READING and ENGINE_RESUME (R22). Safe. -/
  | segmentedFloatInput
  /-- The reading's own slot is UNOWNED after its preparation; raised by TAKE_READING and ENGINE_RESUME (R62). Safe. -/
  | slotUnowned
  deriving DecidableEq, Repr

/-- Why a command has no meaning in the model. -/
inductive Refusal where
  /-- Raised by a dispatch arm whose command has no meaning yet. Safe. -/
  | notModelled (mnemonic : String)
  deriving DecidableEq, Repr

/-- A bank after power-on reset: no entry, every word zero (R2, R17). -/
def Bank.reset : Bank := ⟨[], []⟩

/-- The Table Store at power-on reset (R131). -/
def TableStore.reset : TableStore := ⟨Bank.reset, Bank.reset, .a, 0, .editable⟩

/-- A slot at power-on reset: UNOWNED (R84). -/
def Slot.unowned : Slot := ⟨none, false⟩

/-- The mode settings at power-on reset: FORWARD, LINK ERROR on, starvation limit 8 (R144). -/
def Mode.reset : Mode := ⟨.forward, true, 8⟩

/-- The machine at power-on reset, the reset pin still asserted: the release is a command of its own (R131, R152).
The manual gives no value for the strap address before its first sampling nor for the level of the downstream
ready line; both stand at a named value (notes/assumptions/2.md, notes/assumptions/3.md). -/
def State.reset : State where
  resetAsserted := true
  downstreamReady := false
  strap := 0
  receiver := .idle
  ingressBuffer := []
  badCells := 0
  unknownChannels := 0
  discardedCommands := 0
  engine := .idle
  tables := TableStore.reset
  slots := ⟨List.replicate 512 Slot.unowned, List.length_replicate⟩
  reconciliation := ⟨false, 0, false⟩
  epochCount := 0
  sweep := ⟨false, 0, false, false⟩
  commandQueue := []
  commandUnit := .idle
  mode := Mode.reset
  forwardQueue := []
  responseQueue := []
  noticeQueue := []
  summaryQueue := []
  noticeSequence := 0
  noticeLost := 0
  starvationCount := 0
  port := none
  responseSent := false
  copySent := false
  freeCount := 0
  pending := []

end Sys2Proof.Machine
end

