-- ==== Sys2Proof/Machine/Flags.lean ====
section
/-! DEFINITION. Fault marks, sequence marks and quality: their algebra and their bits (R37, R69, R76, R175, R176). -/

namespace Sys2Proof.Machine

namespace FaultSet

/-- No mark. -/
def none : FaultSet := ⟨false, false, false, false, false, false⟩

/-- OVF alone. -/
def ofOvf : FaultSet := ⟨true, false, false, false, false, false⟩

/-- UNF alone. -/
def ofUnf : FaultSet := ⟨false, true, false, false, false, false⟩

/-- DVZ alone. -/
def ofDvz : FaultSet := ⟨false, false, true, false, false, false⟩

/-- MOF alone. -/
def ofMof : FaultSet := ⟨false, false, false, true, false, false⟩

/-- RNG alone. -/
def ofRng : FaultSet := ⟨false, false, false, false, true, false⟩

/-- NOREF alone. -/
def ofNoref : FaultSet := ⟨false, false, false, false, false, true⟩

/-- The union of two mark sets (R37). -/
def union (a b : FaultSet) : FaultSet :=
  ⟨a.ovf || b.ovf, a.unf || b.unf, a.dvz || b.dvz, a.mof || b.mof, a.rng || b.rng, a.noref || b.noref⟩

/-- A reading with one or more marks is faulted (R69). -/
def any (a : FaultSet) : Bool := a.ovf || a.unf || a.dvz || a.mof || a.rng || a.noref

/-- Clean, or carrying MOF alone (R69). -/
def atMostMof (a : FaultSet) : Bool := !(a.ovf || a.unf || a.dvz || a.rng || a.noref)

/-- The six marks as bits, OVF highest and NOREF lowest (R175). -/
def bits (a : FaultSet) : BitVec 6 :=
  BitVec.ofBool a.ovf ++ BitVec.ofBool a.unf ++ BitVec.ofBool a.dvz ++ BitVec.ofBool a.mof ++ BitVec.ofBool a.rng ++
    BitVec.ofBool a.noref

/-- The fault set byte of sticky faults and window faults (R175). -/
def byte (a : FaultSet) : Byte := (0 : BitVec 2) ++ a.bits

end FaultSet

/-- The code of a sequence mark (R176). -/
def SequenceMark.code : SequenceMark → BitVec 2
  | .inOrder => 0
  | .gap => 1
  | .repeated => 2
  | .late => 3

/-- The two bytes of the quality field (R175). -/
def Quality.half (q : Quality) : Half :=
  q.faults.bits ++ q.sequence.code ++ q.segmentMark ++ BitVec.ofBool q.held ++ BitVec.ofBool q.zeroed ++ (0 : BitVec 4)

/-- No reason seen. -/
def LinkReasons.none : LinkReasons := ⟨false, false, false⟩

/-- A bad cell's reason joins the reasons seen (R160). -/
def LinkReasons.add (seen : LinkReasons) : LinkReason → LinkReasons
  | .runt => { seen with runt := true }
  | .crc => { seen with crc := true }
  | .overrun => { seen with overrun := true }

/-- Reasons seen: bit 0 RUNT, bit 1 CRC, bit 2 OVERRUN (R179). -/
def LinkReasons.byte (seen : LinkReasons) : Byte :=
  (0 : BitVec 5) ++ BitVec.ofBool seen.overrun ++ BitVec.ofBool seen.crc ++ BitVec.ofBool seen.runt

end Sys2Proof.Machine
end

