-- ==== Sys2Proof/Machine/Ops.lean ====
section
/-! DEFINITION. The named operations over tables of fixed length, pool memory, counters, bytes and the check field, and over
the parts of State that several commands share: the banks, the slots, the claims, the notices and the queues. -/

namespace Sys2Proof

/-! ### Tables of fixed length -/

namespace Table

/-- The element at a place. -/
def get {α : Type} {n : Nat} (t : Table α n) (i : Fin n) : α :=
  t.val[i.val]'(Nat.lt_of_lt_of_eq i.isLt t.property.symm)

/-- The table with one place replaced. -/
def put {α : Type} {n : Nat} (t : Table α n) (i : Fin n) (x : α) : Table α n :=
  ⟨t.val.set i.val x, List.length_set.trans t.property⟩

/-- Every element changed alike. -/
def map {α : Type} {n : Nat} (t : Table α n) (f : α → α) : Table α n :=
  ⟨t.val.map f, (List.length_map f).trans t.property⟩

/-- The table whose element at each place is given. -/
def tabulate {α : Type} (n : Nat) (f : Fin n → α) : Table α n :=
  ⟨(List.finRange n).map f, (List.length_map f).trans List.length_finRange⟩

/-- The first `n` elements of a list, filled up where it is shorter. -/
def ofList {α : Type} (n : Nat) (fill : α) (l : List α) : Table α n :=
  tabulate n fun i => l.getD i.val fill

end Table

namespace Machine

/-! ### Pool memory (R17) -/

/-- What an unlisted pool address reads as: the word's value after power-on reset (R17). -/
def Memory.unlisted : Word := 0

/-- The word at an address. -/
def Memory.read : Memory → Nat → Word
  | [], _ => Memory.unlisted
  | (k, v) :: rest, a => if a = k then v else Memory.read rest a

/-- The memory with one word replaced, in canonical form when it was in canonical form. -/
def Memory.write : Memory → Nat → Word → Memory
  | [], a, v => if v = Memory.unlisted then [] else [(a, v)]
  | (k, w) :: rest, a, v =>
    if a < k then (if v = Memory.unlisted then (k, w) :: rest else (a, v) :: (k, w) :: rest)
    else if a = k then (if v = Memory.unlisted then rest else (a, v) :: rest)
    else (k, w) :: Memory.write rest a v

/-- Consecutive words written together, the first at the given address (R32). -/
def Memory.writeList (m : Memory) (a : Nat) : List Word → Memory
  | [] => m
  | v :: rest => Memory.writeList (Memory.write m a v) (a + 1) rest

/-- Every listed address is above the bound and strictly rising, inside the pool, and no listed word is zero. -/
def Memory.wfAbove (bound : Nat) : Memory → Bool
  | [] => true
  | (k, v) :: rest =>
    decide (bound ≤ k) && decide (k ≤ Config.lastPoolAddress) && decide (v ≠ Memory.unlisted) && Memory.wfAbove (k + 1) rest

/-- The canonical form: addresses strictly rising within 0..4095, no listed word equal to what an unlisted one reads as. -/
def Memory.wf (m : Memory) : Bool := Memory.wfAbove 0 m

/-! ### Counters (section 5.2 of 00_scope.md) -/

/-- A saturating counter holds at its largest value when a further increment arrives. -/
def satInc {w : Nat} (c : BitVec w) : BitVec w := if c = BitVec.allOnes w then c else c + 1

/-- A saturating counter raised by an amount. -/
def satAdd {w : Nat} (c : BitVec w) (n : Nat) : BitVec w := BitVec.ofNat w (min (2 ^ w - 1) (c.toNat + n))

/-- The first slot (R89, R108). -/
def firstSlot : SlotId := ⟨0, by decide⟩

/-- The slot after one, or none after slot 511 (R92, R110). -/
def nextSlot (i : SlotId) : Option SlotId := if h : i.val + 1 < 512 then some ⟨i.val + 1, h⟩ else none

/-! ### Bytes, high byte first (R174) -/

/-- The two bytes of a half. -/
def halfBytes (x : Half) : List Byte := [x.extractLsb' 8 8, x.extractLsb' 0 8]

/-- The four bytes of a word. -/
def wordBytes (x : Word) : List Byte := [x.extractLsb' 24 8, x.extractLsb' 16 8, x.extractLsb' 8 8, x.extractLsb' 0 8]

/-- A slot number as a half. -/
def slotHalf (i : SlotId) : Half := BitVec.ofNat 16 i.val

/-- A yes/no or on/off code (R176). -/
def boolByte (b : Bool) : Byte := if b then 1 else 0

/-- The payload of a response; bytes a layout does not assign are zero (R174). -/
def payload (l : List Byte) : Payload := Table.ofList 16 0 l

/-! ### The check field (R169) -/

/-- One bit through the CRC register, generator x^16 + x^12 + x^5 + 1. -/
def crcBit (register : Half) (bit : Bool) : Half :=
  if register.msb != bit then (register <<< 1) ^^^ 0x1021 else register <<< 1

/-- One byte, most significant bit first. -/
def crcByte (register : Half) (b : Byte) : Half :=
  [7, 6, 5, 4, 3, 2, 1, 0].foldl (fun r i => crcBit r (b.getLsbD i)) register

/-- The CRC of a list of bytes; the register starts at FFFFh and there is no final inversion. -/
def crc16 (l : List Byte) : Half := l.foldl crcByte 0xFFFF

/-- A cell formed by the part: bytes 0 to 21 with the check computed over them (R169). -/
def formCell (l : List Byte) : Cell :=
  let body := (Table.ofList 22 0 l).val
  Table.ofList 24 0 (body ++ halfBytes (crc16 body))

/-- A received cell's check matches the CRC over its bytes 0 to 21 (R169). -/
def checkGood (c : Cell) : Bool := c.val.drop 22 == halfBytes (crc16 (c.val.take 22))

/-! ### Banks (R115) -/

/-- The bank of a letter. -/
def TableStore.bank (t : TableStore) : BankId → Bank
  | .a => t.bankA
  | .b => t.bankB

/-- The other letter. -/
def BankId.other : BankId → BankId
  | .a => .b
  | .b => .a

/-- The bank with the role active. -/
def TableStore.activeBank (t : TableStore) : Bank := t.bank t.active

/-- The bank with the role shadow. -/
def TableStore.shadowBank (t : TableStore) : Bank := t.bank t.active.other

/-- The Table Store with its shadow bank replaced. -/
def TableStore.putShadow (t : TableStore) (b : Bank) : TableStore :=
  match t.active with
  | .a => { t with bankB := b }
  | .b => { t with bankA := b }

/-- A mirror is in flight (R117). -/
def ShadowState.isMirroring : ShadowState → Bool
  | .mirroring _ => true
  | .editable | .walking | .swapPending => false

/-- The shadow state is VERIFYING, in either phase (R117). -/
def ShadowState.isVerifying : ShadowState → Bool
  | .walking | .swapPending => true
  | .editable | .mirroring _ => false

/-! ### LINK ERROR notices (R160) -/

/-- A bad cell joins a waiting LINK ERROR notice (R160). -/
def NoticeBody.coalesce (reason : LinkReason) : NoticeBody → NoticeBody
  | .linkError first seen count => .linkError first (seen.add reason) (satInc count)
  | body => body

/-- Whether a notice is a LINK ERROR (R160). -/
def NoticeBody.isLinkError : NoticeBody → Bool
  | .linkError _ _ _ => true
  | _ => false

namespace State

/-! ### Slots and claims (R79, R88) -/

/-- One slot of the Slot Store. -/
def slot (s : State) (i : SlotId) : Slot := s.slots.get i

/-- One slot replaced. -/
def putSlot (s : State) (i : SlotId) (x : Slot) : State := { s with slots := s.slots.put i x }

/-- The runtime of an owned slot replaced; no other field of the slot changes. -/
def putRuntime (s : State) (i : SlotId) (r : Runtime) : State := s.putSlot i { s.slot i with runtime := some r }

/-- The reading the Engine holds, if any (R55). -/
def heldReading (s : State) : Option HeldReading :=
  match s.engine with
  | .idle => none
  | .converting h => some h
  | .waiting h => some h

/-- The Engine holds no reading (R126). -/
def engineFree (s : State) : Bool := s.heldReading.isNone

/-- Whether a party holds the claim of a slot between two steps (R88). -/
def holdsClaim (s : State) (i : SlotId) : Party → Bool
  | .engine =>
    match s.heldReading with
    | none => false
    | some h => (h.ownClaim && decide (h.entry.slot = i)) || decide (h.referenceClaim = some i)
  | .command =>
    match s.commandUnit with
    | .waiting w => w.claim && decide (w.slot = i)
    | .idle | .executing _ | .resetRequested _ | .resetting => false
  | .sweep => s.sweep.claim && decide (s.sweep.cursor = i)
  | .cursor => s.reconciliation.claim && decide (s.reconciliation.cursor = i)

/-- Another party holds the claim of a slot, so the party waits for it (R88). -/
def claimedByOther (s : State) (p : Party) (i : SlotId) : Bool :=
  [Party.engine, Party.command, Party.sweep, Party.cursor].any fun q => decide (q ≠ p) && s.holdsClaim i q

/-! ### Queues (R154 to R157) -/

/-- The Forward Queue has a free place. -/
def forwardFree (s : State) : Bool := decide (s.forwardQueue.length < Config.forwardCapacity)

/-- The Summary Queue has a free place. -/
def summaryFree (s : State) : Bool := decide (s.summaryQueue.length < Config.summaryCapacity)

/-- A cell added to the Forward Queue. -/
def pushForward (s : State) (c : ForwardCell) : State := { s with forwardQueue := s.forwardQueue ++ [c] }

/-- A summary added to the Summary Queue. -/
def pushSummary (s : State) (c : Summary) : State := { s with summaryQueue := s.summaryQueue ++ [c] }

/-- The Notice Queue has a free place. -/
def noticeFree (s : State) : Bool := decide (s.noticeQueue.length < Config.noticeCapacity)

/-- A notice handed to the Notice Queue: it enters with the next number and the lost count, or is lost (R157). -/
def handNotice (s : State) (body : NoticeBody) : State :=
  if s.noticeFree then
    { s with
      noticeQueue := s.noticeQueue ++ [⟨s.noticeSequence, s.noticeLost, s.strap, body⟩]
      noticeSequence := s.noticeSequence + 1
      noticeLost := 0 }
  else if s.noticeLost = BitVec.allOnes 16 then s
  else { s with noticeSequence := s.noticeSequence + 1, noticeLost := s.noticeLost + 1 }

/-! ### The ingress side (R168, R171) -/

/-- The ingress ready line: low while the buffer is full, during a soft reset and while the reset pin is asserted (R171). -/
def ingressReady (s : State) : Bool :=
  !s.resetAsserted && decide (s.commandUnit ≠ .resetting) && decide (s.ingressBuffer.length < Config.ingressCapacity)

/-- The receiver heeds strobes and bytes: not while the reset pin is asserted nor during a soft reset (R168). -/
def receiverHeeds (s : State) : Bool := !s.resetAsserted && decide (s.commandUnit ≠ .resetting)

/-- A bad cell is reported: coalesced into a waiting LINK ERROR notice, or by a new one (R160). -/
def reportBadCell (s : State) (reason : LinkReason) : State :=
  if s.mode.linkErrorEnable then
    if s.noticeQueue.any fun n => n.body.isLinkError then
      { s with noticeQueue := s.noticeQueue.map fun n => { n with body := n.body.coalesce reason } }
    else s.handNotice (.linkError reason (LinkReasons.none.add reason) 1)
  else s

/-- A bad cell is discarded, counted and reported (R170). -/
def badCell (s : State) (reason : LinkReason) : State :=
  { s with badCells := satInc s.badCells }.reportBadCell reason

end State

end Machine

end Sys2Proof
end

