-- ==== Sys2Proof/Machine/Arithmetic.lean ====
section
/-! DEFINITION. The base-16 value arithmetic (R35 to R54). Each operation works on a sign, an exponent and a fraction held as a
natural number of `n` hexadecimal digits: six for a reading float, ten for a wide float. -/

namespace Sys2Proof.Machine

/-- A value taken apart: sign, exponent e, and the fraction's digits read as one number (R35, R50). -/
structure Unpacked where
  negative : Bool
  exponent : Int
  fraction : Nat
  deriving DecidableEq, Repr

/-- A reading float or wide float formed by an operation, with the marks the operation raised (R37). -/
structure Formed (α : Type) where
  value : α
  faults : FaultSet
  deriving DecidableEq, Repr

/-! ### Fields (R35, R50, R175) -/

/-- True zero among reading floats: all 32 bits zero (R35). -/
def trueZero : Word := 0

/-- The fields of a reading float (R175). -/
def unpack (w : Word) : Unpacked := ⟨w.getLsbD 31, ((w.extractLsb' 24 7).toNat : Int) - 64, (w.extractLsb' 0 24).toNat⟩

/-- The reading float of a sign, an exponent within -64..63 and six digits; an all-zero fraction gives true zero (R36). -/
def pack (u : Unpacked) : Word :=
  if u.fraction = 0 then trueZero
  else BitVec.ofBool u.negative ++ BitVec.ofInt 7 (u.exponent + 64) ++ BitVec.ofNat 24 u.fraction

/-- An operand whose six digits are all zero is true zero, whatever its sign and exponent (R35). -/
def isZeroFloat (w : Word) : Bool := decide (w.extractLsb' 0 24 = 0)

/-- Normalized: the first digit is not zero (R35). -/
def isNormalized (w : Word) : Bool := decide (w.extractLsb' 20 4 ≠ 0)

/-- Wide true zero: sign plus, exponent -64, fraction zero (R50). -/
def WideFloat.zero : WideFloat := ⟨false, 0, 0⟩

/-- The fields of a wide float (R50). -/
def WideFloat.unpack (w : WideFloat) : Unpacked := ⟨w.negative, (w.exponent.toNat : Int) - 64, w.fraction.toNat⟩

/-- The wide float of a sign, an exponent within -64..63 and ten digits (R50). -/
def WideFloat.pack (u : Unpacked) : WideFloat :=
  if u.fraction = 0 then WideFloat.zero else ⟨u.negative, BitVec.ofInt 7 (u.exponent + 64), BitVec.ofNat 40 u.fraction⟩

/-- True zero, taken apart. -/
def Unpacked.zero : Unpacked := ⟨false, -64, 0⟩

/-- The number of hexadecimal digits of a natural number; none for zero (R38). -/
def hexDigits (m : Nat) : Nat := if m = 0 then 0 else Nat.log2 m / 4 + 1

/-! ### Range (R37, R44) -/

/-- A normalized result tested against the exponent range: held at the largest magnitude with OVF above +63, true zero
with UNF below -64 (R44). -/
def rangeTest (n : Nat) (u : Unpacked) : Formed Unpacked :=
  if 63 < u.exponent then ⟨⟨u.negative, 63, 16 ^ n - 1⟩, FaultSet.ofOvf⟩
  else if u.exponent < -64 then ⟨Unpacked.zero, FaultSet.ofUnf⟩
  else ⟨u, FaultSet.none⟩

/-! ### Entry (R38, R39, R40) -/

/-- An integer of at most six hexadecimal digits as a reading float, exactly (R38). -/
def ofInteger (i : Int) : Word :=
  let m := i.natAbs
  let d := hexDigits m
  pack ⟨decide (i < 0), d, m * 16 ^ (6 - d)⟩

/-- Normalization on entry of a FLOAT raw value or a pool word (R39). -/
def normalizeOnEntry (w : Word) : Formed Word :=
  let u := unpack w
  let lead := 6 - hexDigits u.fraction
  if u.fraction = 0 then ⟨trueZero, FaultSet.none⟩
  else if lead = 0 then ⟨w, FaultSet.none⟩
  else if u.exponent - lead < -64 then ⟨trueZero, FaultSet.ofUnf⟩
  else ⟨pack ⟨u.negative, u.exponent - lead, u.fraction * 16 ^ lead⟩, FaultSet.none⟩

/-- Negation: the sign inverted; true zero stays true zero (R40). -/
def negate (w : Word) : Word := if isZeroFloat w then trueZero else w ^^^ 0x80000000

/-- Magnitude: the value with sign plus; true zero stays true zero (R40). -/
def magnitude (w : Word) : Word := if isZeroFloat w then trueZero else w &&& 0x7FFFFFFF

/-! ### Add (R41 to R45, R51) -/

/-- Left normalization on `n` digits and a guard digit: while the first digit is zero, shift left and lower the exponent
(R43 step 3). `fuel` bounds the shifts. -/
def normalizeLeft (n : Nat) : Nat → Unpacked → Unpacked
  | 0, u => u
  | fuel + 1, u => if u.fraction < 16 ^ n then normalizeLeft n fuel ⟨u.negative, u.exponent - 1, u.fraction * 16⟩ else u

/-- The result of combining, brought to form: carry, zero, left normalization, truncation of the guard digit (R43). -/
def bringToForm (n : Nat) (u : Unpacked) : Formed Unpacked :=
  if u.fraction = 0 then ⟨Unpacked.zero, FaultSet.none⟩
  else if 16 ^ (n + 1) ≤ u.fraction then rangeTest n ⟨u.negative, u.exponent + 1, u.fraction / 16 / 16⟩
  else
    let v := normalizeLeft n (n + 1) u
    rangeTest n ⟨v.negative, v.exponent, v.fraction / 16⟩

/-- The aligned fractions combined by the rules of algebra, the leading operand first; both have `n` digits and a guard
digit (R43). -/
def combine (n : Nat) (leading trailing : Unpacked) : Formed Unpacked :=
  if leading.negative = trailing.negative then
    bringToForm n ⟨leading.negative, leading.exponent, leading.fraction + trailing.fraction⟩
  else if trailing.fraction ≤ leading.fraction then
    bringToForm n ⟨leading.negative, leading.exponent, leading.fraction - trailing.fraction⟩
  else bringToForm n ⟨trailing.negative, leading.exponent, trailing.fraction - leading.fraction⟩

/-- Alignment: both fractions gain a guard digit and the trailing one is shifted right by the exponent difference (R42). -/
def alignAdd (n : Nat) (leading trailing : Unpacked) : Formed Unpacked :=
  let d := (leading.exponent - trailing.exponent).toNat
  if n + 1 ≤ d then ⟨leading, FaultSet.none⟩
  else
    combine n ⟨leading.negative, leading.exponent, leading.fraction * 16⟩
      ⟨trailing.negative, leading.exponent, trailing.fraction * 16 / 16 ^ d⟩

/-- An add on `n` digits (R41 to R44; R51 with ten digits). -/
def addDigits (n : Nat) (a b : Unpacked) : Formed Unpacked :=
  if a.fraction = 0 then (if b.fraction = 0 then ⟨Unpacked.zero, FaultSet.none⟩ else ⟨b, FaultSet.none⟩)
  else if b.fraction = 0 then ⟨a, FaultSet.none⟩
  else if a.exponent < b.exponent then alignAdd n b a
  else alignAdd n a b

/-- The add of two reading floats (R41 to R44). -/
def addFloat (a b : Word) : Formed Word :=
  let r := addDigits 6 (unpack a) (unpack b)
  ⟨pack r.value, r.faults⟩

/-- The subtract of two reading floats: an add of the negation (R45). -/
def subtractFloat (a b : Word) : Formed Word := addFloat a (negate b)

/-! ### Multiply (R46) -/

/-- The multiply of two reading floats (R46). -/
def multiplyFloat (a b : Word) : Formed Word :=
  let u := unpack a
  let v := unpack b
  if u.fraction = 0 ∨ v.fraction = 0 then ⟨trueZero, FaultSet.none⟩
  else
    let negative := u.negative != v.negative
    let kept := u.fraction * v.fraction / 16 ^ 5
    let r :=
      if kept < 16 ^ 6 then rangeTest 6 ⟨negative, u.exponent + v.exponent - 1, kept * 16 / 16⟩
      else rangeTest 6 ⟨negative, u.exponent + v.exponent, kept / 16⟩
    ⟨pack r.value, r.faults⟩

/-! ### Divide (R47) -/

/-- A divide on `n` digits: DVZ on a true-zero divisor; otherwise the pre-shift, the truncated quotient and the range (R47). -/
def divideDigits (n : Nat) (a b : Unpacked) : Formed Unpacked :=
  if b.fraction = 0 then ⟨Unpacked.zero, FaultSet.ofDvz⟩
  else if a.fraction = 0 then ⟨Unpacked.zero, FaultSet.none⟩
  else
    let negative := a.negative != b.negative
    if b.fraction ≤ a.fraction then
      rangeTest n ⟨negative, a.exponent + 1 - b.exponent, a.fraction * 16 ^ n / (b.fraction * 16)⟩
    else rangeTest n ⟨negative, a.exponent - b.exponent, a.fraction * 16 ^ n / b.fraction⟩

/-- The divide of two reading floats (R47). -/
def divideFloat (a b : Word) : Formed Word :=
  let r := divideDigits 6 (unpack a) (unpack b)
  ⟨pack r.value, r.faults⟩

/-! ### Fix to integer (R48) -/

/-- The truncated integer of y × 16^k before the limits are tested; `none` where e + k is 7 or more (R48). -/
def truncated (u : Unpacked) (k : Int) : Option Nat :=
  if u.exponent + k ≤ 0 then some 0
  else if u.exponent + k ≤ 6 then some (u.fraction / 16 ^ (6 - (u.exponent + k)).toNat)
  else none

/-- Fix to integer with output scale k (R48). -/
def fixToInteger (y : Word) (k : Int) : Formed Int :=
  let u := unpack y
  if u.fraction = 0 then ⟨0, FaultSet.none⟩
  else
    match truncated u k with
    | none => ⟨if u.negative then -8388608 else 8388607, FaultSet.ofMof⟩
    | some m =>
      if u.negative then (if 8388608 < m then ⟨-8388608, FaultSet.ofMof⟩ else ⟨-(m : Int), FaultSet.none⟩)
      else if 8388607 < m then ⟨8388607, FaultSet.ofMof⟩
      else ⟨(m : Int), FaultSet.none⟩

/-! ### Compare (R49) -/

/-- A key that orders reading floats by their algebraic values: zero for true zero, and for a normalized value its sign
applied to exponent and fraction read together (R49). -/
def algebraicKey (w : Word) : Int :=
  if isZeroFloat w then 0
  else if w.getLsbD 31 then -((w.extractLsb' 0 31).toNat : Int) - 1
  else ((w.extractLsb' 0 31).toNat : Int) + 1

/-- One reading float is below another (R49). -/
def isBelow (a b : Word) : Bool := decide (algebraicKey a < algebraicKey b)

/-! ### Wide floats (R50 to R53) -/

/-- A reading float enters a wide operation with four zero digits added (R50). -/
def extendFloat (y : Word) : Unpacked :=
  let u := unpack y
  if u.fraction = 0 then Unpacked.zero else ⟨u.negative, u.exponent, u.fraction * 16 ^ 4⟩

/-- The wide add of a reading float to a wide float (R51). At a sum held at the largest magnitude the marks are those of the rule's table: a
reading of the same sign that carries nothing in raises no OVF again (DESIGN CHOICE, notes/assumptions/26.md). -/
def wideAdd (sum : WideFloat) (y : Word) : Formed WideFloat :=
  let r := addDigits 10 sum.unpack (extendFloat y)
  ⟨WideFloat.pack r.value, r.faults⟩

/-- Narrowing: the first six digits of the fraction (R52). -/
def narrow (u : Unpacked) : Word := pack ⟨u.negative, u.exponent, u.fraction / 16 ^ 4⟩

/-- The count as a wide float (R53). -/
def wideCount (c : Nat) : Unpacked := ⟨false, hexDigits c, c * 16 ^ (10 - hexDigits c)⟩

/-- The window mean: the wide sum divided by the count, then narrowed (R53). -/
def windowMean (sum : WideFloat) (c : Nat) : Formed Word :=
  let r := divideDigits 10 sum.unpack (wideCount c)
  ⟨narrow r.value, r.faults⟩

end Sys2Proof.Machine
end

