-- ==== Sys2Proof/Machine/Operands.lean ====
section
/-! DEFINITION. Reading a received cell: its fields (R174), the codes (R176), the raw field in each input form (R38) and the
operands of each command with their operand tests (R10, R11, R12, R14, R32, R33, R144, R145, R177). A decoder of
operands answers `none` where an operand lies outside its range or codes. -/

namespace Sys2Proof.Machine

/-! ### Fields of a cell (R174) -/

/-- Cell byte i. -/
def cellByte (c : Cell) (i : Nat) : Byte := c.val.getD i 0

/-- Cell bytes i and i+1, high byte first. -/
def cellHalf (c : Cell) (i : Nat) : Half := cellByte c i ++ cellByte c (i + 1)

/-- Cell bytes i to i+3, high byte first. -/
def cellWord (c : Cell) (i : Nat) : Word := cellHalf c i ++ cellHalf c (i + 2)

/-- Payload byte i is cell byte i + 6 (R174). -/
def payloadByte (c : Cell) (i : Nat) : Byte := cellByte c (i + 6)

/-- Payload bytes i and i+1. -/
def payloadHalf (c : Cell) (i : Nat) : Half := cellHalf c (i + 6)

/-- Payload bytes i to i+3. -/
def payloadWord (c : Cell) (i : Nat) : Word := cellWord c (i + 6)

/-- The kind code of a cell (R172). -/
def cellKind (c : Cell) : Byte := cellByte c 0

/-- The fields of a READING cell: input channel id. -/
def readingChannel (c : Cell) : ChannelId := cellHalf c 1

/-- The fields of a READING cell: sequence number. -/
def readingSequence (c : Cell) : Half := cellHalf c 3

/-- The fields of a READING cell: the raw field as received. -/
def readingRaw (c : Cell) : Word := cellWord c 6

/-- The fields of a READING cell: upstream quality. -/
def readingUpstream (c : Cell) : Byte := cellByte c 10

/-- The fields of a COMMAND cell: unit address. -/
def commandAddress (c : Cell) : Byte := cellByte c 1

/-- The fields of a COMMAND cell: tag. -/
def commandTag (c : Cell) : Byte := cellByte c 2

/-- The fields of a COMMAND cell: command code. -/
def commandCode (c : Cell) : Byte := cellByte c 3

/-- The fields of a COMMAND cell: key. -/
def commandKey (c : Cell) : Half := cellHalf c 4

/-! ### Kinds and command codes (R172, R176) -/

/-- READING (R172). -/
def kindReading : Byte := 0x01

/-- EPOCH (R172). -/
def kindEpoch : Byte := 0x02

/-- COMMAND (R172). -/
def kindCommand : Byte := 0x03

/-- The defined command codes (R176). -/
inductive CommandName where
  | identify | readStatus | setMode
  | entryInsert | entryConvert | entryWindow | entryRemove | entryRead
  | poolWrite | poolRead
  | commit | abandon
  | slotRead | slotClear | armDivert | flushWindow
  | resetPart
  deriving DecidableEq, Repr

/-- The code of a command (R176). -/
def CommandName.code : CommandName → Byte
  | .identify => 0x01
  | .readStatus => 0x02
  | .setMode => 0x03
  | .entryInsert => 0x10
  | .entryConvert => 0x11
  | .entryWindow => 0x12
  | .entryRemove => 0x13
  | .entryRead => 0x14
  | .poolWrite => 0x18
  | .poolRead => 0x19
  | .commit => 0x20
  | .abandon => 0x21
  | .slotRead => 0x30
  | .slotClear => 0x31
  | .armDivert => 0x32
  | .flushWindow => 0x33
  | .resetPart => 0x3F

/-- Every defined command. -/
def CommandName.all : List CommandName :=
  [.identify, .readStatus, .setMode, .entryInsert, .entryConvert, .entryWindow, .entryRemove, .entryRead, .poolWrite,
    .poolRead, .commit, .abandon, .slotRead, .slotClear, .armDivert, .flushWindow, .resetPart]

/-- The command a code names, or none for an undefined code (R140, R176). -/
def commandOfCode (code : Byte) : Option CommandName := CommandName.all.find? fun n => decide (n.code = code)

/-! ### Codes of operands (R176) -/

/-- A yes/no or on/off code. -/
def boolOfCode (b : Byte) : Option Bool := if b = 0 then some false else if b = 1 then some true else none

/-- An input form code. -/
def inputFormOfCode (b : Byte) : Option InputForm :=
  if b = 0 then some .int16 else if b = 1 then some .int24 else if b = 2 then some .uint16
  else if b = 3 then some .float else none

/-- An unknown-channel policy code. -/
def policyOfCode (b : Byte) : Option UnknownPolicy :=
  if b = 0 then some .forward else if b = 1 then some .discard else none

/-- The bank selectors (R115). -/
inductive Selector where
  | active | shadow
  deriving DecidableEq, Repr

/-- A bank selector code. -/
def selectorOfCode (b : Byte) : Option Selector :=
  if b = 0 then some .active else if b = 1 then some .shadow else none

/-- The part selectors (R14, R146). -/
inductive Part where
  | a | b
  deriving DecidableEq, Repr

/-- A part selector code. -/
def partOfCode (b : Byte) : Option Part := if b = 0 then some .a else if b = 1 then some .b else none

/-- The output form and scale; with FLOAT the scale operand is not tested (R10). -/
def outputFormOfCode (form scale : Byte) : Option OutputForm :=
  if form = 0 then some .float
  else if form = 1 then (if -4 ≤ scale.toInt ∧ scale.toInt ≤ 4 then some (.integer scale.toInt) else none)
  else none

/-- A slot number, 0..511 (R10, R145). -/
def slotOfHalf (h : Half) : Option SlotId := if p : h.toNat < 512 then some ⟨h.toNat, p⟩ else none

/-- A gain or offset is accepted when normalized or with an all-zero fraction (R11). -/
def operandFloat (w : Word) : Option Word := if isNormalized w || isZeroFloat w then some w else none

/-! ### Operands of the commands (R177) -/

/-- ENTRY INSERT's entry, with the defaults of R6 in its conversion and window parts (R10). -/
def insertOperands (c : Cell) : Option Entry :=
  match slotOfHalf (payloadHalf c 2), inputFormOfCode (payloadByte c 4),
    outputFormOfCode (payloadByte c 5) (payloadByte c 6), boolOfCode (payloadByte c 7) with
  | some slot, some inputForm, some outputForm, some emit =>
    some
      { input := commandKey c
        output := payloadHalf c 0
        slot
        inputForm
        outputForm
        emit
        conversion := .none
        window := none
        divertPermitted := false }
  | _, _, _, _ => none

/-- ENTRY CONVERT's conversion part (R11). -/
def convertOperands (c : Cell) : Option Conversion :=
  if payloadByte c 0 = 0 then some .none
  else if payloadByte c 0 = 1 then
    match operandFloat (payloadWord c 4), operandFloat (payloadWord c 8) with
    | some gain, some offset => some (.linear gain offset)
    | _, _ => none
  else if payloadByte c 0 = 2 then
    if (payloadHalf c 2).toNat ≤ Config.lastPoolAddress then some (.segmented ((payloadHalf c 2).setWidth 12)) else none
  else if payloadByte c 0 = 3 then (operandFloat (payloadWord c 4)).map (Conversion.ratio (payloadHalf c 2))
  else none

/-- A window definition from its kind code and length or span; with kind absent the length is not tested (R12). -/
def windowDefOfCode (kind : Byte) (length : Nat) : Option (Option WindowDef) :=
  if kind = 0 then some none
  else if kind = 1 then (if 1 ≤ length ∧ length ≤ 4096 then some (some (.count length)) else none)
  else if kind = 2 then (if 1 ≤ length ∧ length ≤ 255 then some (some (.epoch length)) else none)
  else none

/-- ENTRY WINDOW's window definition and divert permission (R12). -/
def windowOperands (c : Cell) : Option (Option WindowDef × Bool) :=
  match windowDefOfCode (payloadByte c 0) (payloadHalf c 2).toNat, boolOfCode (payloadByte c 4) with
  | some window, some permitted => some (window, permitted)
  | _, _ => none

/-- ENTRY READ's bank and part selectors (R14). -/
def entryReadOperands (c : Cell) : Option (Selector × Part) :=
  match selectorOfCode (payloadByte c 0), partOfCode (payloadByte c 1) with
  | some selector, some part => some (selector, part)
  | _, _ => none

/-- POOL WRITE's words: a count of 1..3 whose last address is at most 4095 (R32). -/
def poolWriteOperands (c : Cell) : Option (List Word) :=
  let count := (payloadByte c 0).toNat
  if 1 ≤ count ∧ count ≤ 3 ∧ (commandKey c).toNat + count - 1 ≤ Config.lastPoolAddress then
    some ([payloadWord c 4, payloadWord c 8, payloadWord c 12].take count)
  else none

/-- POOL READ's bank selector, with a first address of at most 4092 (R33). -/
def poolReadOperands (c : Cell) : Option Selector :=
  if (commandKey c).toNat ≤ 4092 then selectorOfCode (payloadByte c 0) else none

/-- SET MODE's settings: both codes defined and a limit of 1..15 (R144). -/
def modeOperands (c : Cell) : Option Mode :=
  match policyOfCode (payloadByte c 0), boolOfCode (payloadByte c 1) with
  | some unknownPolicy, some linkErrorEnable =>
    if 1 ≤ (payloadByte c 2).toNat ∧ (payloadByte c 2).toNat ≤ 15 then
      some ⟨unknownPolicy, linkErrorEnable, (payloadByte c 2).setWidth 4⟩
    else none
  | _, _ => none

/-- The slots a slot command's key names: one slot, or for SLOT CLEAR every slot (R145, R147). -/
inductive SlotKey where
  | one (slot : SlotId)
  | all
  deriving DecidableEq, Repr

/-- SLOT CLEAR's key: 0..511 names a slot and 512 names every slot (R147). -/
def slotClearKey (c : Cell) : Option SlotKey :=
  if (commandKey c).toNat = 512 then some .all else (slotOfHalf (commandKey c)).map SlotKey.one

/-! ### The raw field (R38, R63, R174) -/

/-- The integer n of an integer input form; FLOAT has none (R38, R63). -/
def rawInteger (raw : Word) : InputForm → Option Int
  | .int16 => some (raw.extractLsb' 0 16).toInt
  | .int24 => some (raw.extractLsb' 0 24).toInt
  | .uint16 => some (raw.extractLsb' 0 16).toNat
  | .float => none

/-- The input value x of a raw field (R63). -/
def inputValue (raw : Word) (form : InputForm) : Formed Word :=
  match rawInteger raw form with
  | some n => ⟨ofInteger n, FaultSet.none⟩
  | none => normalizeOnEntry raw

end Sys2Proof.Machine
end

