-- ==== Sys2Proof/Machine/Formats.lean ====
section
/-! DEFINITION. Forming a cell for transmission: the codes and layouts of R174 to R179, with the check computed when the
transmission begins (R169). -/

namespace Sys2Proof.Machine

/-! ### Codes (R176) -/

/-- The code of a status. -/
def Status.code : Status → Byte
  | .done => 0
  | .accepted => 1
  | .busy => 2
  | .notFound => 3
  | .duplicate => 4
  | .full => 5
  | .badOperand => 6
  | .badCommand => 7
  | .noWindow => 8

/-- The code of a closing cause. -/
def ClosingCause.code : ClosingCause → Byte
  | .count => 0
  | .epoch => 1
  | .flush => 2
  | .truncated => 3

/-- The code of a verify reason. -/
def VerifyReason.code : VerifyReason → Byte
  | .slotShared => 1
  | .outShared => 2
  | .form => 3
  | .refMissing => 4
  | .refRatio => 5
  | .poolBounds => 6
  | .limits => 7
  | .shift => 8
  | .linkDepth => 9

/-- The code of a cancel cause. -/
def CancelCause.code : CancelCause → Byte
  | .edit => 0
  | .abandon => 1

/-- The code of a mirror cause. -/
def MirrorCause.code : MirrorCause → Byte
  | .swap => 0
  | .abandon => 1

/-- The code of a reset cause. -/
def ResetCause.code : ResetCause → Byte
  | .power => 0
  | .soft => 1

/-- The code of a link error reason. -/
def LinkReason.code : LinkReason → Byte
  | .runt => 1
  | .crc => 2
  | .overrun => 3

/-- The code of an input form. -/
def InputForm.code : InputForm → BitVec 4
  | .int16 => 0
  | .int24 => 1
  | .uint16 => 2
  | .float => 3

/-- The code of an output form. -/
def OutputForm.code : OutputForm → BitVec 4
  | .float => 0
  | .integer _ => 1

/-- The output scale as a signed byte; FLOAT reports 0 (R14, R176). -/
def OutputForm.scaleByte : OutputForm → Byte
  | .float => 0
  | .integer k => BitVec.ofInt 8 k

/-- The code of a conversion kind. -/
def Conversion.code : Conversion → BitVec 2
  | .none => 0
  | .linear _ _ => 1
  | .segmented _ => 2
  | .ratio _ _ => 3

/-- The code of a window kind. -/
def windowKindCode : Option WindowDef → BitVec 2
  | none => 0
  | some (.count _) => 1
  | some (.epoch _) => 2

/-- The length or span of a window definition; 0 when absent (R14). -/
def windowLength : Option WindowDef → Nat
  | none => 0
  | some (.count n) => n
  | some (.epoch n) => n

/-- The code of a phase. -/
def Slot.phaseCode (x : Slot) : BitVec 2 :=
  match x.runtime with
  | none => 0
  | some r => if r.live then 2 else 1

/-- The code of a shadow state. -/
def ShadowState.code : ShadowState → BitVec 2
  | .editable => 0
  | .walking => 1
  | .swapPending => 2
  | .mirroring _ => 3

/-- The code of the unknown-channel policy. -/
def UnknownPolicy.code : UnknownPolicy → Byte
  | .forward => 0
  | .discard => 1

/-- The unit field: the strap address in one byte. -/
def unitByte (u : UnitAddress) : Byte := (0 : BitVec 4) ++ u

/-! ### Cells (R174) -/

/-- Bytes 0 to 21 of a CONVERTED cell. -/
def ConvertedCell.bytes (c : ConvertedCell) : List Byte :=
  [0x11] ++ halfBytes c.output ++ halfBytes c.sequence ++ [c.generation] ++ wordBytes c.value ++ wordBytes c.rawEcho ++
    halfBytes c.quality.half ++ halfBytes c.segmentTag ++ halfBytes (slotHalf c.slot) ++ [c.upstreamQuality, unitByte c.unit]

/-- Bytes 0 to 21 of a SUMMARY cell. -/
def Summary.bytes (c : Summary) : List Byte :=
  [0x12] ++ halfBytes c.output ++ [c.windowSequence, c.cause.code, c.faults.byte] ++ wordBytes c.mean ++
    wordBytes c.minimum ++ wordBytes c.maximum ++ halfBytes (BitVec.ofNat 16 c.counted) ++ [c.missed, c.span]

/-- Bytes 0 to 21 of a RESPONSE cell. -/
def Response.bytes (c : Response) : List Byte :=
  [0x13, unitByte c.unit, c.tag, c.code, c.status.code, c.generation] ++ c.contents.val

/-- The code of a notice (R176). -/
def NoticeBody.code : NoticeBody → Byte
  | .diverted .. => 1
  | .commitDone .. => 2
  | .commitFailed .. => 3
  | .commitCancelled .. => 4
  | .mirrorDone .. => 5
  | .commandDiscarded .. => 6
  | .linkError .. => 7
  | .resetDone .. => 8

/-- Payload bytes 1 to 15 of a notice, as far as its layout assigns them (R179). -/
def NoticeBody.bytes : NoticeBody → List Byte
  | .diverted channel sequence raw slot generation quality tag =>
    halfBytes channel ++ halfBytes sequence ++ wordBytes raw ++ halfBytes (slotHalf slot) ++ [generation] ++
      halfBytes quality.half ++ halfBytes tag
  | .commitDone generation => [generation]
  | .commitFailed reason channel address generation =>
    [reason.code] ++ halfBytes channel ++ halfBytes address ++ [generation]
  | .commitCancelled cause code tag generation => [cause.code, code, tag, generation]
  | .mirrorDone generation cause => [generation, cause.code]
  | .commandDiscarded unit tag code => [unit, tag, code]
  | .linkError first seen count => [first.code, seen.byte] ++ halfBytes count
  | .resetDone cause generation => [cause.code, generation]

/-- Bytes 0 to 21 of a NOTICE cell. -/
def Notice.bytes (c : Notice) : List Byte :=
  [0x14, c.body.code] ++ halfBytes c.sequence ++ halfBytes c.lost ++ [unitByte c.unit] ++ c.body.bytes

/-- The cell sent for a place of the Forward Queue: a received cell leaves unchanged in every byte (R154). -/
def ForwardBody.cell : ForwardBody → Cell
  | .received c => c
  | .converted c => formCell c.bytes

/-! ### Response contents (R178) -/

/-- Part A of ENTRY READ: the entry with its position and the count of entries (R14, R178). -/
def entryPartA (e : Entry) (position count : Nat) : List Byte :=
  halfBytes e.input ++ halfBytes e.output ++ halfBytes (slotHalf e.slot) ++
    [e.inputForm.code ++ e.outputForm.code, e.outputForm.scaleByte,
      e.conversion.code ++ windowKindCode e.window ++ BitVec.ofBool e.emit ++ BitVec.ofBool e.divertPermitted ++ (0 : BitVec 2)] ++
    halfBytes (BitVec.ofNat 16 (windowLength e.window)) ++ halfBytes (BitVec.ofNat 16 position) ++
    halfBytes (BitVec.ofNat 16 count)

/-- Part B of ENTRY READ, in the ENTRY CONVERT layout; places of absent operands are zero (R14, R177). -/
def entryPartB : Conversion → List Byte
  | .none => [0]
  | .linear gain offset => [1, 0, 0, 0] ++ wordBytes gain ++ wordBytes offset
  | .segmented table => [2, 0] ++ halfBytes (table.setWidth 16)
  | .ratio reference gain => [3, 0] ++ halfBytes reference ++ wordBytes gain

/-- Part A of SLOT READ (R146, R178). The manual does not state the owner field of an UNOWNED slot, whose owner-none flag is
set; `ownerWhenNone` is what it holds (notes/assumptions/1.md). -/
def slotPartA (x : Slot) (ownerWhenNone : Half) : List Byte :=
  match x.runtime with
  | none => halfBytes ownerWhenNone ++ [0x80, 0, 0, 0, 0, 0]
  | some r =>
    halfBytes r.owner ++ [BitVec.ofBool false ++ x.phaseCode ++ BitVec.ofBool r.armed ++ (0 : BitVec 4), r.sticky.byte] ++
      halfBytes r.dropCount ++ halfBytes r.lastSequence

/-- Part B of SLOT READ: zero for an absent last good value and for the fields of an absent window record (R95, R146, R178). -/
def slotPartB (x : Slot) : List Byte :=
  match x.runtime with
  | none => []
  | some r =>
    let window : List Byte :=
      match r.window with
      | none => [0, 0, 0, 0, 0, 0, 0]
      | some w => halfBytes (BitVec.ofNat 16 w.counted) ++ [w.missed] ++ wordBytes w.openedAt
    wordBytes (r.lastGood.getD 0) ++ [boolByte r.lastGood.isSome] ++ window ++ [r.windowSequence]

/-- IDENTIFY's contents (R142, R178). -/
def identifyBytes (strap : UnitAddress) : List Byte :=
  halfBytes Config.partCode ++ [Config.revision ++ strap] ++ halfBytes (BitVec.ofNat 16 Config.directoryCapacity) ++
    halfBytes (BitVec.ofNat 16 Config.poolWords) ++ halfBytes (BitVec.ofNat 16 Config.slotCount) ++
    [BitVec.ofNat 8 Config.tablesPerChain, BitVec.ofNat 8 Config.ingressCapacity, BitVec.ofNat 8 Config.commandCapacity,
      BitVec.ofNat 8 Config.forwardCapacity, BitVec.ofNat 8 Config.responseCapacity,
      BitVec.ofNat 8 Config.noticeCapacity, BitVec.ofNat 8 Config.summaryCapacity]

/-- A cursor as reported: its slot divided by 128 (R178). -/
def cursorCode (i : SlotId) : BitVec 2 := BitVec.ofNat 2 (i.val / 128)

/-- READ STATUS's fill word, from bit 31 down (R178). -/
def fillWord (s : State) : Word :=
  BitVec.ofNat 6 s.ingressBuffer.length ++ BitVec.ofNat 4 s.commandQueue.length ++ BitVec.ofNat 5 s.forwardQueue.length ++
    BitVec.ofNat 3 s.responseQueue.length ++ BitVec.ofNat 6 s.noticeQueue.length ++
    BitVec.ofNat 7 s.summaryQueue.length ++ BitVec.ofBool (decide (s.tables.active = .b))

/-- READ STATUS's state word, from bit 15 down (R178). -/
def stateWord (s : State) : Half :=
  s.tables.shadowState.code ++ BitVec.ofBool (decide (s.mode.unknownPolicy = .discard)) ++
    BitVec.ofBool s.mode.linkErrorEnable ++ s.mode.starvationLimit ++ BitVec.ofBool s.reconciliation.inFlight ++
    cursorCode s.reconciliation.cursor ++ BitVec.ofBool s.sweep.inFlight ++ BitVec.ofBool s.sweep.rescan ++
    cursorCode s.sweep.cursor ++ (0 : BitVec 1)

/-- READ STATUS's contents (R143, R178). -/
def statusBytes (s : State) : List Byte :=
  halfBytes s.badCells ++ halfBytes s.unknownChannels ++ halfBytes s.discardedCommands ++ halfBytes s.noticeLost ++
    halfBytes (s.epochCount.extractLsb' 0 16) ++ wordBytes (fillWord s) ++ halfBytes (stateWord s)

/-- The mode settings as SET MODE reports them (R144, R178). -/
def modeBytes (m : Mode) : List Byte := [m.unknownPolicy.code, boolByte m.linkErrorEnable, (0 : BitVec 4) ++ m.starvationLimit]

end Sys2Proof.Machine
end

