-- ==== Sys2Proof/Machine/Directory.lean ====
section
/-! DEFINITION. The Channel Directory: its order, its lookups and its edits (R1, R7, R8, R10 to R13). -/

namespace Sys2Proof.Machine

/-- Lookup by input channel id (R7). -/
def findChannel (d : List Entry) (channel : ChannelId) : Option Entry := d.find? fun e => decide (e.input = channel)

/-- Lookup by slot (R8). -/
def findSlot (d : List Entry) (i : SlotId) : Option Entry := d.find? fun e => decide (e.slot = i)

/-- The position of a channel's entry, or the position a new entry takes: the number of entries with a smaller input
channel id (R1, R10). -/
def positionOf (d : List Entry) (channel : ChannelId) : Nat := d.countP fun e => decide (e.input.toNat < channel.toNat)

/-- An entry inserted before every entry with a larger input channel id (R10). -/
def insertEntry (e : Entry) : List Entry → List Entry
  | [] => [e]
  | x :: rest => if x.input.toNat < e.input.toNat then x :: insertEntry e rest else e :: x :: rest

/-- The entry of a channel changed in place (R11, R12). -/
def updateEntry (channel : ChannelId) (f : Entry → Entry) (d : List Entry) : List Entry :=
  d.map fun e => if e.input = channel then f e else e

/-- The entry of a channel taken out (R13). -/
def removeEntry (channel : ChannelId) (d : List Entry) : List Entry := d.filter fun e => decide (e.input ≠ channel)

/-- Ascending input channel ids, none shared (R1). -/
def ascending : List Entry → Bool
  | [] => true
  | [_] => true
  | x :: y :: rest => decide (x.input.toNat < y.input.toNat) && ascending (y :: rest)

/-- A directory as R1 has it: at most 512 entries in ascending order of input channel id. -/
def directoryWf (d : List Entry) : Bool := decide (d.length ≤ Config.directoryCapacity) && ascending d

/-- The terms a slot takes from the entry that owns it (R80). -/
def Entry.terms (e : Entry) : Terms := ⟨e.output, e.window, e.divertPermitted⟩

end Sys2Proof.Machine
end

