-- ==== Sys2Proof/Machine/Segments.lean ====
section
/-! DEFINITION. Segment tables: header and entry words (R19, R20, R180), the lookup of a reading (R22 to R30), and the checks that
verify makes of the tables and of a whole bank (R31, R122). -/

namespace Sys2Proof.Machine

/-! ### Pool words (R180) -/

/-- The miss actions (R29). -/
inductive MissAction where
  | passRaw | holdLast | drop | zero
  deriving DecidableEq, Repr

/-- A header word (R19). -/
structure Header where
  low : Int
  high : Int
  shift : Nat
  miss : MissAction
  symmetric : Bool
  deriving DecidableEq, Repr

/-- The kinds of an entry word (R20). -/
inductive WordKind where
  | empty | segment | link | constant
  deriving DecidableEq, Repr

/-- An entry word (R20). -/
structure EntryWord where
  kind : WordKind
  mark : BitVec 2
  target : Nat
  tag : Half
  deriving DecidableEq, Repr

/-- A miss action code (R180). -/
def missOfCode (c : BitVec 2) : MissAction := if c = 0 then .passRaw else if c = 1 then .holdLast else if c = 2 then .drop else .zero

/-- An entry kind code (R180). -/
def wordKindOfCode (c : BitVec 2) : WordKind := if c = 0 then .empty else if c = 1 then .segment else if c = 2 then .link else .constant

/-- A word read as a header (R180). -/
def headerOfWord (w : Word) : Header :=
  ⟨(w.extractLsb' 20 12).toInt, (w.extractLsb' 8 12).toInt, (w.extractLsb' 3 5).toNat, missOfCode (w.extractLsb' 1 2), w.getLsbD 0⟩

/-- A word read as an entry word (R180). -/
def entryOfWord (w : Word) : EntryWord :=
  ⟨wordKindOfCode (w.extractLsb' 30 2), w.extractLsb' 28 2, (w.extractLsb' 16 12).toNat, w.extractLsb' 0 16⟩

/-! ### Lookup (R22 to R30) -/

/-- What a lookup hands the Engine (R30); no y is the outcome DROP. -/
structure LookupResult where
  y : Option Word
  faults : FaultSet
  held : Bool
  zeroed : Bool
  tag : Half
  mark : BitVec 2
  deriving DecidableEq, Repr

/-- The bucket index of a raw value at a table: floor of r, or of its magnitude, by 2^shift (R23). -/
def bucketIndex (h : Header) (r : Int) : Int := (if h.symmetric then (r.natAbs : Int) else r) / (2 ^ h.shift : Nat)

/-- The result of a miss in a table (R28, R29). -/
def missResult (h : Header) (r : Int) (lastGood : Option Word) : LookupResult :=
  match h.miss with
  | .passRaw => ⟨some (ofInteger r), FaultSet.ofRng, false, false, 0, 0⟩
  | .holdLast =>
    match lastGood with
    | some v => ⟨some v, FaultSet.ofRng, true, false, 0, 0⟩
    | none => ⟨some trueZero, FaultSet.ofRng, false, true, 0, 0⟩
  | .drop => ⟨none, FaultSet.ofRng, false, false, 0, 0⟩
  | .zero => ⟨some trueZero, FaultSet.ofRng, false, true, 0, 0⟩

/-- y negated where the table is symmetric and r is negative (R24, R25). -/
def foldSign (h : Header) (r : Int) (y : Word) : Word := if h.symmetric && decide (r < 0) then negate y else y

/-- The straight line of a SEGMENT: the multiply completed and truncated, then the add (R24). -/
def segmentResult (pool : Memory) (h : Header) (e : EntryWord) (r : Int) : LookupResult :=
  let gain := normalizeOnEntry (Memory.read pool e.target)
  let offset := normalizeOnEntry (Memory.read pool (e.target + 1))
  let x := ofInteger (if h.symmetric then (r.natAbs : Int) else r)
  let product := multiplyFloat x gain.value
  let y := addFloat product.value offset.value
  ⟨some (foldSign h r y.value), ((gain.faults.union offset.faults).union product.faults).union y.faults, false, false, e.tag, e.mark⟩

/-- The value of a CONSTANT (R25). -/
def constantResult (pool : Memory) (h : Header) (e : EntryWord) (r : Int) : LookupResult :=
  let c := normalizeOnEntry (Memory.read pool e.target)
  ⟨some (foldSign h r c.value), c.faults, false, false, e.tag, e.mark⟩

/-- The address of a bucket's entry word: h+1+(b−L) (R19). -/
def entryAddress (address : Nat) (h : Header) (b : Int) : Nat := address + 1 + (b - h.low).toNat

/-- The lookup from a table on, with `tables` more tables allowed (R22 to R27). An address above 4095 and a fifth table
cannot arise in an active bank (R27) and stop the machine. -/
def segmentLookup (pool : Memory) (r : Int) (lastGood : Option Word) : Nat → Nat → Except Fault LookupResult
  | 0, _ => .error .linkChainTooLong
  | tables + 1, address =>
    let h := headerOfWord (Memory.read pool address)
    let b := bucketIndex h r
    if b < h.low ∨ h.high < b then .ok (missResult h r lastGood)
    else if Config.lastPoolAddress < entryAddress address h b then .error .poolAddressOutside
    else
      let e := entryOfWord (Memory.read pool (entryAddress address h b))
      match e.kind with
      | .empty => .ok (missResult h r lastGood)
      | .segment =>
        if Config.lastPoolAddress < e.target + 1 then .error .poolAddressOutside else .ok (segmentResult pool h e r)
      | .link => segmentLookup pool r lastGood tables e.target
      | .constant => .ok (constantResult pool h e r)

/-! ### Verify (R31, R122) -/

/-- What a verify failure reports (R122). -/
structure VerifyFailure where
  reason : VerifyReason
  channel : ChannelId
  address : Half
  deriving DecidableEq, Repr

/-- One bucket's check; `onLink` is the check of a LINK from the address of its entry word to its target (R31). -/
def verifyBucket (pool : Memory) (onLink : Nat → Nat → Option (VerifyReason × Nat)) (a : Nat) : Option (VerifyReason × Nat) :=
  let e := entryOfWord (Memory.read pool a)
  match e.kind with
  | .empty => none
  | .segment => if Config.lastPoolAddress < e.target + 1 then some (.poolBounds, a) else none
  | .constant => none
  | .link => onLink a e.target

/-- One table's checks in their order: POOL_BOUNDS, LIMITS, SHIFT, then the buckets from L to H (R31). -/
def verifyHeader (pool : Memory) (onLink : Nat → Nat → Option (VerifyReason × Nat)) (address : Nat) : Option (VerifyReason × Nat) :=
  let h := headerOfWord (Memory.read pool address)
  if h.low ≤ h.high ∧ (Config.lastPoolAddress : Int) < address + (h.high - h.low + 1) then some (.poolBounds, address)
  else if h.high < h.low then some (.limits, address)
  else if 23 < h.shift then some (.shift, address)
  else (List.range (h.high - h.low + 1).toNat).findSome? fun i => verifyBucket pool onLink (address + 1 + i)

/-- The depth-first walk from a table, with `deeper` more levels allowed below it; at the last level a LINK is
LINK_DEPTH (R31). -/
def verifyTable (pool : Memory) : Nat → Nat → Option (VerifyReason × Nat)
  | 0, address => verifyHeader pool (fun a _ => some (.linkDepth, a)) address
  | deeper + 1, address => verifyHeader pool (fun _ target => verifyTable pool deeper target) address

/-- An entry's conversion is RATIO. -/
def Conversion.isRatio : Conversion → Bool
  | .ratio _ _ => true
  | .none | .linear _ _ | .segmented _ => false

/-- Checks 3 to 6 of an entry, by its conversion kind (R122). -/
def verifyConversion (b : Bank) (e : Entry) : Option (VerifyReason × Nat) :=
  match e.conversion with
  | .none => none
  | .linear _ _ => none
  | .ratio reference _ =>
    match findChannel b.directory reference with
    | none => some (.refMissing, 0)
    | some target => if target.conversion.isRatio then some (.refRatio, 0) else none
  | .segmented table =>
    if e.inputForm = .float then some (.form, 0) else verifyTable b.pool (Config.tablesPerChain - 1) table.toNat

/-- The checks of an entry against those before it in the walk (R122). -/
def verifyEntry (b : Bank) (earlier : List Entry) (e : Entry) : Option (VerifyReason × Nat) :=
  if earlier.any fun x => decide (x.slot = e.slot) then some (.slotShared, 0)
  else if earlier.any fun x => decide (x.output = e.output) then some (.outShared, 0)
  else verifyConversion b e

/-- The walk from an entry on, given the entries before it (R122). -/
def verifyWalk (b : Bank) (earlier : List Entry) : List Entry → Option VerifyFailure
  | [] => none
  | e :: rest =>
    match verifyEntry b earlier e with
    | some (reason, address) => some ⟨reason, e.input, BitVec.ofNat 16 address⟩
    | none => verifyWalk b (earlier ++ [e]) rest

/-- The verify of a whole bank: its first failure in walk order, or none when it passes (R122, R124). -/
def verifyBank (b : Bank) : Option VerifyFailure := verifyWalk b [] b.directory

end Sys2Proof.Machine
end

