-- ==== Sys2Proof/Machine/Slots.lean ====
section
/-! DEFINITION. Windows and slots: opening, accumulating and closing a window (R95 to R105), slot reset (R83), reconciliation of one
slot (R90, R91), and the on-demand reconciliation and due closing that every claimant shares (R93, R107). An operation
that needs a Summary Queue place answers `none` while the queue is full: the party waits with none of its changes made. -/

namespace Sys2Proof.Machine

/-! ### Windows (R95 to R102) -/

/-- A window opened fresh (R96). -/
def Window.fresh (epoch : Word) (d : WindowDef) : Window := ⟨d, epoch, 0, 0, WideFloat.zero, none, FaultSet.none⟩

/-- A window is due when it is an EPOCH window and the epoch count minus its opened-at is at least its span (R107). -/
def Window.due (w : Window) (epoch : Word) : Bool :=
  match w.definition with
  | .count _ => false
  | .epoch span => decide (span ≤ (epoch - w.openedAt).toNat)

/-- The span a summary reports: the epochs covered, saturating at 255; 0 for a COUNT window (R101). -/
def Window.span (w : Window) (epoch : Word) : Byte :=
  match w.definition with
  | .count _ => 0
  | .epoch _ => BitVec.ofNat 8 (min 255 (epoch - w.openedAt).toNat)

/-- The extremes with one more value (R97). -/
def Extremes.add (y : Word) : Option Extremes → Extremes
  | none => ⟨y, y⟩
  | some x => ⟨if isBelow y x.minimum then y else x.minimum, if isBelow x.maximum y then y else x.maximum⟩

/-- An EPOCH window that already holds 4096 counted readings counts no more (R99). -/
def Window.atCapacity (w : Window) : Bool :=
  match w.definition with
  | .count _ => false
  | .epoch _ => decide (Config.epochWindowCapacity ≤ w.counted)

/-- A reading counted into a window; `missed` is the number of readings its gap shows missing (R97, R98, R99). -/
def Window.count (w : Window) (y : Word) (missed : Nat) : Window :=
  if w.atCapacity then { w with missed := satAdd w.missed (missed + 1) }
  else
    let sum := wideAdd w.sum y
    { w with
      sum := sum.value
      extremes := some (Extremes.add y w.extremes)
      counted := w.counted + 1
      missed := satAdd w.missed missed
      faults := w.faults.union sum.faults }

/-- Counting one more reading brings a COUNT window to its length (R73). -/
def Window.completes (w : Window) : Bool :=
  match w.definition with
  | .count length => decide (length ≤ w.counted + 1)
  | .epoch _ => false

/-- The SUMMARY cell of a closing (R101, R102). -/
def Window.summary (w : Window) (cause : ClosingCause) (epoch : Word) (output : ChannelId) (sequence : Byte) : Summary :=
  let mean := windowMean w.sum w.counted
  { output
    windowSequence := sequence
    cause
    faults := w.faults.union mean.faults
    mean := mean.value
    minimum := (w.extremes.map Extremes.minimum).getD trueZero
    maximum := (w.extremes.map Extremes.maximum).getD trueZero
    counted := w.counted
    missed := w.missed
    span := w.span epoch }

/-! ### Closing under an owner (R100) -/

/-- A runtime after a step that may close a window, with the summary the closing forms, if any. -/
structure Closed (α : Type) where
  value : α
  summary : Option Summary
  deriving DecidableEq, Repr

/-- The closing of a runtime's window, if it has one: a summary and the next window sequence when counted is one or more, and the
window removed; the rule that orders the closing replaces it (R100). -/
def Runtime.close (r : Runtime) (cause : ClosingCause) (epoch : Word) : Closed Runtime :=
  match r.window with
  | none => ⟨r, none⟩
  | some w =>
    if w.counted = 0 then ⟨{ r with window := none }, none⟩
    else
      ⟨{ r with window := none, windowSequence := r.windowSequence + 1 },
        some (w.summary cause epoch r.terms.output r.windowSequence)⟩

/-- A fresh window opened per the terms, or none when they hold no definition (R96). -/
def Runtime.reopen (r : Runtime) (epoch : Word) : Runtime := { r with window := r.terms.window.map (Window.fresh epoch) }

/-- A closing with cause COUNT, EPOCH or FLUSH: the fresh window opens in the same change (R96, R100). -/
def Runtime.closeAndReopen (r : Runtime) (cause : ClosingCause) (epoch : Word) : Closed Runtime :=
  let c := r.close cause epoch
  ⟨c.value.reopen epoch, c.summary⟩

/-! ### Slot reset and reconciliation (R83, R90, R91) -/

/-- The runtime of a slot reset under an entry (R83). -/
def Runtime.reset (e : Entry) (epoch : Word) : Runtime where
  owner := e.input
  live := false
  lastSequence := 0
  lastGood := none
  sticky := FaultSet.none
  armed := e.divertPermitted
  dropCount := 0
  windowSequence := 0
  window := e.window.map (Window.fresh epoch)
  terms := e.terms

/-- A slot reset under the entry of the active bank that names the slot, or as UNOWNED (R83). -/
def Slot.reset (e : Option Entry) (epoch : Word) : Slot := ⟨e.map (Runtime.reset · epoch), false⟩

/-- A continuing owner: the terms compared and taken, the window truncated where its definition differs (R91). -/
def Runtime.continueUnder (r : Runtime) (e : Entry) (epoch : Word) : Closed Runtime :=
  let armed := if r.terms.divertPermitted = e.divertPermitted then r.armed else e.divertPermitted
  if r.terms.window = e.window then ⟨{ r with armed, terms := e.terms }, none⟩
  else
    let c := r.close .truncated epoch
    ⟨{ c.value with armed, terms := e.terms }.reopen epoch, c.summary⟩

/-- The reconciliation of one slot with the entry of the active bank that names it, if any (R90). -/
def Slot.reconcile (x : Slot) (e : Option Entry) (epoch : Word) : Closed Slot :=
  match x.runtime, e with
  | none, _ => ⟨Slot.reset e epoch, none⟩
  | some r, some e' =>
    if r.owner = e'.input then
      let c := r.continueUnder e' epoch
      ⟨⟨some c.value, false⟩, c.summary⟩
    else ⟨Slot.reset (some e') epoch, (r.close .truncated epoch).summary⟩
  | some r, none => ⟨Slot.reset none epoch, (r.close .truncated epoch).summary⟩

namespace State

/-- The directory entry of the active bank that names a slot (R8). -/
def ownerEntry (s : State) (i : SlotId) : Option Entry := findSlot s.tables.activeBank.directory i

/-- A slot's new value takes effect together with the summary of its closing: `none` while the closing needs a Summary
Queue place and the queue is full (R105). -/
def takeClosing (s : State) (i : SlotId) (c : Closed Slot) : Option State :=
  match c.summary with
  | none => some (s.putSlot i c.value)
  | some summary => if s.summaryFree then some ((s.putSlot i c.value).pushSummary summary) else none

/-- The reconciliation of a slot where it is pending; a slot that is not pending is left alone (R90, R93). -/
def reconcileSlot (s : State) (i : SlotId) : Option State :=
  if (s.slot i).pending then s.takeClosing i ((s.slot i).reconcile (s.ownerEntry i) s.epochCount) else some s

/-- The closing, with a cause, of the window of a slot that has one, the fresh window opened in the same change (R100, R105). -/
def closeSlotWindow (s : State) (i : SlotId) (r : Runtime) (cause : ClosingCause) : Option State :=
  let c := r.closeAndReopen cause s.epochCount
  s.takeClosing i ⟨{ s.slot i with runtime := some c.value }, c.summary⟩

/-- The closing of a slot's EPOCH window where it is due: the epoch catch-up and the sweep share it (R59, R107, R109). -/
def closeDue (s : State) (i : SlotId) : Option State :=
  match (s.slot i).runtime with
  | none => some s
  | some r =>
    match r.window with
    | none => some s
    | some w => if w.due s.epochCount then s.closeSlotWindow i r .epoch else some s

end State

end Sys2Proof.Machine
end

