-- ==== Sys2Proof/Machine/Link.lean ====
section
/-! DEFINITION. The ingress port: strobes, bytes, completion and bad cells (R168 to R171). -/

namespace Sys2Proof.Machine

/-- A start strobe is OVERRUN when the ingress ready line is low and the Ingress Buffer holds 32 cells (R170). -/
def overrunAtStrobe (s : State) : Bool := !s.ingressReady && decide (Config.ingressCapacity ≤ s.ingressBuffer.length)

/-- A new cell begins with its byte 0 (R168). -/
def beginCell (s : State) (byte : Byte) : State := { s with receiver := .receiving [byte] (overrunAtStrobe s) }

/-- A completed cell is judged for OVERRUN and then for CRC and, if good, joins the Ingress Buffer (R169, R170, R171). -/
def judgeCell (s : State) (bytes : List Byte) (overrun : Bool) : State :=
  let idle : State := { s with receiver := .idle }
  let cell : Cell := Table.ofList 24 0 bytes
  if overrun then idle.badCell .overrun
  else if checkGood cell then { idle with ingressBuffer := idle.ingressBuffer ++ [cell] }
  else idle.badCell .crc

/-- A byte without the strobe while a cell is in reception: the next byte, and the 24th completes the cell (R168). -/
def receiveByte (s : State) (bytes : List Byte) (overrun : Bool) (byte : Byte) : State :=
  if bytes.length = 23 then judgeCell s (bytes ++ [byte]) overrun
  else { s with receiver := .receiving (bytes ++ [byte]) overrun }

/-- CELL_START_STROBE: a cell in reception becomes a RUNT, and the byte begins a new cell (R168, R170). -/
def execCellStartStrobe (byte : Byte) (s : State) : Host.Outcome State Fault Refusal :=
  if s.receiverHeeds then
    match s.receiver with
    | .idle => .next (beginCell s byte)
    | .receiving _ _ => .next (beginCell (s.badCell .runt) byte)
  else .next s

/-- BYTE_WITHOUT_THE_STROBE: counted in RECEIVING, ignored in IDLE (R168). -/
def execByteWithoutTheStrobe (byte : Byte) (s : State) : Host.Outcome State Fault Refusal :=
  if s.receiverHeeds then
    match s.receiver with
    | .idle => .next s
    | .receiving bytes overrun => .next (receiveByte s bytes overrun byte)
  else .next s

/-- CELL_COMPLETE: the 24th byte arrives; it arrives only while 23 bytes are in reception (R168, R171). -/
def execCellComplete (byte : Byte) (s : State) : Host.Outcome State Fault Refusal :=
  if s.receiverHeeds then
    match s.receiver with
    | .idle => .next s
    | .receiving bytes overrun => if bytes.length = 23 then .next (judgeCell s (bytes ++ [byte]) overrun) else .next s
  else .next s

end Sys2Proof.Machine
end

