-- ==== Sys2Proof/Machine/Resets.lean ====
section
/-! DEFINITION. The two resets: the pin (R131, R152) and the soft reset's effect and completion (R85, R132, R151, R166). -/

namespace Sys2Proof.Machine

/-- POWER_ON_RESET: every block takes its power-on values. The outside's level on the downstream ready line and the
model's own fields stay (notes/assumptions/3.md, notes/assumptions/13.md). -/
def execPowerOnReset (s : State) : Host.Outcome State Fault Refusal :=
  .next { State.reset with downstreamReady := s.downstreamReady, freeCount := s.freeCount, pending := s.pending }

/-- POWER_ON_RESET_RELEASE: the straps are sampled and a RESET DONE notice with cause POWER is handed over (R134, R152, R167).
A pin that is not asserted has nothing to release. -/
def execPowerOnResetRelease (straps : BitVec 4) (s : State) : Host.Outcome State Fault Refusal :=
  if s.resetAsserted then
    let released : State := { s with resetAsserted := false, strap := straps }
    .next (released.handNotice (.resetDone .power s.tables.generation))
  else .next s

/-- What a soft reset makes of the shadow state: a mirror restarts with its cause, anything else is EDITABLE (R132). -/
def ShadowState.softReset : ShadowState → ShadowState
  | .mirroring cause => .mirroring cause
  | .editable | .walking | .swapPending => .editable

/-- Every slot reset under the active directory at epoch count 0 (R85). -/
def resetSlots (s : State) : Table Slot 512 := Table.tabulate 512 fun i => Slot.reset (s.ownerEntry i) 0

/-- The soft reset takes effect: each block takes its soft-reset values and the Command Unit enters RESETTING (R151, R166). -/
def softReset (s : State) : State :=
  { s with
    receiver := .idle
    ingressBuffer := []
    badCells := 0
    unknownChannels := 0
    discardedCommands := 0
    engine := .idle
    tables := { s.tables with shadowState := s.tables.shadowState.softReset }
    slots := resetSlots s
    reconciliation := ⟨false, firstSlot, false⟩
    epochCount := 0
    sweep := ⟨false, firstSlot, false, false⟩
    commandQueue := []
    commandUnit := .resetting
    forwardQueue := []
    responseQueue := []
    noticeQueue := []
    summaryQueue := []
    noticeSequence := 0
    noticeLost := 0
    starvationCount := 0
    port := none
    responseSent := false
    copySent := false }

/-- The soft reset is due: the Command Unit is in RESET REQUESTED and the departure records meet its condition (R165). -/
def softResetDue (s : State) : Bool :=
  match s.commandUnit with
  | .resetRequested broadcast => s.responseSent && (!broadcast || s.copySent)
  | .idle | .executing _ | .waiting _ | .resetting => false

/-- SOFT_RESET_COMPLETE: RESET DONE with cause SOFT is handed over and the Command Unit returns to IDLE (R151). -/
def execSoftResetComplete (s : State) : Host.Outcome State Fault Refusal :=
  if s.commandUnit = .resetting then
    .next ({ s with commandUnit := .idle }.handNotice (.resetDone .soft s.tables.generation))
  else .next s

end Sys2Proof.Machine
end

