-- ==== Sys2Proof/Machine/Conversion.lean ====
section
/-! DEFINITION. The Conversion Engine: taking a reading, preparing its slots, converting it and ending it (R55 to R78). -/

namespace Sys2Proof.Machine

/-! ### The sequence check (R62) -/

/-- A reading's sequence mark, the readings its gap shows missing, and the slot's runtime after the check. -/
structure Sequenced where
  mark : SequenceMark
  missed : Nat
  runtime : Runtime
  deriving DecidableEq, Repr

/-- The sequence check (R62). -/
def sequenceCheck (r : Runtime) (sequence : Half) : Sequenced :=
  if r.live then
    let d := (sequence - r.lastSequence).toNat
    if d = 0 then ⟨.repeated, 0, r⟩
    else if d = 1 then ⟨.inOrder, 0, { r with lastSequence := sequence }⟩
    else if d ≤ 32767 then ⟨.gap, d - 1, { r with lastSequence := sequence }⟩
    else ⟨.late, 0, r⟩
  else ⟨.inOrder, 0, { r with live := true, lastSequence := sequence }⟩

/-! ### Conversion (R63 to R68) -/

/-- What a conversion forms: y (none for DROP), its marks, HELD and ZEROED, tag and segment quality mark (R63, R68). -/
abbrev Converted := LookupResult

/-- A value formed by arithmetic alone: no tag, no mark, not held (R65, R68). -/
def plainResult (y : Word) (faults : FaultSet) : Converted := ⟨some y, faults, false, false, 0, 0⟩

/-- The conversion of x under LINEAR (R64). -/
def linearResult (x : Formed Word) (gain offset : Word) : Converted :=
  let product := multiplyFloat x.value gain
  let sum := addFloat product.value offset
  plainResult sum.value ((x.faults.union product.faults).union sum.faults)

/-- The conversion of x under RATIO, given the reference slot's last good value (R66). -/
def ratioResult (x : Formed Word) (gain : Word) : Option Word → Converted
  | none => plainResult trueZero (x.faults.union FaultSet.ofNoref)
  | some reference =>
    let quotient := divideFloat x.value reference
    let product := multiplyFloat quotient.value gain
    plainResult product.value ((x.faults.union quotient.faults).union product.faults)

/-- The conversion by the entry's kind: `lastGood` is the own slot's for HOLD_LAST, `reference` the reference slot's (R63 to R66). -/
def convertRaw (pool : Memory) (e : Entry) (raw : Word) (lastGood reference : Option Word) : Except Fault Converted :=
  let x := inputValue raw e.inputForm
  match e.conversion with
  | .none => .ok (plainResult x.value x.faults)
  | .linear gain offset => .ok (linearResult x gain offset)
  | .ratio _ gain => .ok (ratioResult x gain reference)
  | .segmented table =>
    match rawInteger raw e.inputForm with
    | none => .error .segmentedFloatInput
    | some r => segmentLookup pool r lastGood Config.tablesPerChain table.toNat

/-- ZEROED: set by the miss, or where y is true zero and NOREF, DVZ or an UNF of the conversion produced it (R68). -/
def zeroedMark (c : Converted) : Bool :=
  c.zeroed || (decide (c.y = some trueZero) && (c.faults.unf || c.faults.dvz || c.faults.noref))

/-- The output value of y: the reading float, or the integer sign-extended to 32 bits with MOF where the fix saturates
(R67, R175). -/
def outputValue (form : OutputForm) (y : Word) : Formed Word :=
  match form with
  | .float => ⟨y, FaultSet.none⟩
  | .integer k =>
    let i := fixToInteger y k
    ⟨BitVec.ofInt 32 i.value, i.faults⟩

/-! ### The reading decided (R69 to R76) -/

/-- A reading after the sequence check, conversion and output forming: everything its end depends on. -/
structure Decided where
  mark : SequenceMark
  missed : Nat
  y : Option Word
  output : Word
  quality : Quality
  tag : Half
  deriving DecidableEq, Repr

/-- Output forming, fault collection and the quality field (R67, R69, R76). -/
def decideReading (form : OutputForm) (q : Sequenced) (c : Converted) : Decided :=
  let output : Formed Word :=
    match c.y with
    | none => ⟨0, FaultSet.none⟩
    | some y => outputValue form y
  { mark := q.mark
    missed := q.missed
    y := c.y
    output := output.value
    quality := ⟨c.faults.union output.faults, q.mark, c.mark, c.held, zeroedMark c⟩
    tag := c.tag }

/-- The CONVERTED cell of a reading (R75). -/
def convertedCell (h : HeldReading) (unit : UnitAddress) (d : Decided) : ConvertedCell where
  output := h.entry.output
  sequence := readingSequence h.cell
  generation := h.generation
  value := d.output
  rawEcho := readingRaw h.cell
  quality := d.quality
  segmentTag := d.tag
  slot := h.entry.slot
  upstreamQuality := readingUpstream h.cell
  unit

/-- The DIVERTED notice of a reading (R71). -/
def divertedNotice (h : HeldReading) (d : Decided) : NoticeBody :=
  .diverted (readingChannel h.cell) (readingSequence h.cell) (readingRaw h.cell) h.entry.slot h.generation d.quality d.tag

/-- The reading's marks enter the sticky faults and the open window's faults (R69). -/
def Runtime.collect (r : Runtime) (faults : FaultSet) : Runtime :=
  { r with
    sticky := r.sticky.union faults
    window := r.window.map fun w => { w with faults := w.faults.union faults } }

/-- A qualifying reading is IN_ORDER or GAP and clean or carrying MOF alone; divert and drop are decided before (R69). -/
def Decided.qualifies (d : Decided) : Bool :=
  (decide (d.mark = .inOrder) || decide (d.mark = .gap)) && d.quality.faults.atMostMof

namespace State

/-- The reading ends: the Engine is IDLE (R55). -/
def endReading (s : State) : State := { s with engine := .idle }

/-- The CONVERTED cell joins the Forward Queue where the entry emits readings; otherwise the reading is absorbed (R75). -/
def emitConverted (s : State) (emit : Bool) (c : ConvertedCell) : State :=
  if emit then s.pushForward ⟨.converted c, false⟩ else s

/-- A diverted reading: the slot is disarmed, the notice handed over, and the substitute of a lost notice emitted (R70, R71). -/
def divertReading (s : State) (h : HeldReading) (r : Runtime) (d : Decided) : State :=
  let disarmed := s.putRuntime h.entry.slot { r with armed := false }
  let handed := disarmed.handNotice (divertedNotice h d)
  if disarmed.noticeFree then handed
  else
    match d.y with
    | none => handed
    | some _ => handed.emitConverted h.entry.emit (convertedCell h s.strap d)

/-- A reading that is neither diverted nor dropped and is not counted ends with its CONVERTED cell (R75). -/
def passReading (s : State) (h : HeldReading) (r : Runtime) (d : Decided) : State :=
  (s.putRuntime h.entry.slot r).emitConverted h.entry.emit (convertedCell h s.strap d)

/-- The counting of a qualifying reading, its count closure, and its last good value (R73, R74): `none` while the closure needs a
Summary Queue place and the queue is full. -/
def countReading (s : State) (i : SlotId) (r : Runtime) (y : Word) (missed : Nat) : Option State :=
  let good : Runtime := { r with lastGood := some y }
  match r.window with
  | none => some (s.putRuntime i good)
  | some w =>
    let counted : Runtime := { good with window := some (w.count y missed) }
    if w.completes then s.closeSlotWindow i counted .count else some (s.putRuntime i counted)

end State

/-! ### The steps of a reading (R58 to R62, R73) -/

/-- The count step of a qualifying reading; the Engine waits at it for a Summary Queue place (R60, R73 to R75). -/
def countStep (h : HeldReading) (c : CountStep) (s : State) : Host.Outcome State Fault Refusal :=
  match (s.slot h.entry.slot).runtime with
  | none => .fault .slotUnowned
  | some r =>
    match s.countReading h.entry.slot r c.y c.missed with
    | none => .next { s with engine := .waiting { h with step := .count c } }
    | some t => .next (t.emitConverted h.entry.emit c.cell).endReading

/-- The end of a reading whose outcome is decided: divert, then drop, then the count step or the converted cell (R70 to R77). -/
def finishReading (h : HeldReading) (r : Runtime) (d : Decided) (s : State) : Host.Outcome State Fault Refusal :=
  if d.quality.faults.any && r.armed then .next (s.divertReading h r d).endReading
  else
    match d.y with
    | none => .next (s.putRuntime h.entry.slot { r with dropCount := satInc r.dropCount }).endReading
    | some y =>
      if d.qualifies then
        countStep { h with referenceClaim := none } ⟨y, d.missed, convertedCell h s.strap d⟩ (s.putRuntime h.entry.slot r)
      else .next (s.passReading h r d).endReading

/-- The last good value the divide of a RATIO entry reads: the reference slot's (R66). -/
def referenceValue (s : State) : Option SlotId → Option Word
  | none => none
  | some i =>
    match (s.slot i).runtime with
    | none => none
    | some r => r.lastGood

/-- The sequence check, the conversion and the fault collection, then the end of the reading (R62 to R77). -/
def convertStep (h : HeldReading) (s : State) : Host.Outcome State Fault Refusal :=
  match (s.slot h.entry.slot).runtime with
  | none => .fault .slotUnowned
  | some r =>
    let q := sequenceCheck r (readingSequence h.cell)
    match convertRaw s.tables.activeBank.pool h.entry (readingRaw h.cell) q.runtime.lastGood (referenceValue s h.referenceClaim) with
    | .error f => .fault f
    | .ok c =>
      let d := decideReading h.entry.outputForm q c
      finishReading h (q.runtime.collect d.quality.faults) d s

/-- The epoch catch-up of the own slot, then the conversion (R59, R111). -/
def catchUpStep (h : HeldReading) (s : State) : Host.Outcome State Fault Refusal :=
  match s.closeDue h.entry.slot with
  | none => .next { s with engine := .waiting h }
  | some t => convertStep h t

/-- The reference slot of a RATIO entry: its claim, then its reconciliation on demand (R58, R88). -/
def referenceStep (h : HeldReading) (s : State) : Host.Outcome State Fault Refusal :=
  match h.entry.conversion with
  | .none | .linear _ _ | .segmented _ => catchUpStep h s
  | .ratio reference _ =>
    match findChannel s.tables.activeBank.directory reference with
    | none => .fault .referenceMissing
    | some e =>
      if s.claimedByOther .engine e.slot then .next { s with engine := .waiting h }
      else
        let claimed : HeldReading := { h with referenceClaim := some e.slot }
        match s.reconcileSlot e.slot with
        | none => .next { s with engine := .waiting claimed }
        | some t => catchUpStep claimed t

/-- The own slot: its claim, then its reconciliation on demand (R58, R61, R88). -/
def prepareStep (h : HeldReading) (s : State) : Host.Outcome State Fault Refusal :=
  if s.claimedByOther .engine h.entry.slot then .next { s with engine := .waiting h }
  else
    let claimed : HeldReading := { h with ownClaim := true }
    match s.reconcileSlot h.entry.slot with
    | none => .next { s with engine := .waiting claimed }
    | some t => referenceStep claimed t

/-- A held reading carried on from its step. The steps of R58 and R59 that were made before a wait are found made. -/
def runReading (h : HeldReading) (s : State) : Host.Outcome State Fault Refusal :=
  match h.step with
  | .prepare => prepareStep h s
  | .count c => countStep h c s

/-- A reading of a channel that the latched directory does not hold (R57). -/
def unknownReading (cell : Cell) (s : State) : State :=
  let counted : State := { s with unknownChannels := satInc s.unknownChannels }
  match s.mode.unknownPolicy with
  | .forward => counted.pushForward ⟨.received cell, false⟩
  | .discard => counted

/-- The lookup of a taken reading in the directory of the bank whose generation it latches (R56, R57). -/
def beginReading (cell : Cell) (s : State) : Host.Outcome State Fault Refusal :=
  match findChannel s.tables.activeBank.directory (readingChannel cell) with
  | none => .next (unknownReading cell s)
  | some e =>
    let h : HeldReading := ⟨cell, s.tables.generation, e, false, none, .prepare⟩
    runReading h { s with engine := .converting h }

/-- The Engine may take a reading: IDLE, a free place in the Forward Queue, no swap pending (R56). -/
def mayTakeReading (s : State) : Bool :=
  decide (s.engine = .idle) && s.forwardFree && decide (s.tables.shadowState ≠ .swapPending)

/-- TAKE_READING: the Engine takes the oldest cell, a READING, and carries it as far as it goes; otherwise the cell stays (R56, R172). -/
def execTakeReading (s : State) : Host.Outcome State Fault Refusal :=
  match s.ingressBuffer with
  | [] => .next s
  | cell :: rest =>
    if cellKind cell = kindReading ∧ mayTakeReading s then beginReading cell { s with ingressBuffer := rest } else .next s

/-- ENGINE_RESUME: a WAITING Engine tries its waiting step and, where it can take it, goes on (R60, R88). -/
def execEngineResume (s : State) : Host.Outcome State Fault Refusal :=
  match s.engine with
  | .idle => .next s
  | .converting _ => .next s
  | .waiting h => runReading h { s with engine := .converting h }

end Sys2Proof.Machine
end

