-- ==== Sys2Proof/Machine/Classifier.lean ====
section
/-! DEFINITION. The Cell Classifier: EPOCH cells, COMMAND cells and cells that pass through (R106, R108, R135, R136, R154, R172). -/

namespace Sys2Proof.Machine

/-- How the Classifier routes a command cell by its unit address (R135). -/
inductive Route where
  | own | broadcast | foreign
  deriving DecidableEq, Repr

/-- The route of a unit address: 15 is broadcast, the strap address 0..14 is this unit, any other is foreign (R134, R135). -/
def routeOf (strap : UnitAddress) (address : Byte) : Route :=
  if address = 15 then .broadcast else if address = unitByte strap then .own else .foreign

/-- The Classifier may take a cell that goes to the Forward Queue: the Engine holds no reading and a place is free (R172). -/
def mayForward (s : State) : Bool := s.engineFree && s.forwardFree

/-- An EPOCH cell starts the Epoch Sweep at slot 0, or sets the rescan flag of a sweep in flight (R108). -/
def startSweep (w : Sweep) : Sweep := if w.inFlight then { w with rescan := true } else ⟨true, firstSlot, false, false⟩

/-- TAKE_EPOCH: the EPOCH cell is forwarded unchanged, the epoch count rises and the sweep starts or is asked to rescan
(R106, R108, R172). -/
def execTakeEpoch (s : State) : Host.Outcome State Fault Refusal :=
  match s.ingressBuffer with
  | [] => .next s
  | cell :: rest =>
    if cellKind cell = kindEpoch ∧ mayForward s then
      let taken : State := { s with ingressBuffer := rest, epochCount := s.epochCount + 1, sweep := startSweep s.sweep }
      .next (taken.pushForward ⟨.received cell, false⟩)
    else .next s

/-- The Command Queue admits a command (R136). -/
def commandAdmitted (s : State) : Bool := decide (s.commandQueue.length < Config.commandCapacity)

/-- A command offered to the Command Queue: added, or discarded, counted and reported (R136). -/
def offerCommand (s : State) (cell : Cell) : State :=
  if commandAdmitted s then { s with commandQueue := s.commandQueue ++ [cell] }
  else
    { s with discardedCommands := satInc s.discardedCommands }.handNotice
      (.commandDiscarded (commandAddress cell) (commandTag cell) (commandCode cell))

/-- The reset mark of a broadcast's forwarded copy: set when the command is a RESET PART and is admitted (R149, R154). -/
def resetMarkOf (s : State) (cell : Cell) : Bool := commandAdmitted s && decide (commandCode cell = CommandName.resetPart.code)

/-- TAKE_COMMAND: a command for this unit is offered to the Command Queue; a broadcast is forwarded as well (R135, R136, R172). -/
def execTakeCommand (s : State) : Host.Outcome State Fault Refusal :=
  match s.ingressBuffer with
  | [] => .next s
  | cell :: rest =>
    let taken : State := { s with ingressBuffer := rest }
    if cellKind cell = kindCommand then
      match routeOf s.strap (commandAddress cell) with
      | .own => if s.engineFree then .next (offerCommand taken cell) else .next s
      | .broadcast =>
        if mayForward s then .next (offerCommand (taken.pushForward ⟨.received cell, resetMarkOf s cell⟩) cell) else .next s
      | .foreign => .next s
    else .next s

/-- A cell that only passes through: a foreign command, or a kind that is neither READING, EPOCH nor COMMAND (R172). -/
def passesThrough (s : State) (cell : Cell) : Bool :=
  if cellKind cell = kindCommand then decide (routeOf s.strap (commandAddress cell) = .foreign)
  else decide (cellKind cell ≠ kindReading) && decide (cellKind cell ≠ kindEpoch)

/-- PASS_THROUGH_CELL: the cell joins the Forward Queue unchanged (R135, R172). -/
def execPassThroughCell (s : State) : Host.Outcome State Fault Refusal :=
  match s.ingressBuffer with
  | [] => .next s
  | cell :: rest =>
    if passesThrough s cell ∧ mayForward s then
      let taken : State := { s with ingressBuffer := rest }
      .next (taken.pushForward ⟨.received cell, false⟩)
    else .next s

end Sys2Proof.Machine
end

