-- ==== Sys2Proof/Machine/Commands.lean ====
section
/-! DEFINITION. The Command Unit: taking a command and answering it (R137, R138, R140), the commands on identification, status and
mode (R142 to R144), the commands on the banks (R9 to R14, R32, R33, R117 to R121) and RESET PART (R149). -/

namespace Sys2Proof.Machine

/-! ### Taking and answering (R137, R138) -/

/-- The Command Unit may take a command: IDLE, and the Response Queue has a free place (R137). -/
def mayTakeCommand (s : State) : Bool :=
  decide (s.commandUnit = .idle) && decide (s.responseQueue.length < Config.responseCapacity)

/-- The oldest command taken and executed, where it may be taken and its code is one the row stands for; otherwise nothing changes:
the command stays at the head of the queue (R137). -/
def withCommand (s : State) (isMine : Byte → Bool) (run : Cell → State → State) : Host.Outcome State Fault Refusal :=
  match s.commandQueue with
  | [] => .next s
  | cell :: rest =>
    if mayTakeCommand s ∧ isMine (commandCode cell) then
      .next (run cell { s with commandQueue := rest, commandUnit := .executing cell })
    else .next s

/-- The row's command is the one the code names (R140, R176). -/
def isCommand (n : CommandName) (code : Byte) : Bool := decide (commandOfCode code = some n)

/-- The response to a command, formed with the generation in force (R138); contents stand under DONE and ACCEPTED alone. -/
def responseTo (s : State) (cell : Cell) (status : Status) (contents : List Byte) : Response :=
  ⟨s.strap, commandTag cell, commandCode cell, status, s.tables.generation, payload contents⟩

/-- A response added to the Response Queue, with the Command Unit's next state (R137, R138). -/
def addResponse (s : State) (unit : CommandUnit) (r : Response) : State :=
  { s with responseQueue := s.responseQueue ++ [r], commandUnit := unit }

/-- A command answered; the Command Unit returns to IDLE (R137, R138). -/
def answer (s : State) (cell : Cell) (status : Status) (contents : List Byte) : State :=
  addResponse s .idle (responseTo s cell status contents)

/-- A command refused: every byte of its contents is zero (R138, R139). -/
def refuse (s : State) (cell : Cell) (status : Status) : State := answer s cell status []

/-! ### Identification, status and mode (R140, R142, R143, R144) -/

/-- IDENTIFY (R142). -/
def runIdentify (cell : Cell) (s : State) : State := answer s cell .done (identifyBytes s.strap)

/-- READ STATUS: every value as it stands when the response is formed (R143). -/
def runReadStatus (cell : Cell) (s : State) : State := answer s cell .done (statusBytes s)

/-- SET MODE: all three settings, or BAD_OPERAND and none (R144). -/
def runSetMode (cell : Cell) (s : State) : State :=
  match modeOperands cell with
  | none => refuse s cell .badOperand
  | some m => answer { s with mode := m } cell .done (modeBytes m)

/-- A command whose code names no command (R140). -/
def runBadCommand (cell : Cell) (s : State) : State := refuse s cell .badCommand

/-! ### Shadow writes (R9, R118, R125) -/

/-- A notice of cancellation, where the shadow state is VERIFYING (R125). -/
def cancelVerify (s : State) (cause : CancelCause) (cell : Cell) : State :=
  if s.tables.shadowState.isVerifying then
    s.handNotice (.commitCancelled cause (commandCode cell) (commandTag cell) s.tables.generation)
  else s

/-- The shadow state replaced. -/
def setShadowState (s : State) (x : ShadowState) : State := { s with tables := { s.tables with shadowState := x } }

/-- An applied shadow write: the shadow bank takes its new contents, a verify or pending swap is cancelled with cause EDIT, and
the state is EDITABLE (R118). -/
def applyWrite (s : State) (cell : Cell) (b : Bank) : State :=
  setShadowState (cancelVerify { s with tables := s.tables.putShadow b } .edit cell) .editable

/-- The directory of the shadow bank replaced by an applied write. -/
def applyDirectory (s : State) (cell : Cell) (d : List Entry) : State :=
  applyWrite s cell { s.tables.shadowBank with directory := d }

/-- A shadow write is BUSY while the shadow state is MIRRORING, before its operand test (R9, R32, R118). -/
def shadowWrite (s : State) (cell : Cell) (run : State → State) : State :=
  if s.tables.shadowState.isMirroring then refuse s cell .busy else run s

/-- The position and the count of entries that a response reports (R10, R13, R178). -/
def positionBytes (position count : Nat) : List Byte :=
  halfBytes (BitVec.ofNat 16 position) ++ halfBytes (BitVec.ofNat 16 count)

/-- ENTRY INSERT (R9, R10, R118). -/
def runEntryInsert (cell : Cell) (s : State) : State :=
  shadowWrite s cell fun s =>
    let d := s.tables.shadowBank.directory
    match insertOperands cell with
    | none => refuse s cell .badOperand
    | some e =>
      if (findChannel d e.input).isSome then refuse s cell .duplicate
      else if Config.directoryCapacity ≤ d.length then refuse s cell .full
      else answer (applyDirectory s cell (insertEntry e d)) cell .done (positionBytes (positionOf d e.input) (d.length + 1))

/-- ENTRY CONVERT (R9, R11, R118). -/
def runEntryConvert (cell : Cell) (s : State) : State :=
  shadowWrite s cell fun s =>
    let d := s.tables.shadowBank.directory
    match convertOperands cell with
    | none => refuse s cell .badOperand
    | some c =>
      if (findChannel d (commandKey cell)).isNone then refuse s cell .notFound
      else answer (applyDirectory s cell (updateEntry (commandKey cell) (fun e => { e with conversion := c }) d)) cell .done []

/-- ENTRY WINDOW (R9, R12, R118). -/
def runEntryWindow (cell : Cell) (s : State) : State :=
  shadowWrite s cell fun s =>
    let d := s.tables.shadowBank.directory
    match windowOperands cell with
    | none => refuse s cell .badOperand
    | some (window, permitted) =>
      if (findChannel d (commandKey cell)).isNone then refuse s cell .notFound
      else
        answer (applyDirectory s cell (updateEntry (commandKey cell) (fun e => { e with window, divertPermitted := permitted }) d))
          cell .done []

/-- ENTRY REMOVE (R9, R13, R118). -/
def runEntryRemove (cell : Cell) (s : State) : State :=
  shadowWrite s cell fun s =>
    let d := s.tables.shadowBank.directory
    if (findChannel d (commandKey cell)).isNone then refuse s cell .notFound
    else
      answer (applyDirectory s cell (removeEntry (commandKey cell) d)) cell .done
        (positionBytes (positionOf d (commandKey cell)) (d.length - 1))

/-- POOL WRITE (R32, R118). -/
def runPoolWrite (cell : Cell) (s : State) : State :=
  shadowWrite s cell fun s =>
    match poolWriteOperands cell with
    | none => refuse s cell .badOperand
    | some words =>
      let b := s.tables.shadowBank
      answer (applyWrite s cell { b with pool := Memory.writeList b.pool (commandKey cell).toNat words }) cell .done
        (halfBytes (commandKey cell) ++ [payloadByte cell 0])

/-! ### Reads of the banks (R14, R33, R119) -/

/-- A read of the shadow bank is BUSY while the shadow state is MIRRORING (R119). -/
def readBusy (s : State) : Selector → Bool
  | .active => false
  | .shadow => s.tables.shadowState.isMirroring

/-- The bank a selector names (R115). -/
def selectedBank (s : State) : Selector → Bank
  | .active => s.tables.activeBank
  | .shadow => s.tables.shadowBank

/-- ENTRY READ (R14, R119). -/
def runEntryRead (cell : Cell) (s : State) : State :=
  match entryReadOperands cell with
  | none => refuse s cell .badOperand
  | some (selector, part) =>
    if readBusy s selector then refuse s cell .busy
    else
      let d := (selectedBank s selector).directory
      match findChannel d (commandKey cell) with
      | none => refuse s cell .notFound
      | some e =>
        match part with
        | .a => answer s cell .done (entryPartA e (positionOf d e.input) d.length)
        | .b => answer s cell .done (entryPartB e.conversion)

/-- POOL READ (R33, R119). -/
def runPoolRead (cell : Cell) (s : State) : State :=
  match poolReadOperands cell with
  | none => refuse s cell .badOperand
  | some selector =>
    if readBusy s selector then refuse s cell .busy
    else
      let pool := (selectedBank s selector).pool
      let a := (commandKey cell).toNat
      answer s cell .done ([a, a + 1, a + 2, a + 3].flatMap fun i => wordBytes (Memory.read pool i))

/-! ### COMMIT, ABANDON and RESET PART (R120, R121, R149) -/

/-- COMMIT: the verify starts when EDITABLE, otherwise BUSY (R120). -/
def runCommit (cell : Cell) (s : State) : State :=
  if s.tables.shadowState = .editable then setShadowState (answer s cell .accepted []) .walking else refuse s cell .busy

/-- ABANDON: any verify or pending swap is cancelled and a mirror starts; BUSY while one is in flight (R121). -/
def runAbandon (cell : Cell) (s : State) : State :=
  if s.tables.shadowState.isMirroring then refuse s cell .busy
  else answer (setShadowState (cancelVerify s .abandon cell) (.mirroring .abandon)) cell .accepted []

/-- RESET PART: ACCEPTED, and the Command Unit waits in RESET REQUESTED, knowing whether the command was a broadcast (R149, R150). -/
def runResetPart (cell : Cell) (s : State) : State :=
  addResponse s (.resetRequested (decide (commandAddress cell = 15))) (responseTo s cell .accepted [])

/-! ### The rows -/

/-- IDENTIFY taken and executed (R137, R142). -/
def execIdentify (s : State) : Host.Outcome State Fault Refusal := withCommand s (isCommand .identify) runIdentify

/-- READ STATUS taken and executed (R137, R143). -/
def execReadStatus (s : State) : Host.Outcome State Fault Refusal := withCommand s (isCommand .readStatus) runReadStatus

/-- SET MODE taken and executed (R137, R144). -/
def execSetMode (s : State) : Host.Outcome State Fault Refusal := withCommand s (isCommand .setMode) runSetMode

/-- ENTRY INSERT taken and executed (R137, R10). -/
def execEntryInsert (s : State) : Host.Outcome State Fault Refusal := withCommand s (isCommand .entryInsert) runEntryInsert

/-- ENTRY CONVERT taken and executed (R137, R11). -/
def execEntryConvert (s : State) : Host.Outcome State Fault Refusal := withCommand s (isCommand .entryConvert) runEntryConvert

/-- ENTRY WINDOW taken and executed (R137, R12). -/
def execEntryWindow (s : State) : Host.Outcome State Fault Refusal := withCommand s (isCommand .entryWindow) runEntryWindow

/-- ENTRY REMOVE taken and executed (R137, R13). -/
def execEntryRemove (s : State) : Host.Outcome State Fault Refusal := withCommand s (isCommand .entryRemove) runEntryRemove

/-- ENTRY READ taken and executed (R137, R14). -/
def execEntryRead (s : State) : Host.Outcome State Fault Refusal := withCommand s (isCommand .entryRead) runEntryRead

/-- POOL WRITE taken and executed (R137, R32). -/
def execPoolWrite (s : State) : Host.Outcome State Fault Refusal := withCommand s (isCommand .poolWrite) runPoolWrite

/-- POOL READ taken and executed (R137, R33). -/
def execPoolRead (s : State) : Host.Outcome State Fault Refusal := withCommand s (isCommand .poolRead) runPoolRead

/-- COMMIT taken and executed (R137, R120). -/
def execCommit (s : State) : Host.Outcome State Fault Refusal := withCommand s (isCommand .commit) runCommit

/-- ABANDON taken and executed (R137, R121). -/
def execAbandon (s : State) : Host.Outcome State Fault Refusal := withCommand s (isCommand .abandon) runAbandon

/-- RESET PART taken and executed (R137, R149). -/
def execResetPart (s : State) : Host.Outcome State Fault Refusal := withCommand s (isCommand .resetPart) runResetPart

/-- An undefined command taken and answered (R137, R140). -/
def execBadCommand (s : State) : Host.Outcome State Fault Refusal :=
  withCommand s (fun code => (commandOfCode code).isNone) runBadCommand

end Sys2Proof.Machine
end

