-- ==== Sys2Proof/Machine/SlotCommands.lean ====
section
/-! DEFINITION. The slot commands SLOT READ, SLOT CLEAR, ARM DIVERT and FLUSH WINDOW, and the resumption of one that waits
(R86, R87, R103, R141, R145 to R148). -/

namespace Sys2Proof.Machine

/-- The Command Unit waits at a slot, with or without its claim (R141). -/
def waitAt (s : State) (cell : Cell) (i : SlotId) (claim : Bool) : State := { s with commandUnit := .waiting ⟨cell, i, claim⟩ }

/-- Steps 2 and 3 of a slot command: the claim and the reconciliation on demand, each with its wait, then the command's own outcome (R145). -/
def withSlot (s : State) (cell : Cell) (i : SlotId) (run : State → State) : State :=
  if s.claimedByOther .command i then waitAt s cell i false
  else
    match s.reconcileSlot i with
    | none => waitAt s cell i true
    | some t => run t

/-! ### The commands' own outcomes (step 4 of R145) -/

/-- SLOT READ: the slot as it stands (R146). A part A of an UNOWNED slot uses one free value (notes/assumptions/1.md). -/
def slotReadOutcome (cell : Cell) (i : SlotId) (part : Part) (s : State) : State :=
  match part with
  | .a =>
    if (s.slot i).runtime.isNone then
      { answer s cell .done (slotPartA (s.slot i) (Config.freeHalf s.freeCount)) with freeCount := s.freeCount + 1 }
    else answer s cell .done (slotPartA (s.slot i) 0)
  | .b => answer s cell .done (slotPartB (s.slot i))

/-- One slot's sticky faults and drop count cleared; an UNOWNED slot finds them clear (R86). -/
def clearSlot (s : State) (i : SlotId) : State :=
  match (s.slot i).runtime with
  | none => s
  | some r => s.putRuntime i { r with sticky := FaultSet.none, dropCount := 0 }

/-- SLOT CLEAR's response, added after the last slot (R147). -/
def clearAnswer (cell : Cell) (s : State) : State := answer s cell .done (halfBytes (commandKey cell))

/-- SLOT CLEAR of the last `n` slots, in ascending order, each under its own claim (R86, R147). -/
def clearFrom (cell : Cell) : Nat → State → State
  | 0, s => clearAnswer cell s
  | n + 1, s => withSlot s cell ⟨511 - n, by omega⟩ fun t => clearFrom cell n (clearSlot t ⟨511 - n, by omega⟩)

/-- ARM DIVERT (R87, R148). -/
def armDivertOutcome (cell : Cell) (i : SlotId) (s : State) : State :=
  match (s.slot i).runtime with
  | none => refuse s cell .notFound
  | some r =>
    if r.terms.divertPermitted then
      answer (s.putRuntime i { r with armed := true }) cell .done (halfBytes (slotHalf i) ++ halfBytes r.owner)
    else refuse s cell .badOperand

/-- FLUSH WINDOW: the closing waits for a Summary Queue place with the claim held (R103, R148). -/
def flushOutcome (cell : Cell) (i : SlotId) (s : State) : State :=
  match (s.slot i).runtime with
  | none => refuse s cell .notFound
  | some r =>
    match r.window with
    | none => refuse s cell .noWindow
    | some w =>
      match s.closeSlotWindow i r .flush with
      | none => waitAt s cell i true
      | some t =>
        answer t cell .done (halfBytes (slotHalf i) ++ halfBytes (BitVec.ofNat 16 w.counted) ++ [r.windowSequence])

/-! ### From the key on (R145) -/

/-- SLOT READ at a slot (R145, R146). -/
def slotReadAt (cell : Cell) (i : SlotId) (part : Part) (s : State) : State := withSlot s cell i (slotReadOutcome cell i part)

/-- SLOT CLEAR of one slot (R147). -/
def slotClearAt (cell : Cell) (i : SlotId) (s : State) : State := withSlot s cell i fun t => clearAnswer cell (clearSlot t i)

/-- ARM DIVERT at a slot (R148). -/
def armDivertAt (cell : Cell) (i : SlotId) (s : State) : State := withSlot s cell i (armDivertOutcome cell i)

/-- FLUSH WINDOW at a slot (R148). -/
def flushWindowAt (cell : Cell) (i : SlotId) (s : State) : State := withSlot s cell i (flushOutcome cell i)

/-- SLOT READ: key and part selector tested first (R145, R146). -/
def runSlotRead (cell : Cell) (s : State) : State :=
  match slotOfHalf (commandKey cell), partOfCode (payloadByte cell 0) with
  | some i, some part => slotReadAt cell i part s
  | _, _ => refuse s cell .badOperand

/-- SLOT CLEAR of one slot or of all (R145, R147). -/
def runSlotClear (cell : Cell) (s : State) : State :=
  match slotClearKey cell with
  | none => refuse s cell .badOperand
  | some (.one i) => slotClearAt cell i s
  | some .all => clearFrom cell 512 s

/-- ARM DIVERT (R145, R148). -/
def runArmDivert (cell : Cell) (s : State) : State :=
  match slotOfHalf (commandKey cell) with
  | none => refuse s cell .badOperand
  | some i => armDivertAt cell i s

/-- FLUSH WINDOW (R145, R148). -/
def runFlushWindow (cell : Cell) (s : State) : State :=
  match slotOfHalf (commandKey cell) with
  | none => refuse s cell .badOperand
  | some i => flushWindowAt cell i s

/-- A waiting command carried on from the slot it has reached: SLOT CLEAR of all goes on with the slots left
(R141, R147). Each try begins with the reconciliation, so a swap while a FLUSH closing waits comes first (DESIGN CHOICE,
notes/assumptions/28.md). No other command waits, and one that did would go on waiting. -/
def resumeCommand (w : WaitingCommand) (s : State) : State :=
  match commandOfCode (commandCode w.cell) with
  | some .slotClear =>
    match slotClearKey w.cell with
    | some .all => clearFrom w.cell (512 - w.slot.val) s
    | _ => slotClearAt w.cell w.slot s
  | some .slotRead =>
    match partOfCode (payloadByte w.cell 0) with
    | some part => slotReadAt w.cell w.slot part s
    | none => refuse s w.cell .badOperand
  | some .armDivert => armDivertAt w.cell w.slot s
  | some .flushWindow => flushWindowAt w.cell w.slot s
  | _ => waitAt s w.cell w.slot w.claim

/-! ### The rows -/

/-- SLOT READ taken and executed as far as it goes (R137, R146). -/
def execSlotRead (s : State) : Host.Outcome State Fault Refusal := withCommand s (isCommand .slotRead) runSlotRead

/-- SLOT CLEAR taken and executed as far as it goes (R137, R147). -/
def execSlotClear (s : State) : Host.Outcome State Fault Refusal := withCommand s (isCommand .slotClear) runSlotClear

/-- ARM DIVERT taken and executed as far as it goes (R137, R87). -/
def execArmDivert (s : State) : Host.Outcome State Fault Refusal := withCommand s (isCommand .armDivert) runArmDivert

/-- FLUSH WINDOW taken and executed as far as it goes (R137, R103). -/
def execFlushWindow (s : State) : Host.Outcome State Fault Refusal := withCommand s (isCommand .flushWindow) runFlushWindow

/-- COMMAND_RESUME: a WAITING Command Unit tries its waiting step and, where it can take it, goes on to its response (R141). -/
def execCommandResume (s : State) : Host.Outcome State Fault Refusal :=
  match s.commandUnit with
  | .waiting w => .next (resumeCommand w { s with commandUnit := .executing w.cell })
  | .idle | .executing _ | .resetRequested _ | .resetting => .next s

end Sys2Proof.Machine
end

