-- ==== Sys2Proof/Machine/TableEvents.lean ====
section
/-! DEFINITION. The Table Store's own events: the end of a verify, the swap, the end of a mirror (R89, R122 to R129). -/

namespace Sys2Proof.Machine

/-- VERIFY_COMPLETE: the walk ends. A pass enters swap pending; a failure returns to EDITABLE with a COMMIT FAILED notice
(R122, R123, R124). -/
def execVerifyComplete (s : State) : Host.Outcome State Fault Refusal :=
  if s.tables.shadowState = .walking then
    match verifyBank s.tables.shadowBank with
    | none => .next (setShadowState s .swapPending)
    | some f =>
      .next ((setShadowState s .editable).handNotice (.commitFailed f.reason f.channel f.address s.tables.generation))
  else .next s

/-- A pending swap may take place: the Engine holds no reading and no reconciliation is in flight (R126). -/
def maySwap (s : State) : Bool :=
  decide (s.tables.shadowState = .swapPending) && s.engineFree && !s.reconciliation.inFlight

/-- The Table Store after a swap: roles exchanged, generation advanced, mirror started (R127). -/
def TableStore.swapped (t : TableStore) : TableStore :=
  { t with active := t.active.other, generation := t.generation + 1, shadowState := .mirroring .swap }

/-- The start of a reconciliation: every slot pending, the cursor at slot 0, in flight (R89). -/
def startReconciliation (s : State) : State :=
  { s with slots := s.slots.map fun x => { x with pending := true }, reconciliation := ⟨true, firstSlot, false⟩ }

/-- SWAP: the pending swap takes place as one step (R127). -/
def execSwap (s : State) : Host.Outcome State Fault Refusal :=
  if maySwap s then
    let t : State := { s with tables := s.tables.swapped }
    .next ((startReconciliation t).handNotice (.commitDone t.tables.generation))
  else .next s

/-- MIRROR_COMPLETE: the shadow bank holds what the active bank holds, the state is EDITABLE, and a MIRROR DONE notice is handed
over (R128, R129). During a soft reset the restarted mirror does not run (R151). -/
def execMirrorComplete (s : State) : Host.Outcome State Fault Refusal :=
  match s.tables.shadowState with
  | .editable | .walking | .swapPending => .next s
  | .mirroring cause =>
    if s.commandUnit = .resetting then .next s
    else
      let t : State := { s with tables := { s.tables.putShadow s.tables.activeBank with shadowState := .editable } }
      .next (t.handNotice (.mirrorDone s.tables.generation cause))

end Sys2Proof.Machine
end

