-- ==== Sys2Proof/Machine/Cursors.lean ====
section
/-! DEFINITION. The reconciliation cursor and the Epoch Sweep, one slot at a step (R92, R109, R110). -/

namespace Sys2Proof.Machine

/-- The cursor moves on, or after slot 511 the reconciliation ends and the cursor returns to 0 (R92). -/
def advanceReconciliation (s : State) (i : SlotId) : State :=
  match nextSlot i with
  | some j => { s with reconciliation := ⟨true, j, false⟩ }
  | none => { s with reconciliation := ⟨false, firstSlot, false⟩ }

/-- RECONCILIATION_CURSOR_STEP: the cursor takes its slot's claim, reconciles the slot if it is pending, and moves on; it stops with the
claim held where the reconciliation needs a Summary Queue place and the queue is full (R88, R92). -/
def execReconciliationCursorStep (s : State) : Host.Outcome State Fault Refusal :=
  let i := s.reconciliation.cursor
  if s.reconciliation.inFlight then
    if s.claimedByOther .cursor i then .next s
    else
      match s.reconcileSlot i with
      | none => .next { s with reconciliation := { s.reconciliation with claim := true } }
      | some t => .next (advanceReconciliation t i)
  else .next s

/-- The sweep moves on; after slot 511 it passes again from slot 0 where the rescan flag is set, and otherwise ends (R110). -/
def advanceSweep (s : State) (i : SlotId) : State :=
  match nextSlot i with
  | some j => { s with sweep := ⟨true, j, s.sweep.rescan, false⟩ }
  | none => { s with sweep := ⟨s.sweep.rescan, firstSlot, false, false⟩ }

/-- The sweep waits at its slot with the claim held (R105, R109). -/
def holdSweep (s : State) : State := { s with sweep := { s.sweep with claim := true } }

/-- EPOCH_SWEEP_STEP: under its slot's claim the sweep reconciles on demand, closes a due window, and moves on (R88, R109). Each try of a
closing that waits begins with the reconciliation, so a swap during the wait comes first (DESIGN CHOICE, notes/assumptions/27.md). -/
def execEpochSweepStep (s : State) : Host.Outcome State Fault Refusal :=
  let i := s.sweep.cursor
  if s.sweep.inFlight then
    if s.claimedByOther .sweep i then .next s
    else
      match s.reconcileSlot i with
      | none => .next (holdSweep s)
      | some t =>
        match t.closeDue i with
        | none => .next (holdSweep t)
        | some u => .next (advanceSweep u i)
  else .next s

end Sys2Proof.Machine
end

