-- ==== Sys2Proof/Machine/Egress.lean ====
section
/-! DEFINITION. The Output Arbiter and the egress port (R161 to R167, R173). -/

namespace Sys2Proof.Machine

/-- The four egress queues (R154 to R157). -/
inductive QueueName where
  | forward | response | notice | summary
  deriving DecidableEq, Repr

/-- The queue the arbiter chooses, or none when all are empty (R162). After a reset a response may so leave before the RESET DONE, which R166 and
R167 call the first cell sent (DESIGN CHOICE, notes/assumptions/29.md). -/
def chooseQueue (s : State) : Option QueueName :=
  if s.summaryQueue ≠ [] ∧ s.mode.starvationLimit ≤ s.starvationCount then some .summary
  else if s.responseQueue ≠ [] then some .response
  else if s.noticeQueue ≠ [] then some .notice
  else if s.forwardQueue ≠ [] then some .forward
  else if s.summaryQueue ≠ [] then some .summary
  else none

/-- The starvation count after a grant: 0 for the Summary Queue, one more where another is granted while a summary waits,
saturating at 15 (R162). -/
def starvationAfter (s : State) (q : QueueName) : BitVec 4 :=
  if q = .summary then 0 else if s.summaryQueue = [] then s.starvationCount else satInc s.starvationCount

/-- A response is the ACCEPTED response of RESET PART (R165). -/
def isResetResponse (r : Response) : Bool := decide (r.code = CommandName.resetPart.code) && decide (r.status = .accepted)

/-- The oldest cell of a queue leaves it and the port begins to transmit it, its check computed now (R161, R169). -/
def transmit (s : State) : QueueName → State
  | .forward =>
    match s.forwardQueue with
    | [] => s
    | c :: rest => { s with forwardQueue := rest, port := some ⟨c.body.cell, false, c.resetMark⟩ }
  | .response =>
    match s.responseQueue with
    | [] => s
    | r :: rest => { s with responseQueue := rest, port := some ⟨formCell r.bytes, isResetResponse r, false⟩ }
  | .notice =>
    match s.noticeQueue with
    | [] => s
    | n :: rest => { s with noticeQueue := rest, port := some ⟨formCell n.bytes, false, false⟩ }
  | .summary =>
    match s.summaryQueue with
    | [] => s
    | c :: rest => { s with summaryQueue := rest, port := some ⟨formCell c.bytes, false, false⟩ }

/-- A grant may be made, whatever the queues hold: the ready line is high, the port is free, and no soft reset is due or in
effect (R161, R165, R166). -/
def mayGrant (s : State) : Bool :=
  s.downstreamReady && s.port.isNone && !softResetDue s && decide (s.commandUnit ≠ .resetting)

/-- GRANT: the arbiter chooses a queue and begins transmitting its oldest cell (R161, R162). -/
def execGrant (ready : Bool) (s : State) : Host.Outcome State Fault Refusal :=
  let t : State := { s with downstreamReady := ready }
  if mayGrant t then
    match chooseQueue t with
    | none => .next t
    | some q => .next (transmit { t with starvationCount := starvationAfter t q } q)
  else .next t

/-- The departure records after a departure (R165). -/
def recordDeparture (s : State) (c : Transmission) : State :=
  { s with port := none, responseSent := s.responseSent || c.resetResponse, copySent := s.copySent || c.resetMark }

/-- CELL_DEPARTURE: the port is free and the departure records are set; a soft reset that is then due takes effect (R150, R165, R173). -/
def execCellDeparture (s : State) : Host.Outcome State Fault Refusal :=
  match s.port with
  | none => .next s
  | some c =>
    let t := recordDeparture s c
    .next (if softResetDue t then softReset t else t)

end Sys2Proof.Machine
end

