-- ==== Sys2Proof/Machine/Dispatch.lean ====
section
/-! DEFINITION. One arm per command. -/

namespace Sys2Proof.Machine

def exec (i : Instr) (s : State) : Host.Outcome State Fault Refusal :=
  match i with
  | .powerOnReset => Sys2Proof.Machine.execPowerOnReset s
  | .powerOnResetRelease straps => Sys2Proof.Machine.execPowerOnResetRelease straps s
  | .cellStartStrobe byte => Sys2Proof.Machine.execCellStartStrobe byte s
  | .cellComplete byte => Sys2Proof.Machine.execCellComplete byte s
  | .takeReading => Sys2Proof.Machine.execTakeReading s
  | .engineResume => Sys2Proof.Machine.execEngineResume s
  | .takeEpoch => Sys2Proof.Machine.execTakeEpoch s
  | .takeCommand => Sys2Proof.Machine.execTakeCommand s
  | .passThroughCell => Sys2Proof.Machine.execPassThroughCell s
  | .identify => Sys2Proof.Machine.execIdentify s
  | .readStatus => Sys2Proof.Machine.execReadStatus s
  | .setMode => Sys2Proof.Machine.execSetMode s
  | .entryInsert => Sys2Proof.Machine.execEntryInsert s
  | .entryConvert => Sys2Proof.Machine.execEntryConvert s
  | .entryWindow => Sys2Proof.Machine.execEntryWindow s
  | .entryRemove => Sys2Proof.Machine.execEntryRemove s
  | .entryRead => Sys2Proof.Machine.execEntryRead s
  | .poolWrite => Sys2Proof.Machine.execPoolWrite s
  | .poolRead => Sys2Proof.Machine.execPoolRead s
  | .commit => Sys2Proof.Machine.execCommit s
  | .abandon => Sys2Proof.Machine.execAbandon s
  | .slotRead => Sys2Proof.Machine.execSlotRead s
  | .slotClear => Sys2Proof.Machine.execSlotClear s
  | .armDivert => Sys2Proof.Machine.execArmDivert s
  | .flushWindow => Sys2Proof.Machine.execFlushWindow s
  | .resetPart => Sys2Proof.Machine.execResetPart s
  | .badCommand => Sys2Proof.Machine.execBadCommand s
  | .commandResume => Sys2Proof.Machine.execCommandResume s
  | .verifyComplete => Sys2Proof.Machine.execVerifyComplete s
  | .swap => Sys2Proof.Machine.execSwap s
  | .mirrorComplete => Sys2Proof.Machine.execMirrorComplete s
  | .reconciliationCursorStep => Sys2Proof.Machine.execReconciliationCursorStep s
  | .epochSweepStep => Sys2Proof.Machine.execEpochSweepStep s
  | .grant ready => Sys2Proof.Machine.execGrant ready s
  | .cellDeparture => Sys2Proof.Machine.execCellDeparture s
  | .softResetComplete => Sys2Proof.Machine.execSoftResetComplete s
  | .byteWithoutTheStrobe byte => Sys2Proof.Machine.execByteWithoutTheStrobe byte s

end Sys2Proof.Machine
end

