-- ==== Sys2Proof/Safety.lean ====
section
/-! DEFINITION. What counts as a safe state, invariant by invariant, and the words the claims use: when a command is ready to be taken,
what an answered command leaves, when a reading is ready to be converted; what passes a verify, what an add forms, how a formed cell ends,
and what reconciling or closing a slot does. -/

namespace Sys2Proof.Machine

/-! ### The invariants -/

/-- Every queue holds at most its capacity, and the place that a held reading, a command in execution or a cell in reception counts on
is free (R56, R136, R137, R154 to R157, R171). -/
def QueuesBounded (s : State) : Prop :=
  s.ingressBuffer.length ≤ 32 ∧ s.commandQueue.length ≤ 8 ∧ s.forwardQueue.length ≤ 16 ∧ s.responseQueue.length ≤ 8 ∧
    s.noticeQueue.length ≤ 32 ∧ s.summaryQueue.length ≤ 64 ∧
    (s.engine ≠ .idle → s.forwardQueue.length ≤ 15) ∧
    (∀ cell, s.commandUnit = .executing cell → s.responseQueue.length ≤ 7) ∧
    (∀ w, s.commandUnit = .waiting w → s.responseQueue.length ≤ 7) ∧
    (∀ bytes, s.receiver = .receiving bytes false → s.ingressBuffer.length ≤ 31)

/-- A cell in reception holds 1 to 23 bytes (R168). -/
def ReceptionFramed (s : State) : Prop :=
  ∀ bytes overrun, s.receiver = .receiving bytes overrun → 1 ≤ bytes.length ∧ bytes.length ≤ 23

/-- Each notice carries as its lost count the numbers skipped since the notice before it, and the lost counter counts those skipped since
the last (R157, R158). -/
def noticesChained : List Notice → Half → Half → Prop
  | [], _, _ => True
  | [a], next, lost => lost = next - a.sequence - 1
  | a :: b :: rest, next, lost => b.lost = b.sequence - a.sequence - 1 ∧ noticesChained (b :: rest) next lost

/-- The Notice Queue's numbering is without unexplained gaps (R158). -/
def NoticesNumbered (s : State) : Prop := noticesChained s.noticeQueue s.noticeSequence s.noticeLost

/-- At most one LINK ERROR notice waits (R160). -/
def OneLinkError (s : State) : Prop := s.noticeQueue.countP (fun n => n.body.isLinkError) ≤ 1

/-- No slot is claimed by two parties (R88). -/
def ClaimsExclusive (s : State) : Prop := ∀ i p q, s.holdsClaim i p = true → s.holdsClaim i q = true → p = q

/-- An entry's operands lie in their ranges: scale, window, and gains and offsets normalized or with an all-zero fraction (R3, R4, R5). -/
def Entry.wf (e : Entry) : Prop :=
  (∀ k, e.outputForm = .integer k → -4 ≤ k ∧ k ≤ 4) ∧
    (∀ n, e.window = some (.count n) → 1 ≤ n ∧ n ≤ 4096) ∧
    (∀ n, e.window = some (.epoch n) → 1 ≤ n ∧ n ≤ 255) ∧
    (∀ gain offset, e.conversion = .linear gain offset →
      (isNormalized gain = true ∨ isZeroFloat gain = true) ∧ (isNormalized offset = true ∨ isZeroFloat offset = true)) ∧
    (∀ reference gain, e.conversion = .ratio reference gain → isNormalized gain = true ∨ isZeroFloat gain = true)

/-- A bank as R1, R4, R5 and R17 have it: its directory in order and within capacity, its entries in range, its pool canonical. -/
def Bank.wf (b : Bank) : Prop := directoryWf b.directory = true ∧ (∀ e ∈ b.directory, e.wf) ∧ Memory.wf b.pool = true

/-- Both banks are well formed. -/
def BanksWellFormed (s : State) : Prop := s.tables.bankA.wf ∧ s.tables.bankB.wf

/-- The active bank has passed verify, and so has a shadow bank whose swap is pending (R124). -/
def ActiveVerified (s : State) : Prop :=
  verifyBank s.tables.activeBank = none ∧ (s.tables.shadowState = .swapPending → verifyBank s.tables.shadowBank = none)

/-- A held reading's generation is the one in force and its entry is the active directory's, and at the count step its slot
is reconciled (R56, R57, R58). -/
def ReadingLatched (s : State) : Prop :=
  ∀ h, s.heldReading = some h →
    h.generation = s.tables.generation ∧ findChannel s.tables.activeBank.directory (readingChannel h.cell) = some h.entry ∧
      (h.step ≠ .prepare → (s.slot h.entry.slot).pending = false)

/-- A slot that is not pending is owned by the channel whose active entry names it and follows that entry's terms, or is UNOWNED; a pending
slot is one that a reconciliation in flight has not passed (R80, R82, R89). -/
def SlotsFollowDirectory (s : State) : Prop :=
  ∀ i, if (s.slot i).pending then s.reconciliation.inFlight = true ∧ s.reconciliation.cursor ≤ i
    else (s.slot i).runtime.map (fun r => (r.owner, r.terms)) = (s.ownerEntry i).map (fun e => (e.input, e.terms))

/-- An open window is of its slot's terms, its definition is in range, a COUNT window has counted fewer than its length and an EPOCH
window at most 4096, and its extremes are absent exactly while counted is 0 (R95, R99, R100). -/
def Window.wf (w : Window) : Prop :=
  (match w.definition with
    | .count n => 1 ≤ n ∧ n ≤ 4096 ∧ w.counted < n
    | .epoch n => 1 ≤ n ∧ n ≤ 255 ∧ w.counted ≤ 4096) ∧
    (w.extremes = none ↔ w.counted = 0)

/-- Every open window of the Slot Store is well formed and is of its slot's terms, and a slot has a window exactly where its terms hold
a definition (R95, R96). -/
def WindowsWellFormed (s : State) : Prop :=
  ∀ i r, (s.slot i).runtime = some r →
    r.window.map Window.definition = r.terms.window ∧ ∀ w, r.window = some w → w.wf

/-- The starvation limit stays within 1..15 (R144). -/
def LimitInRange (s : State) : Prop := s.mode.starvationLimit ≠ 0

/-- A safe state: every invariant together. -/
structure Safe (s : State) : Prop where
  queues : QueuesBounded s
  framing : ReceptionFramed s
  notices : NoticesNumbered s
  linkError : OneLinkError s
  claims : ClaimsExclusive s
  banks : BanksWellFormed s
  verified : ActiveVerified s
  latched : ReadingLatched s
  slots : SlotsFollowDirectory s
  windows : WindowsWellFormed s
  limit : LimitInRange s

/-- A step keeps a property: whenever it answers a next state of a state that has it, the next state has it. -/
def KeptByStep (inv : State → Prop) : Prop := ∀ s t, inv s → step s = .next t → inv t

/-! ### The words of the claims -/

/-- The Command Unit may take its oldest command, which is `cell` with command code `code` (R137). -/
structure CommandReady (s : State) (cell : Cell) (rest : List Cell) (code : Byte) : Prop where
  idle : s.commandUnit = .idle
  place : s.responseQueue.length < 8
  queue : s.commandQueue = cell :: rest
  isCode : commandCode cell = code

/-- The state after a command taken from the head of the queue was answered, the Command Unit idle again (R137, R138). -/
def answered (s : State) (cell : Cell) (rest : List Cell) (status : Status) (contents : List Byte) : State :=
  { s with
    commandQueue := rest
    responseQueue :=
      s.responseQueue ++ [⟨s.strap, commandTag cell, commandCode cell, status, s.tables.generation, payload contents⟩] }

/-- A gain or an offset that ENTRY CONVERT accepts: normalized, or with an all-zero fraction (R11). -/
def Acceptable (w : Word) : Prop := isNormalized w = true ∨ isZeroFloat w = true

/-- The operands of an ENTRY INSERT cell lie in their ranges and codes and spell this entry, with the default parts of R6 (R10, R176, R177). -/
def InsertSays (cell : Cell) (e : Entry) : Prop :=
  e.input = commandKey cell ∧ e.output = payloadHalf cell 0 ∧ e.slot.val = (payloadHalf cell 2).toNat ∧
    (payloadByte cell 4, e.inputForm) ∈ [((0 : Byte), InputForm.int16), (1, .int24), (2, .uint16), (3, .float)] ∧
    ((payloadByte cell 5 = 0 ∧ e.outputForm = .float) ∨
      (payloadByte cell 5 = 1 ∧ -4 ≤ (payloadByte cell 6).toInt ∧ (payloadByte cell 6).toInt ≤ 4 ∧
        e.outputForm = .integer (payloadByte cell 6).toInt)) ∧
    (payloadByte cell 7, e.emit) ∈ [((0 : Byte), false), (1, true)] ∧
    e.conversion = .none ∧ e.window = none ∧ e.divertPermitted = false

/-- The operands of an ENTRY CONVERT cell lie in their ranges and codes and spell this conversion (R11, R176, R177). -/
def ConvertSays (cell : Cell) (c : Conversion) : Prop :=
  (payloadByte cell 0 = 0 ∧ c = .none) ∨
    (payloadByte cell 0 = 1 ∧ Acceptable (payloadWord cell 4) ∧ Acceptable (payloadWord cell 8) ∧
      c = .linear (payloadWord cell 4) (payloadWord cell 8)) ∨
    (payloadByte cell 0 = 2 ∧ (payloadHalf cell 2).toNat ≤ 4095 ∧
      ∃ table : BitVec 12, table.toNat = (payloadHalf cell 2).toNat ∧ c = .segmented table) ∨
    (payloadByte cell 0 = 3 ∧ Acceptable (payloadWord cell 4) ∧ c = .ratio (payloadHalf cell 2) (payloadWord cell 4))

/-- The operands of an ENTRY WINDOW cell lie in their ranges and codes and spell this window definition and permission (R12, R176, R177). -/
def WindowSays (cell : Cell) (w : Option WindowDef) (permitted : Bool) : Prop :=
  ((payloadByte cell 0 = 0 ∧ w = none) ∨
      (payloadByte cell 0 = 1 ∧ 1 ≤ (payloadHalf cell 2).toNat ∧ (payloadHalf cell 2).toNat ≤ 4096 ∧
        w = some (.count (payloadHalf cell 2).toNat)) ∨
      (payloadByte cell 0 = 2 ∧ 1 ≤ (payloadHalf cell 2).toNat ∧ (payloadHalf cell 2).toNat ≤ 255 ∧
        w = some (.epoch (payloadHalf cell 2).toNat))) ∧
    (payloadByte cell 4, permitted) ∈ [((0 : Byte), false), (1, true)]

/-- The operands of an ENTRY READ cell are codes and spell this bank and this part (R14, R176, R177). -/
def EntryReadSays (cell : Cell) (selector : Selector) (part : Part) : Prop :=
  (payloadByte cell 0, selector) ∈ [((0 : Byte), Selector.active), (1, .shadow)] ∧
    (payloadByte cell 1, part) ∈ [((0 : Byte), Part.a), (1, .b)]

/-- The key of a POOL READ cell leaves four words below 4096, and its operand spells this bank (R33, R176, R177). -/
def PoolReadSays (cell : Cell) (selector : Selector) : Prop :=
  (commandKey cell).toNat ≤ 4092 ∧ (payloadByte cell 0, selector) ∈ [((0 : Byte), Selector.active), (1, .shadow)]

/-- The oldest cell of the Ingress Buffer is `cell`, and the Classifier may take a cell that goes to the Forward Queue (R172). -/
structure CellReady (s : State) (cell : Cell) (rest : List Cell) : Prop where
  buffer : s.ingressBuffer = cell :: rest
  engine : s.engine = .idle
  place : s.forwardQueue.length < 16

/-- A slot that a party may use at once: not claimed by another and not pending (R88, R93). -/
structure SlotReady (s : State) (p : Party) (i : SlotId) : Prop where
  unclaimed : s.claimedByOther p i = false
  reconciled : (s.slot i).pending = false

/-- The Engine may take the READING cell at the head of the buffer, whose channel's entry is `e` and whose slot's runtime is `r`, and no slot
preparation waits: the slot is ready, its window is not due, and a RATIO entry's reference slot is ready (R56 to R59). -/
structure ReadingReady (s : State) (cell : Cell) (rest : List Cell) (e : Entry) (r : Runtime) : Prop where
  ready : CellReady s cell rest
  kind : cellKind cell = 0x01
  noSwap : s.tables.shadowState ≠ .swapPending
  entry : findChannel s.tables.activeBank.directory (readingChannel cell) = some e
  slot : SlotReady s .engine e.slot
  runtime : (s.slot e.slot).runtime = some r
  notDue : ∀ w, r.window = some w → w.due s.epochCount = false
  reference : ∀ reference gain, e.conversion = .ratio reference gain →
    ∃ f, findChannel s.tables.activeBank.directory reference = some f ∧ SlotReady s .engine f.slot

/-- The last good value that a RATIO entry divides by: that of the slot its reference entry names; none for the other kinds (R66). -/
def referenceGood (s : State) (e : Entry) : Option Word :=
  match e.conversion with
  | .ratio reference _ =>
    ((findChannel s.tables.activeBank.directory reference).bind fun f => (s.slot f.slot).runtime).bind Runtime.lastGood
  | .none | .linear _ _ | .segmented _ => none

/-- The conversion of a ready reading yields `c`, and `d` is the reading decided with it (R62 to R69, R76). -/
structure ReadingConverts (s : State) (cell : Cell) (e : Entry) (r : Runtime) (d : Decided) : Prop where
  converts : ∃ c, convertRaw s.tables.activeBank.pool e (readingRaw cell) r.lastGood (referenceGood s e) = .ok c ∧
    d = decideReading e.outputForm (sequenceCheck r (readingSequence cell)) c

/-- The runtime of a slot after a reading's sequence check and fault collection (R62, R69). -/
def heard (r : Runtime) (cell : Cell) (d : Decided) : Runtime :=
  (sequenceCheck r (readingSequence cell)).runtime.collect d.quality.faults

/-- The CONVERTED cell of a reading taken in this state (R75). -/
def convertedOf (s : State) (cell : Cell) (e : Entry) (d : Decided) : ConvertedCell :=
  ⟨e.output, readingSequence cell, s.tables.generation, d.output, readingRaw cell, d.quality, d.tag, e.slot, readingUpstream cell, s.strap⟩

/-- The Forward Queue after a reading's CONVERTED cell, which is added where the entry emits readings (R75). -/
def forwardAfter (s : State) (cell : Cell) (e : Entry) (d : Decided) : List ForwardCell :=
  if e.emit then s.forwardQueue ++ [⟨.converted (convertedOf s cell e d), false⟩] else s.forwardQueue

/-- The arbiter may grant when the ready line is high: the port is free and no soft reset is due or in effect (R161, R165). -/
structure GrantReady (s : State) : Prop where
  port : s.port = none
  notDue : ∀ broadcast, s.commandUnit = .resetRequested broadcast → (s.responseSent && (!broadcast || s.copySent)) = false
  notResetting : s.commandUnit ≠ .resetting

/-- The starvation count after a grant to a queue other than the Summary Queue (R162). -/
def passedOver (s : State) : BitVec 4 :=
  if s.summaryQueue = [] then s.starvationCount else if s.starvationCount = 15 then 15 else s.starvationCount + 1

/-- The departure of the cell in transmission makes the soft reset due: the Command Unit is in RESET REQUESTED, and with this departure its
response has been sent and, after a broadcast, its marked copy too (R150, R165). -/
def ResetDueAfter (s : State) (c : Transmission) : Prop :=
  ∃ broadcast, s.commandUnit = .resetRequested broadcast ∧ (s.responseSent = true ∨ c.resetResponse = true) ∧
    (broadcast = true → s.copySent = true ∨ c.resetMark = true)

/-- A slot after SLOT CLEAR: sticky faults and drop count cleared, nothing else (R86). -/
def clearedSlot (x : Slot) : Slot :=
  { x with runtime := x.runtime.map fun r => { r with sticky := FaultSet.none, dropCount := 0 } }

/-- The reconciliation after its cursor has passed its slot (R92). -/
def cursorMoved (s : State) : Reconciliation :=
  if h : s.reconciliation.cursor.val + 1 < 512 then ⟨true, ⟨s.reconciliation.cursor.val + 1, h⟩, false⟩ else ⟨false, ⟨0, by decide⟩, false⟩

/-- The Epoch Sweep after its cursor has passed its slot (R109, R110). -/
def sweepMoved (s : State) : Sweep :=
  if h : s.sweep.cursor.val + 1 < 512 then ⟨true, ⟨s.sweep.cursor.val + 1, h⟩, s.sweep.rescan, false⟩
  else ⟨s.sweep.rescan, ⟨0, by decide⟩, false, false⟩

/-! ### Verify (R31, R122) -/

/-- An entry of a bank passes the six checks of verify against the entries before it in the walk (R122). -/
structure EntryPasses (b : Bank) (earlier : List Entry) (e : Entry) : Prop where
  slot : ∀ x ∈ earlier, x.slot ≠ e.slot
  output : ∀ x ∈ earlier, x.output ≠ e.output
  form : ∀ table, e.conversion = .segmented table → e.inputForm ≠ .float
  present : ∀ reference gain, e.conversion = .ratio reference gain → ∃ f ∈ b.directory, f.input = reference
  notRatio : ∀ reference gain, e.conversion = .ratio reference gain →
    ∀ f ∈ b.directory, f.input = reference → ∀ channel g, f.conversion ≠ .ratio channel g
  tables : ∀ table, e.conversion = .segmented table → verifyTable b.pool 3 table.toNat = none

/-- The bucket whose entry word is at an address passes in a table with `deeper` levels allowed below it: EMPTY and CONSTANT, a SEGMENT whose
second word lies in the pool, a LINK above depth 4 whose table passes (R31). -/
def BucketPasses (pool : Memory) (deeper address : Nat) : Prop :=
  match (entryOfWord (Memory.read pool address)).kind with
  | .empty => True
  | .constant => True
  | .segment => (entryOfWord (Memory.read pool address)).target ≠ 4095
  | .link => ∃ d, deeper = d + 1 ∧ verifyTable pool d (entryOfWord (Memory.read pool address)).target = none

/-! ### Value arithmetic (R37, R42 to R44) -/

/-- The range test of a normalized result of `n` digits: the largest magnitude with OVF above +63, true zero with UNF below -64, the result
itself between (R37, R44). -/
def Ranged (n : Nat) (u : Unpacked) (r : Formed Unpacked) : Prop :=
  (63 < u.exponent → r = ⟨⟨u.negative, 63, 16 ^ n - 1⟩, ⟨true, false, false, false, false, false⟩⟩) ∧
    (u.exponent < -64 → r = ⟨⟨false, -64, 0⟩, ⟨false, true, false, false, false, false⟩⟩) ∧
    (-64 ≤ u.exponent → u.exponent ≤ 63 → r = ⟨u, ⟨false, false, false, false, false, false⟩⟩)

/-- A combined fraction of `n` digits and a guard digit brought to form: all zero; a carry; `k` leading zero digits shifted out (R43). -/
def BroughtToForm (n : Nat) (u : Unpacked) (r : Formed Unpacked) : Prop :=
  (u.fraction = 0 → r = ⟨⟨false, -64, 0⟩, ⟨false, false, false, false, false, false⟩⟩) ∧
    (16 ^ (n + 1) ≤ u.fraction → Ranged n ⟨u.negative, u.exponent + 1, u.fraction / 16 ^ 2⟩ r) ∧
    ∀ k : Nat, k ≤ n → 16 ^ (n - k) ≤ u.fraction → u.fraction < 16 ^ (n - k + 1) →
      Ranged n ⟨u.negative, u.exponent - k, u.fraction * 16 ^ k / 16⟩ r

/-- The add of two nonzero values of `n` digits, the first one leading: the trailing fraction shifted right by the exponent difference `d`, the
fractions added or the smaller subtracted from the larger, and the result brought to form (R42, R43). -/
def Added (n : Nat) (leading trailing : Unpacked) (r : Formed Unpacked) : Prop :=
  ∀ d : Nat, (d : Int) = leading.exponent - trailing.exponent →
    (n + 1 ≤ d → r = ⟨leading, ⟨false, false, false, false, false, false⟩⟩) ∧
    (d ≤ n → ∀ x y : Nat, x = leading.fraction * 16 → y = trailing.fraction * 16 / 16 ^ d →
      (leading.negative = trailing.negative → BroughtToForm n ⟨leading.negative, leading.exponent, x + y⟩ r) ∧
      (leading.negative ≠ trailing.negative →
        (y ≤ x → BroughtToForm n ⟨leading.negative, leading.exponent, x - y⟩ r) ∧
        (x < y → BroughtToForm n ⟨trailing.negative, leading.exponent, y - x⟩ r)))

/-! ### Cells formed by the part (R169) -/

/-- Bytes 0 to 21 with the check over them in bytes 22 and 23, high byte first (R169). -/
def withCheck (l : List Byte) : List Byte := l ++ [(crc16 l).extractLsb' 8 8, (crc16 l).extractLsb' 0 8]

/-- The cell of a numbered notice: its code and its contents from payload byte 1 on, by byte, then zeros, then the check (R169, R174, R179). -/
def NoticeSent (numbered lost : Half) (unit : UnitAddress) (body : NoticeBody) (code : Byte) (contents : List Byte) : Prop :=
  (formCell (Notice.bytes ⟨numbered, lost, unit, body⟩)).val =
    withCheck ([0x14, code, numbered.extractLsb' 8 8, numbered.extractLsb' 0 8, lost.extractLsb' 8 8, lost.extractLsb' 0 8,
      (0 : BitVec 4) ++ unit] ++ contents ++ List.replicate (15 - contents.length) 0)

/-! ### Slots (R90, R91, R107, R109) -/

/-- The reconciliation of one slot: left alone where it is not pending, and otherwise every row of R90 and R91; no answer where its closing
needs a Summary Queue place and there is none (R90, R91, R93, R105). -/
def ReconcileSays (s : State) (i : SlotId) (answer : Option State) : Prop :=
  ((s.slot i).pending = false → answer = some s) ∧
  ((s.slot i).pending = true →
    ((s.slot i).runtime = none →
      answer = some { s with slots := s.slots.put i (Slot.reset (s.ownerEntry i) s.epochCount) }) ∧
    ∀ r, (s.slot i).runtime = some r →
      (∀ e, s.ownerEntry i = some e → e.input = r.owner → ∀ armed,
        armed = (if e.divertPermitted = r.terms.divertPermitted then r.armed else e.divertPermitted) →
        (e.window = r.terms.window →
          answer = some
            { s with slots := s.slots.put i ⟨some { r with terms := ⟨e.output, e.window, e.divertPermitted⟩, armed := armed }, false⟩ }) ∧
        (e.window ≠ r.terms.window →
          (∀ w, r.window = some w → w.counted ≠ 0 →
            (s.summaryQueue.length < 64 →
              answer = some
                { s with
                  slots := s.slots.put i
                    ⟨some
                      { r with
                        terms := ⟨e.output, e.window, e.divertPermitted⟩
                        armed := armed
                        windowSequence := r.windowSequence + 1
                        window := e.window.map (Window.fresh s.epochCount) }, false⟩
                  summaryQueue := s.summaryQueue ++ [w.summary .truncated s.epochCount r.terms.output r.windowSequence] }) ∧
            (64 ≤ s.summaryQueue.length → answer = none)) ∧
          ((∀ w, r.window = some w → w.counted = 0) →
            answer = some
              { s with
                slots := s.slots.put i
                  ⟨some
                    { r with
                      terms := ⟨e.output, e.window, e.divertPermitted⟩
                      armed := armed
                      window := e.window.map (Window.fresh s.epochCount) }, false⟩ }))) ∧
      ((∀ e, s.ownerEntry i = some e → e.input ≠ r.owner) →
        (∀ w, r.window = some w → w.counted ≠ 0 →
          (s.summaryQueue.length < 64 →
            answer = some
              { s with
                slots := s.slots.put i (Slot.reset (s.ownerEntry i) s.epochCount)
                summaryQueue := s.summaryQueue ++ [w.summary .truncated s.epochCount r.terms.output r.windowSequence] }) ∧
          (64 ≤ s.summaryQueue.length → answer = none)) ∧
        ((∀ w, r.window = some w → w.counted = 0) →
          answer = some { s with slots := s.slots.put i (Slot.reset (s.ownerEntry i) s.epochCount) })))

/-- The closing of a slot's window where it is due: left alone where it is not, and otherwise the closing with cause EPOCH and the fresh window;
no answer where the closing needs a Summary Queue place and there is none (R59, R100, R105, R107). -/
def CloseDueSays (s : State) (i : SlotId) (answer : Option State) : Prop :=
  ((∀ r w span, (s.slot i).runtime = some r → r.window = some w → w.definition = .epoch span →
      (s.epochCount - w.openedAt).toNat < span) → answer = some s) ∧
  ∀ r w span, (s.slot i).runtime = some r → r.window = some w → w.definition = .epoch span →
    span ≤ (s.epochCount - w.openedAt).toNat →
    (w.counted = 0 →
      answer = some
        { s with
          slots := s.slots.put i
            ⟨some { r with window := r.terms.window.map (Window.fresh s.epochCount) }, (s.slot i).pending⟩ }) ∧
    (w.counted ≠ 0 → s.summaryQueue.length < 64 →
      answer = some
        { s with
          slots := s.slots.put i
            ⟨some
              { r with
                windowSequence := r.windowSequence + 1
                window := r.terms.window.map (Window.fresh s.epochCount) }, (s.slot i).pending⟩
          summaryQueue := s.summaryQueue ++ [w.summary .epoch s.epochCount r.terms.output r.windowSequence] }) ∧
    (w.counted ≠ 0 → 64 ≤ s.summaryQueue.length → answer = none)

end Sys2Proof.Machine
end

