-- ==== Sys2Proof/Certificates/Slice0/Obligations.lean ====
section
/-! DEFINITION. The statements for the provers: what the manual says each command does, over every state that meets the command's conditions,
and the invariants that every step keeps. -/

open Sys2Proof Sys2Proof.Machine

/-! ### The step -/

/-- A step takes the command at the front of the queue and executes it on the state with the queue's rest. -/
def Obligations.StepRunsFrontCommand : Prop :=
  ∀ (s : State) (c : Instr) (rest : List Instr), s.pending = c :: rest → step s = exec c { s with pending := rest }

/-! ### Resets -/

/-- R131: the Table Store at power-on reset, whatever was in flight. -/
def Obligations.TableStoreAtPowerOnReset : Prop :=
  ∀ s : State, ∃ t, exec .powerOnReset s = .next t ∧
    t.tables.bankA.directory = [] ∧ t.tables.bankB.directory = [] ∧
    (∀ a, a ≤ 4095 → Memory.read t.tables.bankA.pool a = 0 ∧ Memory.read t.tables.bankB.pool a = 0) ∧
    t.tables.active = .a ∧ t.tables.activeBank = t.tables.bankA ∧ t.tables.shadowBank = t.tables.bankB ∧
    t.tables.generation = 0 ∧ t.tables.shadowState = .editable ∧ t.noticeQueue = []

/-- The other blocks at power-on reset (R55, R108, R113, R136, R144, R152, R167, R171, R172). The level of the downstream ready line, which is
the outside's, and the model's own two fields stay: the model's choice (notes/assumptions/3.md, notes/assumptions/13.md). -/
def Obligations.PowerOnResetOfEveryBlock : Prop :=
  ∀ s : State, ∃ t, exec .powerOnReset s = .next t ∧
    t.resetAsserted = true ∧ t.ingressReady = false ∧ t.receiver = .idle ∧ t.ingressBuffer = [] ∧
    t.badCells = 0 ∧ t.unknownChannels = 0 ∧ t.discardedCommands = 0 ∧ t.engine = .idle ∧ t.epochCount = 0 ∧
    t.sweep = ⟨false, ⟨0, by decide⟩, false, false⟩ ∧ t.commandQueue = [] ∧ t.commandUnit = .idle ∧
    t.mode = ⟨.forward, true, 8⟩ ∧ t.forwardQueue = [] ∧ t.responseQueue = [] ∧ t.noticeQueue = [] ∧ t.summaryQueue = [] ∧
    t.noticeSequence = 0 ∧ t.noticeLost = 0 ∧ t.starvationCount = 0 ∧ t.port = none ∧ t.responseSent = false ∧
    t.copySent = false ∧ t.downstreamReady = s.downstreamReady ∧ t.freeCount = s.freeCount ∧ t.pending = s.pending

/-- The Slot Store after each of the two resets (R83, R84, R85, R94). That the slots are reset at the departure that makes the soft reset due, and
not at a later moment before its completion, is the model's reading of R85 and R151 (notes/assumptions/16.md). -/
def Obligations.SlotStoreAfterResets : Prop :=
  (∀ s : State, ∃ t, exec .powerOnReset s = .next t ∧ (∀ i, t.slot i = ⟨none, false⟩) ∧
      t.reconciliation.inFlight = false ∧ t.reconciliation.cursor.val = 0 ∧ ∀ i p, t.holdsClaim i p = false) ∧
    ∀ (s : State) (c : Transmission), s.port = some c → ResetDueAfter s c → ∃ t, exec .cellDeparture s = .next t ∧
      (∀ i, findSlot s.tables.activeBank.directory i = none → t.slot i = ⟨none, false⟩) ∧
      (∀ i e, findSlot s.tables.activeBank.directory i = some e → t.slot i =
        ⟨some
          { owner := e.input
            live := false
            lastSequence := 0
            lastGood := none
            sticky := ⟨false, false, false, false, false, false⟩
            armed := e.divertPermitted
            dropCount := 0
            windowSequence := 0
            window := e.window.map fun d => ⟨d, 0, 0, 0, ⟨false, 0, 0⟩, none, ⟨false, false, false, false, false, false⟩⟩
            terms := ⟨e.output, e.window, e.divertPermitted⟩ }, false⟩) ∧
      t.reconciliation.inFlight = false ∧ t.reconciliation.cursor.val = 0 ∧ ∀ i p, t.holdsClaim i p = false

/-- The release of the reset pin: the straps are sampled, the ready line rises and RESET DONE with cause POWER is notice 0 (R134, R152). -/
def Obligations.PowerOnResetReleases : Prop :=
  (∀ (s : State) (straps : BitVec 4), s.resetAsserted = true → s.noticeQueue = [] →
    exec (.powerOnResetRelease straps) s = .next
      { s with
        resetAsserted := false
        strap := straps
        noticeQueue := [⟨s.noticeSequence, s.noticeLost, straps, .resetDone .power s.tables.generation⟩]
        noticeSequence := s.noticeSequence + 1
        noticeLost := 0 }) ∧
    ∀ (s : State) (straps : BitVec 4), ∃ t u, exec .powerOnReset s = .next t ∧ exec (.powerOnResetRelease straps) t = .next u ∧
      u.strap = straps ∧ u.noticeQueue = [⟨0, 0, straps, .resetDone .power 0⟩] ∧ u.noticeSequence = 1 ∧ u.noticeLost = 0 ∧
      u.ingressReady = true

/-- A departure frees the port and sets the departure records of the cell that left, and one that makes the soft reset due has every block take its
soft-reset values (R132, R150, R151, R161, R165, R166, R171). That all take them at once, the slots included, at this departure is the model's
reading (notes/assumptions/16.md). The new slots are those of the second part of `SlotStoreAfterResets`. -/
def Obligations.CellDeparts : Prop :=
  ∀ (s : State) (c : Transmission), s.port = some c →
    (¬ ResetDueAfter s c →
      exec .cellDeparture s = .next
        { s with
          port := none
          responseSent := s.responseSent || c.resetResponse
          copySent := s.copySent || c.resetMark }) ∧
    (ResetDueAfter s c →
      exec .cellDeparture s = .next
        { s with
          receiver := .idle
          ingressBuffer := []
          badCells := 0
          unknownChannels := 0
          discardedCommands := 0
          engine := .idle
          tables := if s.tables.shadowState.isMirroring then s.tables else { s.tables with shadowState := .editable }
          slots := resetSlots s
          reconciliation := ⟨false, ⟨0, by decide⟩, false⟩
          epochCount := 0
          sweep := ⟨false, ⟨0, by decide⟩, false, false⟩
          commandQueue := []
          commandUnit := .resetting
          forwardQueue := []
          responseQueue := []
          noticeQueue := []
          summaryQueue := []
          noticeSequence := 0
          noticeLost := 0
          starvationCount := 0
          port := none
          responseSent := false
          copySent := false })

/-- The completion of a soft reset: RESET DONE with cause SOFT enters the empty Notice Queue and the Command Unit is IDLE (R151, R166). -/
def Obligations.SoftResetCompletes : Prop :=
  ∀ s : State, s.commandUnit = .resetting → s.noticeQueue = [] →
    exec .softResetComplete s = .next
      { s with
        commandUnit := .idle
        noticeQueue := [⟨s.noticeSequence, s.noticeLost, s.strap, .resetDone .soft s.tables.generation⟩]
        noticeSequence := s.noticeSequence + 1
        noticeLost := 0 }

/-! ### The egress port -/

/-- The five rows of the arbiter's choice, each with the queue's oldest cell in transmission and the starvation count after; and no grant
while the ready line is low, the port transmits, a soft reset is due or in effect, or the queues are empty (R161, R162). That every row records
the ready line's level in `downstreamReady`, and that a row without a grant changes nothing else, are the model's choices
(notes/assumptions/3.md, notes/assumptions/4.md); so is that a response is granted before a waiting RESET DONE too (notes/assumptions/29.md).
The cell in transmission byte by byte: CONVERTED, SUMMARY, RESPONSE and each NOTICE with its codes and its zeros, a received cell unchanged, and
the check of a formed cell by its recurrence (R154, R169, R174 to R176, R179). -/
def Obligations.GrantServesChosenQueue : Prop :=
  (∀ s : State, exec (.grant false) s = .next { s with downstreamReady := false } ∧
    (¬ GrantReady s → exec (.grant true) s = .next { s with downstreamReady := true }) ∧
    (s.responseQueue = [] → s.noticeQueue = [] → s.forwardQueue = [] → s.summaryQueue = [] →
      exec (.grant true) s = .next { s with downstreamReady := true })) ∧
  (∀ s : State, GrantReady s →
    (∀ c rest, s.summaryQueue = c :: rest → s.mode.starvationLimit.toNat ≤ s.starvationCount.toNat →
      exec (.grant true) s = .next
        { s with
          downstreamReady := true, summaryQueue := rest, port := some ⟨formCell c.bytes, false, false⟩, starvationCount := 0 }) ∧
    ((s.summaryQueue = [] ∨ s.starvationCount.toNat < s.mode.starvationLimit.toNat) →
      (∀ r rest, s.responseQueue = r :: rest →
        exec (.grant true) s = .next
          { s with
            downstreamReady := true
            responseQueue := rest
            port := some ⟨formCell r.bytes, decide (r.code = 0x3F) && decide (r.status = .accepted), false⟩
            starvationCount := passedOver s }) ∧
      (s.responseQueue = [] →
        (∀ n rest, s.noticeQueue = n :: rest →
          exec (.grant true) s = .next
            { s with
              downstreamReady := true
              noticeQueue := rest
              port := some ⟨formCell n.bytes, false, false⟩
              starvationCount := passedOver s }) ∧
        (s.noticeQueue = [] →
          (∀ f rest, s.forwardQueue = f :: rest →
            exec (.grant true) s = .next
              { s with
                downstreamReady := true
                forwardQueue := rest
                port := some ⟨f.body.cell, false, f.resetMark⟩
                starvationCount := passedOver s }) ∧
          (s.forwardQueue = [] →
            ∀ c rest, s.summaryQueue = c :: rest →
              exec (.grant true) s = .next
                { s with
                  downstreamReady := true
                  summaryQueue := rest
                  port := some ⟨formCell c.bytes, false, false⟩
                  starvationCount := 0 }))))) ∧
  ((∀ c, ForwardBody.cell (.received c) = c) ∧ (∀ c, ForwardBody.cell (.converted c) = formCell c.bytes) ∧
    (∀ h : Half, halfBytes h = [h.extractLsb' 8 8, h.extractLsb' 0 8]) ∧
    (∀ w : Word, wordBytes w = [w.extractLsb' 24 8, w.extractLsb' 16 8, w.extractLsb' 8 8, w.extractLsb' 0 8])) ∧
  ((∀ (register : Half) (bit : Bool),
      crcBit register bit = if register.getLsbD 15 = bit then register <<< 1 else (register <<< 1) ^^^ 0x1021) ∧
    crc16 [] = 0xFFFF ∧
    ∀ (l : List Byte) (b : Byte),
      crc16 (l ++ [b]) =
        crcBit (crcBit (crcBit (crcBit (crcBit (crcBit (crcBit (crcBit (crc16 l) (b.getLsbD 7)) (b.getLsbD 6)) (b.getLsbD 5))
          (b.getLsbD 4)) (b.getLsbD 3)) (b.getLsbD 2)) (b.getLsbD 1)) (b.getLsbD 0)) ∧
  (∀ (c : ConvertedCell) (q : Quality) (mark : BitVec 2), c.quality = q →
    (q.sequence, mark) ∈ [(SequenceMark.inOrder, (0 : BitVec 2)), (.gap, 1), (.repeated, 2), (.late, 3)] →
    (formCell c.bytes).val =
      withCheck
        ([0x11] ++ halfBytes c.output ++ halfBytes c.sequence ++ [c.generation] ++ wordBytes c.value ++ wordBytes c.rawEcho ++
          halfBytes
            (BitVec.ofBool q.faults.ovf ++ BitVec.ofBool q.faults.unf ++ BitVec.ofBool q.faults.dvz ++ BitVec.ofBool q.faults.mof ++
              BitVec.ofBool q.faults.rng ++ BitVec.ofBool q.faults.noref ++ mark ++ q.segmentMark ++ BitVec.ofBool q.held ++
              BitVec.ofBool q.zeroed ++ (0 : BitVec 4)) ++
          halfBytes c.segmentTag ++ halfBytes (BitVec.ofNat 16 c.slot.val) ++ [c.upstreamQuality, (0 : BitVec 4) ++ c.unit])) ∧
  (∀ (c : Summary) (cause : Byte),
    (c.cause, cause) ∈ [(ClosingCause.count, (0 : Byte)), (.epoch, 1), (.flush, 2), (.truncated, 3)] →
    (formCell c.bytes).val =
      withCheck
        ([0x12] ++ halfBytes c.output ++
          [c.windowSequence, cause,
            (0 : BitVec 2) ++ BitVec.ofBool c.faults.ovf ++ BitVec.ofBool c.faults.unf ++ BitVec.ofBool c.faults.dvz ++
              BitVec.ofBool c.faults.mof ++ BitVec.ofBool c.faults.rng ++ BitVec.ofBool c.faults.noref] ++
          wordBytes c.mean ++ wordBytes c.minimum ++ wordBytes c.maximum ++ halfBytes (BitVec.ofNat 16 c.counted) ++
          [c.missed, c.span])) ∧
  ((∀ (c : Response) (status : Byte),
      (c.status, status) ∈ [(Status.done, (0 : Byte)), (.accepted, 1), (.busy, 2), (.notFound, 3), (.duplicate, 4), (.full, 5),
        (.badOperand, 6), (.badCommand, 7), (.noWindow, 8)] →
      (formCell c.bytes).val =
        withCheck ([0x13, (0 : BitVec 4) ++ c.unit, c.tag, c.code, status, c.generation] ++ c.contents.val)) ∧
    ∀ l : List Byte, l.length ≤ 16 → (payload l).val = l ++ List.replicate (16 - l.length) 0) ∧
  ∀ (numbered lost : Half) (unit : UnitAddress),
    (∀ channel number raw slot generation q tag mark,
      (q.sequence, mark) ∈ [(SequenceMark.inOrder, (0 : BitVec 2)), (.gap, 1), (.repeated, 2), (.late, 3)] →
      NoticeSent numbered lost unit (.diverted channel number raw slot generation q tag) 1
        (halfBytes channel ++ halfBytes number ++ wordBytes raw ++ halfBytes (BitVec.ofNat 16 slot.val) ++ [generation] ++
          halfBytes
            (BitVec.ofBool q.faults.ovf ++ BitVec.ofBool q.faults.unf ++ BitVec.ofBool q.faults.dvz ++ BitVec.ofBool q.faults.mof ++
              BitVec.ofBool q.faults.rng ++ BitVec.ofBool q.faults.noref ++ mark ++ q.segmentMark ++ BitVec.ofBool q.held ++
              BitVec.ofBool q.zeroed ++ (0 : BitVec 4)) ++
          halfBytes tag)) ∧
    (∀ generation, NoticeSent numbered lost unit (.commitDone generation) 2 [generation]) ∧
    (∀ reason channel address generation code,
      (reason, code) ∈ [(VerifyReason.slotShared, (1 : Byte)), (.outShared, 2), (.form, 3), (.refMissing, 4), (.refRatio, 5),
        (.poolBounds, 6), (.limits, 7), (.shift, 8), (.linkDepth, 9)] →
      NoticeSent numbered lost unit (.commitFailed reason channel address generation) 3
        ([code] ++ halfBytes channel ++ halfBytes address ++ [generation])) ∧
    (∀ cause command tag generation code, (cause, code) ∈ [(CancelCause.edit, (0 : Byte)), (.abandon, 1)] →
      NoticeSent numbered lost unit (.commitCancelled cause command tag generation) 4 [code, command, tag, generation]) ∧
    (∀ generation cause code, (cause, code) ∈ [(MirrorCause.swap, (0 : Byte)), (.abandon, 1)] →
      NoticeSent numbered lost unit (.mirrorDone generation cause) 5 [generation, code]) ∧
    (∀ address tag command, NoticeSent numbered lost unit (.commandDiscarded address tag command) 6 [address, tag, command]) ∧
    (∀ first seen count code, (first, code) ∈ [(LinkReason.runt, (1 : Byte)), (.crc, 2), (.overrun, 3)] →
      NoticeSent numbered lost unit (.linkError first seen count) 7
        ([code, (0 : BitVec 5) ++ BitVec.ofBool seen.overrun ++ BitVec.ofBool seen.crc ++ BitVec.ofBool seen.runt] ++
          halfBytes count)) ∧
    ∀ cause generation code, (cause, code) ∈ [(ResetCause.power, (0 : Byte)), (.soft, 1)] →
      NoticeSent numbered lost unit (.resetDone cause generation) 8 [code, generation]

/-! ### The ingress port -/

/-- The framing events of R168: strobe, byte within a cell, byte outside one, and all of them under a reset. -/
def Obligations.ReceptionFollowsStrobes : Prop :=
  ∀ (s : State) (b : BitVec 8),
    (s.resetAsserted = false → s.commandUnit ≠ .resetting →
      (s.receiver = .idle →
        exec (.cellStartStrobe b) s = .next { s with receiver := .receiving [b] (decide (32 ≤ s.ingressBuffer.length)) } ∧
        exec (.byteWithoutTheStrobe b) s = .next s) ∧
      (∀ bytes overrun, s.receiver = .receiving bytes overrun →
        exec (.cellStartStrobe b) s = .next
          { s.badCell .runt with receiver := .receiving [b] (decide (32 ≤ s.ingressBuffer.length)) } ∧
        (bytes.length < 23 →
          exec (.byteWithoutTheStrobe b) s = .next { s with receiver := .receiving (bytes ++ [b]) overrun }))) ∧
    ((s.resetAsserted = true ∨ s.commandUnit = .resetting) →
      exec (.cellStartStrobe b) s = .next s ∧ exec (.byteWithoutTheStrobe b) s = .next s ∧ exec (.cellComplete b) s = .next s)

/-- The 24th byte completes the cell: OVERRUN first, then the check, and a good cell joins the buffer (R168, R169, R170, R171). -/
def Obligations.CellCompletes : Prop :=
  ∀ (s : State) (b : BitVec 8) (bytes : List Byte) (overrun : Bool) (cell : Cell) (c : Instr),
    s.resetAsserted = false → s.commandUnit ≠ .resetting → s.receiver = .receiving bytes overrun → cell.val = bytes ++ [b] →
    c = .cellComplete b ∨ c = .byteWithoutTheStrobe b →
    (overrun = true → exec c s = .next (State.badCell { s with receiver := .idle } .overrun)) ∧
    (overrun = false → cell.val.drop 22 = halfBytes (crc16 (cell.val.take 22)) →
      exec c s = .next { s with receiver := .idle, ingressBuffer := s.ingressBuffer ++ [cell] }) ∧
    (overrun = false → cell.val.drop 22 ≠ halfBytes (crc16 (cell.val.take 22)) →
      exec c s = .next (State.badCell { s with receiver := .idle } .crc))

/-- The three fates of a notice handed over; and a bad cell is counted and, while the enable is on, joins the waiting LINK ERROR notice or
generates one (R157, R160, R170). -/
def Obligations.NoticesHandedOver : Prop :=
  ((∀ (s : State) (body : NoticeBody),
     (s.noticeQueue.length < 32 →
       s.handNotice body =
         { s with
           noticeQueue := s.noticeQueue ++ [⟨s.noticeSequence, s.noticeLost, s.strap, body⟩]
           noticeSequence := s.noticeSequence + 1
           noticeLost := 0 }) ∧
     (32 ≤ s.noticeQueue.length → s.noticeLost.toNat < 65535 →
       s.handNotice body = { s with noticeSequence := s.noticeSequence + 1, noticeLost := s.noticeLost + 1 }) ∧
     (32 ≤ s.noticeQueue.length → s.noticeLost.toNat = 65535 → s.handNotice body = s)) ∧
   ∀ (s : State) (reason : LinkReason),
     (s.mode.linkErrorEnable = false → s.badCell reason = { s with badCells := satInc s.badCells }) ∧
     (s.mode.linkErrorEnable = true →
       (∀ before n first seen count after, s.noticeQueue = before ++ n :: after → n.body = .linkError first seen count →
         (∀ m ∈ before ++ after, m.body.isLinkError = false) →
         s.badCell reason =
           { s with
             badCells := satInc s.badCells
             noticeQueue := before ++ { n with body := .linkError first (seen.add reason) (satInc count) } :: after }) ∧
       ((∀ m ∈ s.noticeQueue, m.body.isLinkError = false) →
         s.badCell reason =
           State.handNotice { s with badCells := satInc s.badCells }
             (.linkError reason (LinkReasons.add ⟨false, false, false⟩ reason) 1)))) ∧
  (∀ c : Half, (satInc c).toNat = min 65535 (c.toNat + 1)) ∧
  ∀ seen : LinkReasons,
    seen.add .runt = ⟨true, seen.crc, seen.overrun⟩ ∧ seen.add .crc = ⟨seen.runt, true, seen.overrun⟩ ∧
      seen.add .overrun = ⟨seen.runt, seen.crc, true⟩

/-! ### Readings -/

/-- A reading of a channel that is not in the active directory is forwarded or discarded by the policy, and counted; and no reading is taken
while the Engine is not IDLE, the Forward Queue is full or a swap is pending (R56, R57). The fields of a READING cell by byte (R174), and what
the lookup by input channel id finds (R7). -/
def Obligations.UnknownReading : Prop :=
  ((∀ (s : State) (cell : Cell) (rest : List Cell), CellReady s cell rest → cellKind cell = 0x01 →
     s.tables.shadowState ≠ .swapPending → (∀ e ∈ s.tables.activeBank.directory, e.input ≠ readingChannel cell) →
     (s.mode.unknownPolicy = .forward →
       exec .takeReading s = .next
         { s with
           ingressBuffer := rest
           unknownChannels := satInc s.unknownChannels
           forwardQueue := s.forwardQueue ++ [⟨.received cell, false⟩] }) ∧
     (s.mode.unknownPolicy = .discard →
       exec .takeReading s = .next { s with ingressBuffer := rest, unknownChannels := satInc s.unknownChannels })) ∧
     ∀ s : State, s.engine ≠ .idle ∨ 16 ≤ s.forwardQueue.length ∨ s.tables.shadowState = .swapPending →
       exec .takeReading s = .next s) ∧
  (∀ cell : Cell, cellKind cell = cell.val.getD 0 0 ∧ readingChannel cell = cell.val.getD 1 0 ++ cell.val.getD 2 0 ∧
    readingSequence cell = cell.val.getD 3 0 ++ cell.val.getD 4 0 ∧
    readingRaw cell = (cell.val.getD 6 0 ++ cell.val.getD 7 0) ++ (cell.val.getD 8 0 ++ cell.val.getD 9 0) ∧
    readingUpstream cell = cell.val.getD 10 0) ∧
  ∀ (d : List Entry) (channel : ChannelId),
    (findChannel d channel = none ↔ ∀ e ∈ d, e.input ≠ channel) ∧
    ∀ e, findChannel d channel = some e → e ∈ d ∧ e.input = channel

/-- A reading that is not diverted and has no y is dropped; one that does not qualify ends with its CONVERTED cell, sent or absorbed
(R69, R72, R75). What the sequence check, the fault collection and the decision give, row by row (R62, R67 to R69, R76). -/
def Obligations.ReadingEndsUncounted : Prop :=
  (∀ (s : State) (cell : Cell) (rest : List Cell) (e : Entry) (r : Runtime) (d : Decided),
    ReadingReady s cell rest e r → ReadingConverts s cell e r d → (d.quality.faults.any && r.armed) = false →
    (d.y = none →
      exec .takeReading s = .next
        { s with
          ingressBuffer := rest
          slots := s.slots.put e.slot ⟨some { heard r cell d with dropCount := satInc r.dropCount }, false⟩ }) ∧
    (∀ y, d.y = some y → d.qualifies = false →
      exec .takeReading s = .next
        { s with
          ingressBuffer := rest
          slots := s.slots.put e.slot ⟨some (heard r cell d), false⟩
          forwardQueue := forwardAfter s cell e d })) ∧
  (∀ (r : Runtime) (n : Half),
    (r.live = false → sequenceCheck r n = ⟨.inOrder, 0, { r with live := true, lastSequence := n }⟩) ∧
    (r.live = true → ∀ d : Nat, d < 65536 → n.toNat = (r.lastSequence.toNat + d) % 65536 →
      (d = 0 → sequenceCheck r n = ⟨.repeated, 0, r⟩) ∧
      (d = 1 → sequenceCheck r n = ⟨.inOrder, 0, { r with lastSequence := n }⟩) ∧
      (2 ≤ d → d ≤ 32767 → sequenceCheck r n = ⟨.gap, d - 1, { r with lastSequence := n }⟩) ∧
      (32768 ≤ d → sequenceCheck r n = ⟨.late, 0, r⟩))) ∧
  (∀ (r : Runtime) (cell : Cell) (d : Decided),
    heard r cell d =
      { (sequenceCheck r (readingSequence cell)).runtime with
        sticky := (sequenceCheck r (readingSequence cell)).runtime.sticky.union d.quality.faults
        window := (sequenceCheck r (readingSequence cell)).runtime.window.map fun w =>
          { w with faults := w.faults.union d.quality.faults } }) ∧
  ∀ (form : OutputForm) (q : Sequenced) (c : Converted) (d : Decided), d = decideReading form q c →
    d.mark = q.mark ∧ d.missed = q.missed ∧ d.y = c.y ∧ d.tag = c.tag ∧ d.quality.sequence = q.mark ∧ d.quality.segmentMark = c.mark ∧
      d.quality.held = c.held ∧
      (d.quality.zeroed = true ↔
        c.zeroed = true ∨ (c.y = some 0 ∧ (c.faults.unf = true ∨ c.faults.dvz = true ∨ c.faults.noref = true))) ∧
      (c.y = none → d.quality.faults = c.faults) ∧
      (∀ y, c.y = some y →
        (form = .float → d.output = y ∧ d.quality.faults = c.faults) ∧
        ∀ k, form = .integer k →
          d.output.toInt = (fixToInteger y k).value ∧ d.quality.faults = c.faults.union (fixToInteger y k).faults) ∧
      (d.qualifies = true ↔
        (d.mark = .inOrder ∨ d.mark = .gap) ∧ (d.quality.faults = FaultSet.none ∨ d.quality.faults = FaultSet.ofMof))

/-- A qualifying reading becomes the last good value, is counted into the open window if there is one, and ends with its CONVERTED cell
(R73, R74, R75). -/
def Obligations.ReadingCounted : Prop :=
  ∀ (s : State) (cell : Cell) (rest : List Cell) (e : Entry) (r : Runtime) (d : Decided) (y : Word),
    ReadingReady s cell rest e r → ReadingConverts s cell e r d → (d.quality.faults.any && r.armed) = false →
    d.y = some y → d.qualifies = true →
    (∀ w length, (heard r cell d).window = some w → w.definition = .count length → w.counted + 1 < length) →
    exec .takeReading s = .next
      { s with
        ingressBuffer := rest
        slots := s.slots.put e.slot
          ⟨some
            { heard r cell d with
              lastGood := some y
              window := (heard r cell d).window.map fun w => w.count y d.missed }, false⟩
        forwardQueue := forwardAfter s cell e d }

/-- A reading that brings a COUNT window to its length closes it with its summary and a fresh window, or waits at that step while the
Summary Queue is full (R60, R73, R96, R100). -/
def Obligations.CountClosure : Prop :=
  ∀ (s : State) (cell : Cell) (rest : List Cell) (e : Entry) (r : Runtime) (d : Decided) (y : Word) (w : Window) (length : Nat),
    ReadingReady s cell rest e r → ReadingConverts s cell e r d → (d.quality.faults.any && r.armed) = false →
    d.y = some y → d.qualifies = true →
    (heard r cell d).window = some w → w.definition = .count length → length ≤ w.counted + 1 →
    (s.summaryQueue.length < 64 →
      exec .takeReading s = .next
        { s with
          ingressBuffer := rest
          slots := s.slots.put e.slot
            ⟨some
              { heard r cell d with
                lastGood := some y
                windowSequence := r.windowSequence + 1
                window := r.terms.window.map (Window.fresh s.epochCount) }, false⟩
          summaryQueue := s.summaryQueue ++
            [(w.count y d.missed).summary .count s.epochCount r.terms.output r.windowSequence]
          forwardQueue := forwardAfter s cell e d }) ∧
    (64 ≤ s.summaryQueue.length →
      exec .takeReading s = .next
        { s with
          ingressBuffer := rest
          slots := s.slots.put e.slot ⟨some (heard r cell d), false⟩
          engine := .waiting
            ⟨cell, s.tables.generation, e, true, none, .count ⟨y, d.missed, convertedOf s cell e d⟩⟩ })

/-- A waiting Engine whose count closure finds a Summary Queue place takes the step whole and ends its reading; without a place it waits on
(R60, R73). -/
def Obligations.EngineResumeClosesCount : Prop :=
  ∀ (s : State) (h : HeldReading) (c : CountStep) (r : Runtime) (w : Window) (length : Nat),
    s.engine = .waiting h → h.step = .count c → (s.slot h.entry.slot).runtime = some r → r.window = some w →
    w.definition = .count length → length ≤ w.counted + 1 →
    (s.summaryQueue.length < 64 →
      exec .engineResume s = .next
        { s with
          engine := .idle
          slots := s.slots.put h.entry.slot
            ⟨some
              { r with
                lastGood := some c.y
                windowSequence := r.windowSequence + 1
                window := r.terms.window.map (Window.fresh s.epochCount) }, (s.slot h.entry.slot).pending⟩
          summaryQueue := s.summaryQueue ++
            [(w.count c.y c.missed).summary .count s.epochCount r.terms.output r.windowSequence]
          forwardQueue :=
            if h.entry.emit then s.forwardQueue ++ [⟨.converted c.cell, false⟩] else s.forwardQueue }) ∧
    (64 ≤ s.summaryQueue.length → exec .engineResume s = .next s)

/-- A waiting Engine tries its slot preparation again (R58, R59, R60, R88, R93). Slots that have become ready: the reading goes on as one taken
now would, also while a swap is pending behind it (R126). A step of the preparation that finds its claim and its place is taken, and the rest goes
on from there; one that finds none leaves the reading waiting with its claims. That it
begins again with its first step is the model's reading (notes/assumptions/23.md). -/
def Obligations.ResumeRunsAsTaken : Prop :=
  (∀ (s : State) (h : HeldReading) (r : Runtime), s.engine = .waiting h → h.step = .prepare →
    h.generation = s.tables.generation →
    ReadingReady { s with engine := .idle, ingressBuffer := h.cell :: s.ingressBuffer } h.cell s.ingressBuffer h.entry r →
    exec .engineResume s = exec .takeReading { s with engine := .idle, ingressBuffer := h.cell :: s.ingressBuffer }) ∧
  (∀ (s : State) (h : HeldReading) (r : Runtime), s.engine = .waiting h → h.step = .prepare →
    h.generation = s.tables.generation → s.tables.shadowState = .swapPending →
    ReadingReady { setShadowState s .editable with engine := .idle, ingressBuffer := h.cell :: s.ingressBuffer } h.cell s.ingressBuffer
      h.entry r →
    ∀ t, exec .takeReading { setShadowState s .editable with engine := .idle, ingressBuffer := h.cell :: s.ingressBuffer } = .next t →
      exec .engineResume s = .next (setShadowState t .swapPending)) ∧
  ∀ (s : State) (h : HeldReading), s.engine = .waiting h → h.step = .prepare →
    (s.claimedByOther .engine h.entry.slot = true → exec .engineResume s = .next s) ∧
    (s.claimedByOther .engine h.entry.slot = false →
      (∀ t, s.reconcileSlot h.entry.slot = some t → exec .engineResume s = exec .engineResume t) ∧
      (s.reconcileSlot h.entry.slot = none → exec .engineResume s = .next { s with engine := .waiting { h with ownClaim := true } }) ∧
      ((s.slot h.entry.slot).pending = false →
        (∀ reference gain f, h.entry.conversion = .ratio reference gain →
          findChannel s.tables.activeBank.directory reference = some f →
          (s.claimedByOther .engine f.slot = true →
            exec .engineResume s = .next { s with engine := .waiting { h with ownClaim := true } }) ∧
          (s.claimedByOther .engine f.slot = false →
            (∀ t, s.reconcileSlot f.slot = some t → exec .engineResume s = exec .engineResume t) ∧
            (s.reconcileSlot f.slot = none →
              exec .engineResume s = .next
                { s with engine := .waiting { h with ownClaim := true, referenceClaim := some f.slot } }) ∧
            ((s.slot f.slot).pending = false →
              (∀ t, WindowsWellFormed s → s.closeDue h.entry.slot = some t → exec .engineResume s = exec .engineResume t) ∧
              (s.closeDue h.entry.slot = none →
                exec .engineResume s = .next
                  { s with engine := .waiting { h with ownClaim := true, referenceClaim := some f.slot } })))) ∧
        (h.entry.conversion.isRatio = false →
          (∀ t, WindowsWellFormed s → s.closeDue h.entry.slot = some t → exec .engineResume s = exec .engineResume t) ∧
          (s.closeDue h.entry.slot = none →
            exec .engineResume s = .next { s with engine := .waiting { h with ownClaim := true } }))))

/-- A faulted reading of an armed slot is diverted and disarms it: its notice enters the Notice Queue, or is lost and the reading's
CONVERTED cell is the substitute where it has a y and its entry emits; a notice lost at a lost counter of 65535 takes no number
(R70, R71, R157). -/
def Obligations.ReadingDiverted : Prop :=
  ∀ (s : State) (cell : Cell) (rest : List Cell) (e : Entry) (r : Runtime) (d : Decided),
    ReadingReady s cell rest e r → ReadingConverts s cell e r d → d.quality.faults.any = true → r.armed = true →
    (s.noticeQueue.length < 32 →
      exec .takeReading s = .next
        { s with
          ingressBuffer := rest
          slots := s.slots.put e.slot ⟨some { heard r cell d with armed := false }, false⟩
          noticeQueue := s.noticeQueue ++
            [⟨s.noticeSequence, s.noticeLost, s.strap,
              .diverted (readingChannel cell) (readingSequence cell) (readingRaw cell) e.slot s.tables.generation d.quality d.tag⟩]
          noticeSequence := s.noticeSequence + 1
          noticeLost := 0 }) ∧
    (32 ≤ s.noticeQueue.length → s.noticeLost.toNat < 65535 →
      exec .takeReading s = .next
        { s with
          ingressBuffer := rest
          slots := s.slots.put e.slot ⟨some { heard r cell d with armed := false }, false⟩
          noticeSequence := s.noticeSequence + 1
          noticeLost := s.noticeLost + 1
          forwardQueue := if d.y = none then s.forwardQueue else forwardAfter s cell e d }) ∧
    (32 ≤ s.noticeQueue.length → s.noticeLost.toNat = 65535 →
      exec .takeReading s = .next
        { s with
          ingressBuffer := rest
          slots := s.slots.put e.slot ⟨some { heard r cell d with armed := false }, false⟩
          forwardQueue := if d.y = none then s.forwardQueue else forwardAfter s cell e d })

/-- The slot preparation: a reading of a pending slot is the reading of the slot reconciled, a RATIO reading whose reference slot is pending is
the reading with that slot reconciled, and a reading of a slot whose window is due is the reading of the slot with that window closed
(R58, R59, R88, R93). What reconciling a slot does, every row of R90 and R91, and what closing a due window does (R107). -/
def Obligations.SlotPreparedBeforeReading : Prop :=
  (∀ (s t : State) (cell : Cell) (rest : List Cell) (e : Entry), CellReady s cell rest → cellKind cell = 0x01 →
     s.tables.shadowState ≠ .swapPending → findChannel s.tables.activeBank.directory (readingChannel cell) = some e →
     s.claimedByOther .engine e.slot = false →
     (s.reconcileSlot e.slot = some t → exec .takeReading s = exec .takeReading t) ∧
     ((s.slot e.slot).pending = false →
       (∀ reference gain f, e.conversion = .ratio reference gain → findChannel s.tables.activeBank.directory reference = some f →
         s.claimedByOther .engine f.slot = false →
         (s.reconcileSlot f.slot = some t → exec .takeReading s = exec .takeReading t) ∧
         ((s.slot f.slot).pending = false → WindowsWellFormed s → s.closeDue e.slot = some t →
           exec .takeReading s = exec .takeReading t)) ∧
       (e.conversion.isRatio = false → WindowsWellFormed s → s.closeDue e.slot = some t →
         exec .takeReading s = exec .takeReading t))) ∧
  ∀ (s : State) (i : SlotId), ReconcileSays s i (s.reconcileSlot i) ∧ CloseDueSays s i (s.closeDue i)

/-- A reading waits, with nothing changed but its taking, while another party holds its slot's claim, with that claim held while its preparation
needs a Summary Queue place, and, for a RATIO reading, for its reference slot's claim, and with both claims held for a place
(R58, R59, R60, R88, R93). -/
def Obligations.ReadingWaitsForSlot : Prop :=
  ∀ (s : State) (cell : Cell) (rest : List Cell) (e : Entry), CellReady s cell rest → cellKind cell = 0x01 →
    s.tables.shadowState ≠ .swapPending → findChannel s.tables.activeBank.directory (readingChannel cell) = some e →
    (s.claimedByOther .engine e.slot = true →
      exec .takeReading s = .next
        { s with ingressBuffer := rest, engine := .waiting ⟨cell, s.tables.generation, e, false, none, .prepare⟩ }) ∧
    (s.claimedByOther .engine e.slot = false →
      (s.reconcileSlot e.slot = none ∨ ((s.slot e.slot).pending = false ∧ e.conversion.isRatio = false ∧ s.closeDue e.slot = none) →
        exec .takeReading s = .next
          { s with ingressBuffer := rest, engine := .waiting ⟨cell, s.tables.generation, e, true, none, .prepare⟩ }) ∧
      ((s.slot e.slot).pending = false →
        ∀ reference gain f, e.conversion = .ratio reference gain → findChannel s.tables.activeBank.directory reference = some f →
          (s.claimedByOther .engine f.slot = true →
            exec .takeReading s = .next
              { s with ingressBuffer := rest, engine := .waiting ⟨cell, s.tables.generation, e, true, none, .prepare⟩ }) ∧
          (s.claimedByOther .engine f.slot = false →
            s.reconcileSlot f.slot = none ∨ ((s.slot f.slot).pending = false ∧ s.closeDue e.slot = none) →
            exec .takeReading s = .next
              { s with
                ingressBuffer := rest
                engine := .waiting ⟨cell, s.tables.generation, e, true, some f.slot, .prepare⟩ })))

/-- What counting a reading does to an open window, and to an EPOCH window that already holds 4096 (R97, R98, R99); the SUMMARY cell of a
closing, field by field (R101, R102); and the mean of a sum, digit by digit (R53). -/
def Obligations.WindowCountsReading : Prop :=
  (∀ (w : Window) (y : Word) (missed : Nat),
    ((∀ span, w.definition = .epoch span → w.counted < 4096) →
      w.count y missed =
        { w with
          counted := w.counted + 1
          missed := BitVec.ofNat 8 (min 255 (w.missed.toNat + missed))
          sum := (wideAdd w.sum y).value
          faults := w.faults.union (wideAdd w.sum y).faults
          extremes :=
            match w.extremes with
            | none => some ⟨y, y⟩
            | some x =>
              some ⟨if isBelow y x.minimum then y else x.minimum, if isBelow x.maximum y then y else x.maximum⟩ }) ∧
    (∀ span, w.definition = .epoch span → 4096 ≤ w.counted →
      w.count y missed = { w with missed := BitVec.ofNat 8 (min 255 (w.missed.toNat + missed + 1)) })) ∧
  (∀ (w : Window) (cause : ClosingCause) (epoch : Word) (output : ChannelId) (sequence : Byte) (c : Summary),
    c = w.summary cause epoch output sequence →
    c.output = output ∧ c.windowSequence = sequence ∧ c.cause = cause ∧ c.counted = w.counted ∧ c.missed = w.missed ∧
      c.mean = (windowMean w.sum w.counted).value ∧ c.faults = w.faults.union (windowMean w.sum w.counted).faults ∧
      (∀ x, w.extremes = some x → c.minimum = x.minimum ∧ c.maximum = x.maximum) ∧
      (∀ length, w.definition = .count length → c.span = 0) ∧
      ∀ span, w.definition = .epoch span → c.span.toNat = min 255 (epoch - w.openedAt).toNat) ∧
  ∀ (sum : WideFloat) (c digits f g : Nat), 1 ≤ c → c ≤ 4096 → 1 ≤ digits → 16 ^ (digits - 1) ≤ c → c < 16 ^ digits →
    f = sum.fraction.toNat → g = c * 16 ^ (10 - digits) →
    (f = 0 → windowMean sum c = ⟨0, FaultSet.none⟩) ∧
    ∀ (shift quotient : Nat) (exponent : Int), f ≠ 0 → shift = (if g ≤ f then 1 else 0) → quotient = f * 16 ^ (10 - shift) / g →
      exponent = (sum.exponent.toNat : Int) - 64 + shift - digits →
      windowMean sum c =
        if exponent < -64 then ⟨0, FaultSet.ofUnf⟩ else ⟨pack ⟨sum.negative, exponent, quotient / 16 ^ 4⟩, FaultSet.none⟩

/-! ### Conversion and arithmetic -/

/-- R64: the conversion kinds NONE and LINEAR. -/
def Obligations.NoneAndLinear : Prop :=
  ∀ (pool : Memory) (e : Entry) (raw : Word) (lastGood reference : Option Word),
    (e.conversion = .none →
      convertRaw pool e raw lastGood reference =
        .ok ⟨some (inputValue raw e.inputForm).value, (inputValue raw e.inputForm).faults, false, false, 0, 0⟩) ∧
    ∀ gain offset, e.conversion = .linear gain offset →
      convertRaw pool e raw lastGood reference =
        .ok ⟨some (addFloat (multiplyFloat (inputValue raw e.inputForm).value gain).value offset).value,
          ((inputValue raw e.inputForm).faults.union (multiplyFloat (inputValue raw e.inputForm).value gain).faults).union
            (addFloat (multiplyFloat (inputValue raw e.inputForm).value gain).value offset).faults, false, false, 0, 0⟩ ∧
      (isZeroFloat gain = true → isNormalized offset = true ∨ isZeroFloat offset = true →
        convertRaw pool e raw lastGood reference =
          .ok ⟨some (if isZeroFloat offset then trueZero else offset), (inputValue raw e.inputForm).faults, false, false, 0, 0⟩) ∧
      (isZeroFloat offset = true → isNormalized gain = true ∨ isZeroFloat gain = true →
        convertRaw pool e raw lastGood reference =
          .ok ⟨some (multiplyFloat (inputValue raw e.inputForm).value gain).value,
            (inputValue raw e.inputForm).faults.union (multiplyFloat (inputValue raw e.inputForm).value gain).faults,
            false, false, 0, 0⟩)

/-- The three rows of the RATIO conversion (R66). -/
def Obligations.RatioRows : Prop :=
  ∀ (pool : Memory) (e : Entry) (raw : Word) (lastGood : Option Word) (channel : ChannelId) (gain : Word),
    e.conversion = .ratio channel gain →
    (∃ c, convertRaw pool e raw lastGood none = .ok c ∧ c.y = some 0 ∧
      c.faults = (inputValue raw e.inputForm).faults.union ⟨false, false, false, false, false, true⟩ ∧ zeroedMark c = true) ∧
    ∀ v,
      (isZeroFloat v = true →
        ∃ c, convertRaw pool e raw lastGood (some v) = .ok c ∧ c.y = some 0 ∧
          c.faults = (inputValue raw e.inputForm).faults.union ⟨false, false, true, false, false, false⟩ ∧ zeroedMark c = true) ∧
      (isZeroFloat v = false →
        convertRaw pool e raw lastGood (some v) =
          .ok ⟨some (multiplyFloat (divideFloat (inputValue raw e.inputForm).value v).value gain).value,
            ((inputValue raw e.inputForm).faults.union (divideFloat (inputValue raw e.inputForm).value v).faults).union
              (multiplyFloat (divideFloat (inputValue raw e.inputForm).value v).value gain).faults, false, false, 0, 0⟩)

/-- What a lookup does at one table: a miss outside the limits or at EMPTY with each miss action, a straight line at SEGMENT, a value at
CONSTANT, the next table at LINK (R23 to R29). A SEGMENTED entry's lookup begins at its table with four tables allowed (R22, R27), and the fields of
a header word and of an entry word by bit (R19, R20, R180). -/
def Obligations.SegmentLookupAtOneTable : Prop :=
  (∀ (pool : Memory) (r : Int) (lastGood : Option Word) (tables address : Nat) (h : Header) (b : Int) (e : EntryWord),
     h = headerOfWord (Memory.read pool address) →
     b = (if h.symmetric then (r.natAbs : Int) else r).fdiv (2 ^ h.shift) →
     e = entryOfWord (Memory.read pool (address + 1 + (b - h.low).toNat)) →
     ((b < h.low ∨ h.high < b) ∨ (address + 1 + (b - h.low).toNat ≤ 4095 ∧ e.kind = .empty) →
       (h.miss = .passRaw →
         segmentLookup pool r lastGood (tables + 1) address =
           .ok ⟨some (ofInteger r), FaultSet.ofRng, false, false, 0, 0⟩) ∧
       (h.miss = .holdLast →
         segmentLookup pool r lastGood (tables + 1) address =
           .ok ⟨some (lastGood.getD 0), FaultSet.ofRng, lastGood.isSome, lastGood.isNone, 0, 0⟩) ∧
       (h.miss = .drop →
         segmentLookup pool r lastGood (tables + 1) address = .ok ⟨none, FaultSet.ofRng, false, false, 0, 0⟩) ∧
       (h.miss = .zero →
         segmentLookup pool r lastGood (tables + 1) address = .ok ⟨some 0, FaultSet.ofRng, false, true, 0, 0⟩)) ∧
     (h.low ≤ b → b ≤ h.high → address + 1 + (b - h.low).toNat ≤ 4095 →
       (e.kind = .link → segmentLookup pool r lastGood (tables + 1) address = segmentLookup pool r lastGood tables e.target) ∧
       (e.kind = .constant →
         segmentLookup pool r lastGood (tables + 1) address =
           .ok ⟨some
               (if h.symmetric && decide (r < 0) then negate (normalizeOnEntry (Memory.read pool e.target)).value
                 else (normalizeOnEntry (Memory.read pool e.target)).value),
             (normalizeOnEntry (Memory.read pool e.target)).faults, false, false, e.tag, e.mark⟩) ∧
       ∀ gain offset x product sum, gain = normalizeOnEntry (Memory.read pool e.target) →
         offset = normalizeOnEntry (Memory.read pool (e.target + 1)) →
         x = ofInteger (if h.symmetric then (r.natAbs : Int) else r) → product = multiplyFloat x gain.value →
         sum = addFloat product.value offset.value → e.kind = .segment → e.target + 1 ≤ 4095 →
         segmentLookup pool r lastGood (tables + 1) address =
           .ok ⟨some (if h.symmetric && decide (r < 0) then negate sum.value else sum.value),
             ((gain.faults.union offset.faults).union product.faults).union sum.faults, false, false, e.tag, e.mark⟩)) ∧
  (∀ (pool : Memory) (e : Entry) (raw : Word) (lastGood reference : Option Word) (table : BitVec 12), e.conversion = .segmented table →
    (e.inputForm = .int16 →
      convertRaw pool e raw lastGood reference = segmentLookup pool (raw.extractLsb' 0 16).toInt lastGood 4 table.toNat) ∧
    (e.inputForm = .int24 →
      convertRaw pool e raw lastGood reference = segmentLookup pool (raw.extractLsb' 0 24).toInt lastGood 4 table.toNat) ∧
    (e.inputForm = .uint16 →
      convertRaw pool e raw lastGood reference = segmentLookup pool (raw.extractLsb' 0 16).toNat lastGood 4 table.toNat)) ∧
  ∀ w : Word,
    (∃ miss, (w.extractLsb' 1 2, miss) ∈ [((0 : BitVec 2), MissAction.passRaw), (1, .holdLast), (2, .drop), (3, .zero)] ∧
      headerOfWord w =
        ⟨(w.extractLsb' 20 12).toInt, (w.extractLsb' 8 12).toInt, (w.extractLsb' 3 5).toNat, miss, w.getLsbD 0⟩) ∧
    ∃ kind, (w.extractLsb' 30 2, kind) ∈ [((0 : BitVec 2), WordKind.empty), (1, .segment), (2, .link), (3, .constant)] ∧
      entryOfWord w = ⟨kind, w.extractLsb' 28 2, (w.extractLsb' 16 12).toNat, w.extractLsb' 0 16⟩

/-- R45: a subtract is an add of the negation. -/
def Obligations.SubtractAddsNegation : Prop :=
  (∀ a b : Word, subtractFloat a b = addFloat a (negate b)) ∧
    (∀ a b : Word, isNormalized a = true → isZeroFloat b = true → subtractFloat a b = ⟨a, FaultSet.none⟩) ∧
    (∀ a b : Word, isZeroFloat a = true → isNormalized b = true →
      subtractFloat a b = ⟨b ^^^ 0x80000000, FaultSet.none⟩) ∧
    (∀ a b : Word, isZeroFloat a = true → isZeroFloat b = true → subtractFloat a b = ⟨0, FaultSet.none⟩) ∧
    ∀ a : Word, isNormalized a = true → subtractFloat a a = ⟨0, FaultSet.none⟩

/-- R49: compare orders reading floats by their algebraic values, and a window keeps its extremes with it. -/
def Obligations.CompareOrdersValues : Prop :=
  (∀ a z : Word, isNormalized a = true → isZeroFloat z = true →
    (isBelow a z = a.getLsbD 31) ∧ (isBelow z a = !a.getLsbD 31)) ∧
    (∀ y z : Word, isZeroFloat y = true → isZeroFloat z = true → isBelow y z = false) ∧
    (∀ a b : Word, isNormalized a = true → isNormalized b = true →
      (a.getLsbD 31 = true → b.getLsbD 31 = false → isBelow a b = true ∧ isBelow b a = false) ∧
      (a.getLsbD 31 = false → b.getLsbD 31 = false →
        (isBelow a b = true ↔ (unpack a).exponent < (unpack b).exponent ∨
          ((unpack a).exponent = (unpack b).exponent ∧ (unpack a).fraction < (unpack b).fraction))) ∧
      (a.getLsbD 31 = true → b.getLsbD 31 = true →
        (isBelow a b = true ↔ (unpack b).exponent < (unpack a).exponent ∨
          ((unpack a).exponent = (unpack b).exponent ∧ (unpack b).fraction < (unpack a).fraction))) ∧
      ((isBelow a b = false ∧ isBelow b a = false) ↔ a = b)) ∧
    ∀ (y : Word) (x : Extremes),
      Extremes.add y none = ⟨y, y⟩ ∧
      Extremes.add y (some x) =
        ⟨if isBelow y x.minimum then y else x.minimum, if isBelow x.maximum y then y else x.maximum⟩

/-- R52: narrowing truncates a wide float to its first six digits. -/
def Obligations.NarrowingTruncates : Prop :=
  narrow WideFloat.zero.unpack = 0 ∧
    ∀ w : WideFloat, w.fraction.extractLsb' 36 4 ≠ 0 →
      unpack (narrow w.unpack) = ⟨w.negative, (w.exponent.toNat : Int) - 64, (w.fraction.extractLsb' 16 24).toNat⟩ ∧
      isNormalized (narrow w.unpack) = true ∧
      (w.exponent = 127 → w.fraction = BitVec.allOnes 40 →
        narrow w.unpack = BitVec.ofBool w.negative ++ (BitVec.allOnes 31))

/-- Every value that an operation forms is normalized or true zero, the wide add and the mean included (R36, R51, R53); negation and magnitude
change the sign alone (R40). And the values themselves, digit by digit with OVF, UNF and DVZ: the fields of a reading float and of a wide float
(R35, R50, R175), the entry of integers, of FLOAT raw values and of pool words (R38, R39), add (R41 to R44), multiply (R46), divide (R47) and the
wide add (R51); the union of mark sets (R37). That the marks of a wide add to a sum held at the largest magnitude are those of the rule's
table is the model's choice (notes/assumptions/26.md). -/
def Obligations.ArithmeticResultsNormalized : Prop :=
  ((∀ a b : Word, (isNormalized a = true ∨ isZeroFloat a = true) → (isNormalized b = true ∨ isZeroFloat b = true) →
    ∀ f ∈ [addFloat a b, subtractFloat a b, multiplyFloat a b, divideFloat a b], isNormalized f.value = true ∨ f.value = 0) ∧
    (∀ w : Word, isNormalized (normalizeOnEntry w).value = true ∨ (normalizeOnEntry w).value = 0) ∧
    (∀ n : Int, n.natAbs < 16 ^ 6 → isNormalized (ofInteger n) = true ∨ ofInteger n = 0) ∧
    (∀ w : Word,
      (isNormalized w = true →
        isNormalized (negate w) = true ∧ unpack (negate w) = { unpack w with negative := !(unpack w).negative } ∧
          isNormalized (magnitude w) = true ∧ unpack (magnitude w) = { unpack w with negative := false }) ∧
      (isZeroFloat w = true → negate w = 0 ∧ magnitude w = 0)) ∧
    ∀ sum : WideFloat, sum.fraction.extractLsb' 36 4 ≠ 0 ∨ sum = WideFloat.zero →
      (∀ y : Word, isNormalized y = true ∨ isZeroFloat y = true →
        (wideAdd sum y).value.fraction.extractLsb' 36 4 ≠ 0 ∨ (wideAdd sum y).value = WideFloat.zero) ∧
      ∀ c : Nat, 1 ≤ c → c ≤ 4096 → isNormalized (windowMean sum c).value = true ∨ (windowMean sum c).value = 0) ∧
  (FaultSet.none = ⟨false, false, false, false, false, false⟩ ∧ FaultSet.ofOvf = ⟨true, false, false, false, false, false⟩ ∧
    FaultSet.ofUnf = ⟨false, true, false, false, false, false⟩ ∧ FaultSet.ofDvz = ⟨false, false, true, false, false, false⟩ ∧
    FaultSet.ofMof = ⟨false, false, false, true, false, false⟩ ∧ FaultSet.ofRng = ⟨false, false, false, false, true, false⟩ ∧
    FaultSet.ofNoref = ⟨false, false, false, false, false, true⟩ ∧
    ∀ f g : FaultSet,
      f.union g = ⟨f.ovf || g.ovf, f.unf || g.unf, f.dvz || g.dvz, f.mof || g.mof, f.rng || g.rng, f.noref || g.noref⟩ ∧
      (f.any = false ↔ f = FaultSet.none)) ∧
  ((∀ w : Word, unpack w = ⟨w.getLsbD 31, ((w.extractLsb' 24 7).toNat : Int) - 64, (w.extractLsb' 0 24).toNat⟩ ∧
      (isNormalized w = true ↔ w.extractLsb' 20 4 ≠ 0) ∧ (isZeroFloat w = true ↔ w.extractLsb' 0 24 = 0)) ∧
    (∀ sum : WideFloat, sum.unpack = ⟨sum.negative, (sum.exponent.toNat : Int) - 64, sum.fraction.toNat⟩) ∧
    ∀ u : Unpacked,
      (u.fraction = 0 → pack u = 0 ∧ WideFloat.pack u = ⟨false, 0, 0⟩) ∧
      (-64 ≤ u.exponent → u.exponent ≤ 63 → u.fraction ≠ 0 →
        (u.fraction < 16 ^ 6 → unpack (pack u) = u) ∧ (u.fraction < 16 ^ 10 → (WideFloat.pack u).unpack = u))) ∧
  (ofInteger 0 = 0 ∧
    (∀ (n : Int) (d : Nat), 1 ≤ d → d ≤ 6 → 16 ^ (d - 1) ≤ n.natAbs → n.natAbs < 16 ^ d →
      ofInteger n = pack ⟨decide (n < 0), d, n.natAbs * 16 ^ (6 - d)⟩) ∧
    (∀ raw : Word,
      inputValue raw .int16 = ⟨ofInteger (raw.extractLsb' 0 16).toInt, FaultSet.none⟩ ∧
      inputValue raw .int24 = ⟨ofInteger (raw.extractLsb' 0 24).toInt, FaultSet.none⟩ ∧
      inputValue raw .uint16 = ⟨ofInteger (raw.extractLsb' 0 16).toNat, FaultSet.none⟩ ∧
      inputValue raw .float = normalizeOnEntry raw) ∧
    ∀ (w : Word) (u : Unpacked), u = unpack w →
      (u.fraction = 0 → normalizeOnEntry w = ⟨0, FaultSet.none⟩) ∧
      (16 ^ 5 ≤ u.fraction → normalizeOnEntry w = ⟨w, FaultSet.none⟩) ∧
      ∀ k : Nat, 1 ≤ k → k ≤ 5 → 16 ^ (5 - k) ≤ u.fraction → u.fraction < 16 ^ (6 - k) →
        (-64 ≤ u.exponent - k →
          normalizeOnEntry w = ⟨pack ⟨u.negative, u.exponent - k, u.fraction * 16 ^ k⟩, FaultSet.none⟩) ∧
        (u.exponent - k < -64 → normalizeOnEntry w = ⟨0, FaultSet.ofUnf⟩)) ∧
  (∀ (a b : Word) (u v : Unpacked), u = unpack a → v = unpack b →
    (isZeroFloat a = true → isZeroFloat b = true → addFloat a b = ⟨0, FaultSet.none⟩) ∧
    (isNormalized a = true → isZeroFloat b = true →
      addFloat a b = ⟨a, FaultSet.none⟩ ∧ addFloat b a = ⟨a, FaultSet.none⟩) ∧
    (isNormalized a = true → isNormalized b = true → v.exponent ≤ u.exponent →
      ∃ r, Added 6 u v r ∧ addFloat a b = ⟨pack r.value, r.faults⟩ ∧ addFloat b a = ⟨pack r.value, r.faults⟩)) ∧
  (∀ (a b : Word) (u v : Unpacked) (negative : Bool), u = unpack a → v = unpack b → negative = (u.negative != v.negative) →
    (isZeroFloat a = true ∨ isZeroFloat b = true → multiplyFloat a b = ⟨0, FaultSet.none⟩) ∧
    (isZeroFloat b = true → divideFloat a b = ⟨0, FaultSet.ofDvz⟩) ∧
    (isZeroFloat a = true → isNormalized b = true → divideFloat a b = ⟨0, FaultSet.none⟩) ∧
    (isNormalized a = true → isNormalized b = true →
      (∀ p : Nat, p = u.fraction * v.fraction →
        (16 ^ 11 ≤ p →
          ∃ r, Ranged 6 ⟨negative, u.exponent + v.exponent, p / 16 ^ 6⟩ r ∧ multiplyFloat a b = ⟨pack r.value, r.faults⟩) ∧
        (p < 16 ^ 11 →
          ∃ r, Ranged 6 ⟨negative, u.exponent + v.exponent - 1, p / 16 ^ 5⟩ r ∧ multiplyFloat a b = ⟨pack r.value, r.faults⟩)) ∧
      (v.fraction ≤ u.fraction →
        ∃ r, Ranged 6 ⟨negative, u.exponent + 1 - v.exponent, u.fraction * 16 ^ 5 / v.fraction⟩ r ∧
          divideFloat a b = ⟨pack r.value, r.faults⟩) ∧
      (u.fraction < v.fraction →
        ∃ r, Ranged 6 ⟨negative, u.exponent - v.exponent, u.fraction * 16 ^ 6 / v.fraction⟩ r ∧
          divideFloat a b = ⟨pack r.value, r.faults⟩))) ∧
  ∀ (sum : WideFloat) (y : Word) (u v : Unpacked), u = sum.unpack →
    v = ⟨(unpack y).negative, (unpack y).exponent, (unpack y).fraction * 16 ^ 4⟩ →
    (sum.fraction = 0 → isZeroFloat y = true → wideAdd sum y = ⟨⟨false, 0, 0⟩, FaultSet.none⟩) ∧
    (sum.fraction ≠ 0 → isZeroFloat y = true → wideAdd sum y = ⟨sum, FaultSet.none⟩) ∧
    (sum.fraction = 0 → isNormalized y = true → wideAdd sum y = ⟨WideFloat.pack v, FaultSet.none⟩) ∧
    (sum.fraction.extractLsb' 36 4 ≠ 0 → isNormalized y = true →
      (v.exponent ≤ u.exponent → ∃ r, Added 10 u v r ∧ wideAdd sum y = ⟨WideFloat.pack r.value, r.faults⟩) ∧
      (u.exponent ≤ v.exponent → ∃ r, Added 10 v u r ∧ wideAdd sum y = ⟨WideFloat.pack r.value, r.faults⟩))

/-- Fix to integer: its cases by e + k, its limits with MOF, and every integer of the output range comes back as itself (R48). -/
def Obligations.FixToIntegerRows : Prop :=
  (∀ (y : Word) (k : Int), isZeroFloat y = true → fixToInteger y k = ⟨0, FaultSet.none⟩) ∧
    (∀ (y : Word) (k : Int), isNormalized y = true →
      ((unpack y).exponent + k ≤ 0 → fixToInteger y k = ⟨0, FaultSet.none⟩) ∧
      (7 ≤ (unpack y).exponent + k →
        fixToInteger y k = ⟨if y.getLsbD 31 then -8388608 else 8388607, FaultSet.ofMof⟩) ∧
      ∀ n : Nat, 1 ≤ n → n ≤ 6 → (unpack y).exponent + k = n → ∀ m : Nat, m = (unpack y).fraction / 16 ^ (6 - n) →
        fixToInteger y k =
          if y.getLsbD 31 then (if m ≤ 8388608 then ⟨-(m : Int), FaultSet.none⟩ else ⟨-8388608, FaultSet.ofMof⟩)
          else if m ≤ 8388607 then ⟨(m : Int), FaultSet.none⟩
          else ⟨8388607, FaultSet.ofMof⟩) ∧
    ∀ n : Int, -8388608 ≤ n → n ≤ 8388607 → fixToInteger (ofInteger n) 0 = ⟨n, FaultSet.none⟩

/-! ### The Classifier -/

/-- An EPOCH cell and a cell that only passes through (R106, R108, R135, R172). -/
def Obligations.EpochAndPassThrough : Prop :=
  ∀ (s : State) (cell : Cell) (rest : List Cell), CellReady s cell rest →
    (cellKind cell = 0x02 →
      exec .takeEpoch s = .next
        { s with
          ingressBuffer := rest
          epochCount := s.epochCount + 1
          sweep := if s.sweep.inFlight then { s.sweep with rescan := true } else ⟨true, ⟨0, by decide⟩, false, false⟩
          forwardQueue := s.forwardQueue ++ [⟨.received cell, false⟩] }) ∧
    ((cellKind cell ≠ 0x01 ∧ cellKind cell ≠ 0x02 ∧ cellKind cell ≠ 0x03) ∨
        (cellKind cell = 0x03 ∧ commandAddress cell ≠ 15 ∧ (commandAddress cell).toNat ≠ s.strap.toNat) →
      exec .passThroughCell s = .next
        { s with ingressBuffer := rest, forwardQueue := s.forwardQueue ++ [⟨.received cell, false⟩] })

/-- A command for this unit is admitted or discarded; a broadcast is forwarded as well, marked where it is an admitted RESET PART
(R135, R136, R154). The fields of a COMMAND cell and its payload by byte (R174). -/
def Obligations.TakeCommandRoutes : Prop :=
  (∀ (s : State) (cell : Cell) (rest : List Cell), s.ingressBuffer = cell :: rest → cellKind cell = 0x03 → s.engine = .idle →
     ((commandAddress cell).toNat = s.strap.toNat → commandAddress cell ≠ 15 →
       (s.commandQueue.length < 8 →
         exec .takeCommand s = .next { s with ingressBuffer := rest, commandQueue := s.commandQueue ++ [cell] }) ∧
       (8 ≤ s.commandQueue.length →
         exec .takeCommand s = .next
           (State.handNotice { s with ingressBuffer := rest, discardedCommands := satInc s.discardedCommands }
             (.commandDiscarded (commandAddress cell) (commandTag cell) (commandCode cell))))) ∧
     (commandAddress cell = 15 → s.forwardQueue.length < 16 →
       (s.commandQueue.length < 8 →
         exec .takeCommand s = .next
           { s with
             ingressBuffer := rest
             forwardQueue := s.forwardQueue ++ [⟨.received cell, decide (commandCode cell = 0x3F)⟩]
             commandQueue := s.commandQueue ++ [cell] }) ∧
       (8 ≤ s.commandQueue.length →
         exec .takeCommand s = .next
           (State.handNotice { s with
               ingressBuffer := rest
               forwardQueue := s.forwardQueue ++ [⟨.received cell, false⟩]
               discardedCommands := satInc s.discardedCommands }
             (.commandDiscarded (commandAddress cell) (commandTag cell) (commandCode cell)))))) ∧
  ∀ (cell : Cell) (i : Nat), commandAddress cell = cell.val.getD 1 0 ∧ commandTag cell = cell.val.getD 2 0 ∧
    commandCode cell = cell.val.getD 3 0 ∧ commandKey cell = cell.val.getD 4 0 ++ cell.val.getD 5 0 ∧
    payloadByte cell i = cell.val.getD (6 + i) 0 ∧ payloadHalf cell i = payloadByte cell i ++ payloadByte cell (i + 1) ∧
    payloadWord cell i = payloadHalf cell i ++ payloadHalf cell (i + 2)

/-! ### Identification, status and mode -/

/-- R142: IDENTIFY. -/
def Obligations.Identify : Prop :=
  ∀ (s : State) (cell : Cell) (rest : List Cell), CommandReady s cell rest 0x01 →
    exec .identify s = .next
      (answered s cell rest .done
        [0x05, 0x12, (1 : BitVec 4) ++ s.strap, 0x02, 0x00, 0x10, 0x00, 0x02, 0x00, 4, 32, 8, 16, 8, 32, 64])

/-- READ STATUS reports every value as it stands and changes none, and an undefined code is answered BAD_COMMAND (R140, R143, R178). -/
def Obligations.StatusAndUndefined : Prop :=
  ∀ (s : State) (cell : Cell) (rest : List Cell),
    (CommandReady s cell rest 0x02 →
      exec .readStatus s = .next
        (answered s cell rest .done
          (halfBytes s.badCells ++ halfBytes s.unknownChannels ++ halfBytes s.discardedCommands ++ halfBytes s.noticeLost ++
            halfBytes (s.epochCount.extractLsb' 0 16) ++
            wordBytes
              (BitVec.ofNat 6 s.ingressBuffer.length ++ BitVec.ofNat 4 rest.length ++ BitVec.ofNat 5 s.forwardQueue.length ++
                BitVec.ofNat 3 s.responseQueue.length ++ BitVec.ofNat 6 s.noticeQueue.length ++
                BitVec.ofNat 7 s.summaryQueue.length ++ BitVec.ofBool (decide (s.tables.active = .b))) ++
            halfBytes
              ((if s.tables.shadowState = .editable then (0 : BitVec 2) else if s.tables.shadowState = .walking then 1
                  else if s.tables.shadowState = .swapPending then 2 else 3) ++
                BitVec.ofBool (decide (s.mode.unknownPolicy = .discard)) ++
                BitVec.ofBool s.mode.linkErrorEnable ++ s.mode.starvationLimit ++
                BitVec.ofBool s.reconciliation.inFlight ++ BitVec.ofNat 2 (s.reconciliation.cursor.val / 128) ++
                BitVec.ofBool s.sweep.inFlight ++ BitVec.ofBool s.sweep.rescan ++
                BitVec.ofNat 2 (s.sweep.cursor.val / 128) ++ (0 : BitVec 1))))) ∧
    (CommandReady s cell rest (commandCode cell) →
      commandCode cell ∉ [0x01, 0x02, 0x03, 0x10, 0x11, 0x12, 0x13, 0x14, 0x18, 0x19, 0x20, 0x21, 0x30, 0x31, 0x32, 0x33, 0x3F] →
      exec .badCommand s = .next (answered s cell rest .badCommand []))

/-- SET MODE sets all three settings or, on an operand out of range, none (R144). -/
def Obligations.SetMode : Prop :=
  ∀ (s : State) (cell : Cell) (rest : List Cell) (policy enable limit : Byte), CommandReady s cell rest 0x03 →
    policy = payloadByte cell 0 → enable = payloadByte cell 1 → limit = payloadByte cell 2 →
    if policy.toNat ≤ 1 ∧ enable.toNat ≤ 1 ∧ 1 ≤ limit.toNat ∧ limit.toNat ≤ 15 then
      exec .setMode s = .next
        { answered s cell rest .done [policy, enable, limit] with
          mode := ⟨if policy = 0 then .forward else .discard, decide (enable = 1), limit.setWidth 4⟩ }
    else exec .setMode s = .next (answered s cell rest .badOperand [])

/-! ### The shadow bank -/

/-- ENTRY INSERT: the new entry that its payload spells takes its place in the order with the default parts, or is refused with nothing changed;
the operand ranges are those of `InsertSays` (R6, R9, R10). A directory's order is that of R1. -/
def Obligations.EntryInsert : Prop :=
  (∀ (s : State) (cell : Cell) (rest : List Cell) (d : List Entry), CommandReady s cell rest 0x10 →
     s.tables.shadowState = .editable → d = s.tables.shadowBank.directory → directoryWf d = true →
     ((∀ e, ¬ InsertSays cell e) → exec .entryInsert s = .next (answered s cell rest .badOperand [])) ∧
     ∀ e, InsertSays cell e →
       ((∃ x ∈ d, x.input = commandKey cell) → exec .entryInsert s = .next (answered s cell rest .duplicate [])) ∧
       ((∀ x ∈ d, x.input ≠ commandKey cell) → d.length = 512 →
         exec .entryInsert s = .next (answered s cell rest .full [])) ∧
       ((∀ x ∈ d, x.input ≠ commandKey cell) → d.length < 512 →
         ∃ before after, d = before ++ after ∧ (∀ x ∈ before, x.input.toNat < e.input.toNat) ∧
           (∀ x ∈ after, e.input.toNat < x.input.toNat) ∧
           exec .entryInsert s = .next
             { answered s cell rest .done
                 (halfBytes (BitVec.ofNat 16 before.length) ++ halfBytes (BitVec.ofNat 16 (d.length + 1))) with
               tables := s.tables.putShadow { s.tables.shadowBank with directory := before ++ e :: after } })) ∧
  ∀ d : List Entry, directoryWf d = true ↔ d.length ≤ 512 ∧ d.Pairwise fun x y => x.input.toNat < y.input.toNat

/-- ENTRY CONVERT, ENTRY WINDOW and ENTRY REMOVE of an entry of an EDITABLE shadow, and their refusals; the operand ranges are those of
`ConvertSays` and `WindowSays` (R9, R11, R12, R13). -/
def Obligations.EntryEdits : Prop :=
  ∀ (s : State) (cell : Cell) (rest : List Cell) (d : List Entry), s.tables.shadowState = .editable →
    d = s.tables.shadowBank.directory →
    (CommandReady s cell rest 0x11 →
      ((∀ c, ¬ ConvertSays cell c) → exec .entryConvert s = .next (answered s cell rest .badOperand [])) ∧
      ∀ c, ConvertSays cell c →
        ((∀ x ∈ d, x.input ≠ commandKey cell) → exec .entryConvert s = .next (answered s cell rest .notFound [])) ∧
        ((∃ x ∈ d, x.input = commandKey cell) →
          exec .entryConvert s = .next
            { answered s cell rest .done [] with
              tables := s.tables.putShadow
                { s.tables.shadowBank with
                  directory := d.map fun e => if e.input = commandKey cell then { e with conversion := c } else e } })) ∧
    (CommandReady s cell rest 0x12 →
      ((∀ w p, ¬ WindowSays cell w p) → exec .entryWindow s = .next (answered s cell rest .badOperand [])) ∧
      ∀ w p, WindowSays cell w p →
        ((∀ x ∈ d, x.input ≠ commandKey cell) → exec .entryWindow s = .next (answered s cell rest .notFound [])) ∧
        ((∃ x ∈ d, x.input = commandKey cell) →
          exec .entryWindow s = .next
            { answered s cell rest .done [] with
              tables := s.tables.putShadow
                { s.tables.shadowBank with
                  directory :=
                    d.map fun e => if e.input = commandKey cell then { e with window := w, divertPermitted := p } else e } })) ∧
    (CommandReady s cell rest 0x13 →
      ((∀ x ∈ d, x.input ≠ commandKey cell) → exec .entryRemove s = .next (answered s cell rest .notFound [])) ∧
      ∀ before x after, directoryWf d = true → d = before ++ x :: after → x.input = commandKey cell →
        exec .entryRemove s = .next
          { answered s cell rest .done
              (halfBytes (BitVec.ofNat 16 before.length) ++ halfBytes (BitVec.ofNat 16 (d.length - 1))) with
            tables := s.tables.putShadow { s.tables.shadowBank with directory := before ++ after } })

/-- ENTRY READ and POOL READ report the selected bank as it stands, byte by byte, or refuse, and change neither bank; the operand ranges are those
of `EntryReadSays` and `PoolReadSays`, and the bytes of part A and of part B those of R176 to R178 (R14, R33, R119). -/
def Obligations.BankReads : Prop :=
  ∀ (s : State) (cell : Cell) (rest : List Cell),
    (CommandReady s cell rest 0x14 →
      ((∀ selector part, ¬ EntryReadSays cell selector part) → exec .entryRead s = .next (answered s cell rest .badOperand [])) ∧
      ∀ selector part, EntryReadSays cell selector part →
        (selector = .shadow → s.tables.shadowState.isMirroring = true →
          exec .entryRead s = .next (answered s cell rest .busy [])) ∧
        ∀ d, d = (if selector = Selector.active then s.tables.activeBank else s.tables.shadowBank).directory →
          (selector = .active ∨ s.tables.shadowState.isMirroring = false) →
          ((∀ x ∈ d, x.input ≠ commandKey cell) → exec .entryRead s = .next (answered s cell rest .notFound [])) ∧
          ∀ before e after, directoryWf d = true → d = before ++ e :: after → e.input = commandKey cell →
            exec .entryRead s = .next
              (answered s cell rest .done
                (match part with
                  | .a =>
                    halfBytes e.input ++ halfBytes e.output ++ halfBytes (BitVec.ofNat 16 e.slot.val) ++
                      [(match e.inputForm with
                          | .int16 => (0 : BitVec 4)
                          | .int24 => 1
                          | .uint16 => 2
                          | .float => 3) ++
                        (match e.outputForm with
                          | .float => (0 : BitVec 4)
                          | .integer _ => 1),
                        match e.outputForm with
                          | .float => 0
                          | .integer k => BitVec.ofInt 8 k,
                        (match e.conversion with
                          | .none => (0 : BitVec 2)
                          | .linear _ _ => 1
                          | .segmented _ => 2
                          | .ratio _ _ => 3) ++
                        (match e.window with
                          | none => (0 : BitVec 2)
                          | some (.count _) => 1
                          | some (.epoch _) => 2) ++
                        (if e.emit then (1 : BitVec 1) else 0) ++ (if e.divertPermitted then (1 : BitVec 1) else 0) ++ (0 : BitVec 2)] ++
                      halfBytes
                        (match e.window with
                          | none => 0
                          | some (.count n) => BitVec.ofNat 16 n
                          | some (.epoch n) => BitVec.ofNat 16 n) ++
                      halfBytes (BitVec.ofNat 16 before.length) ++ halfBytes (BitVec.ofNat 16 d.length)
                  | .b =>
                    match e.conversion with
                    | .none => [0]
                    | .linear gain offset => [1, 0, 0, 0] ++ wordBytes gain ++ wordBytes offset
                    | .segmented table => [2, 0] ++ halfBytes (BitVec.ofNat 16 table.toNat)
                    | .ratio reference gain => [3, 0] ++ halfBytes reference ++ wordBytes gain))) ∧
    (CommandReady s cell rest 0x19 →
      ((∀ selector, ¬ PoolReadSays cell selector) → exec .poolRead s = .next (answered s cell rest .badOperand [])) ∧
      ∀ selector, PoolReadSays cell selector →
        (selector = .shadow → s.tables.shadowState.isMirroring = true →
          exec .poolRead s = .next (answered s cell rest .busy [])) ∧
        ∀ pool a, pool = (if selector = Selector.active then s.tables.activeBank else s.tables.shadowBank).pool →
          a = (commandKey cell).toNat → (selector = .active ∨ s.tables.shadowState.isMirroring = false) →
          exec .poolRead s = .next
            (answered s cell rest .done
              (wordBytes (Memory.read pool a) ++ wordBytes (Memory.read pool (a + 1)) ++
                wordBytes (Memory.read pool (a + 2)) ++ wordBytes (Memory.read pool (a + 3)))))

/-- POOL WRITE stores its one to three words together and no other word, or is refused (R32); the canonical form of a pool lists its words that
are not zero in rising order of address, up to 4095 (R17). -/
def Obligations.PoolWrite : Prop :=
  (∀ (s : State) (cell : Cell) (rest : List Cell) (a n : Nat), CommandReady s cell rest 0x18 →
     s.tables.shadowState = .editable → a = (commandKey cell).toNat → n = (payloadByte cell 0).toNat →
     (¬ (1 ≤ n ∧ n ≤ 3 ∧ a + n - 1 ≤ 4095) → exec .poolWrite s = .next (answered s cell rest .badOperand [])) ∧
     (1 ≤ n → n ≤ 3 → a + n - 1 ≤ 4095 → Memory.wf s.tables.shadowBank.pool = true →
       ∃ pool, Memory.wf pool = true ∧
         (∀ k, k < n → Memory.read pool (a + k) = payloadWord cell (4 + 4 * k)) ∧
         (∀ b, b < a ∨ a + n ≤ b → Memory.read pool b = Memory.read s.tables.shadowBank.pool b) ∧
         exec .poolWrite s = .next
           { answered s cell rest .done (halfBytes (commandKey cell) ++ [payloadByte cell 0]) with
             tables := s.tables.putShadow { s.tables.shadowBank with pool } })) ∧
  ∀ m : Memory, Memory.wf m = true ↔ (m.Pairwise fun x y => x.1 < y.1) ∧ ∀ x ∈ m, x.1 ≤ 4095 ∧ x.2 ≠ 0

/-- A shadow write is BUSY while a mirror runs; while a verify is in flight an applied one leaves what it leaves in EDITABLE and the notice of the
cancelled verify, and a refused one leaves the verify in flight (R118, R125). -/
def Obligations.ShadowWritesByState : Prop :=
  ∀ (s : State) (cell : Cell) (rest : List Cell) (c : Instr) (code : Byte),
    (c, code) ∈ [(Instr.entryInsert, 0x10), (.entryConvert, 0x11), (.entryWindow, 0x12), (.entryRemove, 0x13), (.poolWrite, 0x18)] →
    CommandReady s cell rest code →
    (s.tables.shadowState.isMirroring = true → exec c s = .next (answered s cell rest .busy [])) ∧
    (s.tables.shadowState.isVerifying = true →
      ∀ t r, exec c (setShadowState s .editable) = .next t → t.responseQueue = s.responseQueue ++ [r] →
        (r.status = .done →
          exec c s = .next (t.handNotice (.commitCancelled .edit (commandCode cell) (commandTag cell) s.tables.generation))) ∧
        (r.status ≠ .done → exec c s = .next (setShadowState t s.tables.shadowState)))

/-- COMMIT, ABANDON and RESET PART: ACCEPTED with what they start, or BUSY (R120, R121, R149). -/
def Obligations.AcceptedCommands : Prop :=
  ∀ (s : State) (cell : Cell) (rest : List Cell),
    (CommandReady s cell rest 0x20 →
      (s.tables.shadowState = .editable →
        exec .commit s = .next
          { answered s cell rest .accepted [] with tables := { s.tables with shadowState := .walking } }) ∧
      (s.tables.shadowState ≠ .editable → exec .commit s = .next (answered s cell rest .busy []))) ∧
    (CommandReady s cell rest 0x21 →
      (s.tables.shadowState = .editable →
        exec .abandon s = .next
          { answered s cell rest .accepted [] with tables := { s.tables with shadowState := .mirroring .abandon } }) ∧
      (s.tables.shadowState.isVerifying = true →
        exec .abandon s = .next
          (State.handNotice { answered s cell rest .accepted [] with tables := { s.tables with shadowState := .mirroring .abandon } }
            (.commitCancelled .abandon (commandCode cell) (commandTag cell) s.tables.generation))) ∧
      (s.tables.shadowState.isMirroring = true → exec .abandon s = .next (answered s cell rest .busy []))) ∧
    (CommandReady s cell rest 0x3F →
      exec .resetPart s = .next
        { answered s cell rest .accepted [] with commandUnit := .resetRequested (decide (commandAddress cell = 15)) })

/-! ### The slots -/

/-- SLOT READ reports both parts of an owned slot and of an UNOWNED one, and changes no slot (R145, R146, R178). What stands in the owner field of
an UNOWNED slot is the free value of notes/assumptions/1.md. The byte of a fault set (R175). -/
def Obligations.SlotReadReports : Prop :=
  (∀ (s : State) (cell : Cell) (rest : List Cell), CommandReady s cell rest 0x30 →
     (512 ≤ (commandKey cell).toNat ∨ 1 < (payloadByte cell 0).toNat →
       exec .slotRead s = .next (answered s cell rest .badOperand [])) ∧
     ∀ i : SlotId, i.val = (commandKey cell).toNat → SlotReady s .command i →
       (∀ r, (s.slot i).runtime = some r →
         (payloadByte cell 0 = 0 →
           exec .slotRead s = .next
             (answered s cell rest .done
               (halfBytes r.owner ++
                 [(0 : BitVec 1) ++ (if r.live then (2 : BitVec 2) else 1) ++ BitVec.ofBool r.armed ++ (0 : BitVec 4), r.sticky.byte] ++
                 halfBytes r.dropCount ++ halfBytes r.lastSequence))) ∧
         (payloadByte cell 0 = 1 →
           exec .slotRead s = .next
             (answered s cell rest .done
               (wordBytes (r.lastGood.getD 0) ++ [if r.lastGood.isSome then 1 else 0] ++
                 halfBytes (BitVec.ofNat 16 ((r.window.map Window.counted).getD 0)) ++ [(r.window.map Window.missed).getD 0] ++
                 wordBytes ((r.window.map Window.openedAt).getD 0) ++ [r.windowSequence])))) ∧
       ((s.slot i).runtime = none →
         (payloadByte cell 0 = 0 →
           ∃ owner : Half, exec .slotRead s = .next
             { answered s cell rest .done (halfBytes owner ++ [0x80, 0, 0, 0, 0, 0]) with freeCount := s.freeCount + 1 }) ∧
         (payloadByte cell 0 = 1 → exec .slotRead s = .next (answered s cell rest .done [])))) ∧
  ∀ f : FaultSet,
    f.byte =
      (0 : BitVec 2) ++ BitVec.ofBool f.ovf ++ BitVec.ofBool f.unf ++ BitVec.ofBool f.dvz ++ BitVec.ofBool f.mof ++ BitVec.ofBool f.rng ++
        BitVec.ofBool f.noref

/-- SLOT CLEAR of one slot and of every slot: sticky faults and drop count, and nothing else (R86, R147); a slot's number is its place, and
replacing one slot leaves the others (R79). -/
def Obligations.SlotClear : Prop :=
  (∀ (s : State) (cell : Cell) (rest : List Cell), CommandReady s cell rest 0x31 →
     (512 < (commandKey cell).toNat → exec .slotClear s = .next (answered s cell rest .badOperand [])) ∧
     (∀ i : SlotId, i.val = (commandKey cell).toNat → SlotReady s .command i →
       exec .slotClear s = .next
         { answered s cell rest .done (halfBytes (commandKey cell)) with slots := s.slots.put i (clearedSlot (s.slot i)) }) ∧
     ((commandKey cell).toNat = 512 → (∀ i, SlotReady s .command i) →
       exec .slotClear s = .next
         { answered s cell rest .done (halfBytes (commandKey cell)) with slots := s.slots.map clearedSlot })) ∧
  ∀ (s : State) (i j : SlotId) (x : Slot) (f : Slot → Slot),
    s.slots.val[i.val]? = some (s.slot i) ∧ (s.slots.put i x).get i = x ∧ (j ≠ i → (s.slots.put i x).get j = s.slot j) ∧
      (s.slots.map f).get i = f (s.slot i)

/-- ARM DIVERT: its three outcomes against the slot (R87, R148). -/
def Obligations.ArmDivert : Prop :=
  ∀ (s : State) (cell : Cell) (rest : List Cell), CommandReady s cell rest 0x32 →
    (512 ≤ (commandKey cell).toNat → exec .armDivert s = .next (answered s cell rest .badOperand [])) ∧
    ∀ i : SlotId, i.val = (commandKey cell).toNat → SlotReady s .command i →
      ((s.slot i).runtime = none → exec .armDivert s = .next (answered s cell rest .notFound [])) ∧
      ∀ r, (s.slot i).runtime = some r →
        (r.terms.divertPermitted = false → exec .armDivert s = .next (answered s cell rest .badOperand [])) ∧
        (r.terms.divertPermitted = true →
          exec .armDivert s = .next
            { answered s cell rest .done (halfBytes (commandKey cell) ++ halfBytes r.owner) with
              slots := s.slots.put i ⟨some { r with armed := true }, false⟩ })

/-- FLUSH WINDOW: its outcomes, its closing with the fresh window, and its wait for a Summary Queue place (R103, R148). -/
def Obligations.FlushWindow : Prop :=
  ∀ (s : State) (cell : Cell) (rest : List Cell), CommandReady s cell rest 0x33 →
    (512 ≤ (commandKey cell).toNat → exec .flushWindow s = .next (answered s cell rest .badOperand [])) ∧
    ∀ i : SlotId, i.val = (commandKey cell).toNat → SlotReady s .command i →
      ((s.slot i).runtime = none → exec .flushWindow s = .next (answered s cell rest .notFound [])) ∧
      ∀ r, (s.slot i).runtime = some r →
        (r.window = none → exec .flushWindow s = .next (answered s cell rest .noWindow [])) ∧
        ∀ w, r.window = some w →
          (w.counted = 0 →
            exec .flushWindow s = .next
              { answered s cell rest .done (halfBytes (commandKey cell) ++ halfBytes 0 ++ [r.windowSequence]) with
                slots := s.slots.put i ⟨some { r with window := r.terms.window.map (Window.fresh s.epochCount) }, false⟩ }) ∧
          (w.counted ≠ 0 → s.summaryQueue.length < 64 →
            exec .flushWindow s = .next
              { answered s cell rest .done
                  (halfBytes (commandKey cell) ++ halfBytes (BitVec.ofNat 16 w.counted) ++ [r.windowSequence]) with
                slots := s.slots.put i
                  ⟨some
                    { r with
                      windowSequence := r.windowSequence + 1
                      window := r.terms.window.map (Window.fresh s.epochCount) }, false⟩
                summaryQueue := s.summaryQueue ++ [w.summary .flush s.epochCount r.terms.output r.windowSequence] }) ∧
          (w.counted ≠ 0 → 64 ≤ s.summaryQueue.length →
            exec .flushWindow s = .next { s with commandQueue := rest, commandUnit := .waiting ⟨cell, i, true⟩ })

/-- A waiting FLUSH WINDOW that finds its place is answered; each waiting slot command goes on as the command taken now would (R141); and at a slot
that is not ready, each of the four waits for the claim, waits with the claim for a Summary Queue place, or acts on the slot reconciled (R93, R141,
R145). SLOT CLEAR of every slot goes from slot to slot in the same way and answers after slot 511 (R86, R147). That a FLUSH WINDOW which
has waited with its claim is decided anew, where a swap made its slot pending meanwhile, is the model's choice (notes/assumptions/28.md). -/
def Obligations.CommandResumes : Prop :=
  (∀ (s : State) (cell : Cell) (i : SlotId) (claim : Bool) (r : Runtime) (w : Window),
    s.commandUnit = .waiting ⟨cell, i, claim⟩ → commandCode cell = 0x33 → SlotReady s .command i →
    (s.slot i).runtime = some r → r.window = some w → w.counted ≠ 0 → s.summaryQueue.length < 64 →
    exec .commandResume s = .next
      { s with
        commandUnit := .idle
        responseQueue := s.responseQueue ++
          [⟨s.strap, commandTag cell, 0x33, .done, s.tables.generation,
            payload (halfBytes (slotHalf i) ++ halfBytes (BitVec.ofNat 16 w.counted) ++ [r.windowSequence])⟩]
        slots := s.slots.put i
          ⟨some
            { r with
              windowSequence := r.windowSequence + 1
              window := r.terms.window.map (Window.fresh s.epochCount) }, false⟩
        summaryQueue := s.summaryQueue ++ [w.summary .flush s.epochCount r.terms.output r.windowSequence] }) ∧
    (∀ (s : State) (cell : Cell) (i : SlotId) (claim : Bool) (c : Instr) (code : Byte),
      (c, code) ∈ [(Instr.slotRead, 0x30), (.slotClear, 0x31), (.armDivert, 0x32), (.flushWindow, 0x33)] →
      s.commandUnit = .waiting ⟨cell, i, claim⟩ → commandCode cell = code → (commandKey cell).toNat = i.val →
      s.responseQueue.length < 8 →
      exec .commandResume s = exec c { s with commandUnit := .idle, commandQueue := cell :: s.commandQueue } ∧
        ∃ t, exec .commandResume s = .next t) ∧
    (∀ (s : State) (cell : Cell) (rest : List Cell) (i : SlotId) (c : Instr) (code : Byte),
      (c, code) ∈ [(Instr.slotRead, 0x30), (.slotClear, 0x31), (.armDivert, 0x32), (.flushWindow, 0x33)] →
      CommandReady s cell rest code → i.val = (commandKey cell).toNat → (code = 0x30 → (payloadByte cell 0).toNat ≤ 1) →
      (s.claimedByOther .command i = true →
        exec c s = .next { s with commandQueue := rest, commandUnit := .waiting ⟨cell, i, false⟩ }) ∧
      (s.claimedByOther .command i = false →
        (s.reconcileSlot i = none →
          exec c s = .next { s with commandQueue := rest, commandUnit := .waiting ⟨cell, i, true⟩ }) ∧
        ∀ t, s.reconcileSlot i = some t → exec c s = exec c t)) ∧
    (∀ (s : State) (cell : Cell) (rest : List Cell), CommandReady s cell rest 0x31 → (commandKey cell).toNat = 512 →
      exec .slotClear s =
        exec .commandResume { s with commandQueue := rest, commandUnit := .waiting ⟨cell, ⟨0, by decide⟩, false⟩ }) ∧
    ∀ (s : State) (cell : Cell) (i : SlotId) (claim : Bool), s.commandUnit = .waiting ⟨cell, i, claim⟩ → commandCode cell = 0x31 →
      (commandKey cell).toNat = 512 →
      (s.claimedByOther .command i = true → exec .commandResume s = .next { s with commandUnit := .waiting ⟨cell, i, false⟩ }) ∧
      (s.claimedByOther .command i = false →
        (s.reconcileSlot i = none → exec .commandResume s = .next { s with commandUnit := .waiting ⟨cell, i, true⟩ }) ∧
        ∀ t, s.reconcileSlot i = some t →
          (∀ j : SlotId, j.val = i.val + 1 →
            exec .commandResume s =
              exec .commandResume
                { t with slots := t.slots.put i (clearedSlot (t.slot i)), commandUnit := .waiting ⟨cell, j, false⟩ }) ∧
          (i.val = 511 →
            exec .commandResume s = .next
              { t with
                slots := t.slots.put i (clearedSlot (t.slot i))
                commandUnit := .idle
                responseQueue := t.responseQueue ++
                  [⟨s.strap, commandTag cell, 0x31, .done, s.tables.generation, payload (halfBytes (commandKey cell))⟩] }))

/-! ### The Table Store's events -/

/-- The end of a verify: swap pending on a pass, EDITABLE with COMMIT FAILED on a failure, neither bank changed (R122, R123, R124). -/
def Obligations.VerifyCompletes : Prop :=
  ∀ s : State, s.tables.shadowState = .walking →
    (verifyBank s.tables.shadowBank = none →
      exec .verifyComplete s = .next { s with tables := { s.tables with shadowState := .swapPending } }) ∧
    ∀ f, verifyBank s.tables.shadowBank = some f →
      exec .verifyComplete s = .next
        (State.handNotice { s with tables := { s.tables with shadowState := .editable } }
          (.commitFailed f.reason f.channel f.address s.tables.generation))

/-- The verify of a bank: what a pass means (no slot and no output channel id shared, every reference present and not itself RATIO, no SEGMENTED
entry with input form FLOAT), that a bank in which no check fails passes, and each check's failure with the reason, the input channel id and the
pool address reported, the first in walk order (R122, R124). The checks of a table in their order, bucket by bucket, each with its address: an
entry's table is walked with three levels allowed below it, and at the last level a LINK is LINK_DEPTH (R31). -/
def Obligations.VerifyPassMeans : Prop :=
  (∀ b : Bank, verifyBank b = none →
    (b.directory.Pairwise fun x y => x.slot ≠ y.slot ∧ x.output ≠ y.output) ∧
    ∀ e ∈ b.directory,
      (∀ reference gain, e.conversion = .ratio reference gain →
        ∃ f, findChannel b.directory reference = some f ∧ f ∈ b.directory ∧ f.conversion.isRatio = false) ∧
      (∀ table, e.conversion = .segmented table → e.inputForm ≠ .float)) ∧
  (∀ b : Bank, (∀ before e after, b.directory = before ++ e :: after → EntryPasses b before e) → verifyBank b = none) ∧
  (∀ (b : Bank) (before : List Entry) (e : Entry) (after : List Entry), b.directory = before ++ e :: after →
    (∀ p x q, before = p ++ x :: q → EntryPasses b p x) →
    ((∃ x ∈ before, x.slot = e.slot) → verifyBank b = some ⟨.slotShared, e.input, 0⟩) ∧
    ((∀ x ∈ before, x.slot ≠ e.slot) → (∃ x ∈ before, x.output = e.output) → verifyBank b = some ⟨.outShared, e.input, 0⟩) ∧
    ((∀ x ∈ before, x.slot ≠ e.slot) → (∀ x ∈ before, x.output ≠ e.output) →
      (∀ table, e.conversion = .segmented table →
        (e.inputForm = .float → verifyBank b = some ⟨.form, e.input, 0⟩) ∧
        (e.inputForm ≠ .float → ∀ reason a, verifyTable b.pool 3 table.toNat = some (reason, a) →
          verifyBank b = some ⟨reason, e.input, BitVec.ofNat 16 a⟩)) ∧
      (∀ reference gain, e.conversion = .ratio reference gain →
        ((∀ f ∈ b.directory, f.input ≠ reference) → verifyBank b = some ⟨.refMissing, e.input, 0⟩) ∧
        ((∃ f ∈ b.directory, f.input = reference) →
          (∀ f ∈ b.directory, f.input = reference → ∃ channel g, f.conversion = .ratio channel g) →
          verifyBank b = some ⟨.refRatio, e.input, 0⟩)))) ∧
  ∀ (pool : Memory) (deeper address : Nat) (h : Header), h = headerOfWord (Memory.read pool address) →
    (h.low ≤ h.high → 4095 < (address : Int) + (h.high - h.low + 1) →
      verifyTable pool deeper address = some (.poolBounds, address)) ∧
    (h.high < h.low → verifyTable pool deeper address = some (.limits, address)) ∧
    (h.low ≤ h.high → (address : Int) + (h.high - h.low + 1) ≤ 4095 →
      (23 < h.shift → verifyTable pool deeper address = some (.shift, address)) ∧
      (h.shift ≤ 23 →
        ((∀ n : Nat, (n : Int) ≤ h.high - h.low → BucketPasses pool deeper (address + 1 + n)) →
          verifyTable pool deeper address = none) ∧
        ∀ (n : Nat) (e : EntryWord), (n : Int) ≤ h.high - h.low → (∀ m, m < n → BucketPasses pool deeper (address + 1 + m)) →
          e = entryOfWord (Memory.read pool (address + 1 + n)) →
          (e.kind = .segment → e.target = 4095 → verifyTable pool deeper address = some (.poolBounds, address + 1 + n)) ∧
          (e.kind = .link → deeper = 0 → verifyTable pool deeper address = some (.linkDepth, address + 1 + n)) ∧
          ∀ d failure, e.kind = .link → deeper = d + 1 → verifyTable pool d e.target = some failure →
            verifyTable pool deeper address = some failure))

/-- The swap as one step, and the wait for its two conditions; the end of a mirror (R126, R127, R128, R129). That SWAP with no swap pending changes
nothing is the model's reading (notes/assumptions/4.md). -/
def Obligations.SwapAndMirror : Prop :=
  ∀ s : State,
    (s.tables.shadowState = .swapPending → s.engine = .idle → s.reconciliation.inFlight = false →
      exec .swap s = .next
        (State.handNotice { s with
            tables := { s.tables with
              active := s.tables.active.other, generation := s.tables.generation + 1, shadowState := .mirroring .swap }
            slots := s.slots.map fun x => { x with pending := true }
            reconciliation := ⟨true, ⟨0, by decide⟩, false⟩ } (.commitDone (s.tables.generation + 1)))) ∧
    (s.engine ≠ .idle ∨ s.reconciliation.inFlight = true ∨ s.tables.shadowState ≠ .swapPending → exec .swap s = .next s) ∧
    ∀ cause, s.tables.shadowState = .mirroring cause → s.commandUnit ≠ .resetting →
      exec .mirrorComplete s = .next
        (State.handNotice { s with
            tables := ⟨s.tables.activeBank, s.tables.activeBank, s.tables.active, s.tables.generation, .editable⟩ }
          (.mirrorDone s.tables.generation cause))

/-! ### The cursors -/

/-- The reconciliation cursor at its slot: every row of R90 and R91, the wait for a place and the wait for the claim (R83, R88, R90, R91, R92). That
the step has no effect while no reconciliation is in flight is the model's reading (notes/assumptions/4.md). A fresh window (R96), a slot reset
(R83), and the entry that names a slot (R8). -/
def Obligations.ReconciliationCursorStep : Prop :=
  ((∀ s : State, s.reconciliation.inFlight = false → exec .reconciliationCursorStep s = .next s) ∧
   ∀ (s : State) (i : SlotId), s.reconciliation.inFlight = true → s.reconciliation.cursor = i →
     (s.claimedByOther .cursor i = true → exec .reconciliationCursorStep s = .next s) ∧
     (s.claimedByOther .cursor i = false →
       ((s.slot i).pending = false →
         exec .reconciliationCursorStep s = .next { s with reconciliation := cursorMoved s }) ∧
       ((s.slot i).pending = true →
         ((s.slot i).runtime = none →
           exec .reconciliationCursorStep s = .next
             { s with
               slots := s.slots.put i (Slot.reset (s.ownerEntry i) s.epochCount)
               reconciliation := cursorMoved s }) ∧
         ∀ r, (s.slot i).runtime = some r →
           (∀ e, s.ownerEntry i = some e → e.input = r.owner → e.window = r.terms.window →
             exec .reconciliationCursorStep s = .next
               { s with
                 slots := s.slots.put i
                   ⟨some
                     { r with
                       terms := ⟨e.output, e.window, e.divertPermitted⟩
                       armed := if e.divertPermitted = r.terms.divertPermitted then r.armed else e.divertPermitted }, false⟩
                 reconciliation := cursorMoved s }) ∧
           (∀ e, s.ownerEntry i = some e → e.input = r.owner → e.window ≠ r.terms.window →
             (∀ w, r.window = some w → w.counted ≠ 0 → s.summaryQueue.length < 64 →
               exec .reconciliationCursorStep s = .next
                 { s with
                   slots := s.slots.put i
                     ⟨some
                       { r with
                         terms := ⟨e.output, e.window, e.divertPermitted⟩
                         armed := if e.divertPermitted = r.terms.divertPermitted then r.armed else e.divertPermitted
                         windowSequence := r.windowSequence + 1
                         window := e.window.map (Window.fresh s.epochCount) }, false⟩
                   summaryQueue := s.summaryQueue ++ [w.summary .truncated s.epochCount r.terms.output r.windowSequence]
                   reconciliation := cursorMoved s }) ∧
             (∀ w, r.window = some w → w.counted ≠ 0 → 64 ≤ s.summaryQueue.length →
               exec .reconciliationCursorStep s = .next
                 { s with reconciliation := { s.reconciliation with claim := true } }) ∧
             ((∀ w, r.window = some w → w.counted = 0) →
               exec .reconciliationCursorStep s = .next
                 { s with
                   slots := s.slots.put i
                     ⟨some
                       { r with
                         terms := ⟨e.output, e.window, e.divertPermitted⟩
                         armed := if e.divertPermitted = r.terms.divertPermitted then r.armed else e.divertPermitted
                         window := e.window.map (Window.fresh s.epochCount) }, false⟩
                   reconciliation := cursorMoved s })) ∧
           ((∀ e, s.ownerEntry i = some e → e.input ≠ r.owner) →
             (∀ w, r.window = some w → w.counted ≠ 0 → s.summaryQueue.length < 64 →
               exec .reconciliationCursorStep s = .next
                 { s with
                   slots := s.slots.put i (Slot.reset (s.ownerEntry i) s.epochCount)
                   summaryQueue := s.summaryQueue ++ [w.summary .truncated s.epochCount r.terms.output r.windowSequence]
                   reconciliation := cursorMoved s }) ∧
             (∀ w, r.window = some w → w.counted ≠ 0 → 64 ≤ s.summaryQueue.length →
               exec .reconciliationCursorStep s = .next
                 { s with reconciliation := { s.reconciliation with claim := true } }) ∧
             ((∀ w, r.window = some w → w.counted = 0) →
               exec .reconciliationCursorStep s = .next
                 { s with
                   slots := s.slots.put i (Slot.reset (s.ownerEntry i) s.epochCount)
                   reconciliation := cursorMoved s }))))) ∧
  (∀ (d : WindowDef) (epoch : Word),
    Window.fresh epoch d = ⟨d, epoch, 0, 0, ⟨false, 0, 0⟩, none, ⟨false, false, false, false, false, false⟩⟩) ∧
  (∀ epoch : Word, Slot.reset none epoch = ⟨none, false⟩) ∧
  (∀ (e : Entry) (epoch : Word),
    Slot.reset (some e) epoch =
      ⟨some
        { owner := e.input
          live := false
          lastSequence := 0
          lastGood := none
          sticky := ⟨false, false, false, false, false, false⟩
          armed := e.divertPermitted
          dropCount := 0
          windowSequence := 0
          window := e.window.map (Window.fresh epoch)
          terms := ⟨e.output, e.window, e.divertPermitted⟩ }, false⟩) ∧
  ∀ (s : State) (i : SlotId),
    (s.ownerEntry i = none ↔ ∀ e ∈ s.tables.activeBank.directory, e.slot ≠ i) ∧
    ∀ e, s.ownerEntry i = some e → e ∈ s.tables.activeBank.directory ∧ e.slot = i

/-- The Epoch Sweep at its slot: on-demand reconciliation first, then the closing of a due window or its wait, then the next slot or the rescan
(R88, R107, R109, R110). That a sweep which has waited with its claim reconciles first as well, where a swap made its slot pending meanwhile, is the
model's choice (notes/assumptions/27.md). -/
def Obligations.EpochSweepStep : Prop :=
  (∀ (s : State) (i : SlotId), s.sweep.inFlight = true → s.sweep.cursor = i →
     (s.claimedByOther .sweep i = true → exec .epochSweepStep s = .next s) ∧
     (s.claimedByOther .sweep i = false →
       (s.reconcileSlot i = none → exec .epochSweepStep s = .next { s with sweep := { s.sweep with claim := true } }) ∧
       (∀ t, (s.slot i).pending = true → s.reconcileSlot i = some t → exec .epochSweepStep s = exec .epochSweepStep t) ∧
       ((s.slot i).pending = false →
         ((∀ r w, (s.slot i).runtime = some r → r.window = some w → w.due s.epochCount = false) →
           exec .epochSweepStep s = .next { s with sweep := sweepMoved s }) ∧
         ∀ r w span, (s.slot i).runtime = some r → r.window = some w → w.definition = .epoch span →
           span ≤ (s.epochCount - w.openedAt).toNat →
           (w.counted = 0 →
             exec .epochSweepStep s = .next
               { s with
                 slots := s.slots.put i ⟨some { r with window := r.terms.window.map (Window.fresh s.epochCount) }, false⟩
                 sweep := sweepMoved s }) ∧
           (w.counted ≠ 0 → s.summaryQueue.length < 64 →
             exec .epochSweepStep s = .next
               { s with
                 slots := s.slots.put i
                   ⟨some
                     { r with
                       windowSequence := r.windowSequence + 1
                       window := r.terms.window.map (Window.fresh s.epochCount) }, false⟩
                 summaryQueue := s.summaryQueue ++ [w.summary .epoch s.epochCount r.terms.output r.windowSequence]
                 sweep := sweepMoved s }) ∧
           (w.counted ≠ 0 → 64 ≤ s.summaryQueue.length →
             exec .epochSweepStep s = .next { s with sweep := { s.sweep with claim := true } })))) ∧
  ∀ (w : Window) (epoch : Word), w.due epoch = true ↔ ∃ span, w.definition = .epoch span ∧ span ≤ (epoch - w.openedAt).toNat

/-! ### Invariants -/

/-- The machine after power-on reset is safe. -/
def Obligations.ResetIsSafe : Prop := Safe State.reset

/-- Every step keeps the queues within their capacities, with the reserved places free (R56, R136, R137, R154 to R157, R171). -/
def Obligations.QueuesKept : Prop := KeptByStep QueuesBounded

/-- Every step keeps the notice numbering without unexplained gaps, and at most one LINK ERROR waiting (R157, R158, R160). -/
def Obligations.NoticesKept : Prop := KeptByStep NoticesNumbered ∧ KeptByStep OneLinkError

/-- Every step keeps each slot's claim with at most one party; where each party's claim between two steps stands, and that another party's claim
is the claim of any other of the four (R88). -/
def Obligations.ClaimsKept : Prop :=
  (KeptByStep ClaimsExclusive) ∧
  ∀ (s : State) (i : SlotId),
    (∀ p, s.claimedByOther p i = true ↔ ∃ q, q ≠ p ∧ s.holdsClaim i q = true) ∧
    (s.holdsClaim i .engine = true ↔
      ∃ h, (s.engine = .converting h ∨ s.engine = .waiting h) ∧
        ((h.ownClaim = true ∧ h.entry.slot = i) ∨ h.referenceClaim = some i)) ∧
    (s.holdsClaim i .command = true ↔ ∃ w, s.commandUnit = .waiting w ∧ w.claim = true ∧ w.slot = i) ∧
    (s.holdsClaim i .sweep = true ↔ s.sweep.claim = true ∧ s.sweep.cursor = i) ∧
    (s.holdsClaim i .cursor = true ↔ s.reconciliation.claim = true ∧ s.reconciliation.cursor = i)

/-- Every step keeps every slot that is not pending with the owner and the terms that the active directory gives it (R80, R82, R89). -/
def Obligations.SlotsKept : Prop := KeptByStep SlotsFollowDirectory

/-- Every step keeps both banks well formed, the pools' canonical form included, and every open window well formed (R1, R4, R5, R95, R99). -/
def Obligations.BanksAndWindowsKept : Prop :=
  KeptByStep BanksWellFormed ∧ KeptByStep fun s => BanksWellFormed s ∧ WindowsWellFormed s

/-- Every step of a safe state answers a next state, which is safe: no step ever faults or is refused. -/
def Obligations.EveryStepFromSafeIsSafe : Prop := ∀ s : State, Safe s → ∃ t, step s = .next t ∧ Safe t

/-- A lookup in a bank that passed verify consults at most four tables and no address above 4095: it never stops (R27). -/
def Obligations.VerifiedLookupsNeverStop : Prop :=
  ∀ (b : Bank) (e : Entry) (table : BitVec 12) (r : Int) (lastGood : Option Word), verifyBank b = none → e ∈ b.directory →
    e.conversion = .segmented table → ∃ c, segmentLookup b.pool r lastGood 4 table.toNat = .ok c

/-- The active bank, the bank roles and the generation change only at a swap, which raises the generation by one, and at power-on reset
(R116). -/
def Obligations.ActiveBankChangesOnlyAtSwap : Prop :=
  ∀ (s t : State) (c : Instr), exec c s = .next t →
    (c ≠ .swap → c ≠ .powerOnReset →
      t.tables.activeBank = s.tables.activeBank ∧ t.tables.active = s.tables.active ∧
        t.tables.generation = s.tables.generation) ∧
    (c = .swap →
      (t.tables = s.tables) ∨
        (t.tables.activeBank = s.tables.shadowBank ∧ t.tables.shadowBank = s.tables.activeBank ∧
          t.tables.generation = s.tables.generation + 1))

/-- An edit of the shadow bank has no effect on a reading, on the reconciliation or on the Epoch Sweep (R15, R34); which bank each role is, and
which shadow states are VERIFYING and MIRRORING (R115, R117). -/
def Obligations.ShadowEditsInvisible : Prop :=
  (∀ (s : State) (b : Bank) (c : Instr),
     c ∈ [Instr.takeReading, .engineResume, .reconciliationCursorStep, .epochSweepStep, .takeEpoch] →
     exec c { s with tables := s.tables.putShadow b } =
       match exec c s with
       | .next t => .next { t with tables := t.tables.putShadow b }
       | .fault f => .fault f
       | .refused r => .refused r) ∧
  ∀ (t : TableStore) (b : Bank) (x : ShadowState),
    (t.active = .a → t.activeBank = t.bankA ∧ t.shadowBank = t.bankB ∧ t.putShadow b = { t with bankB := b }) ∧
    (t.active = .b → t.activeBank = t.bankB ∧ t.shadowBank = t.bankA ∧ t.putShadow b = { t with bankA := b }) ∧
    (∀ s : State, setShadowState s x = { s with tables := { s.tables with shadowState := x } }) ∧
    (x.isMirroring = true ↔ ∃ cause, x = .mirroring cause) ∧ (x.isVerifying = true ↔ x = .walking ∨ x = .swapPending)
end

