-- ==== Sys2Proof/Laws/Arithmetic.lean ====
section
/-! SUPPORT. The value arithmetic's parts: the fields of a reading float, taking it apart and forming it, digit counts, left normalization, and that a
result brought to form is in range or zero. -/

namespace Sys2Proof.Machine

/-! ### Fields -/

/-- A reading float's fraction has six digits (R35). -/
theorem unpack_fraction_lt (w : Word) : (unpack w).fraction < 16 ^ 6 := (w.extractLsb' 0 24).isLt

/-- True zero is the fraction zero (R35). -/
theorem isZeroFloat_iff (w : Word) : isZeroFloat w = true ↔ (unpack w).fraction = 0 := by
  unfold isZeroFloat unpack
  rw [decide_eq_true_iff]
  constructor
  · intro h; show (w.extractLsb' 0 24).toNat = 0; rw [h]; rfl
  · intro h; exact BitVec.eq_of_toNat_eq h

/-- The first digit of the fraction (R35). -/
theorem first_digit (w : Word) : (w.extractLsb' 20 4).toNat = (w.extractLsb' 0 24).toNat / 2 ^ 20 := by
  simp only [BitVec.extractLsb'_toNat, Nat.shiftRight_eq_div_pow]; omega

/-- Normalized is a fraction whose first digit is not zero (R35). -/
theorem isNormalized_iff (w : Word) : isNormalized w = true ↔ 16 ^ 5 ≤ (unpack w).fraction := by
  unfold isNormalized unpack
  rw [decide_eq_true_iff]
  dsimp only
  have h1 := first_digit w
  have h2 : (w.extractLsb' 0 24).toNat < 2 ^ 24 := (w.extractLsb' 0 24).isLt
  have h3 : w.extractLsb' 20 4 = 0 ↔ (w.extractLsb' 20 4).toNat = 0 := ⟨fun h => by rw [h]; rfl, fun h => BitVec.eq_of_toNat_eq h⟩
  rw [ne_eq, h3, h1]; generalize (w.extractLsb' 0 24).toNat = x at *; omega

/-- A word is its three fields, joined (R175). -/
theorem word_fields (w : Word) : BitVec.ofBool (w.getLsbD 31) ++ w.extractLsb' 24 7 ++ w.extractLsb' 0 24 = w := by
  ext i hi
  simp only [BitVec.getElem_append, BitVec.getElem_extractLsb', BitVec.getElem_ofBool]
  by_cases h24 : i < 24
  · rw [dif_pos h24, Nat.zero_add]; exact BitVec.getLsbD_eq_getElem hi
  · rw [dif_neg h24]
    by_cases h31 : i - 24 < 7
    · rw [dif_pos h31, show 24 + (i - 24) = i by omega]; exact BitVec.getLsbD_eq_getElem hi
    · rw [dif_neg h31]; have : i = 31 := by omega
      subst this; rfl

/-- Taking a reading float apart and forming it again gives it back, unless it is a true zero (R35, R36). -/
theorem pack_unpack (w : Word) (h : (unpack w).fraction ≠ 0) : pack (unpack w) = w := by
  unfold pack
  rw [if_neg h]
  unfold unpack
  dsimp only
  have : BitVec.ofInt 7 (((w.extractLsb' 24 7).toNat : Int) - 64 + 64) = w.extractLsb' 24 7 := by
    rw [Int.sub_add_cancel, BitVec.ofInt_natCast, BitVec.ofNat_toNat, BitVec.setWidth_eq]
  rw [this, BitVec.ofNat_toNat, BitVec.setWidth_eq]
  exact word_fields w

/-- The sign of joined fields. -/
theorem joined_sign (n : Bool) (x : BitVec 7) (y : BitVec 24) : (BitVec.ofBool n ++ x ++ y : BitVec 32).getLsbD 31 = n := by
  rw [BitVec.getLsbD_append, if_neg (by omega), BitVec.getLsbD_append, if_neg (by omega)]; cases n <;> rfl

/-- The exponent field of joined fields. -/
theorem joined_exponent (n : Bool) (x : BitVec 7) (y : BitVec 24) : (BitVec.ofBool n ++ x ++ y : BitVec 32).extractLsb' 24 7 = x := by
  ext i hi
  rw [BitVec.getElem_extractLsb', BitVec.getLsbD_append, if_neg (by omega), BitVec.getLsbD_append, if_pos (by omega), show 24 + i - 24 = i by omega]
  exact BitVec.getLsbD_eq_getElem hi

/-- The fraction field of joined fields. -/
theorem joined_fraction (n : Bool) (x : BitVec 7) (y : BitVec 24) : (BitVec.ofBool n ++ x ++ y : BitVec 32).extractLsb' 0 24 = y := by
  ext i hi
  rw [BitVec.getElem_extractLsb', BitVec.getLsbD_append, if_pos (by omega), Nat.zero_add]
  exact BitVec.getLsbD_eq_getElem hi

/-- Forming a reading float and taking it apart gives the parts back where they are in range (R35). -/
theorem unpack_pack (u : Unpacked) (h0 : u.fraction ≠ 0) (h1 : u.fraction < 16 ^ 6) (h2 : -64 ≤ u.exponent) (h3 : u.exponent ≤ 63) : unpack (pack u) = u := by
  unfold pack; rw [if_neg h0]
  unfold unpack
  obtain ⟨n, e, f⟩ := u
  dsimp only at *
  rw [joined_sign, joined_exponent, joined_fraction]
  simp only [BitVec.toNat_ofInt, BitVec.toNat_ofNat]
  congr 1
  · omega
  · norm_num at *; omega

/-- A true zero is formed as the word zero (R36). -/
theorem pack_zero (u : Unpacked) (h : u.fraction = 0) : pack u = 0 := by unfold pack; rw [if_pos h]; rfl

/-- A value in range: `n` digits, the first not zero, and an exponent within -64..63 (R35, R50). -/
structure Unpacked.InRange (n : Nat) (u : Unpacked) : Prop where
  lo : 16 ^ (n - 1) ≤ u.fraction
  hi : u.fraction < 16 ^ n
  elo : -64 ≤ u.exponent
  ehi : u.exponent ≤ 63

/-- A value in range is formed normalized. -/
theorem Unpacked.InRange.pack_normalized {u : Unpacked} (h : u.InRange 6) : isNormalized (pack u) = true := by
  rw [isNormalized_iff, unpack_pack u (by have := h.lo; omega) h.hi h.elo h.ehi]; exact h.lo

/-- A reading float's exponent lies within -64..63 (R35). -/
theorem unpack_exponent (w : Word) : -64 ≤ (unpack w).exponent ∧ (unpack w).exponent ≤ 63 := by
  have := (w.extractLsb' 24 7).isLt
  unfold unpack
  dsimp only
  omega

/-- A normalized reading float is taken apart into a value in range. -/
theorem Unpacked.inRange_unpack {w : Word} (h : isNormalized w = true) : (unpack w).InRange 6 :=
  ⟨(isNormalized_iff w).1 h, unpack_fraction_lt w, (unpack_exponent w).1, (unpack_exponent w).2⟩

/-- In range, or zero: what every operation on `n` digits forms (R36). -/
def Unpacked.Formable (n : Nat) (u : Unpacked) : Prop := u.InRange n ∨ u.fraction = 0

/-- What is in range or zero is formed as a normalized value or the word zero. -/
theorem Unpacked.Formable.pack_cases {u : Unpacked} (h : u.Formable 6) : isNormalized (pack u) = true ∨ pack u = 0 :=
  h.elim (fun h => .inl h.pack_normalized) fun h => .inr (pack_zero u h)

/-- An operand that is normalized or has an all-zero fraction is taken apart into a value in range or zero (R36). -/
theorem Unpacked.formable_unpack {w : Word} (h : isNormalized w = true ∨ isZeroFloat w = true) : (unpack w).Formable 6 :=
  h.imp Unpacked.inRange_unpack (isZeroFloat_iff w).1

/-! ### Wide floats -/

/-- The first digit of a wide float's fraction (R50). -/
theorem wide_first_digit (w : WideFloat) : w.fraction.extractLsb' 36 4 ≠ 0 ↔ 16 ^ 9 ≤ w.fraction.toNat := by
  have h1 : (w.fraction.extractLsb' 36 4).toNat = w.fraction.toNat / 2 ^ 36 := by
    simp only [BitVec.extractLsb'_toNat, Nat.shiftRight_eq_div_pow]
    have := w.fraction.isLt
    omega
  have h2 : w.fraction.extractLsb' 36 4 = 0 ↔ (w.fraction.extractLsb' 36 4).toNat = 0 :=
    ⟨fun h => by rw [h]; rfl, fun h => BitVec.eq_of_toNat_eq h⟩
  rw [ne_eq, h2, h1]
  omega

/-- A wide float that is normalized or wide true zero is taken apart into a value in range or zero (R50). -/
theorem WideFloat.formable_unpack {w : WideFloat} (h : w.fraction.extractLsb' 36 4 ≠ 0 ∨ w = WideFloat.zero) :
    w.unpack.Formable 10 := by
  rcases h with h | rfl
  · have he := w.exponent.isLt
    refine .inl ⟨(wide_first_digit w).1 h, w.fraction.isLt, ?_, ?_⟩ <;> unfold WideFloat.unpack <;> dsimp only <;> omega
  · exact .inr rfl

/-- What is in range or zero is formed as a normalized wide float or wide true zero (R36, R50). -/
theorem Unpacked.Formable.widePack_cases {u : Unpacked} (h : u.Formable 10) :
    (WideFloat.pack u).fraction.extractLsb' 36 4 ≠ 0 ∨ WideFloat.pack u = WideFloat.zero := by
  unfold WideFloat.pack
  rcases h with h | h
  · have hlo := h.lo
    have hhi := h.hi
    rw [if_neg (by omega), wide_first_digit]
    left
    dsimp only
    rw [BitVec.toNat_ofNat]
    omega
  · rw [if_pos h]
    exact .inr rfl

/-- A reading float enters a wide operation in range or as zero (R50). -/
theorem extendFloat_formable {y : Word} (h : isNormalized y = true ∨ isZeroFloat y = true) : (extendFloat y).Formable 10 := by
  unfold extendFloat
  dsimp only
  split
  · exact .inr rfl
  · next h0 =>
    have g := (Unpacked.formable_unpack h).resolve_right h0
    have hlo := g.lo
    have hhi := g.hi
    exact .inl ⟨by dsimp only; omega, by dsimp only; omega, g.elo, g.ehi⟩

/-- Narrowing what is in range or zero gives a normalized value or true zero (R52). -/
theorem Unpacked.Formable.narrow_cases {u : Unpacked} (h : u.Formable 10) : isNormalized (narrow u) = true ∨ narrow u = 0 := by
  unfold narrow
  rcases h with h | h
  · have hlo := h.lo
    have hhi := h.hi
    exact Unpacked.Formable.pack_cases (.inl ⟨by dsimp only; omega, by dsimp only; omega, h.elo, h.ehi⟩)
  · exact .inr (pack_zero _ (by dsimp only; rw [h, Nat.zero_div]))

/-! ### Digits and range -/

/-- A number lies between the powers of sixteen that its digit count names (R38). -/
theorem hexDigits_spec (m : Nat) (h : m ≠ 0) : 16 ^ (hexDigits m - 1) ≤ m ∧ m < 16 ^ hexDigits m ∧ 1 ≤ hexDigits m := by
  unfold hexDigits
  rw [if_neg h]
  have h1 := Nat.log2_self_le h
  have h2 : m < 2 ^ (m.log2 + 1) := Nat.lt_log2_self
  refine ⟨?_, ?_, by omega⟩
  · rw [show 16 = 2 ^ 4 by rfl, ← Nat.pow_mul]
    exact le_trans (Nat.pow_le_pow_right (by norm_num) (by omega)) h1
  · rw [show 16 = 2 ^ 4 by rfl, ← Nat.pow_mul]
    exact lt_of_lt_of_le h2 (Nat.pow_le_pow_right (by norm_num) (by omega))

/-- A number of at most six digits, shifted by the digits it lacks, has exactly six (R38, R39). -/
theorem hexDigits_shift (m : Nat) (h : m ≠ 0) (hm : m < 16 ^ 6) : hexDigits m ≤ 6 ∧ 16 ^ 5 ≤ m * 16 ^ (6 - hexDigits m) ∧ m * 16 ^ (6 - hexDigits m) < 16 ^ 6 := by
  obtain ⟨a, b, c⟩ := hexDigits_spec m h
  have h6 : hexDigits m ≤ 6 := by
    by_contra hc
    have : 16 ^ 6 ≤ 16 ^ (hexDigits m - 1) := Nat.pow_le_pow_right (by norm_num) (by omega)
    omega
  refine ⟨h6, ?_, ?_⟩
  · calc 16 ^ 5 = 16 ^ (hexDigits m - 1) * 16 ^ (6 - hexDigits m) := by rw [← pow_add]; congr 1; omega
      _ ≤ _ := Nat.mul_le_mul_right _ a
  · calc m * 16 ^ (6 - hexDigits m) < 16 ^ hexDigits m * 16 ^ (6 - hexDigits m) := Nat.mul_lt_mul_of_pos_right b (by positivity)
      _ = 16 ^ 6 := by rw [← pow_add]; congr 1; omega

/-- The power that `n` digits reach, sixteen times the one before. -/
theorem pow_digits {n : Nat} (hn : 0 < n) : 16 ^ n = 16 * 16 ^ (n - 1) ∧ 16 ^ (n + 1) = 256 * 16 ^ (n - 1) ∧ 0 < 16 ^ (n - 1) := by
  obtain ⟨m, rfl⟩ := Nat.exists_eq_add_of_le' hn
  refine ⟨?_, ?_, by positivity⟩
  · rw [Nat.add_sub_cancel, pow_succ]; ring
  · rw [Nat.add_sub_cancel, pow_succ, pow_succ]; ring

/-- Left normalization brings a nonzero fraction to `n` digits and a guard digit (R43). -/
theorem normalizeLeft_spec (n fuel : Nat) (u : Unpacked) (h0 : u.fraction ≠ 0) (h1 : u.fraction < 16 ^ (n + 1))
    (hf : 16 ^ n ≤ u.fraction * 16 ^ fuel) :
    16 ^ n ≤ (normalizeLeft n fuel u).fraction ∧ (normalizeLeft n fuel u).fraction < 16 ^ (n + 1) := by
  induction fuel generalizing u with
  | zero => unfold normalizeLeft; exact ⟨by simpa using hf, h1⟩
  | succ k ih =>
    unfold normalizeLeft
    split
    · next h =>
      apply ih <;> dsimp only
      · omega
      · rw [pow_succ]; omega
      · rw [Nat.mul_assoc, ← Nat.pow_succ']; exact hf
    · next h => exact ⟨Nat.le_of_not_lt h, h1⟩

/-- The range test of an `n`-digit result forms a value in range, or zero (R44). -/
theorem rangeTest_formed {n : Nat} (hn : 0 < n) (u : Unpacked) (lo : 16 ^ (n - 1) ≤ u.fraction) (hi : u.fraction < 16 ^ n) :
    (rangeTest n u).value.Formable n := by
  obtain ⟨p1, -, p3⟩ := pow_digits hn
  unfold rangeTest
  split
  · left; exact ⟨by dsimp only; omega, by dsimp only; omega, by norm_num, by norm_num⟩
  · split
    · right; rfl
    · left; exact ⟨lo, hi, by dsimp only; omega, by dsimp only; omega⟩

/-- Every combined fraction is brought to a value in range, or to zero (R43). -/
theorem bringToForm_formed {n : Nat} (hn : 0 < n) (u : Unpacked) (h : u.fraction < 16 ^ (n + 2)) :
    (bringToForm n u).value.Formable n := by
  obtain ⟨p1, p2, p3⟩ := pow_digits hn
  have p4 : 16 ^ (n + 2) = 16 * 16 ^ (n + 1) := by rw [pow_succ _ (n + 1)]; ring
  unfold bringToForm
  split
  · right; rfl
  split
  · apply rangeTest_formed hn <;> dsimp only <;> omega
  · dsimp only
    next h0 hc =>
    have := normalizeLeft_spec n (n + 1) u h0 (by omega)
      (le_trans (Nat.pow_le_pow_right (by norm_num) (Nat.le_succ n)) (Nat.le_mul_of_pos_left _ (by omega)))
    apply rangeTest_formed hn <;> dsimp only <;> omega

/-- The add of two values in range or zero, on `n` digits, is in range or zero (R41 to R44, R51). -/
theorem addDigits_formed {n : Nat} (hn : 0 < n) {a b : Unpacked} (ha : a.Formable n) (hb : b.Formable n) :
    (addDigits n a b).value.Formable n := by
  have align : ∀ u v : Unpacked, u.InRange n → v.InRange n → (alignAdd n u v).value.Formable n := by
    intro u v hu hv
    obtain ⟨p1, p2, p3⟩ := pow_digits hn
    have p4 : 16 ^ (n + 2) = 16 * 16 ^ (n + 1) := by rw [pow_succ _ (n + 1)]; ring
    unfold alignAdd
    dsimp only
    split
    · exact .inl hu
    · have h1 := hu.hi
      have h2 := hv.hi
      have : v.fraction * 16 / 16 ^ (u.exponent - v.exponent).toNat < 16 ^ (n + 1) :=
        lt_of_le_of_lt (Nat.div_le_self _ _) (by omega)
      unfold combine
      dsimp only
      generalize v.fraction * 16 / 16 ^ (u.exponent - v.exponent).toNat = q at *
      split
      · exact bringToForm_formed hn _ (by dsimp only; omega)
      split
      · exact bringToForm_formed hn _ (by dsimp only; omega)
      · exact bringToForm_formed hn _ (by dsimp only; omega)
  unfold addDigits
  split
  · split
    · right; rfl
    · exact hb
  · next h1 =>
    split
    · exact ha
    · next h2 =>
      split
      · exact align _ _ (hb.resolve_right h2) (ha.resolve_right h1)
      · exact align _ _ (ha.resolve_right h1) (hb.resolve_right h2)

/-- The divide of two values in range or zero, on `n` digits, is in range or zero (R47, R53). -/
theorem divideDigits_formed {n : Nat} (hn : 0 < n) {a b : Unpacked} (ha : a.Formable n) (hb : b.Formable n) :
    (divideDigits n a b).value.Formable n := by
  obtain ⟨p1, -, p3⟩ := pow_digits hn
  unfold divideDigits
  dsimp only
  split
  · right; rfl
  next h1 =>
  split
  · right; rfl
  next h2 =>
  have ga := ha.resolve_right h2
  have gb := hb.resolve_right h1
  have a1 := ga.lo; have a2 := ga.hi; have b1 := gb.lo; have b2 := gb.hi
  have q : 0 < b.fraction := by omega
  split
  · next hle =>
    apply rangeTest_formed hn <;> dsimp only
    · rw [Nat.le_div_iff_mul_le (by omega), p1]
      nlinarith
    · rw [Nat.div_lt_iff_lt_mul (by omega)]
      nlinarith
  · next hlt =>
    apply rangeTest_formed hn <;> dsimp only
    · rw [Nat.le_div_iff_mul_le q, p1]
      nlinarith
    · rw [Nat.div_lt_iff_lt_mul q]
      nlinarith

/-! ### Sign (R40) -/

/-- Negation of a normalized value inverts its sign alone (R40). -/
theorem unpack_negate {w : Word} (h : isNormalized w = true) :
    unpack (negate w) = { unpack w with negative := !(unpack w).negative } := by
  have hz : isZeroFloat w = false := by
    have := (isNormalized_iff w).1 h
    rw [Bool.eq_false_iff, ne_eq, isZeroFloat_iff]
    omega
  unfold negate
  rw [hz, if_neg Bool.false_ne_true]
  unfold unpack
  dsimp only
  congr 1
  · simp
  · congr 3
    ext i hi
    simp only [BitVec.getElem_extractLsb', BitVec.getLsbD_xor]
    have : (0x80000000 : BitVec 32).getLsbD (24 + i) = false := by interval_cases i <;> rfl
    rw [this, Bool.xor_false]
  · congr 1
    ext i hi
    simp only [BitVec.getElem_extractLsb', BitVec.getLsbD_xor]
    have : (0x80000000 : BitVec 32).getLsbD (0 + i) = false := by interval_cases i <;> rfl
    rw [this, Bool.xor_false]

/-- The magnitude of a normalized value has sign plus and is otherwise the value (R40). -/
theorem unpack_magnitude {w : Word} (h : isNormalized w = true) : unpack (magnitude w) = { unpack w with negative := false } := by
  have hz : isZeroFloat w = false := by
    have := (isNormalized_iff w).1 h
    rw [Bool.eq_false_iff, ne_eq, isZeroFloat_iff]
    omega
  unfold magnitude
  rw [hz, if_neg Bool.false_ne_true]
  unfold unpack
  dsimp only
  congr 1
  · simp
  · congr 3
    ext i hi
    simp only [BitVec.getElem_extractLsb', BitVec.getLsbD_and]
    have : (0x7FFFFFFF : BitVec 32).getLsbD (24 + i) = true := by interval_cases i <;> rfl
    rw [this, Bool.and_true]
  · congr 1
    ext i hi
    simp only [BitVec.getElem_extractLsb', BitVec.getLsbD_and]
    have : (0x7FFFFFFF : BitVec 32).getLsbD (0 + i) = true := by interval_cases i <;> rfl
    rw [this, Bool.and_true]

/-- Negation keeps a value normalized, and a zero zero (R36, R40). -/
theorem negate_acceptable {w : Word} (h : isNormalized w = true ∨ isZeroFloat w = true) :
    isNormalized (negate w) = true ∨ isZeroFloat (negate w) = true := by
  rcases h with h | h
  · left
    rw [isNormalized_iff, unpack_negate h]
    exact (isNormalized_iff w).1 h
  · right
    unfold negate
    rw [if_pos h]
    rfl

/-- The magnitude of an integer's reading float is the reading float of the integer's magnitude: the x of a symmetric table (R24, R40). -/
theorem magnitude_ofInteger (r : Int) (h : r.natAbs < 16 ^ 6) : magnitude (ofInteger r) = ofInteger (r.natAbs : Int) := by
  by_cases h0 : r.natAbs = 0
  · have : r = 0 := Int.natAbs_eq_zero.1 h0
    subst this
    decide
  obtain ⟨d1, d2, d3⟩ := hexDigits_shift _ h0 h
  have hd : (1 : Nat) ≤ hexDigits r.natAbs := (hexDigits_spec _ h0).2.2
  have formed : ∀ s : Bool, Unpacked.InRange 6 ⟨s, hexDigits r.natAbs, r.natAbs * 16 ^ (6 - hexDigits r.natAbs)⟩ :=
    fun s => ⟨d2, d3, by dsimp only; omega, by dsimp only; omega⟩
  have apart : ∀ s : Bool, unpack (pack ⟨s, hexDigits r.natAbs, r.natAbs * 16 ^ (6 - hexDigits r.natAbs)⟩) =
      ⟨s, hexDigits r.natAbs, r.natAbs * 16 ^ (6 - hexDigits r.natAbs)⟩ := fun s =>
    unpack_pack _ (by dsimp only; omega) (formed s).hi (formed s).elo (formed s).ehi
  have e1 : ofInteger r = pack ⟨decide (r < 0), hexDigits r.natAbs, r.natAbs * 16 ^ (6 - hexDigits r.natAbs)⟩ := rfl
  have e2 : ofInteger (r.natAbs : Int) = pack ⟨false, hexDigits r.natAbs, r.natAbs * 16 ^ (6 - hexDigits r.natAbs)⟩ := by
    unfold ofInteger
    rw [Int.natAbs_natCast, decide_eq_false (by omega)]
  have hm := unpack_magnitude (formed (decide (r < 0))).pack_normalized
  rw [apart, ← e1] at hm
  have hp : pack (unpack (magnitude (ofInteger r))) = magnitude (ofInteger r) := by
    apply pack_unpack
    rw [hm]
    dsimp only
    omega
  rw [← hp, hm, e2]

end Sys2Proof.Machine
end

