-- ==== Sys2Proof/Laws/Cells.lean ====
section
/-! SUPPORT. What a formed cell holds: its bytes, the zeros that fill it up, and its check. -/

namespace Sys2Proof.Machine

/-- A formed cell of 22 bytes is those bytes with their check (R169). -/
theorem formCell_full (l : List Byte) (h : l.length = 22) : (formCell l).val = withCheck l := by
  unfold formCell
  have e : (Table.ofList 22 0 l).val = l := by
    apply List.ext_getElem
    · rw [(Table.ofList 22 0 l).property, h]
    · intro i h1 h2
      simp [Table.ofList, Table.tabulate, List.getD_eq_getElem?_getD, h2]
  dsimp only
  rw [e]
  apply List.ext_getElem
  · rw [(Table.ofList 24 0 _).property]; simp [withCheck, h]
  · intro i h1 h2
    have h3 : i < (l ++ halfBytes (crc16 l)).length := h2
    simp only [Table.ofList, Table.tabulate, List.getElem_map, List.getElem_finRange, List.getD_eq_getElem?_getD]
    simp only [Fin.val_cast, h3, getElem?_pos, Option.getD_some]
    rfl

/-- A formed cell of fewer bytes is filled up with zeros (R169, R174). -/
theorem formCell_padded (l : List Byte) (k : Nat) (h : l.length + k = 22) : (formCell l).val = withCheck (l ++ List.replicate k 0) := by
  rw [← formCell_full _ (by simpa using h)]
  unfold formCell
  have : Table.ofList 22 (0 : Byte) l = Table.ofList 22 0 (l ++ List.replicate k 0) := by
    apply Subtype.ext
    unfold Table.ofList Table.tabulate
    dsimp only
    apply List.map_congr_left
    intro i _
    simp only [List.getD_eq_getElem?_getD, List.getElem?_append]
    split
    · rfl
    · next hx => rw [List.getElem?_eq_none (by omega)]; simp
  rw [this]

end Sys2Proof.Machine
end

