-- ==== Sys2Proof/Laws/Memory.lean ====
section
/-! SUPPORT. The laws of pool memory: what a read gives after a write, and that every operation keeps the canonical form. -/

namespace Sys2Proof.Machine.Memory

theorem wfAbove_cons {bound k : Nat} {v : Word} {m : Memory} :
    wfAbove bound ((k, v) :: m) = true ↔ bound ≤ k ∧ k ≤ 4095 ∧ v ≠ unlisted ∧ wfAbove (k + 1) m = true := by
  simp [wfAbove, and_assoc]

theorem wfAbove_mono {b c : Nat} {m : Memory} (h : wfAbove c m = true) (hbc : b ≤ c) : wfAbove b m = true := by
  cases m with
  | nil => rfl
  | cons p m =>
    obtain ⟨k, v⟩ := p
    rw [wfAbove_cons] at h ⊢
    exact ⟨hbc.trans h.1, h.2⟩

/-- Below the bound nothing is listed. -/
theorem read_below {b a : Nat} {m : Memory} (h : wfAbove b m = true) (ha : a < b) : read m a = unlisted := by
  induction m generalizing b with
  | nil => rfl
  | cons p m ih =>
    obtain ⟨k, v⟩ := p
    rw [wfAbove_cons] at h
    have hne : a ≠ k := by omega
    rw [read, if_neg hne]
    exact ih h.2.2.2 (by omega)

/-- A write inside the pool keeps the canonical form above any bound at or below its address. -/
theorem wfAbove_write {b a : Nat} {v : Word} {m : Memory} (h : wfAbove b m = true) (hb : b ≤ a) (ha : a ≤ 4095) :
    wfAbove b (write m a v) = true := by
  induction m generalizing b with
  | nil =>
    rw [write]
    split
    · rfl
    · next hv => exact wfAbove_cons.2 ⟨hb, ha, hv, rfl⟩
  | cons p m ih =>
    obtain ⟨k, w⟩ := p
    have h' := wfAbove_cons.1 h
    rw [write]
    by_cases hak : a < k
    · rw [if_pos hak]
      split
      · exact h
      · next hv => exact wfAbove_cons.2 ⟨hb, ha, hv, wfAbove_cons.2 ⟨by omega, h'.2⟩⟩
    · rw [if_neg hak]
      by_cases hek : a = k
      · rw [if_pos hek]
        split
        · exact wfAbove_mono h'.2.2.2 (by omega)
        · next hv => exact wfAbove_cons.2 ⟨hb, ha, hv, hek ▸ h'.2.2.2⟩
      · rw [if_neg hek]
        exact wfAbove_cons.2 ⟨h'.1, h'.2.1, h'.2.2.1, ih h'.2.2.2 (by omega)⟩

/-- A write inside the pool keeps the canonical form. -/
theorem wf_write {m : Memory} {a : Nat} (v : Word) (h : wf m = true) (ha : a ≤ 4095) : wf (write m a v) = true :=
  wfAbove_write h (Nat.zero_le a) ha

/-- A write of consecutive words inside the pool keeps the canonical form. -/
theorem wf_writeList {m : Memory} {a : Nat} (l : List Word) (h : wf m = true) (ha : a + l.length ≤ 4096) :
    wf (writeList m a l) = true := by
  induction l generalizing m a with
  | nil => exact h
  | cons v l ih =>
    rw [List.length_cons] at ha
    exact ih (wf_write v h (by omega)) (by omega)

/-- The pool after power-on reset is canonical. -/
theorem wf_reset : wf Bank.reset.pool = true := rfl

theorem read_write_above {b a : Nat} {v : Word} {m : Memory} (h : wfAbove b m = true) (c : Nat) :
    read (write m a v) c = if c = a then v else read m c := by
  induction m generalizing b with
  | nil =>
    rw [write]
    split
    · next hv => split <;> simp [read, hv]
    · simp [read]
  | cons p m ih =>
    obtain ⟨k, w⟩ := p
    have h' := wfAbove_cons.1 h
    rw [write]
    by_cases hak : a < k
    · rw [if_pos hak]
      split
      · next hv =>
        split
        · next hc =>
          subst hc hv
          rw [read, if_neg (by omega)]
          exact read_below h'.2.2.2 (by omega)
        · rfl
      · simp [read]
    · rw [if_neg hak]
      by_cases hek : a = k
      · subst hek
        rw [if_pos rfl]
        split
        · next hv =>
          split
          · next hc =>
            subst hc hv
            exact read_below h'.2.2.2 (by omega)
          · next hc => simp [read, hc]
        · by_cases hc : c = a <;> simp [read, hc]
      · rw [if_neg hek]
        by_cases hc : c = k
        · subst hc
          have hca : ¬ c = a := fun e => hek e.symm
          simp [read, hca]
        · rw [read, if_neg hc, ih h'.2.2.2, read, if_neg hc]

/-- Reading after a write: the written word at its address, the former word elsewhere. -/
theorem read_write {m : Memory} (a : Nat) (v : Word) (h : wf m = true) (c : Nat) :
    read (write m a v) c = if c = a then v else read m c := read_write_above h c

/-- Reading after a write of consecutive words: a written word inside their range, the former word elsewhere. -/
theorem read_writeList {m : Memory} (a : Nat) (l : List Word) (h : wf m = true) (ha : a + l.length ≤ 4096) (c : Nat) :
    read (writeList m a l) c = if a ≤ c then l.getD (c - a) (read m c) else read m c := by
  induction l generalizing m a with
  | nil => simp [writeList]
  | cons v l ih =>
    rw [List.length_cons] at ha
    rw [writeList, ih (a + 1) (wf_write v h (by omega)) (by omega), read_write a v h]
    by_cases hac : a ≤ c
    · by_cases hec : c = a
      · subst hec
        simp
      · have : c - a = (c - (a + 1)) + 1 := by omega
        rw [if_pos (by omega), if_neg hec, if_pos hac, this, List.getD_cons_succ]
    · rw [if_neg (by omega), if_neg (by omega), if_neg hac]

end Sys2Proof.Machine.Memory
end

