-- ==== Sys2Proof/Laws/Directory.lean ====
section
/-! SUPPORT. The Channel Directory's lookups and edits, and the edits of a bank: what each finds and changes, and that each keeps a bank well
formed. -/

namespace Sys2Proof.Machine

/-! ### Lookups -/

/-- A channel has no entry exactly where no entry has its input channel id (R7). -/
theorem findChannel_none {d : List Entry} {c : ChannelId} : findChannel d c = none ↔ ∀ x ∈ d, x.input ≠ c := by
  unfold findChannel; rw [List.find?_eq_none]; simp

/-- The entry found is in the directory and has the channel looked up (R7). -/
theorem findChannel_some {d : List Entry} {c : ChannelId} {e : Entry} (h : findChannel d c = some e) : e ∈ d ∧ e.input = c :=
  ⟨List.mem_of_find?_eq_some h, by simpa using List.find?_some h⟩

/-- A channel that some entry has is found (R7). -/
theorem findChannel_isSome {d : List Entry} {c : ChannelId} (h : ∃ x ∈ d, x.input = c) : ∃ y, findChannel d c = some y := by
  cases hf : findChannel d c with
  | none => obtain ⟨x, hx, hc⟩ := h; exact absurd hc (findChannel_none.1 hf x hx)
  | some y => exact ⟨y, rfl⟩

/-- The entry found for a slot is in the directory and names that slot (R8). -/
theorem findSlot_some {d : List Entry} {i : SlotId} {e : Entry} (h : findSlot d i = some e) : e ∈ d ∧ e.slot = i :=
  ⟨List.mem_of_find?_eq_some h, by simpa using List.find?_some h⟩

/-- Where no two entries share a slot, an entry of the directory is the one found for its slot (R8, R122). -/
theorem findSlot_unique {d : List Entry} {e : Entry} (he : e ∈ d) (hd : ∀ x ∈ d, x.slot = e.slot → x = e) :
    findSlot d e.slot = some e := by
  cases hf : findSlot d e.slot with
  | none =>
    unfold findSlot at hf
    rw [List.find?_eq_none] at hf
    exact absurd (hf e he) (by simp)
  | some x =>
    obtain ⟨h1, h2⟩ := findSlot_some hf
    rw [hd x h1 h2]

/-! ### Order -/

/-- Ascending means that every entry is below all that come after it (R1). -/
theorem ascending_iff (d : List Entry) : ascending d = true ↔ d.Pairwise fun x y => x.input.toNat < y.input.toNat := by
  rw [← List.isChain_iff_pairwise]
  induction d with
  | nil => exact ⟨fun _ => .nil, fun _ => rfl⟩
  | cons x d ih =>
    cases d with
    | nil => exact ⟨fun _ => .singleton _, fun _ => rfl⟩
    | cons y d =>
      unfold ascending
      rw [Bool.and_eq_true, decide_eq_true_eq, ih, List.isChain_cons_cons]

theorem directoryWf_iff (d : List Entry) :
    directoryWf d = true ↔ d.length ≤ 512 ∧ d.Pairwise fun x y => x.input.toNat < y.input.toNat := by
  unfold directoryWf
  rw [Bool.and_eq_true, decide_eq_true_eq, ascending_iff]

/-- Where an inserted entry stands and the position it reports (R10). -/
theorem insertEntry_split (e : Entry) (d : List Entry) (h : d.Pairwise fun x y => x.input.toNat < y.input.toNat)
    (hn : ∀ x ∈ d, x.input ≠ e.input) :
    ∃ before after, d = before ++ after ∧ (∀ x ∈ before, x.input.toNat < e.input.toNat) ∧
      (∀ x ∈ after, e.input.toNat < x.input.toNat) ∧ insertEntry e d = before ++ e :: after ∧
      positionOf d e.input = before.length := by
  induction d with
  | nil => exact ⟨[], [], rfl, by simp, by simp, rfl, rfl⟩
  | cons x d ih =>
    rw [List.pairwise_cons] at h
    by_cases hx : x.input.toNat < e.input.toNat
    · obtain ⟨b, a, h1, h2, h3, h4, h5⟩ := ih h.2 fun y hy => hn y (List.mem_cons_of_mem _ hy)
      refine ⟨x :: b, a, by rw [h1]; rfl, ?_, h3, ?_, ?_⟩
      · intro y hy
        rcases List.mem_cons.1 hy with rfl | hy
        exacts [hx, h2 y hy]
      · unfold insertEntry; rw [if_pos hx, h4]; rfl
      · unfold positionOf at *; rw [List.countP_cons_of_pos (by simpa using hx), h5]; rfl
    · have hxe : e.input.toNat < x.input.toNat := by
        have : x.input.toNat ≠ e.input.toNat := fun hh => hn x (by simp) (BitVec.eq_of_toNat_eq hh)
        omega
      refine ⟨[], x :: d, rfl, by simp, ?_, ?_, ?_⟩
      · intro y hy
        rcases List.mem_cons.1 hy with rfl | hy
        exacts [hxe, lt_trans hxe (h.1 y hy)]
      · unfold insertEntry; rw [if_neg hx]; rfl
      · unfold positionOf
        rw [List.countP_eq_zero.2]
        · rfl
        intro y hy
        rcases List.mem_cons.1 hy with rfl | hy
        · simpa using hx
        · have := h.1 y hy; simp; omega

/-- What stands around an entry: it is found, its position is the number of entries before it, and its removal leaves the others (R7, R13). -/
theorem entry_split {d before after : List Entry} {x : Entry} (h : d.Pairwise fun x y => x.input.toNat < y.input.toNat)
    (hd : d = before ++ x :: after) :
    findChannel d x.input = some x ∧ positionOf d x.input = before.length ∧ removeEntry x.input d = before ++ after := by
  subst hd
  rw [List.pairwise_append, List.pairwise_cons] at h
  obtain ⟨_, ⟨h2, _⟩, h4⟩ := h
  have hb : ∀ y ∈ before, y.input.toNat < x.input.toNat := fun y hy => h4 y hy x (by simp)
  refine ⟨?_, ?_, ?_⟩
  · unfold findChannel
    rw [List.find?_append]
    have : before.find? (fun e => decide (e.input = x.input)) = none := by
      rw [List.find?_eq_none]
      intro y hy
      have := hb y hy
      simp only [decide_eq_true_eq]
      intro h
      rw [h] at this
      omega
    rw [this]; simp
  · unfold positionOf
    rw [List.countP_append, List.countP_eq_length.2, List.countP_eq_zero.2]
    · rfl
    · intro y hy
      rcases List.mem_cons.1 hy with rfl | hy
      · simp
      · have := h2 y hy; simp; omega
    · intro y hy; simpa using hb y hy
  · unfold removeEntry
    rw [List.filter_append, List.filter_cons_of_neg (by simp)]
    congr 1
    · rw [List.filter_eq_self]
      intro y hy
      have := hb y hy
      simp only [decide_eq_true_eq]
      intro h
      rw [h] at this
      omega
    · rw [List.filter_eq_self]
      intro y hy
      have := h2 y hy
      simp only [decide_eq_true_eq]
      intro h
      rw [h] at this
      omega

/-! ### Edits keep a bank well formed -/

/-- A new entry keeps the directory well formed (R10). -/
theorem directoryWf_insert {d : List Entry} {e : Entry} (h : directoryWf d = true) (hn : findChannel d e.input = none)
    (hl : d.length < 512) : directoryWf (insertEntry e d) = true := by
  rw [directoryWf_iff] at *
  obtain ⟨b, a, h1, h2, h3, h4, _⟩ := insertEntry_split e d h.2 (findChannel_none.1 hn)
  rw [h4]
  subst h1
  have hp := List.pairwise_append.1 h.2
  refine ⟨by simp at hl ⊢; omega, List.pairwise_append.2 ⟨hp.1, List.pairwise_cons.2 ⟨h3, hp.2.1⟩, ?_⟩⟩
  intro x hx y hy
  rcases List.mem_cons.1 hy with rfl | hy
  exacts [h2 x hx, hp.2.2 x hx y hy]

theorem mem_insertEntry {x e : Entry} {d : List Entry} (h : x ∈ insertEntry e d) : x = e ∨ x ∈ d := by
  induction d with
  | nil => exact .inl (by simpa [insertEntry] using h)
  | cons y d ih =>
    unfold insertEntry at h
    split at h
    · rcases List.mem_cons.1 h with rfl | h
      · exact .inr (by simp)
      · exact (ih h).imp_right (List.mem_cons_of_mem _)
    · exact List.mem_cons.1 h

/-- An entry changed in place, its channel kept, keeps the directory well formed (R11, R12). -/
theorem directoryWf_update {d : List Entry} {c : ChannelId} {f : Entry → Entry} (h : directoryWf d = true)
    (hf : ∀ e, (f e).input = e.input) : directoryWf (updateEntry c f d) = true := by
  rw [directoryWf_iff] at *
  unfold updateEntry
  refine ⟨by simpa using h.1, List.pairwise_map.2 (h.2.imp fun {x y} hxy => ?_)⟩
  have key : ∀ e : Entry, (if e.input = c then f e else e).input = e.input := fun e => by split <;> simp [hf]
  rw [key, key]; exact hxy

/-- A directory without one of its entries stays well formed (R13). -/
theorem directoryWf_remove {d : List Entry} (c : ChannelId) (h : directoryWf d = true) : directoryWf (removeEntry c d) = true := by
  rw [directoryWf_iff] at *
  exact ⟨le_trans (List.length_filter_le _ _) h.1, h.2.filter _⟩

/-- The entry that ENTRY INSERT forms is in range (R10). -/
theorem insertOperands_wf {c : Cell} {e : Entry} (h : insertOperands c = some e) : e.wf := by
  unfold insertOperands at h
  split at h
  · next slot form out emit _ _ ho _ =>
    obtain rfl := Option.some.inj h
    refine ⟨?_, ?_, ?_, ?_, ?_⟩ <;> dsimp only <;> intros
    · next k hk =>
      unfold outputFormOfCode at ho
      rw [hk] at ho
      split at ho
      · exact absurd ho (by simp)
      · split at ho
        · split at ho
          · next hr =>
            have := OutputForm.integer.inj (Option.some.inj ho)
            omega
          · exact absurd ho (by simp)
        · exact absurd ho (by simp)
    all_goals next hk => exact absurd hk (by simp)
  · exact absurd h (by simp)

/-- An accepted gain or offset is normalized or has an all-zero fraction (R11). -/
theorem operandFloat_some {w v : Word} (h : operandFloat w = some v) : isNormalized v = true ∨ isZeroFloat v = true := by
  unfold operandFloat at h
  split at h
  · next hw =>
    obtain rfl := Option.some.inj h
    simpa using hw
  · exact absurd h (by simp)

/-- The operands that ENTRY CONVERT forms are in range (R11). -/
theorem convertOperands_wf {c : Cell} {k : Conversion} (h : convertOperands c = some k) :
    (∀ gain offset, k = .linear gain offset →
      (isNormalized gain = true ∨ isZeroFloat gain = true) ∧ (isNormalized offset = true ∨ isZeroFloat offset = true)) ∧
      ∀ reference gain, k = .ratio reference gain → isNormalized gain = true ∨ isZeroFloat gain = true := by
  unfold convertOperands at h
  split at h
  · obtain rfl := Option.some.inj h
    exact ⟨fun _ _ x => absurd x (by simp), fun _ _ x => absurd x (by simp)⟩
  split at h
  · split at h
    · next h1 h2 =>
      obtain rfl := Option.some.inj h
      refine ⟨fun a b x => ?_, fun _ _ x => absurd x (by simp)⟩
      obtain ⟨rfl, rfl⟩ := Conversion.linear.inj x
      exact ⟨operandFloat_some h1, operandFloat_some h2⟩
    · exact absurd h (by simp)
  split at h
  · split at h
    · obtain rfl := Option.some.inj h
      exact ⟨fun _ _ x => absurd x (by simp), fun _ _ x => absurd x (by simp)⟩
    · exact absurd h (by simp)
  split at h
  · cases hf : operandFloat (payloadWord c 4) with
    | none => rw [hf] at h; exact absurd h (by simp)
    | some v =>
      rw [hf] at h
      obtain rfl := Option.some.inj h
      refine ⟨fun _ _ x => absurd x (by simp), fun a b x => ?_⟩
      obtain ⟨_, rfl⟩ := Conversion.ratio.inj x
      exact operandFloat_some hf
  · exact absurd h (by simp)

/-- The window that ENTRY WINDOW forms is in range (R12). -/
theorem windowOperands_wf {c : Cell} {w : Option WindowDef} {p : Bool} (h : windowOperands c = some (w, p)) :
    (∀ n, w = some (.count n) → 1 ≤ n ∧ n ≤ 4096) ∧ ∀ n, w = some (.epoch n) → 1 ≤ n ∧ n ≤ 255 := by
  unfold windowOperands at h
  split at h
  · next v q hv _ =>
    obtain ⟨rfl, rfl⟩ := Prod.mk.inj (Option.some.inj h)
    unfold windowDefOfCode at hv
    split at hv
    · obtain rfl := Option.some.inj hv
      exact ⟨fun _ x => absurd x (by simp), fun _ x => absurd x (by simp)⟩
    split at hv
    · split at hv
      · next hr =>
        obtain rfl := Option.some.inj hv
        refine ⟨fun n x => ?_, fun _ x => absurd x (by simp)⟩
        obtain rfl := WindowDef.count.inj (Option.some.inj x)
        exact hr
      · exact absurd hv (by simp)
    split at hv
    · split at hv
      · next hr =>
        obtain rfl := Option.some.inj hv
        refine ⟨fun _ x => absurd x (by simp), fun n x => ?_⟩
        obtain rfl := WindowDef.epoch.inj (Option.some.inj x)
        exact hr
      · exact absurd hv (by simp)
    · exact absurd hv (by simp)
  · exact absurd h (by simp)

/-- A change of the directory alone keeps the bank well formed where the directory and its entries stay so. -/
theorem Bank.wf_directory {b : Bank} {d : List Entry} (h : b.wf) (hd : directoryWf d = true) (he : ∀ e ∈ d, e.wf) :
    Bank.wf { b with directory := d } := ⟨hd, he, h.2.2⟩

/-- POOL WRITE's words fit the pool from its address on (R32). -/
theorem poolWriteOperands_fits {c : Cell} {words : List Word} (h : poolWriteOperands c = some words) :
    (commandKey c).toNat + words.length ≤ 4096 := by
  unfold poolWriteOperands at h
  dsimp only at h
  split at h
  · next hr =>
    obtain rfl := Option.some.inj h
    obtain ⟨h1, h2, h3⟩ := hr
    simp only [Config.lastPoolAddress] at h3
    simp only [List.length_take, List.length_cons, List.length_nil]
    omega
  · exact absurd h (by simp)

end Sys2Proof.Machine
end

