-- ==== Sys2Proof/Laws/State.lean ====
section
/-! SUPPORT. One lemma per field per update of State: what the field holds after it. A later proof never unfolds an update. -/

namespace Sys2Proof.Machine

/-! ### putSlot -/

@[simp] theorem State.putSlot_resetAsserted (s : State) (i : SlotId) (x : Slot) : (s.putSlot i x).resetAsserted = s.resetAsserted := rfl
@[simp] theorem State.putSlot_downstreamReady (s : State) (i : SlotId) (x : Slot) : (s.putSlot i x).downstreamReady = s.downstreamReady := rfl
@[simp] theorem State.putSlot_strap (s : State) (i : SlotId) (x : Slot) : (s.putSlot i x).strap = s.strap := rfl
@[simp] theorem State.putSlot_receiver (s : State) (i : SlotId) (x : Slot) : (s.putSlot i x).receiver = s.receiver := rfl
@[simp] theorem State.putSlot_ingressBuffer (s : State) (i : SlotId) (x : Slot) : (s.putSlot i x).ingressBuffer = s.ingressBuffer := rfl
@[simp] theorem State.putSlot_badCells (s : State) (i : SlotId) (x : Slot) : (s.putSlot i x).badCells = s.badCells := rfl
@[simp] theorem State.putSlot_unknownChannels (s : State) (i : SlotId) (x : Slot) : (s.putSlot i x).unknownChannels = s.unknownChannels := rfl
@[simp] theorem State.putSlot_discardedCommands (s : State) (i : SlotId) (x : Slot) : (s.putSlot i x).discardedCommands = s.discardedCommands := rfl
@[simp] theorem State.putSlot_engine (s : State) (i : SlotId) (x : Slot) : (s.putSlot i x).engine = s.engine := rfl
@[simp] theorem State.putSlot_tables (s : State) (i : SlotId) (x : Slot) : (s.putSlot i x).tables = s.tables := rfl
@[simp] theorem State.putSlot_slots (s : State) (i : SlotId) (x : Slot) : (s.putSlot i x).slots = s.slots.put i x := rfl
@[simp] theorem State.putSlot_reconciliation (s : State) (i : SlotId) (x : Slot) : (s.putSlot i x).reconciliation = s.reconciliation := rfl
@[simp] theorem State.putSlot_epochCount (s : State) (i : SlotId) (x : Slot) : (s.putSlot i x).epochCount = s.epochCount := rfl
@[simp] theorem State.putSlot_sweep (s : State) (i : SlotId) (x : Slot) : (s.putSlot i x).sweep = s.sweep := rfl
@[simp] theorem State.putSlot_commandQueue (s : State) (i : SlotId) (x : Slot) : (s.putSlot i x).commandQueue = s.commandQueue := rfl
@[simp] theorem State.putSlot_commandUnit (s : State) (i : SlotId) (x : Slot) : (s.putSlot i x).commandUnit = s.commandUnit := rfl
@[simp] theorem State.putSlot_mode (s : State) (i : SlotId) (x : Slot) : (s.putSlot i x).mode = s.mode := rfl
@[simp] theorem State.putSlot_forwardQueue (s : State) (i : SlotId) (x : Slot) : (s.putSlot i x).forwardQueue = s.forwardQueue := rfl
@[simp] theorem State.putSlot_responseQueue (s : State) (i : SlotId) (x : Slot) : (s.putSlot i x).responseQueue = s.responseQueue := rfl
@[simp] theorem State.putSlot_noticeQueue (s : State) (i : SlotId) (x : Slot) : (s.putSlot i x).noticeQueue = s.noticeQueue := rfl
@[simp] theorem State.putSlot_summaryQueue (s : State) (i : SlotId) (x : Slot) : (s.putSlot i x).summaryQueue = s.summaryQueue := rfl
@[simp] theorem State.putSlot_noticeSequence (s : State) (i : SlotId) (x : Slot) : (s.putSlot i x).noticeSequence = s.noticeSequence := rfl
@[simp] theorem State.putSlot_noticeLost (s : State) (i : SlotId) (x : Slot) : (s.putSlot i x).noticeLost = s.noticeLost := rfl
@[simp] theorem State.putSlot_starvationCount (s : State) (i : SlotId) (x : Slot) : (s.putSlot i x).starvationCount = s.starvationCount := rfl
@[simp] theorem State.putSlot_port (s : State) (i : SlotId) (x : Slot) : (s.putSlot i x).port = s.port := rfl
@[simp] theorem State.putSlot_responseSent (s : State) (i : SlotId) (x : Slot) : (s.putSlot i x).responseSent = s.responseSent := rfl
@[simp] theorem State.putSlot_copySent (s : State) (i : SlotId) (x : Slot) : (s.putSlot i x).copySent = s.copySent := rfl
@[simp] theorem State.putSlot_freeCount (s : State) (i : SlotId) (x : Slot) : (s.putSlot i x).freeCount = s.freeCount := rfl
@[simp] theorem State.putSlot_pending (s : State) (i : SlotId) (x : Slot) : (s.putSlot i x).pending = s.pending := rfl

/-! ### putRuntime -/

@[simp] theorem State.putRuntime_resetAsserted (s : State) (i : SlotId) (r : Runtime) : (s.putRuntime i r).resetAsserted = s.resetAsserted := rfl
@[simp] theorem State.putRuntime_downstreamReady (s : State) (i : SlotId) (r : Runtime) : (s.putRuntime i r).downstreamReady = s.downstreamReady := rfl
@[simp] theorem State.putRuntime_strap (s : State) (i : SlotId) (r : Runtime) : (s.putRuntime i r).strap = s.strap := rfl
@[simp] theorem State.putRuntime_receiver (s : State) (i : SlotId) (r : Runtime) : (s.putRuntime i r).receiver = s.receiver := rfl
@[simp] theorem State.putRuntime_ingressBuffer (s : State) (i : SlotId) (r : Runtime) : (s.putRuntime i r).ingressBuffer = s.ingressBuffer := rfl
@[simp] theorem State.putRuntime_badCells (s : State) (i : SlotId) (r : Runtime) : (s.putRuntime i r).badCells = s.badCells := rfl
@[simp] theorem State.putRuntime_unknownChannels (s : State) (i : SlotId) (r : Runtime) : (s.putRuntime i r).unknownChannels = s.unknownChannels := rfl
@[simp] theorem State.putRuntime_discardedCommands (s : State) (i : SlotId) (r : Runtime) : (s.putRuntime i r).discardedCommands = s.discardedCommands := rfl
@[simp] theorem State.putRuntime_engine (s : State) (i : SlotId) (r : Runtime) : (s.putRuntime i r).engine = s.engine := rfl
@[simp] theorem State.putRuntime_tables (s : State) (i : SlotId) (r : Runtime) : (s.putRuntime i r).tables = s.tables := rfl
@[simp] theorem State.putRuntime_slots (s : State) (i : SlotId) (r : Runtime) : (s.putRuntime i r).slots = s.slots.put i { s.slot i with runtime := some r } := rfl
@[simp] theorem State.putRuntime_reconciliation (s : State) (i : SlotId) (r : Runtime) : (s.putRuntime i r).reconciliation = s.reconciliation := rfl
@[simp] theorem State.putRuntime_epochCount (s : State) (i : SlotId) (r : Runtime) : (s.putRuntime i r).epochCount = s.epochCount := rfl
@[simp] theorem State.putRuntime_sweep (s : State) (i : SlotId) (r : Runtime) : (s.putRuntime i r).sweep = s.sweep := rfl
@[simp] theorem State.putRuntime_commandQueue (s : State) (i : SlotId) (r : Runtime) : (s.putRuntime i r).commandQueue = s.commandQueue := rfl
@[simp] theorem State.putRuntime_commandUnit (s : State) (i : SlotId) (r : Runtime) : (s.putRuntime i r).commandUnit = s.commandUnit := rfl
@[simp] theorem State.putRuntime_mode (s : State) (i : SlotId) (r : Runtime) : (s.putRuntime i r).mode = s.mode := rfl
@[simp] theorem State.putRuntime_forwardQueue (s : State) (i : SlotId) (r : Runtime) : (s.putRuntime i r).forwardQueue = s.forwardQueue := rfl
@[simp] theorem State.putRuntime_responseQueue (s : State) (i : SlotId) (r : Runtime) : (s.putRuntime i r).responseQueue = s.responseQueue := rfl
@[simp] theorem State.putRuntime_noticeQueue (s : State) (i : SlotId) (r : Runtime) : (s.putRuntime i r).noticeQueue = s.noticeQueue := rfl
@[simp] theorem State.putRuntime_summaryQueue (s : State) (i : SlotId) (r : Runtime) : (s.putRuntime i r).summaryQueue = s.summaryQueue := rfl
@[simp] theorem State.putRuntime_noticeSequence (s : State) (i : SlotId) (r : Runtime) : (s.putRuntime i r).noticeSequence = s.noticeSequence := rfl
@[simp] theorem State.putRuntime_noticeLost (s : State) (i : SlotId) (r : Runtime) : (s.putRuntime i r).noticeLost = s.noticeLost := rfl
@[simp] theorem State.putRuntime_starvationCount (s : State) (i : SlotId) (r : Runtime) : (s.putRuntime i r).starvationCount = s.starvationCount := rfl
@[simp] theorem State.putRuntime_port (s : State) (i : SlotId) (r : Runtime) : (s.putRuntime i r).port = s.port := rfl
@[simp] theorem State.putRuntime_responseSent (s : State) (i : SlotId) (r : Runtime) : (s.putRuntime i r).responseSent = s.responseSent := rfl
@[simp] theorem State.putRuntime_copySent (s : State) (i : SlotId) (r : Runtime) : (s.putRuntime i r).copySent = s.copySent := rfl
@[simp] theorem State.putRuntime_freeCount (s : State) (i : SlotId) (r : Runtime) : (s.putRuntime i r).freeCount = s.freeCount := rfl
@[simp] theorem State.putRuntime_pending (s : State) (i : SlotId) (r : Runtime) : (s.putRuntime i r).pending = s.pending := rfl

/-! ### pushForward -/

@[simp] theorem State.pushForward_resetAsserted (s : State) (c : ForwardCell) : (s.pushForward c).resetAsserted = s.resetAsserted := rfl
@[simp] theorem State.pushForward_downstreamReady (s : State) (c : ForwardCell) : (s.pushForward c).downstreamReady = s.downstreamReady := rfl
@[simp] theorem State.pushForward_strap (s : State) (c : ForwardCell) : (s.pushForward c).strap = s.strap := rfl
@[simp] theorem State.pushForward_receiver (s : State) (c : ForwardCell) : (s.pushForward c).receiver = s.receiver := rfl
@[simp] theorem State.pushForward_ingressBuffer (s : State) (c : ForwardCell) : (s.pushForward c).ingressBuffer = s.ingressBuffer := rfl
@[simp] theorem State.pushForward_badCells (s : State) (c : ForwardCell) : (s.pushForward c).badCells = s.badCells := rfl
@[simp] theorem State.pushForward_unknownChannels (s : State) (c : ForwardCell) : (s.pushForward c).unknownChannels = s.unknownChannels := rfl
@[simp] theorem State.pushForward_discardedCommands (s : State) (c : ForwardCell) : (s.pushForward c).discardedCommands = s.discardedCommands := rfl
@[simp] theorem State.pushForward_engine (s : State) (c : ForwardCell) : (s.pushForward c).engine = s.engine := rfl
@[simp] theorem State.pushForward_tables (s : State) (c : ForwardCell) : (s.pushForward c).tables = s.tables := rfl
@[simp] theorem State.pushForward_slots (s : State) (c : ForwardCell) : (s.pushForward c).slots = s.slots := rfl
@[simp] theorem State.pushForward_reconciliation (s : State) (c : ForwardCell) : (s.pushForward c).reconciliation = s.reconciliation := rfl
@[simp] theorem State.pushForward_epochCount (s : State) (c : ForwardCell) : (s.pushForward c).epochCount = s.epochCount := rfl
@[simp] theorem State.pushForward_sweep (s : State) (c : ForwardCell) : (s.pushForward c).sweep = s.sweep := rfl
@[simp] theorem State.pushForward_commandQueue (s : State) (c : ForwardCell) : (s.pushForward c).commandQueue = s.commandQueue := rfl
@[simp] theorem State.pushForward_commandUnit (s : State) (c : ForwardCell) : (s.pushForward c).commandUnit = s.commandUnit := rfl
@[simp] theorem State.pushForward_mode (s : State) (c : ForwardCell) : (s.pushForward c).mode = s.mode := rfl
@[simp] theorem State.pushForward_forwardQueue (s : State) (c : ForwardCell) : (s.pushForward c).forwardQueue = s.forwardQueue ++ [c] := rfl
@[simp] theorem State.pushForward_responseQueue (s : State) (c : ForwardCell) : (s.pushForward c).responseQueue = s.responseQueue := rfl
@[simp] theorem State.pushForward_noticeQueue (s : State) (c : ForwardCell) : (s.pushForward c).noticeQueue = s.noticeQueue := rfl
@[simp] theorem State.pushForward_summaryQueue (s : State) (c : ForwardCell) : (s.pushForward c).summaryQueue = s.summaryQueue := rfl
@[simp] theorem State.pushForward_noticeSequence (s : State) (c : ForwardCell) : (s.pushForward c).noticeSequence = s.noticeSequence := rfl
@[simp] theorem State.pushForward_noticeLost (s : State) (c : ForwardCell) : (s.pushForward c).noticeLost = s.noticeLost := rfl
@[simp] theorem State.pushForward_starvationCount (s : State) (c : ForwardCell) : (s.pushForward c).starvationCount = s.starvationCount := rfl
@[simp] theorem State.pushForward_port (s : State) (c : ForwardCell) : (s.pushForward c).port = s.port := rfl
@[simp] theorem State.pushForward_responseSent (s : State) (c : ForwardCell) : (s.pushForward c).responseSent = s.responseSent := rfl
@[simp] theorem State.pushForward_copySent (s : State) (c : ForwardCell) : (s.pushForward c).copySent = s.copySent := rfl
@[simp] theorem State.pushForward_freeCount (s : State) (c : ForwardCell) : (s.pushForward c).freeCount = s.freeCount := rfl
@[simp] theorem State.pushForward_pending (s : State) (c : ForwardCell) : (s.pushForward c).pending = s.pending := rfl

/-! ### pushSummary -/

@[simp] theorem State.pushSummary_resetAsserted (s : State) (c : Summary) : (s.pushSummary c).resetAsserted = s.resetAsserted := rfl
@[simp] theorem State.pushSummary_downstreamReady (s : State) (c : Summary) : (s.pushSummary c).downstreamReady = s.downstreamReady := rfl
@[simp] theorem State.pushSummary_strap (s : State) (c : Summary) : (s.pushSummary c).strap = s.strap := rfl
@[simp] theorem State.pushSummary_receiver (s : State) (c : Summary) : (s.pushSummary c).receiver = s.receiver := rfl
@[simp] theorem State.pushSummary_ingressBuffer (s : State) (c : Summary) : (s.pushSummary c).ingressBuffer = s.ingressBuffer := rfl
@[simp] theorem State.pushSummary_badCells (s : State) (c : Summary) : (s.pushSummary c).badCells = s.badCells := rfl
@[simp] theorem State.pushSummary_unknownChannels (s : State) (c : Summary) : (s.pushSummary c).unknownChannels = s.unknownChannels := rfl
@[simp] theorem State.pushSummary_discardedCommands (s : State) (c : Summary) : (s.pushSummary c).discardedCommands = s.discardedCommands := rfl
@[simp] theorem State.pushSummary_engine (s : State) (c : Summary) : (s.pushSummary c).engine = s.engine := rfl
@[simp] theorem State.pushSummary_tables (s : State) (c : Summary) : (s.pushSummary c).tables = s.tables := rfl
@[simp] theorem State.pushSummary_slots (s : State) (c : Summary) : (s.pushSummary c).slots = s.slots := rfl
@[simp] theorem State.pushSummary_reconciliation (s : State) (c : Summary) : (s.pushSummary c).reconciliation = s.reconciliation := rfl
@[simp] theorem State.pushSummary_epochCount (s : State) (c : Summary) : (s.pushSummary c).epochCount = s.epochCount := rfl
@[simp] theorem State.pushSummary_sweep (s : State) (c : Summary) : (s.pushSummary c).sweep = s.sweep := rfl
@[simp] theorem State.pushSummary_commandQueue (s : State) (c : Summary) : (s.pushSummary c).commandQueue = s.commandQueue := rfl
@[simp] theorem State.pushSummary_commandUnit (s : State) (c : Summary) : (s.pushSummary c).commandUnit = s.commandUnit := rfl
@[simp] theorem State.pushSummary_mode (s : State) (c : Summary) : (s.pushSummary c).mode = s.mode := rfl
@[simp] theorem State.pushSummary_forwardQueue (s : State) (c : Summary) : (s.pushSummary c).forwardQueue = s.forwardQueue := rfl
@[simp] theorem State.pushSummary_responseQueue (s : State) (c : Summary) : (s.pushSummary c).responseQueue = s.responseQueue := rfl
@[simp] theorem State.pushSummary_noticeQueue (s : State) (c : Summary) : (s.pushSummary c).noticeQueue = s.noticeQueue := rfl
@[simp] theorem State.pushSummary_summaryQueue (s : State) (c : Summary) : (s.pushSummary c).summaryQueue = s.summaryQueue ++ [c] := rfl
@[simp] theorem State.pushSummary_noticeSequence (s : State) (c : Summary) : (s.pushSummary c).noticeSequence = s.noticeSequence := rfl
@[simp] theorem State.pushSummary_noticeLost (s : State) (c : Summary) : (s.pushSummary c).noticeLost = s.noticeLost := rfl
@[simp] theorem State.pushSummary_starvationCount (s : State) (c : Summary) : (s.pushSummary c).starvationCount = s.starvationCount := rfl
@[simp] theorem State.pushSummary_port (s : State) (c : Summary) : (s.pushSummary c).port = s.port := rfl
@[simp] theorem State.pushSummary_responseSent (s : State) (c : Summary) : (s.pushSummary c).responseSent = s.responseSent := rfl
@[simp] theorem State.pushSummary_copySent (s : State) (c : Summary) : (s.pushSummary c).copySent = s.copySent := rfl
@[simp] theorem State.pushSummary_freeCount (s : State) (c : Summary) : (s.pushSummary c).freeCount = s.freeCount := rfl
@[simp] theorem State.pushSummary_pending (s : State) (c : Summary) : (s.pushSummary c).pending = s.pending := rfl

/-! ### endReading -/

@[simp] theorem State.endReading_resetAsserted (s : State) : (s.endReading).resetAsserted = s.resetAsserted := rfl
@[simp] theorem State.endReading_downstreamReady (s : State) : (s.endReading).downstreamReady = s.downstreamReady := rfl
@[simp] theorem State.endReading_strap (s : State) : (s.endReading).strap = s.strap := rfl
@[simp] theorem State.endReading_receiver (s : State) : (s.endReading).receiver = s.receiver := rfl
@[simp] theorem State.endReading_ingressBuffer (s : State) : (s.endReading).ingressBuffer = s.ingressBuffer := rfl
@[simp] theorem State.endReading_badCells (s : State) : (s.endReading).badCells = s.badCells := rfl
@[simp] theorem State.endReading_unknownChannels (s : State) : (s.endReading).unknownChannels = s.unknownChannels := rfl
@[simp] theorem State.endReading_discardedCommands (s : State) : (s.endReading).discardedCommands = s.discardedCommands := rfl
@[simp] theorem State.endReading_engine (s : State) : (s.endReading).engine = .idle := rfl
@[simp] theorem State.endReading_tables (s : State) : (s.endReading).tables = s.tables := rfl
@[simp] theorem State.endReading_slots (s : State) : (s.endReading).slots = s.slots := rfl
@[simp] theorem State.endReading_reconciliation (s : State) : (s.endReading).reconciliation = s.reconciliation := rfl
@[simp] theorem State.endReading_epochCount (s : State) : (s.endReading).epochCount = s.epochCount := rfl
@[simp] theorem State.endReading_sweep (s : State) : (s.endReading).sweep = s.sweep := rfl
@[simp] theorem State.endReading_commandQueue (s : State) : (s.endReading).commandQueue = s.commandQueue := rfl
@[simp] theorem State.endReading_commandUnit (s : State) : (s.endReading).commandUnit = s.commandUnit := rfl
@[simp] theorem State.endReading_mode (s : State) : (s.endReading).mode = s.mode := rfl
@[simp] theorem State.endReading_forwardQueue (s : State) : (s.endReading).forwardQueue = s.forwardQueue := rfl
@[simp] theorem State.endReading_responseQueue (s : State) : (s.endReading).responseQueue = s.responseQueue := rfl
@[simp] theorem State.endReading_noticeQueue (s : State) : (s.endReading).noticeQueue = s.noticeQueue := rfl
@[simp] theorem State.endReading_summaryQueue (s : State) : (s.endReading).summaryQueue = s.summaryQueue := rfl
@[simp] theorem State.endReading_noticeSequence (s : State) : (s.endReading).noticeSequence = s.noticeSequence := rfl
@[simp] theorem State.endReading_noticeLost (s : State) : (s.endReading).noticeLost = s.noticeLost := rfl
@[simp] theorem State.endReading_starvationCount (s : State) : (s.endReading).starvationCount = s.starvationCount := rfl
@[simp] theorem State.endReading_port (s : State) : (s.endReading).port = s.port := rfl
@[simp] theorem State.endReading_responseSent (s : State) : (s.endReading).responseSent = s.responseSent := rfl
@[simp] theorem State.endReading_copySent (s : State) : (s.endReading).copySent = s.copySent := rfl
@[simp] theorem State.endReading_freeCount (s : State) : (s.endReading).freeCount = s.freeCount := rfl
@[simp] theorem State.endReading_pending (s : State) : (s.endReading).pending = s.pending := rfl

/-! ### setShadowState -/

@[simp] theorem setShadowState_resetAsserted (s : State) (x : ShadowState) : (setShadowState s x).resetAsserted = s.resetAsserted := rfl
@[simp] theorem setShadowState_downstreamReady (s : State) (x : ShadowState) : (setShadowState s x).downstreamReady = s.downstreamReady := rfl
@[simp] theorem setShadowState_strap (s : State) (x : ShadowState) : (setShadowState s x).strap = s.strap := rfl
@[simp] theorem setShadowState_receiver (s : State) (x : ShadowState) : (setShadowState s x).receiver = s.receiver := rfl
@[simp] theorem setShadowState_ingressBuffer (s : State) (x : ShadowState) : (setShadowState s x).ingressBuffer = s.ingressBuffer := rfl
@[simp] theorem setShadowState_badCells (s : State) (x : ShadowState) : (setShadowState s x).badCells = s.badCells := rfl
@[simp] theorem setShadowState_unknownChannels (s : State) (x : ShadowState) : (setShadowState s x).unknownChannels = s.unknownChannels := rfl
@[simp] theorem setShadowState_discardedCommands (s : State) (x : ShadowState) : (setShadowState s x).discardedCommands = s.discardedCommands := rfl
@[simp] theorem setShadowState_engine (s : State) (x : ShadowState) : (setShadowState s x).engine = s.engine := rfl
@[simp] theorem setShadowState_tables (s : State) (x : ShadowState) : (setShadowState s x).tables = { s.tables with shadowState := x } := rfl
@[simp] theorem setShadowState_slots (s : State) (x : ShadowState) : (setShadowState s x).slots = s.slots := rfl
@[simp] theorem setShadowState_reconciliation (s : State) (x : ShadowState) : (setShadowState s x).reconciliation = s.reconciliation := rfl
@[simp] theorem setShadowState_epochCount (s : State) (x : ShadowState) : (setShadowState s x).epochCount = s.epochCount := rfl
@[simp] theorem setShadowState_sweep (s : State) (x : ShadowState) : (setShadowState s x).sweep = s.sweep := rfl
@[simp] theorem setShadowState_commandQueue (s : State) (x : ShadowState) : (setShadowState s x).commandQueue = s.commandQueue := rfl
@[simp] theorem setShadowState_commandUnit (s : State) (x : ShadowState) : (setShadowState s x).commandUnit = s.commandUnit := rfl
@[simp] theorem setShadowState_mode (s : State) (x : ShadowState) : (setShadowState s x).mode = s.mode := rfl
@[simp] theorem setShadowState_forwardQueue (s : State) (x : ShadowState) : (setShadowState s x).forwardQueue = s.forwardQueue := rfl
@[simp] theorem setShadowState_responseQueue (s : State) (x : ShadowState) : (setShadowState s x).responseQueue = s.responseQueue := rfl
@[simp] theorem setShadowState_noticeQueue (s : State) (x : ShadowState) : (setShadowState s x).noticeQueue = s.noticeQueue := rfl
@[simp] theorem setShadowState_summaryQueue (s : State) (x : ShadowState) : (setShadowState s x).summaryQueue = s.summaryQueue := rfl
@[simp] theorem setShadowState_noticeSequence (s : State) (x : ShadowState) : (setShadowState s x).noticeSequence = s.noticeSequence := rfl
@[simp] theorem setShadowState_noticeLost (s : State) (x : ShadowState) : (setShadowState s x).noticeLost = s.noticeLost := rfl
@[simp] theorem setShadowState_starvationCount (s : State) (x : ShadowState) : (setShadowState s x).starvationCount = s.starvationCount := rfl
@[simp] theorem setShadowState_port (s : State) (x : ShadowState) : (setShadowState s x).port = s.port := rfl
@[simp] theorem setShadowState_responseSent (s : State) (x : ShadowState) : (setShadowState s x).responseSent = s.responseSent := rfl
@[simp] theorem setShadowState_copySent (s : State) (x : ShadowState) : (setShadowState s x).copySent = s.copySent := rfl
@[simp] theorem setShadowState_freeCount (s : State) (x : ShadowState) : (setShadowState s x).freeCount = s.freeCount := rfl
@[simp] theorem setShadowState_pending (s : State) (x : ShadowState) : (setShadowState s x).pending = s.pending := rfl

/-! ### addResponse -/

@[simp] theorem addResponse_resetAsserted (s : State) (u : CommandUnit) (r : Response) : (addResponse s u r).resetAsserted = s.resetAsserted := rfl
@[simp] theorem addResponse_downstreamReady (s : State) (u : CommandUnit) (r : Response) : (addResponse s u r).downstreamReady = s.downstreamReady := rfl
@[simp] theorem addResponse_strap (s : State) (u : CommandUnit) (r : Response) : (addResponse s u r).strap = s.strap := rfl
@[simp] theorem addResponse_receiver (s : State) (u : CommandUnit) (r : Response) : (addResponse s u r).receiver = s.receiver := rfl
@[simp] theorem addResponse_ingressBuffer (s : State) (u : CommandUnit) (r : Response) : (addResponse s u r).ingressBuffer = s.ingressBuffer := rfl
@[simp] theorem addResponse_badCells (s : State) (u : CommandUnit) (r : Response) : (addResponse s u r).badCells = s.badCells := rfl
@[simp] theorem addResponse_unknownChannels (s : State) (u : CommandUnit) (r : Response) : (addResponse s u r).unknownChannels = s.unknownChannels := rfl
@[simp] theorem addResponse_discardedCommands (s : State) (u : CommandUnit) (r : Response) : (addResponse s u r).discardedCommands = s.discardedCommands := rfl
@[simp] theorem addResponse_engine (s : State) (u : CommandUnit) (r : Response) : (addResponse s u r).engine = s.engine := rfl
@[simp] theorem addResponse_tables (s : State) (u : CommandUnit) (r : Response) : (addResponse s u r).tables = s.tables := rfl
@[simp] theorem addResponse_slots (s : State) (u : CommandUnit) (r : Response) : (addResponse s u r).slots = s.slots := rfl
@[simp] theorem addResponse_reconciliation (s : State) (u : CommandUnit) (r : Response) : (addResponse s u r).reconciliation = s.reconciliation := rfl
@[simp] theorem addResponse_epochCount (s : State) (u : CommandUnit) (r : Response) : (addResponse s u r).epochCount = s.epochCount := rfl
@[simp] theorem addResponse_sweep (s : State) (u : CommandUnit) (r : Response) : (addResponse s u r).sweep = s.sweep := rfl
@[simp] theorem addResponse_commandQueue (s : State) (u : CommandUnit) (r : Response) : (addResponse s u r).commandQueue = s.commandQueue := rfl
@[simp] theorem addResponse_commandUnit (s : State) (u : CommandUnit) (r : Response) : (addResponse s u r).commandUnit = u := rfl
@[simp] theorem addResponse_mode (s : State) (u : CommandUnit) (r : Response) : (addResponse s u r).mode = s.mode := rfl
@[simp] theorem addResponse_forwardQueue (s : State) (u : CommandUnit) (r : Response) : (addResponse s u r).forwardQueue = s.forwardQueue := rfl
@[simp] theorem addResponse_responseQueue (s : State) (u : CommandUnit) (r : Response) : (addResponse s u r).responseQueue = s.responseQueue ++ [r] := rfl
@[simp] theorem addResponse_noticeQueue (s : State) (u : CommandUnit) (r : Response) : (addResponse s u r).noticeQueue = s.noticeQueue := rfl
@[simp] theorem addResponse_summaryQueue (s : State) (u : CommandUnit) (r : Response) : (addResponse s u r).summaryQueue = s.summaryQueue := rfl
@[simp] theorem addResponse_noticeSequence (s : State) (u : CommandUnit) (r : Response) : (addResponse s u r).noticeSequence = s.noticeSequence := rfl
@[simp] theorem addResponse_noticeLost (s : State) (u : CommandUnit) (r : Response) : (addResponse s u r).noticeLost = s.noticeLost := rfl
@[simp] theorem addResponse_starvationCount (s : State) (u : CommandUnit) (r : Response) : (addResponse s u r).starvationCount = s.starvationCount := rfl
@[simp] theorem addResponse_port (s : State) (u : CommandUnit) (r : Response) : (addResponse s u r).port = s.port := rfl
@[simp] theorem addResponse_responseSent (s : State) (u : CommandUnit) (r : Response) : (addResponse s u r).responseSent = s.responseSent := rfl
@[simp] theorem addResponse_copySent (s : State) (u : CommandUnit) (r : Response) : (addResponse s u r).copySent = s.copySent := rfl
@[simp] theorem addResponse_freeCount (s : State) (u : CommandUnit) (r : Response) : (addResponse s u r).freeCount = s.freeCount := rfl
@[simp] theorem addResponse_pending (s : State) (u : CommandUnit) (r : Response) : (addResponse s u r).pending = s.pending := rfl

/-! ### answer -/

@[simp] theorem answer_resetAsserted (s : State) (c : Cell) (st : Status) (l : List Byte) : (answer s c st l).resetAsserted = s.resetAsserted := rfl
@[simp] theorem answer_downstreamReady (s : State) (c : Cell) (st : Status) (l : List Byte) : (answer s c st l).downstreamReady = s.downstreamReady := rfl
@[simp] theorem answer_strap (s : State) (c : Cell) (st : Status) (l : List Byte) : (answer s c st l).strap = s.strap := rfl
@[simp] theorem answer_receiver (s : State) (c : Cell) (st : Status) (l : List Byte) : (answer s c st l).receiver = s.receiver := rfl
@[simp] theorem answer_ingressBuffer (s : State) (c : Cell) (st : Status) (l : List Byte) : (answer s c st l).ingressBuffer = s.ingressBuffer := rfl
@[simp] theorem answer_badCells (s : State) (c : Cell) (st : Status) (l : List Byte) : (answer s c st l).badCells = s.badCells := rfl
@[simp] theorem answer_unknownChannels (s : State) (c : Cell) (st : Status) (l : List Byte) : (answer s c st l).unknownChannels = s.unknownChannels := rfl
@[simp] theorem answer_discardedCommands (s : State) (c : Cell) (st : Status) (l : List Byte) : (answer s c st l).discardedCommands = s.discardedCommands := rfl
@[simp] theorem answer_engine (s : State) (c : Cell) (st : Status) (l : List Byte) : (answer s c st l).engine = s.engine := rfl
@[simp] theorem answer_tables (s : State) (c : Cell) (st : Status) (l : List Byte) : (answer s c st l).tables = s.tables := rfl
@[simp] theorem answer_slots (s : State) (c : Cell) (st : Status) (l : List Byte) : (answer s c st l).slots = s.slots := rfl
@[simp] theorem answer_reconciliation (s : State) (c : Cell) (st : Status) (l : List Byte) : (answer s c st l).reconciliation = s.reconciliation := rfl
@[simp] theorem answer_epochCount (s : State) (c : Cell) (st : Status) (l : List Byte) : (answer s c st l).epochCount = s.epochCount := rfl
@[simp] theorem answer_sweep (s : State) (c : Cell) (st : Status) (l : List Byte) : (answer s c st l).sweep = s.sweep := rfl
@[simp] theorem answer_commandQueue (s : State) (c : Cell) (st : Status) (l : List Byte) : (answer s c st l).commandQueue = s.commandQueue := rfl
@[simp] theorem answer_commandUnit (s : State) (c : Cell) (st : Status) (l : List Byte) : (answer s c st l).commandUnit = .idle := rfl
@[simp] theorem answer_mode (s : State) (c : Cell) (st : Status) (l : List Byte) : (answer s c st l).mode = s.mode := rfl
@[simp] theorem answer_forwardQueue (s : State) (c : Cell) (st : Status) (l : List Byte) : (answer s c st l).forwardQueue = s.forwardQueue := rfl
@[simp] theorem answer_responseQueue (s : State) (c : Cell) (st : Status) (l : List Byte) : (answer s c st l).responseQueue = s.responseQueue ++ [responseTo s c st l] := rfl
@[simp] theorem answer_noticeQueue (s : State) (c : Cell) (st : Status) (l : List Byte) : (answer s c st l).noticeQueue = s.noticeQueue := rfl
@[simp] theorem answer_summaryQueue (s : State) (c : Cell) (st : Status) (l : List Byte) : (answer s c st l).summaryQueue = s.summaryQueue := rfl
@[simp] theorem answer_noticeSequence (s : State) (c : Cell) (st : Status) (l : List Byte) : (answer s c st l).noticeSequence = s.noticeSequence := rfl
@[simp] theorem answer_noticeLost (s : State) (c : Cell) (st : Status) (l : List Byte) : (answer s c st l).noticeLost = s.noticeLost := rfl
@[simp] theorem answer_starvationCount (s : State) (c : Cell) (st : Status) (l : List Byte) : (answer s c st l).starvationCount = s.starvationCount := rfl
@[simp] theorem answer_port (s : State) (c : Cell) (st : Status) (l : List Byte) : (answer s c st l).port = s.port := rfl
@[simp] theorem answer_responseSent (s : State) (c : Cell) (st : Status) (l : List Byte) : (answer s c st l).responseSent = s.responseSent := rfl
@[simp] theorem answer_copySent (s : State) (c : Cell) (st : Status) (l : List Byte) : (answer s c st l).copySent = s.copySent := rfl
@[simp] theorem answer_freeCount (s : State) (c : Cell) (st : Status) (l : List Byte) : (answer s c st l).freeCount = s.freeCount := rfl
@[simp] theorem answer_pending (s : State) (c : Cell) (st : Status) (l : List Byte) : (answer s c st l).pending = s.pending := rfl

/-! ### waitAt -/

@[simp] theorem waitAt_resetAsserted (s : State) (c : Cell) (i : SlotId) (b : Bool) : (waitAt s c i b).resetAsserted = s.resetAsserted := rfl
@[simp] theorem waitAt_downstreamReady (s : State) (c : Cell) (i : SlotId) (b : Bool) : (waitAt s c i b).downstreamReady = s.downstreamReady := rfl
@[simp] theorem waitAt_strap (s : State) (c : Cell) (i : SlotId) (b : Bool) : (waitAt s c i b).strap = s.strap := rfl
@[simp] theorem waitAt_receiver (s : State) (c : Cell) (i : SlotId) (b : Bool) : (waitAt s c i b).receiver = s.receiver := rfl
@[simp] theorem waitAt_ingressBuffer (s : State) (c : Cell) (i : SlotId) (b : Bool) : (waitAt s c i b).ingressBuffer = s.ingressBuffer := rfl
@[simp] theorem waitAt_badCells (s : State) (c : Cell) (i : SlotId) (b : Bool) : (waitAt s c i b).badCells = s.badCells := rfl
@[simp] theorem waitAt_unknownChannels (s : State) (c : Cell) (i : SlotId) (b : Bool) : (waitAt s c i b).unknownChannels = s.unknownChannels := rfl
@[simp] theorem waitAt_discardedCommands (s : State) (c : Cell) (i : SlotId) (b : Bool) : (waitAt s c i b).discardedCommands = s.discardedCommands := rfl
@[simp] theorem waitAt_engine (s : State) (c : Cell) (i : SlotId) (b : Bool) : (waitAt s c i b).engine = s.engine := rfl
@[simp] theorem waitAt_tables (s : State) (c : Cell) (i : SlotId) (b : Bool) : (waitAt s c i b).tables = s.tables := rfl
@[simp] theorem waitAt_slots (s : State) (c : Cell) (i : SlotId) (b : Bool) : (waitAt s c i b).slots = s.slots := rfl
@[simp] theorem waitAt_reconciliation (s : State) (c : Cell) (i : SlotId) (b : Bool) : (waitAt s c i b).reconciliation = s.reconciliation := rfl
@[simp] theorem waitAt_epochCount (s : State) (c : Cell) (i : SlotId) (b : Bool) : (waitAt s c i b).epochCount = s.epochCount := rfl
@[simp] theorem waitAt_sweep (s : State) (c : Cell) (i : SlotId) (b : Bool) : (waitAt s c i b).sweep = s.sweep := rfl
@[simp] theorem waitAt_commandQueue (s : State) (c : Cell) (i : SlotId) (b : Bool) : (waitAt s c i b).commandQueue = s.commandQueue := rfl
@[simp] theorem waitAt_commandUnit (s : State) (c : Cell) (i : SlotId) (b : Bool) : (waitAt s c i b).commandUnit = .waiting ⟨c, i, b⟩ := rfl
@[simp] theorem waitAt_mode (s : State) (c : Cell) (i : SlotId) (b : Bool) : (waitAt s c i b).mode = s.mode := rfl
@[simp] theorem waitAt_forwardQueue (s : State) (c : Cell) (i : SlotId) (b : Bool) : (waitAt s c i b).forwardQueue = s.forwardQueue := rfl
@[simp] theorem waitAt_responseQueue (s : State) (c : Cell) (i : SlotId) (b : Bool) : (waitAt s c i b).responseQueue = s.responseQueue := rfl
@[simp] theorem waitAt_noticeQueue (s : State) (c : Cell) (i : SlotId) (b : Bool) : (waitAt s c i b).noticeQueue = s.noticeQueue := rfl
@[simp] theorem waitAt_summaryQueue (s : State) (c : Cell) (i : SlotId) (b : Bool) : (waitAt s c i b).summaryQueue = s.summaryQueue := rfl
@[simp] theorem waitAt_noticeSequence (s : State) (c : Cell) (i : SlotId) (b : Bool) : (waitAt s c i b).noticeSequence = s.noticeSequence := rfl
@[simp] theorem waitAt_noticeLost (s : State) (c : Cell) (i : SlotId) (b : Bool) : (waitAt s c i b).noticeLost = s.noticeLost := rfl
@[simp] theorem waitAt_starvationCount (s : State) (c : Cell) (i : SlotId) (b : Bool) : (waitAt s c i b).starvationCount = s.starvationCount := rfl
@[simp] theorem waitAt_port (s : State) (c : Cell) (i : SlotId) (b : Bool) : (waitAt s c i b).port = s.port := rfl
@[simp] theorem waitAt_responseSent (s : State) (c : Cell) (i : SlotId) (b : Bool) : (waitAt s c i b).responseSent = s.responseSent := rfl
@[simp] theorem waitAt_copySent (s : State) (c : Cell) (i : SlotId) (b : Bool) : (waitAt s c i b).copySent = s.copySent := rfl
@[simp] theorem waitAt_freeCount (s : State) (c : Cell) (i : SlotId) (b : Bool) : (waitAt s c i b).freeCount = s.freeCount := rfl
@[simp] theorem waitAt_pending (s : State) (c : Cell) (i : SlotId) (b : Bool) : (waitAt s c i b).pending = s.pending := rfl

/-! ### beginCell -/

@[simp] theorem beginCell_resetAsserted (s : State) (b : Byte) : (beginCell s b).resetAsserted = s.resetAsserted := rfl
@[simp] theorem beginCell_downstreamReady (s : State) (b : Byte) : (beginCell s b).downstreamReady = s.downstreamReady := rfl
@[simp] theorem beginCell_strap (s : State) (b : Byte) : (beginCell s b).strap = s.strap := rfl
@[simp] theorem beginCell_receiver (s : State) (b : Byte) : (beginCell s b).receiver = .receiving [b] (overrunAtStrobe s) := rfl
@[simp] theorem beginCell_ingressBuffer (s : State) (b : Byte) : (beginCell s b).ingressBuffer = s.ingressBuffer := rfl
@[simp] theorem beginCell_badCells (s : State) (b : Byte) : (beginCell s b).badCells = s.badCells := rfl
@[simp] theorem beginCell_unknownChannels (s : State) (b : Byte) : (beginCell s b).unknownChannels = s.unknownChannels := rfl
@[simp] theorem beginCell_discardedCommands (s : State) (b : Byte) : (beginCell s b).discardedCommands = s.discardedCommands := rfl
@[simp] theorem beginCell_engine (s : State) (b : Byte) : (beginCell s b).engine = s.engine := rfl
@[simp] theorem beginCell_tables (s : State) (b : Byte) : (beginCell s b).tables = s.tables := rfl
@[simp] theorem beginCell_slots (s : State) (b : Byte) : (beginCell s b).slots = s.slots := rfl
@[simp] theorem beginCell_reconciliation (s : State) (b : Byte) : (beginCell s b).reconciliation = s.reconciliation := rfl
@[simp] theorem beginCell_epochCount (s : State) (b : Byte) : (beginCell s b).epochCount = s.epochCount := rfl
@[simp] theorem beginCell_sweep (s : State) (b : Byte) : (beginCell s b).sweep = s.sweep := rfl
@[simp] theorem beginCell_commandQueue (s : State) (b : Byte) : (beginCell s b).commandQueue = s.commandQueue := rfl
@[simp] theorem beginCell_commandUnit (s : State) (b : Byte) : (beginCell s b).commandUnit = s.commandUnit := rfl
@[simp] theorem beginCell_mode (s : State) (b : Byte) : (beginCell s b).mode = s.mode := rfl
@[simp] theorem beginCell_forwardQueue (s : State) (b : Byte) : (beginCell s b).forwardQueue = s.forwardQueue := rfl
@[simp] theorem beginCell_responseQueue (s : State) (b : Byte) : (beginCell s b).responseQueue = s.responseQueue := rfl
@[simp] theorem beginCell_noticeQueue (s : State) (b : Byte) : (beginCell s b).noticeQueue = s.noticeQueue := rfl
@[simp] theorem beginCell_summaryQueue (s : State) (b : Byte) : (beginCell s b).summaryQueue = s.summaryQueue := rfl
@[simp] theorem beginCell_noticeSequence (s : State) (b : Byte) : (beginCell s b).noticeSequence = s.noticeSequence := rfl
@[simp] theorem beginCell_noticeLost (s : State) (b : Byte) : (beginCell s b).noticeLost = s.noticeLost := rfl
@[simp] theorem beginCell_starvationCount (s : State) (b : Byte) : (beginCell s b).starvationCount = s.starvationCount := rfl
@[simp] theorem beginCell_port (s : State) (b : Byte) : (beginCell s b).port = s.port := rfl
@[simp] theorem beginCell_responseSent (s : State) (b : Byte) : (beginCell s b).responseSent = s.responseSent := rfl
@[simp] theorem beginCell_copySent (s : State) (b : Byte) : (beginCell s b).copySent = s.copySent := rfl
@[simp] theorem beginCell_freeCount (s : State) (b : Byte) : (beginCell s b).freeCount = s.freeCount := rfl
@[simp] theorem beginCell_pending (s : State) (b : Byte) : (beginCell s b).pending = s.pending := rfl

/-! ### startReconciliation -/

@[simp] theorem startReconciliation_resetAsserted (s : State) : (startReconciliation s).resetAsserted = s.resetAsserted := rfl
@[simp] theorem startReconciliation_downstreamReady (s : State) : (startReconciliation s).downstreamReady = s.downstreamReady := rfl
@[simp] theorem startReconciliation_strap (s : State) : (startReconciliation s).strap = s.strap := rfl
@[simp] theorem startReconciliation_receiver (s : State) : (startReconciliation s).receiver = s.receiver := rfl
@[simp] theorem startReconciliation_ingressBuffer (s : State) : (startReconciliation s).ingressBuffer = s.ingressBuffer := rfl
@[simp] theorem startReconciliation_badCells (s : State) : (startReconciliation s).badCells = s.badCells := rfl
@[simp] theorem startReconciliation_unknownChannels (s : State) : (startReconciliation s).unknownChannels = s.unknownChannels := rfl
@[simp] theorem startReconciliation_discardedCommands (s : State) : (startReconciliation s).discardedCommands = s.discardedCommands := rfl
@[simp] theorem startReconciliation_engine (s : State) : (startReconciliation s).engine = s.engine := rfl
@[simp] theorem startReconciliation_tables (s : State) : (startReconciliation s).tables = s.tables := rfl
@[simp] theorem startReconciliation_slots (s : State) : (startReconciliation s).slots = s.slots.map fun x => { x with pending := true } := rfl
@[simp] theorem startReconciliation_reconciliation (s : State) : (startReconciliation s).reconciliation = ⟨true, firstSlot, false⟩ := rfl
@[simp] theorem startReconciliation_epochCount (s : State) : (startReconciliation s).epochCount = s.epochCount := rfl
@[simp] theorem startReconciliation_sweep (s : State) : (startReconciliation s).sweep = s.sweep := rfl
@[simp] theorem startReconciliation_commandQueue (s : State) : (startReconciliation s).commandQueue = s.commandQueue := rfl
@[simp] theorem startReconciliation_commandUnit (s : State) : (startReconciliation s).commandUnit = s.commandUnit := rfl
@[simp] theorem startReconciliation_mode (s : State) : (startReconciliation s).mode = s.mode := rfl
@[simp] theorem startReconciliation_forwardQueue (s : State) : (startReconciliation s).forwardQueue = s.forwardQueue := rfl
@[simp] theorem startReconciliation_responseQueue (s : State) : (startReconciliation s).responseQueue = s.responseQueue := rfl
@[simp] theorem startReconciliation_noticeQueue (s : State) : (startReconciliation s).noticeQueue = s.noticeQueue := rfl
@[simp] theorem startReconciliation_summaryQueue (s : State) : (startReconciliation s).summaryQueue = s.summaryQueue := rfl
@[simp] theorem startReconciliation_noticeSequence (s : State) : (startReconciliation s).noticeSequence = s.noticeSequence := rfl
@[simp] theorem startReconciliation_noticeLost (s : State) : (startReconciliation s).noticeLost = s.noticeLost := rfl
@[simp] theorem startReconciliation_starvationCount (s : State) : (startReconciliation s).starvationCount = s.starvationCount := rfl
@[simp] theorem startReconciliation_port (s : State) : (startReconciliation s).port = s.port := rfl
@[simp] theorem startReconciliation_responseSent (s : State) : (startReconciliation s).responseSent = s.responseSent := rfl
@[simp] theorem startReconciliation_copySent (s : State) : (startReconciliation s).copySent = s.copySent := rfl
@[simp] theorem startReconciliation_freeCount (s : State) : (startReconciliation s).freeCount = s.freeCount := rfl
@[simp] theorem startReconciliation_pending (s : State) : (startReconciliation s).pending = s.pending := rfl

/-! ### holdSweep -/

@[simp] theorem holdSweep_resetAsserted (s : State) : (holdSweep s).resetAsserted = s.resetAsserted := rfl
@[simp] theorem holdSweep_downstreamReady (s : State) : (holdSweep s).downstreamReady = s.downstreamReady := rfl
@[simp] theorem holdSweep_strap (s : State) : (holdSweep s).strap = s.strap := rfl
@[simp] theorem holdSweep_receiver (s : State) : (holdSweep s).receiver = s.receiver := rfl
@[simp] theorem holdSweep_ingressBuffer (s : State) : (holdSweep s).ingressBuffer = s.ingressBuffer := rfl
@[simp] theorem holdSweep_badCells (s : State) : (holdSweep s).badCells = s.badCells := rfl
@[simp] theorem holdSweep_unknownChannels (s : State) : (holdSweep s).unknownChannels = s.unknownChannels := rfl
@[simp] theorem holdSweep_discardedCommands (s : State) : (holdSweep s).discardedCommands = s.discardedCommands := rfl
@[simp] theorem holdSweep_engine (s : State) : (holdSweep s).engine = s.engine := rfl
@[simp] theorem holdSweep_tables (s : State) : (holdSweep s).tables = s.tables := rfl
@[simp] theorem holdSweep_slots (s : State) : (holdSweep s).slots = s.slots := rfl
@[simp] theorem holdSweep_reconciliation (s : State) : (holdSweep s).reconciliation = s.reconciliation := rfl
@[simp] theorem holdSweep_epochCount (s : State) : (holdSweep s).epochCount = s.epochCount := rfl
@[simp] theorem holdSweep_sweep (s : State) : (holdSweep s).sweep = { s.sweep with claim := true } := rfl
@[simp] theorem holdSweep_commandQueue (s : State) : (holdSweep s).commandQueue = s.commandQueue := rfl
@[simp] theorem holdSweep_commandUnit (s : State) : (holdSweep s).commandUnit = s.commandUnit := rfl
@[simp] theorem holdSweep_mode (s : State) : (holdSweep s).mode = s.mode := rfl
@[simp] theorem holdSweep_forwardQueue (s : State) : (holdSweep s).forwardQueue = s.forwardQueue := rfl
@[simp] theorem holdSweep_responseQueue (s : State) : (holdSweep s).responseQueue = s.responseQueue := rfl
@[simp] theorem holdSweep_noticeQueue (s : State) : (holdSweep s).noticeQueue = s.noticeQueue := rfl
@[simp] theorem holdSweep_summaryQueue (s : State) : (holdSweep s).summaryQueue = s.summaryQueue := rfl
@[simp] theorem holdSweep_noticeSequence (s : State) : (holdSweep s).noticeSequence = s.noticeSequence := rfl
@[simp] theorem holdSweep_noticeLost (s : State) : (holdSweep s).noticeLost = s.noticeLost := rfl
@[simp] theorem holdSweep_starvationCount (s : State) : (holdSweep s).starvationCount = s.starvationCount := rfl
@[simp] theorem holdSweep_port (s : State) : (holdSweep s).port = s.port := rfl
@[simp] theorem holdSweep_responseSent (s : State) : (holdSweep s).responseSent = s.responseSent := rfl
@[simp] theorem holdSweep_copySent (s : State) : (holdSweep s).copySent = s.copySent := rfl
@[simp] theorem holdSweep_freeCount (s : State) : (holdSweep s).freeCount = s.freeCount := rfl
@[simp] theorem holdSweep_pending (s : State) : (holdSweep s).pending = s.pending := rfl

/-! ### recordDeparture -/

@[simp] theorem recordDeparture_resetAsserted (s : State) (c : Transmission) : (recordDeparture s c).resetAsserted = s.resetAsserted := rfl
@[simp] theorem recordDeparture_downstreamReady (s : State) (c : Transmission) : (recordDeparture s c).downstreamReady = s.downstreamReady := rfl
@[simp] theorem recordDeparture_strap (s : State) (c : Transmission) : (recordDeparture s c).strap = s.strap := rfl
@[simp] theorem recordDeparture_receiver (s : State) (c : Transmission) : (recordDeparture s c).receiver = s.receiver := rfl
@[simp] theorem recordDeparture_ingressBuffer (s : State) (c : Transmission) : (recordDeparture s c).ingressBuffer = s.ingressBuffer := rfl
@[simp] theorem recordDeparture_badCells (s : State) (c : Transmission) : (recordDeparture s c).badCells = s.badCells := rfl
@[simp] theorem recordDeparture_unknownChannels (s : State) (c : Transmission) : (recordDeparture s c).unknownChannels = s.unknownChannels := rfl
@[simp] theorem recordDeparture_discardedCommands (s : State) (c : Transmission) : (recordDeparture s c).discardedCommands = s.discardedCommands := rfl
@[simp] theorem recordDeparture_engine (s : State) (c : Transmission) : (recordDeparture s c).engine = s.engine := rfl
@[simp] theorem recordDeparture_tables (s : State) (c : Transmission) : (recordDeparture s c).tables = s.tables := rfl
@[simp] theorem recordDeparture_slots (s : State) (c : Transmission) : (recordDeparture s c).slots = s.slots := rfl
@[simp] theorem recordDeparture_reconciliation (s : State) (c : Transmission) : (recordDeparture s c).reconciliation = s.reconciliation := rfl
@[simp] theorem recordDeparture_epochCount (s : State) (c : Transmission) : (recordDeparture s c).epochCount = s.epochCount := rfl
@[simp] theorem recordDeparture_sweep (s : State) (c : Transmission) : (recordDeparture s c).sweep = s.sweep := rfl
@[simp] theorem recordDeparture_commandQueue (s : State) (c : Transmission) : (recordDeparture s c).commandQueue = s.commandQueue := rfl
@[simp] theorem recordDeparture_commandUnit (s : State) (c : Transmission) : (recordDeparture s c).commandUnit = s.commandUnit := rfl
@[simp] theorem recordDeparture_mode (s : State) (c : Transmission) : (recordDeparture s c).mode = s.mode := rfl
@[simp] theorem recordDeparture_forwardQueue (s : State) (c : Transmission) : (recordDeparture s c).forwardQueue = s.forwardQueue := rfl
@[simp] theorem recordDeparture_responseQueue (s : State) (c : Transmission) : (recordDeparture s c).responseQueue = s.responseQueue := rfl
@[simp] theorem recordDeparture_noticeQueue (s : State) (c : Transmission) : (recordDeparture s c).noticeQueue = s.noticeQueue := rfl
@[simp] theorem recordDeparture_summaryQueue (s : State) (c : Transmission) : (recordDeparture s c).summaryQueue = s.summaryQueue := rfl
@[simp] theorem recordDeparture_noticeSequence (s : State) (c : Transmission) : (recordDeparture s c).noticeSequence = s.noticeSequence := rfl
@[simp] theorem recordDeparture_noticeLost (s : State) (c : Transmission) : (recordDeparture s c).noticeLost = s.noticeLost := rfl
@[simp] theorem recordDeparture_starvationCount (s : State) (c : Transmission) : (recordDeparture s c).starvationCount = s.starvationCount := rfl
@[simp] theorem recordDeparture_port (s : State) (c : Transmission) : (recordDeparture s c).port = none := rfl
@[simp] theorem recordDeparture_responseSent (s : State) (c : Transmission) : (recordDeparture s c).responseSent = (s.responseSent || c.resetResponse) := rfl
@[simp] theorem recordDeparture_copySent (s : State) (c : Transmission) : (recordDeparture s c).copySent = (s.copySent || c.resetMark) := rfl
@[simp] theorem recordDeparture_freeCount (s : State) (c : Transmission) : (recordDeparture s c).freeCount = s.freeCount := rfl
@[simp] theorem recordDeparture_pending (s : State) (c : Transmission) : (recordDeparture s c).pending = s.pending := rfl

/-! ### handNotice: the fields it leaves alone -/

@[simp] theorem State.handNotice_resetAsserted (s : State) (b : NoticeBody) : (s.handNotice b).resetAsserted = s.resetAsserted := by
  unfold State.handNotice; split; · rfl
  split <;> rfl
@[simp] theorem State.handNotice_downstreamReady (s : State) (b : NoticeBody) : (s.handNotice b).downstreamReady = s.downstreamReady := by
  unfold State.handNotice; split; · rfl
  split <;> rfl
@[simp] theorem State.handNotice_strap (s : State) (b : NoticeBody) : (s.handNotice b).strap = s.strap := by
  unfold State.handNotice; split; · rfl
  split <;> rfl
@[simp] theorem State.handNotice_receiver (s : State) (b : NoticeBody) : (s.handNotice b).receiver = s.receiver := by
  unfold State.handNotice; split; · rfl
  split <;> rfl
@[simp] theorem State.handNotice_ingressBuffer (s : State) (b : NoticeBody) : (s.handNotice b).ingressBuffer = s.ingressBuffer := by
  unfold State.handNotice; split; · rfl
  split <;> rfl
@[simp] theorem State.handNotice_badCells (s : State) (b : NoticeBody) : (s.handNotice b).badCells = s.badCells := by
  unfold State.handNotice; split; · rfl
  split <;> rfl
@[simp] theorem State.handNotice_unknownChannels (s : State) (b : NoticeBody) : (s.handNotice b).unknownChannels = s.unknownChannels := by
  unfold State.handNotice; split; · rfl
  split <;> rfl
@[simp] theorem State.handNotice_discardedCommands (s : State) (b : NoticeBody) : (s.handNotice b).discardedCommands = s.discardedCommands := by
  unfold State.handNotice; split; · rfl
  split <;> rfl
@[simp] theorem State.handNotice_engine (s : State) (b : NoticeBody) : (s.handNotice b).engine = s.engine := by
  unfold State.handNotice; split; · rfl
  split <;> rfl
@[simp] theorem State.handNotice_tables (s : State) (b : NoticeBody) : (s.handNotice b).tables = s.tables := by
  unfold State.handNotice; split; · rfl
  split <;> rfl
@[simp] theorem State.handNotice_slots (s : State) (b : NoticeBody) : (s.handNotice b).slots = s.slots := by
  unfold State.handNotice; split; · rfl
  split <;> rfl
@[simp] theorem State.handNotice_reconciliation (s : State) (b : NoticeBody) : (s.handNotice b).reconciliation = s.reconciliation := by
  unfold State.handNotice; split; · rfl
  split <;> rfl
@[simp] theorem State.handNotice_epochCount (s : State) (b : NoticeBody) : (s.handNotice b).epochCount = s.epochCount := by
  unfold State.handNotice; split; · rfl
  split <;> rfl
@[simp] theorem State.handNotice_sweep (s : State) (b : NoticeBody) : (s.handNotice b).sweep = s.sweep := by
  unfold State.handNotice; split; · rfl
  split <;> rfl
@[simp] theorem State.handNotice_commandQueue (s : State) (b : NoticeBody) : (s.handNotice b).commandQueue = s.commandQueue := by
  unfold State.handNotice; split; · rfl
  split <;> rfl
@[simp] theorem State.handNotice_commandUnit (s : State) (b : NoticeBody) : (s.handNotice b).commandUnit = s.commandUnit := by
  unfold State.handNotice; split; · rfl
  split <;> rfl
@[simp] theorem State.handNotice_mode (s : State) (b : NoticeBody) : (s.handNotice b).mode = s.mode := by
  unfold State.handNotice; split; · rfl
  split <;> rfl
@[simp] theorem State.handNotice_forwardQueue (s : State) (b : NoticeBody) : (s.handNotice b).forwardQueue = s.forwardQueue := by
  unfold State.handNotice; split; · rfl
  split <;> rfl
@[simp] theorem State.handNotice_responseQueue (s : State) (b : NoticeBody) : (s.handNotice b).responseQueue = s.responseQueue := by
  unfold State.handNotice; split; · rfl
  split <;> rfl
@[simp] theorem State.handNotice_summaryQueue (s : State) (b : NoticeBody) : (s.handNotice b).summaryQueue = s.summaryQueue := by
  unfold State.handNotice; split; · rfl
  split <;> rfl
@[simp] theorem State.handNotice_starvationCount (s : State) (b : NoticeBody) : (s.handNotice b).starvationCount = s.starvationCount := by
  unfold State.handNotice; split; · rfl
  split <;> rfl
@[simp] theorem State.handNotice_port (s : State) (b : NoticeBody) : (s.handNotice b).port = s.port := by
  unfold State.handNotice; split; · rfl
  split <;> rfl
@[simp] theorem State.handNotice_responseSent (s : State) (b : NoticeBody) : (s.handNotice b).responseSent = s.responseSent := by
  unfold State.handNotice; split; · rfl
  split <;> rfl
@[simp] theorem State.handNotice_copySent (s : State) (b : NoticeBody) : (s.handNotice b).copySent = s.copySent := by
  unfold State.handNotice; split; · rfl
  split <;> rfl
@[simp] theorem State.handNotice_freeCount (s : State) (b : NoticeBody) : (s.handNotice b).freeCount = s.freeCount := by
  unfold State.handNotice; split; · rfl
  split <;> rfl
@[simp] theorem State.handNotice_pending (s : State) (b : NoticeBody) : (s.handNotice b).pending = s.pending := by
  unfold State.handNotice; split; · rfl
  split <;> rfl

/-! ### reportBadCell: the fields it leaves alone -/

@[simp] theorem State.reportBadCell_resetAsserted (s : State) (x : LinkReason) : (s.reportBadCell x).resetAsserted = s.resetAsserted := by
  unfold State.reportBadCell; split
  · split
    · rfl
    · exact State.handNotice_resetAsserted s _
  · rfl
@[simp] theorem State.reportBadCell_downstreamReady (s : State) (x : LinkReason) : (s.reportBadCell x).downstreamReady = s.downstreamReady := by
  unfold State.reportBadCell; split
  · split
    · rfl
    · exact State.handNotice_downstreamReady s _
  · rfl
@[simp] theorem State.reportBadCell_strap (s : State) (x : LinkReason) : (s.reportBadCell x).strap = s.strap := by
  unfold State.reportBadCell; split
  · split
    · rfl
    · exact State.handNotice_strap s _
  · rfl
@[simp] theorem State.reportBadCell_receiver (s : State) (x : LinkReason) : (s.reportBadCell x).receiver = s.receiver := by
  unfold State.reportBadCell; split
  · split
    · rfl
    · exact State.handNotice_receiver s _
  · rfl
@[simp] theorem State.reportBadCell_ingressBuffer (s : State) (x : LinkReason) : (s.reportBadCell x).ingressBuffer = s.ingressBuffer := by
  unfold State.reportBadCell; split
  · split
    · rfl
    · exact State.handNotice_ingressBuffer s _
  · rfl
@[simp] theorem State.reportBadCell_badCells (s : State) (x : LinkReason) : (s.reportBadCell x).badCells = s.badCells := by
  unfold State.reportBadCell; split
  · split
    · rfl
    · exact State.handNotice_badCells s _
  · rfl
@[simp] theorem State.reportBadCell_unknownChannels (s : State) (x : LinkReason) : (s.reportBadCell x).unknownChannels = s.unknownChannels := by
  unfold State.reportBadCell; split
  · split
    · rfl
    · exact State.handNotice_unknownChannels s _
  · rfl
@[simp] theorem State.reportBadCell_discardedCommands (s : State) (x : LinkReason) : (s.reportBadCell x).discardedCommands = s.discardedCommands := by
  unfold State.reportBadCell; split
  · split
    · rfl
    · exact State.handNotice_discardedCommands s _
  · rfl
@[simp] theorem State.reportBadCell_engine (s : State) (x : LinkReason) : (s.reportBadCell x).engine = s.engine := by
  unfold State.reportBadCell; split
  · split
    · rfl
    · exact State.handNotice_engine s _
  · rfl
@[simp] theorem State.reportBadCell_tables (s : State) (x : LinkReason) : (s.reportBadCell x).tables = s.tables := by
  unfold State.reportBadCell; split
  · split
    · rfl
    · exact State.handNotice_tables s _
  · rfl
@[simp] theorem State.reportBadCell_slots (s : State) (x : LinkReason) : (s.reportBadCell x).slots = s.slots := by
  unfold State.reportBadCell; split
  · split
    · rfl
    · exact State.handNotice_slots s _
  · rfl
@[simp] theorem State.reportBadCell_reconciliation (s : State) (x : LinkReason) : (s.reportBadCell x).reconciliation = s.reconciliation := by
  unfold State.reportBadCell; split
  · split
    · rfl
    · exact State.handNotice_reconciliation s _
  · rfl
@[simp] theorem State.reportBadCell_epochCount (s : State) (x : LinkReason) : (s.reportBadCell x).epochCount = s.epochCount := by
  unfold State.reportBadCell; split
  · split
    · rfl
    · exact State.handNotice_epochCount s _
  · rfl
@[simp] theorem State.reportBadCell_sweep (s : State) (x : LinkReason) : (s.reportBadCell x).sweep = s.sweep := by
  unfold State.reportBadCell; split
  · split
    · rfl
    · exact State.handNotice_sweep s _
  · rfl
@[simp] theorem State.reportBadCell_commandQueue (s : State) (x : LinkReason) : (s.reportBadCell x).commandQueue = s.commandQueue := by
  unfold State.reportBadCell; split
  · split
    · rfl
    · exact State.handNotice_commandQueue s _
  · rfl
@[simp] theorem State.reportBadCell_commandUnit (s : State) (x : LinkReason) : (s.reportBadCell x).commandUnit = s.commandUnit := by
  unfold State.reportBadCell; split
  · split
    · rfl
    · exact State.handNotice_commandUnit s _
  · rfl
@[simp] theorem State.reportBadCell_mode (s : State) (x : LinkReason) : (s.reportBadCell x).mode = s.mode := by
  unfold State.reportBadCell; split
  · split
    · rfl
    · exact State.handNotice_mode s _
  · rfl
@[simp] theorem State.reportBadCell_forwardQueue (s : State) (x : LinkReason) : (s.reportBadCell x).forwardQueue = s.forwardQueue := by
  unfold State.reportBadCell; split
  · split
    · rfl
    · exact State.handNotice_forwardQueue s _
  · rfl
@[simp] theorem State.reportBadCell_responseQueue (s : State) (x : LinkReason) : (s.reportBadCell x).responseQueue = s.responseQueue := by
  unfold State.reportBadCell; split
  · split
    · rfl
    · exact State.handNotice_responseQueue s _
  · rfl
@[simp] theorem State.reportBadCell_summaryQueue (s : State) (x : LinkReason) : (s.reportBadCell x).summaryQueue = s.summaryQueue := by
  unfold State.reportBadCell; split
  · split
    · rfl
    · exact State.handNotice_summaryQueue s _
  · rfl
@[simp] theorem State.reportBadCell_starvationCount (s : State) (x : LinkReason) : (s.reportBadCell x).starvationCount = s.starvationCount := by
  unfold State.reportBadCell; split
  · split
    · rfl
    · exact State.handNotice_starvationCount s _
  · rfl
@[simp] theorem State.reportBadCell_port (s : State) (x : LinkReason) : (s.reportBadCell x).port = s.port := by
  unfold State.reportBadCell; split
  · split
    · rfl
    · exact State.handNotice_port s _
  · rfl
@[simp] theorem State.reportBadCell_responseSent (s : State) (x : LinkReason) : (s.reportBadCell x).responseSent = s.responseSent := by
  unfold State.reportBadCell; split
  · split
    · rfl
    · exact State.handNotice_responseSent s _
  · rfl
@[simp] theorem State.reportBadCell_copySent (s : State) (x : LinkReason) : (s.reportBadCell x).copySent = s.copySent := by
  unfold State.reportBadCell; split
  · split
    · rfl
    · exact State.handNotice_copySent s _
  · rfl
@[simp] theorem State.reportBadCell_freeCount (s : State) (x : LinkReason) : (s.reportBadCell x).freeCount = s.freeCount := by
  unfold State.reportBadCell; split
  · split
    · rfl
    · exact State.handNotice_freeCount s _
  · rfl
@[simp] theorem State.reportBadCell_pending (s : State) (x : LinkReason) : (s.reportBadCell x).pending = s.pending := by
  unfold State.reportBadCell; split
  · split
    · rfl
    · exact State.handNotice_pending s _
  · rfl

/-! ### badCell: the fields it leaves alone -/

@[simp] theorem State.badCell_resetAsserted (s : State) (x : LinkReason) : (s.badCell x).resetAsserted = s.resetAsserted := by
  exact State.reportBadCell_resetAsserted _ x
@[simp] theorem State.badCell_downstreamReady (s : State) (x : LinkReason) : (s.badCell x).downstreamReady = s.downstreamReady := by
  exact State.reportBadCell_downstreamReady _ x
@[simp] theorem State.badCell_strap (s : State) (x : LinkReason) : (s.badCell x).strap = s.strap := by
  exact State.reportBadCell_strap _ x
@[simp] theorem State.badCell_receiver (s : State) (x : LinkReason) : (s.badCell x).receiver = s.receiver := by
  exact State.reportBadCell_receiver _ x
@[simp] theorem State.badCell_ingressBuffer (s : State) (x : LinkReason) : (s.badCell x).ingressBuffer = s.ingressBuffer := by
  exact State.reportBadCell_ingressBuffer _ x
@[simp] theorem State.badCell_unknownChannels (s : State) (x : LinkReason) : (s.badCell x).unknownChannels = s.unknownChannels := by
  exact State.reportBadCell_unknownChannels _ x
@[simp] theorem State.badCell_discardedCommands (s : State) (x : LinkReason) : (s.badCell x).discardedCommands = s.discardedCommands := by
  exact State.reportBadCell_discardedCommands _ x
@[simp] theorem State.badCell_engine (s : State) (x : LinkReason) : (s.badCell x).engine = s.engine := by
  exact State.reportBadCell_engine _ x
@[simp] theorem State.badCell_tables (s : State) (x : LinkReason) : (s.badCell x).tables = s.tables := by
  exact State.reportBadCell_tables _ x
@[simp] theorem State.badCell_slots (s : State) (x : LinkReason) : (s.badCell x).slots = s.slots := by
  exact State.reportBadCell_slots _ x
@[simp] theorem State.badCell_reconciliation (s : State) (x : LinkReason) : (s.badCell x).reconciliation = s.reconciliation := by
  exact State.reportBadCell_reconciliation _ x
@[simp] theorem State.badCell_epochCount (s : State) (x : LinkReason) : (s.badCell x).epochCount = s.epochCount := by
  exact State.reportBadCell_epochCount _ x
@[simp] theorem State.badCell_sweep (s : State) (x : LinkReason) : (s.badCell x).sweep = s.sweep := by
  exact State.reportBadCell_sweep _ x
@[simp] theorem State.badCell_commandQueue (s : State) (x : LinkReason) : (s.badCell x).commandQueue = s.commandQueue := by
  exact State.reportBadCell_commandQueue _ x
@[simp] theorem State.badCell_commandUnit (s : State) (x : LinkReason) : (s.badCell x).commandUnit = s.commandUnit := by
  exact State.reportBadCell_commandUnit _ x
@[simp] theorem State.badCell_mode (s : State) (x : LinkReason) : (s.badCell x).mode = s.mode := by
  exact State.reportBadCell_mode _ x
@[simp] theorem State.badCell_forwardQueue (s : State) (x : LinkReason) : (s.badCell x).forwardQueue = s.forwardQueue := by
  exact State.reportBadCell_forwardQueue _ x
@[simp] theorem State.badCell_responseQueue (s : State) (x : LinkReason) : (s.badCell x).responseQueue = s.responseQueue := by
  exact State.reportBadCell_responseQueue _ x
@[simp] theorem State.badCell_summaryQueue (s : State) (x : LinkReason) : (s.badCell x).summaryQueue = s.summaryQueue := by
  exact State.reportBadCell_summaryQueue _ x
@[simp] theorem State.badCell_starvationCount (s : State) (x : LinkReason) : (s.badCell x).starvationCount = s.starvationCount := by
  exact State.reportBadCell_starvationCount _ x
@[simp] theorem State.badCell_port (s : State) (x : LinkReason) : (s.badCell x).port = s.port := by
  exact State.reportBadCell_port _ x
@[simp] theorem State.badCell_responseSent (s : State) (x : LinkReason) : (s.badCell x).responseSent = s.responseSent := by
  exact State.reportBadCell_responseSent _ x
@[simp] theorem State.badCell_copySent (s : State) (x : LinkReason) : (s.badCell x).copySent = s.copySent := by
  exact State.reportBadCell_copySent _ x
@[simp] theorem State.badCell_freeCount (s : State) (x : LinkReason) : (s.badCell x).freeCount = s.freeCount := by
  exact State.reportBadCell_freeCount _ x
@[simp] theorem State.badCell_pending (s : State) (x : LinkReason) : (s.badCell x).pending = s.pending := by
  exact State.reportBadCell_pending _ x

/-! ### emitConverted: the fields it leaves alone -/

@[simp] theorem State.emitConverted_resetAsserted (s : State) (e : Bool) (c : ConvertedCell) : (s.emitConverted e c).resetAsserted = s.resetAsserted := by
  cases e <;> rfl
@[simp] theorem State.emitConverted_downstreamReady (s : State) (e : Bool) (c : ConvertedCell) : (s.emitConverted e c).downstreamReady = s.downstreamReady := by
  cases e <;> rfl
@[simp] theorem State.emitConverted_strap (s : State) (e : Bool) (c : ConvertedCell) : (s.emitConverted e c).strap = s.strap := by
  cases e <;> rfl
@[simp] theorem State.emitConverted_receiver (s : State) (e : Bool) (c : ConvertedCell) : (s.emitConverted e c).receiver = s.receiver := by
  cases e <;> rfl
@[simp] theorem State.emitConverted_ingressBuffer (s : State) (e : Bool) (c : ConvertedCell) : (s.emitConverted e c).ingressBuffer = s.ingressBuffer := by
  cases e <;> rfl
@[simp] theorem State.emitConverted_badCells (s : State) (e : Bool) (c : ConvertedCell) : (s.emitConverted e c).badCells = s.badCells := by
  cases e <;> rfl
@[simp] theorem State.emitConverted_unknownChannels (s : State) (e : Bool) (c : ConvertedCell) : (s.emitConverted e c).unknownChannels = s.unknownChannels := by
  cases e <;> rfl
@[simp] theorem State.emitConverted_discardedCommands (s : State) (e : Bool) (c : ConvertedCell) : (s.emitConverted e c).discardedCommands = s.discardedCommands := by
  cases e <;> rfl
@[simp] theorem State.emitConverted_engine (s : State) (e : Bool) (c : ConvertedCell) : (s.emitConverted e c).engine = s.engine := by
  cases e <;> rfl
@[simp] theorem State.emitConverted_tables (s : State) (e : Bool) (c : ConvertedCell) : (s.emitConverted e c).tables = s.tables := by
  cases e <;> rfl
@[simp] theorem State.emitConverted_slots (s : State) (e : Bool) (c : ConvertedCell) : (s.emitConverted e c).slots = s.slots := by
  cases e <;> rfl
@[simp] theorem State.emitConverted_reconciliation (s : State) (e : Bool) (c : ConvertedCell) : (s.emitConverted e c).reconciliation = s.reconciliation := by
  cases e <;> rfl
@[simp] theorem State.emitConverted_epochCount (s : State) (e : Bool) (c : ConvertedCell) : (s.emitConverted e c).epochCount = s.epochCount := by
  cases e <;> rfl
@[simp] theorem State.emitConverted_sweep (s : State) (e : Bool) (c : ConvertedCell) : (s.emitConverted e c).sweep = s.sweep := by
  cases e <;> rfl
@[simp] theorem State.emitConverted_commandQueue (s : State) (e : Bool) (c : ConvertedCell) : (s.emitConverted e c).commandQueue = s.commandQueue := by
  cases e <;> rfl
@[simp] theorem State.emitConverted_commandUnit (s : State) (e : Bool) (c : ConvertedCell) : (s.emitConverted e c).commandUnit = s.commandUnit := by
  cases e <;> rfl
@[simp] theorem State.emitConverted_mode (s : State) (e : Bool) (c : ConvertedCell) : (s.emitConverted e c).mode = s.mode := by
  cases e <;> rfl
@[simp] theorem State.emitConverted_responseQueue (s : State) (e : Bool) (c : ConvertedCell) : (s.emitConverted e c).responseQueue = s.responseQueue := by
  cases e <;> rfl
@[simp] theorem State.emitConverted_noticeQueue (s : State) (e : Bool) (c : ConvertedCell) : (s.emitConverted e c).noticeQueue = s.noticeQueue := by
  cases e <;> rfl
@[simp] theorem State.emitConverted_summaryQueue (s : State) (e : Bool) (c : ConvertedCell) : (s.emitConverted e c).summaryQueue = s.summaryQueue := by
  cases e <;> rfl
@[simp] theorem State.emitConverted_noticeSequence (s : State) (e : Bool) (c : ConvertedCell) : (s.emitConverted e c).noticeSequence = s.noticeSequence := by
  cases e <;> rfl
@[simp] theorem State.emitConverted_noticeLost (s : State) (e : Bool) (c : ConvertedCell) : (s.emitConverted e c).noticeLost = s.noticeLost := by
  cases e <;> rfl
@[simp] theorem State.emitConverted_starvationCount (s : State) (e : Bool) (c : ConvertedCell) : (s.emitConverted e c).starvationCount = s.starvationCount := by
  cases e <;> rfl
@[simp] theorem State.emitConverted_port (s : State) (e : Bool) (c : ConvertedCell) : (s.emitConverted e c).port = s.port := by
  cases e <;> rfl
@[simp] theorem State.emitConverted_responseSent (s : State) (e : Bool) (c : ConvertedCell) : (s.emitConverted e c).responseSent = s.responseSent := by
  cases e <;> rfl
@[simp] theorem State.emitConverted_copySent (s : State) (e : Bool) (c : ConvertedCell) : (s.emitConverted e c).copySent = s.copySent := by
  cases e <;> rfl
@[simp] theorem State.emitConverted_freeCount (s : State) (e : Bool) (c : ConvertedCell) : (s.emitConverted e c).freeCount = s.freeCount := by
  cases e <;> rfl
@[simp] theorem State.emitConverted_pending (s : State) (e : Bool) (c : ConvertedCell) : (s.emitConverted e c).pending = s.pending := by
  cases e <;> rfl

/-! ### cancelVerify: the fields it leaves alone -/

@[simp] theorem cancelVerify_resetAsserted (s : State) (k : CancelCause) (c : Cell) : (cancelVerify s k c).resetAsserted = s.resetAsserted := by
  unfold cancelVerify; split
  · exact State.handNotice_resetAsserted s _
  · rfl
@[simp] theorem cancelVerify_downstreamReady (s : State) (k : CancelCause) (c : Cell) : (cancelVerify s k c).downstreamReady = s.downstreamReady := by
  unfold cancelVerify; split
  · exact State.handNotice_downstreamReady s _
  · rfl
@[simp] theorem cancelVerify_strap (s : State) (k : CancelCause) (c : Cell) : (cancelVerify s k c).strap = s.strap := by
  unfold cancelVerify; split
  · exact State.handNotice_strap s _
  · rfl
@[simp] theorem cancelVerify_receiver (s : State) (k : CancelCause) (c : Cell) : (cancelVerify s k c).receiver = s.receiver := by
  unfold cancelVerify; split
  · exact State.handNotice_receiver s _
  · rfl
@[simp] theorem cancelVerify_ingressBuffer (s : State) (k : CancelCause) (c : Cell) : (cancelVerify s k c).ingressBuffer = s.ingressBuffer := by
  unfold cancelVerify; split
  · exact State.handNotice_ingressBuffer s _
  · rfl
@[simp] theorem cancelVerify_badCells (s : State) (k : CancelCause) (c : Cell) : (cancelVerify s k c).badCells = s.badCells := by
  unfold cancelVerify; split
  · exact State.handNotice_badCells s _
  · rfl
@[simp] theorem cancelVerify_unknownChannels (s : State) (k : CancelCause) (c : Cell) : (cancelVerify s k c).unknownChannels = s.unknownChannels := by
  unfold cancelVerify; split
  · exact State.handNotice_unknownChannels s _
  · rfl
@[simp] theorem cancelVerify_discardedCommands (s : State) (k : CancelCause) (c : Cell) : (cancelVerify s k c).discardedCommands = s.discardedCommands := by
  unfold cancelVerify; split
  · exact State.handNotice_discardedCommands s _
  · rfl
@[simp] theorem cancelVerify_engine (s : State) (k : CancelCause) (c : Cell) : (cancelVerify s k c).engine = s.engine := by
  unfold cancelVerify; split
  · exact State.handNotice_engine s _
  · rfl
@[simp] theorem cancelVerify_tables (s : State) (k : CancelCause) (c : Cell) : (cancelVerify s k c).tables = s.tables := by
  unfold cancelVerify; split
  · exact State.handNotice_tables s _
  · rfl
@[simp] theorem cancelVerify_slots (s : State) (k : CancelCause) (c : Cell) : (cancelVerify s k c).slots = s.slots := by
  unfold cancelVerify; split
  · exact State.handNotice_slots s _
  · rfl
@[simp] theorem cancelVerify_reconciliation (s : State) (k : CancelCause) (c : Cell) : (cancelVerify s k c).reconciliation = s.reconciliation := by
  unfold cancelVerify; split
  · exact State.handNotice_reconciliation s _
  · rfl
@[simp] theorem cancelVerify_epochCount (s : State) (k : CancelCause) (c : Cell) : (cancelVerify s k c).epochCount = s.epochCount := by
  unfold cancelVerify; split
  · exact State.handNotice_epochCount s _
  · rfl
@[simp] theorem cancelVerify_sweep (s : State) (k : CancelCause) (c : Cell) : (cancelVerify s k c).sweep = s.sweep := by
  unfold cancelVerify; split
  · exact State.handNotice_sweep s _
  · rfl
@[simp] theorem cancelVerify_commandQueue (s : State) (k : CancelCause) (c : Cell) : (cancelVerify s k c).commandQueue = s.commandQueue := by
  unfold cancelVerify; split
  · exact State.handNotice_commandQueue s _
  · rfl
@[simp] theorem cancelVerify_commandUnit (s : State) (k : CancelCause) (c : Cell) : (cancelVerify s k c).commandUnit = s.commandUnit := by
  unfold cancelVerify; split
  · exact State.handNotice_commandUnit s _
  · rfl
@[simp] theorem cancelVerify_mode (s : State) (k : CancelCause) (c : Cell) : (cancelVerify s k c).mode = s.mode := by
  unfold cancelVerify; split
  · exact State.handNotice_mode s _
  · rfl
@[simp] theorem cancelVerify_forwardQueue (s : State) (k : CancelCause) (c : Cell) : (cancelVerify s k c).forwardQueue = s.forwardQueue := by
  unfold cancelVerify; split
  · exact State.handNotice_forwardQueue s _
  · rfl
@[simp] theorem cancelVerify_responseQueue (s : State) (k : CancelCause) (c : Cell) : (cancelVerify s k c).responseQueue = s.responseQueue := by
  unfold cancelVerify; split
  · exact State.handNotice_responseQueue s _
  · rfl
@[simp] theorem cancelVerify_summaryQueue (s : State) (k : CancelCause) (c : Cell) : (cancelVerify s k c).summaryQueue = s.summaryQueue := by
  unfold cancelVerify; split
  · exact State.handNotice_summaryQueue s _
  · rfl
@[simp] theorem cancelVerify_starvationCount (s : State) (k : CancelCause) (c : Cell) : (cancelVerify s k c).starvationCount = s.starvationCount := by
  unfold cancelVerify; split
  · exact State.handNotice_starvationCount s _
  · rfl
@[simp] theorem cancelVerify_port (s : State) (k : CancelCause) (c : Cell) : (cancelVerify s k c).port = s.port := by
  unfold cancelVerify; split
  · exact State.handNotice_port s _
  · rfl
@[simp] theorem cancelVerify_responseSent (s : State) (k : CancelCause) (c : Cell) : (cancelVerify s k c).responseSent = s.responseSent := by
  unfold cancelVerify; split
  · exact State.handNotice_responseSent s _
  · rfl
@[simp] theorem cancelVerify_copySent (s : State) (k : CancelCause) (c : Cell) : (cancelVerify s k c).copySent = s.copySent := by
  unfold cancelVerify; split
  · exact State.handNotice_copySent s _
  · rfl
@[simp] theorem cancelVerify_freeCount (s : State) (k : CancelCause) (c : Cell) : (cancelVerify s k c).freeCount = s.freeCount := by
  unfold cancelVerify; split
  · exact State.handNotice_freeCount s _
  · rfl
@[simp] theorem cancelVerify_pending (s : State) (k : CancelCause) (c : Cell) : (cancelVerify s k c).pending = s.pending := by
  unfold cancelVerify; split
  · exact State.handNotice_pending s _
  · rfl

/-! ### clearSlot: the fields it leaves alone -/

@[simp] theorem clearSlot_resetAsserted (s : State) (i : SlotId) : (clearSlot s i).resetAsserted = s.resetAsserted := by
  unfold clearSlot; split <;> rfl
@[simp] theorem clearSlot_downstreamReady (s : State) (i : SlotId) : (clearSlot s i).downstreamReady = s.downstreamReady := by
  unfold clearSlot; split <;> rfl
@[simp] theorem clearSlot_strap (s : State) (i : SlotId) : (clearSlot s i).strap = s.strap := by
  unfold clearSlot; split <;> rfl
@[simp] theorem clearSlot_receiver (s : State) (i : SlotId) : (clearSlot s i).receiver = s.receiver := by
  unfold clearSlot; split <;> rfl
@[simp] theorem clearSlot_ingressBuffer (s : State) (i : SlotId) : (clearSlot s i).ingressBuffer = s.ingressBuffer := by
  unfold clearSlot; split <;> rfl
@[simp] theorem clearSlot_badCells (s : State) (i : SlotId) : (clearSlot s i).badCells = s.badCells := by
  unfold clearSlot; split <;> rfl
@[simp] theorem clearSlot_unknownChannels (s : State) (i : SlotId) : (clearSlot s i).unknownChannels = s.unknownChannels := by
  unfold clearSlot; split <;> rfl
@[simp] theorem clearSlot_discardedCommands (s : State) (i : SlotId) : (clearSlot s i).discardedCommands = s.discardedCommands := by
  unfold clearSlot; split <;> rfl
@[simp] theorem clearSlot_engine (s : State) (i : SlotId) : (clearSlot s i).engine = s.engine := by
  unfold clearSlot; split <;> rfl
@[simp] theorem clearSlot_tables (s : State) (i : SlotId) : (clearSlot s i).tables = s.tables := by
  unfold clearSlot; split <;> rfl
@[simp] theorem clearSlot_reconciliation (s : State) (i : SlotId) : (clearSlot s i).reconciliation = s.reconciliation := by
  unfold clearSlot; split <;> rfl
@[simp] theorem clearSlot_epochCount (s : State) (i : SlotId) : (clearSlot s i).epochCount = s.epochCount := by
  unfold clearSlot; split <;> rfl
@[simp] theorem clearSlot_sweep (s : State) (i : SlotId) : (clearSlot s i).sweep = s.sweep := by
  unfold clearSlot; split <;> rfl
@[simp] theorem clearSlot_commandQueue (s : State) (i : SlotId) : (clearSlot s i).commandQueue = s.commandQueue := by
  unfold clearSlot; split <;> rfl
@[simp] theorem clearSlot_commandUnit (s : State) (i : SlotId) : (clearSlot s i).commandUnit = s.commandUnit := by
  unfold clearSlot; split <;> rfl
@[simp] theorem clearSlot_mode (s : State) (i : SlotId) : (clearSlot s i).mode = s.mode := by
  unfold clearSlot; split <;> rfl
@[simp] theorem clearSlot_forwardQueue (s : State) (i : SlotId) : (clearSlot s i).forwardQueue = s.forwardQueue := by
  unfold clearSlot; split <;> rfl
@[simp] theorem clearSlot_responseQueue (s : State) (i : SlotId) : (clearSlot s i).responseQueue = s.responseQueue := by
  unfold clearSlot; split <;> rfl
@[simp] theorem clearSlot_noticeQueue (s : State) (i : SlotId) : (clearSlot s i).noticeQueue = s.noticeQueue := by
  unfold clearSlot; split <;> rfl
@[simp] theorem clearSlot_summaryQueue (s : State) (i : SlotId) : (clearSlot s i).summaryQueue = s.summaryQueue := by
  unfold clearSlot; split <;> rfl
@[simp] theorem clearSlot_noticeSequence (s : State) (i : SlotId) : (clearSlot s i).noticeSequence = s.noticeSequence := by
  unfold clearSlot; split <;> rfl
@[simp] theorem clearSlot_noticeLost (s : State) (i : SlotId) : (clearSlot s i).noticeLost = s.noticeLost := by
  unfold clearSlot; split <;> rfl
@[simp] theorem clearSlot_starvationCount (s : State) (i : SlotId) : (clearSlot s i).starvationCount = s.starvationCount := by
  unfold clearSlot; split <;> rfl
@[simp] theorem clearSlot_port (s : State) (i : SlotId) : (clearSlot s i).port = s.port := by
  unfold clearSlot; split <;> rfl
@[simp] theorem clearSlot_responseSent (s : State) (i : SlotId) : (clearSlot s i).responseSent = s.responseSent := by
  unfold clearSlot; split <;> rfl
@[simp] theorem clearSlot_copySent (s : State) (i : SlotId) : (clearSlot s i).copySent = s.copySent := by
  unfold clearSlot; split <;> rfl
@[simp] theorem clearSlot_freeCount (s : State) (i : SlotId) : (clearSlot s i).freeCount = s.freeCount := by
  unfold clearSlot; split <;> rfl
@[simp] theorem clearSlot_pending (s : State) (i : SlotId) : (clearSlot s i).pending = s.pending := by
  unfold clearSlot; split <;> rfl

/-! ### advanceReconciliation: the fields it leaves alone -/

@[simp] theorem advanceReconciliation_resetAsserted (s : State) (i : SlotId) : (advanceReconciliation s i).resetAsserted = s.resetAsserted := by
  unfold advanceReconciliation; split <;> rfl
@[simp] theorem advanceReconciliation_downstreamReady (s : State) (i : SlotId) : (advanceReconciliation s i).downstreamReady = s.downstreamReady := by
  unfold advanceReconciliation; split <;> rfl
@[simp] theorem advanceReconciliation_strap (s : State) (i : SlotId) : (advanceReconciliation s i).strap = s.strap := by
  unfold advanceReconciliation; split <;> rfl
@[simp] theorem advanceReconciliation_receiver (s : State) (i : SlotId) : (advanceReconciliation s i).receiver = s.receiver := by
  unfold advanceReconciliation; split <;> rfl
@[simp] theorem advanceReconciliation_ingressBuffer (s : State) (i : SlotId) : (advanceReconciliation s i).ingressBuffer = s.ingressBuffer := by
  unfold advanceReconciliation; split <;> rfl
@[simp] theorem advanceReconciliation_badCells (s : State) (i : SlotId) : (advanceReconciliation s i).badCells = s.badCells := by
  unfold advanceReconciliation; split <;> rfl
@[simp] theorem advanceReconciliation_unknownChannels (s : State) (i : SlotId) : (advanceReconciliation s i).unknownChannels = s.unknownChannels := by
  unfold advanceReconciliation; split <;> rfl
@[simp] theorem advanceReconciliation_discardedCommands (s : State) (i : SlotId) : (advanceReconciliation s i).discardedCommands = s.discardedCommands := by
  unfold advanceReconciliation; split <;> rfl
@[simp] theorem advanceReconciliation_engine (s : State) (i : SlotId) : (advanceReconciliation s i).engine = s.engine := by
  unfold advanceReconciliation; split <;> rfl
@[simp] theorem advanceReconciliation_tables (s : State) (i : SlotId) : (advanceReconciliation s i).tables = s.tables := by
  unfold advanceReconciliation; split <;> rfl
@[simp] theorem advanceReconciliation_slots (s : State) (i : SlotId) : (advanceReconciliation s i).slots = s.slots := by
  unfold advanceReconciliation; split <;> rfl
@[simp] theorem advanceReconciliation_epochCount (s : State) (i : SlotId) : (advanceReconciliation s i).epochCount = s.epochCount := by
  unfold advanceReconciliation; split <;> rfl
@[simp] theorem advanceReconciliation_sweep (s : State) (i : SlotId) : (advanceReconciliation s i).sweep = s.sweep := by
  unfold advanceReconciliation; split <;> rfl
@[simp] theorem advanceReconciliation_commandQueue (s : State) (i : SlotId) : (advanceReconciliation s i).commandQueue = s.commandQueue := by
  unfold advanceReconciliation; split <;> rfl
@[simp] theorem advanceReconciliation_commandUnit (s : State) (i : SlotId) : (advanceReconciliation s i).commandUnit = s.commandUnit := by
  unfold advanceReconciliation; split <;> rfl
@[simp] theorem advanceReconciliation_mode (s : State) (i : SlotId) : (advanceReconciliation s i).mode = s.mode := by
  unfold advanceReconciliation; split <;> rfl
@[simp] theorem advanceReconciliation_forwardQueue (s : State) (i : SlotId) : (advanceReconciliation s i).forwardQueue = s.forwardQueue := by
  unfold advanceReconciliation; split <;> rfl
@[simp] theorem advanceReconciliation_responseQueue (s : State) (i : SlotId) : (advanceReconciliation s i).responseQueue = s.responseQueue := by
  unfold advanceReconciliation; split <;> rfl
@[simp] theorem advanceReconciliation_noticeQueue (s : State) (i : SlotId) : (advanceReconciliation s i).noticeQueue = s.noticeQueue := by
  unfold advanceReconciliation; split <;> rfl
@[simp] theorem advanceReconciliation_summaryQueue (s : State) (i : SlotId) : (advanceReconciliation s i).summaryQueue = s.summaryQueue := by
  unfold advanceReconciliation; split <;> rfl
@[simp] theorem advanceReconciliation_noticeSequence (s : State) (i : SlotId) : (advanceReconciliation s i).noticeSequence = s.noticeSequence := by
  unfold advanceReconciliation; split <;> rfl
@[simp] theorem advanceReconciliation_noticeLost (s : State) (i : SlotId) : (advanceReconciliation s i).noticeLost = s.noticeLost := by
  unfold advanceReconciliation; split <;> rfl
@[simp] theorem advanceReconciliation_starvationCount (s : State) (i : SlotId) : (advanceReconciliation s i).starvationCount = s.starvationCount := by
  unfold advanceReconciliation; split <;> rfl
@[simp] theorem advanceReconciliation_port (s : State) (i : SlotId) : (advanceReconciliation s i).port = s.port := by
  unfold advanceReconciliation; split <;> rfl
@[simp] theorem advanceReconciliation_responseSent (s : State) (i : SlotId) : (advanceReconciliation s i).responseSent = s.responseSent := by
  unfold advanceReconciliation; split <;> rfl
@[simp] theorem advanceReconciliation_copySent (s : State) (i : SlotId) : (advanceReconciliation s i).copySent = s.copySent := by
  unfold advanceReconciliation; split <;> rfl
@[simp] theorem advanceReconciliation_freeCount (s : State) (i : SlotId) : (advanceReconciliation s i).freeCount = s.freeCount := by
  unfold advanceReconciliation; split <;> rfl
@[simp] theorem advanceReconciliation_pending (s : State) (i : SlotId) : (advanceReconciliation s i).pending = s.pending := by
  unfold advanceReconciliation; split <;> rfl

/-! ### advanceSweep: the fields it leaves alone -/

@[simp] theorem advanceSweep_resetAsserted (s : State) (i : SlotId) : (advanceSweep s i).resetAsserted = s.resetAsserted := by
  unfold advanceSweep; split <;> rfl
@[simp] theorem advanceSweep_downstreamReady (s : State) (i : SlotId) : (advanceSweep s i).downstreamReady = s.downstreamReady := by
  unfold advanceSweep; split <;> rfl
@[simp] theorem advanceSweep_strap (s : State) (i : SlotId) : (advanceSweep s i).strap = s.strap := by
  unfold advanceSweep; split <;> rfl
@[simp] theorem advanceSweep_receiver (s : State) (i : SlotId) : (advanceSweep s i).receiver = s.receiver := by
  unfold advanceSweep; split <;> rfl
@[simp] theorem advanceSweep_ingressBuffer (s : State) (i : SlotId) : (advanceSweep s i).ingressBuffer = s.ingressBuffer := by
  unfold advanceSweep; split <;> rfl
@[simp] theorem advanceSweep_badCells (s : State) (i : SlotId) : (advanceSweep s i).badCells = s.badCells := by
  unfold advanceSweep; split <;> rfl
@[simp] theorem advanceSweep_unknownChannels (s : State) (i : SlotId) : (advanceSweep s i).unknownChannels = s.unknownChannels := by
  unfold advanceSweep; split <;> rfl
@[simp] theorem advanceSweep_discardedCommands (s : State) (i : SlotId) : (advanceSweep s i).discardedCommands = s.discardedCommands := by
  unfold advanceSweep; split <;> rfl
@[simp] theorem advanceSweep_engine (s : State) (i : SlotId) : (advanceSweep s i).engine = s.engine := by
  unfold advanceSweep; split <;> rfl
@[simp] theorem advanceSweep_tables (s : State) (i : SlotId) : (advanceSweep s i).tables = s.tables := by
  unfold advanceSweep; split <;> rfl
@[simp] theorem advanceSweep_slots (s : State) (i : SlotId) : (advanceSweep s i).slots = s.slots := by
  unfold advanceSweep; split <;> rfl
@[simp] theorem advanceSweep_reconciliation (s : State) (i : SlotId) : (advanceSweep s i).reconciliation = s.reconciliation := by
  unfold advanceSweep; split <;> rfl
@[simp] theorem advanceSweep_epochCount (s : State) (i : SlotId) : (advanceSweep s i).epochCount = s.epochCount := by
  unfold advanceSweep; split <;> rfl
@[simp] theorem advanceSweep_commandQueue (s : State) (i : SlotId) : (advanceSweep s i).commandQueue = s.commandQueue := by
  unfold advanceSweep; split <;> rfl
@[simp] theorem advanceSweep_commandUnit (s : State) (i : SlotId) : (advanceSweep s i).commandUnit = s.commandUnit := by
  unfold advanceSweep; split <;> rfl
@[simp] theorem advanceSweep_mode (s : State) (i : SlotId) : (advanceSweep s i).mode = s.mode := by
  unfold advanceSweep; split <;> rfl
@[simp] theorem advanceSweep_forwardQueue (s : State) (i : SlotId) : (advanceSweep s i).forwardQueue = s.forwardQueue := by
  unfold advanceSweep; split <;> rfl
@[simp] theorem advanceSweep_responseQueue (s : State) (i : SlotId) : (advanceSweep s i).responseQueue = s.responseQueue := by
  unfold advanceSweep; split <;> rfl
@[simp] theorem advanceSweep_noticeQueue (s : State) (i : SlotId) : (advanceSweep s i).noticeQueue = s.noticeQueue := by
  unfold advanceSweep; split <;> rfl
@[simp] theorem advanceSweep_summaryQueue (s : State) (i : SlotId) : (advanceSweep s i).summaryQueue = s.summaryQueue := by
  unfold advanceSweep; split <;> rfl
@[simp] theorem advanceSweep_noticeSequence (s : State) (i : SlotId) : (advanceSweep s i).noticeSequence = s.noticeSequence := by
  unfold advanceSweep; split <;> rfl
@[simp] theorem advanceSweep_noticeLost (s : State) (i : SlotId) : (advanceSweep s i).noticeLost = s.noticeLost := by
  unfold advanceSweep; split <;> rfl
@[simp] theorem advanceSweep_starvationCount (s : State) (i : SlotId) : (advanceSweep s i).starvationCount = s.starvationCount := by
  unfold advanceSweep; split <;> rfl
@[simp] theorem advanceSweep_port (s : State) (i : SlotId) : (advanceSweep s i).port = s.port := by
  unfold advanceSweep; split <;> rfl
@[simp] theorem advanceSweep_responseSent (s : State) (i : SlotId) : (advanceSweep s i).responseSent = s.responseSent := by
  unfold advanceSweep; split <;> rfl
@[simp] theorem advanceSweep_copySent (s : State) (i : SlotId) : (advanceSweep s i).copySent = s.copySent := by
  unfold advanceSweep; split <;> rfl
@[simp] theorem advanceSweep_freeCount (s : State) (i : SlotId) : (advanceSweep s i).freeCount = s.freeCount := by
  unfold advanceSweep; split <;> rfl
@[simp] theorem advanceSweep_pending (s : State) (i : SlotId) : (advanceSweep s i).pending = s.pending := by
  unfold advanceSweep; split <;> rfl

/-! ### transmit: the fields it leaves alone -/

@[simp] theorem transmit_resetAsserted (s : State) (q : QueueName) : (transmit s q).resetAsserted = s.resetAsserted := by
  cases q <;> simp only [transmit] <;> split <;> rfl
@[simp] theorem transmit_downstreamReady (s : State) (q : QueueName) : (transmit s q).downstreamReady = s.downstreamReady := by
  cases q <;> simp only [transmit] <;> split <;> rfl
@[simp] theorem transmit_strap (s : State) (q : QueueName) : (transmit s q).strap = s.strap := by
  cases q <;> simp only [transmit] <;> split <;> rfl
@[simp] theorem transmit_receiver (s : State) (q : QueueName) : (transmit s q).receiver = s.receiver := by
  cases q <;> simp only [transmit] <;> split <;> rfl
@[simp] theorem transmit_ingressBuffer (s : State) (q : QueueName) : (transmit s q).ingressBuffer = s.ingressBuffer := by
  cases q <;> simp only [transmit] <;> split <;> rfl
@[simp] theorem transmit_badCells (s : State) (q : QueueName) : (transmit s q).badCells = s.badCells := by
  cases q <;> simp only [transmit] <;> split <;> rfl
@[simp] theorem transmit_unknownChannels (s : State) (q : QueueName) : (transmit s q).unknownChannels = s.unknownChannels := by
  cases q <;> simp only [transmit] <;> split <;> rfl
@[simp] theorem transmit_discardedCommands (s : State) (q : QueueName) : (transmit s q).discardedCommands = s.discardedCommands := by
  cases q <;> simp only [transmit] <;> split <;> rfl
@[simp] theorem transmit_engine (s : State) (q : QueueName) : (transmit s q).engine = s.engine := by
  cases q <;> simp only [transmit] <;> split <;> rfl
@[simp] theorem transmit_tables (s : State) (q : QueueName) : (transmit s q).tables = s.tables := by
  cases q <;> simp only [transmit] <;> split <;> rfl
@[simp] theorem transmit_slots (s : State) (q : QueueName) : (transmit s q).slots = s.slots := by
  cases q <;> simp only [transmit] <;> split <;> rfl
@[simp] theorem transmit_reconciliation (s : State) (q : QueueName) : (transmit s q).reconciliation = s.reconciliation := by
  cases q <;> simp only [transmit] <;> split <;> rfl
@[simp] theorem transmit_epochCount (s : State) (q : QueueName) : (transmit s q).epochCount = s.epochCount := by
  cases q <;> simp only [transmit] <;> split <;> rfl
@[simp] theorem transmit_sweep (s : State) (q : QueueName) : (transmit s q).sweep = s.sweep := by
  cases q <;> simp only [transmit] <;> split <;> rfl
@[simp] theorem transmit_commandQueue (s : State) (q : QueueName) : (transmit s q).commandQueue = s.commandQueue := by
  cases q <;> simp only [transmit] <;> split <;> rfl
@[simp] theorem transmit_commandUnit (s : State) (q : QueueName) : (transmit s q).commandUnit = s.commandUnit := by
  cases q <;> simp only [transmit] <;> split <;> rfl
@[simp] theorem transmit_mode (s : State) (q : QueueName) : (transmit s q).mode = s.mode := by
  cases q <;> simp only [transmit] <;> split <;> rfl
@[simp] theorem transmit_noticeSequence (s : State) (q : QueueName) : (transmit s q).noticeSequence = s.noticeSequence := by
  cases q <;> simp only [transmit] <;> split <;> rfl
@[simp] theorem transmit_noticeLost (s : State) (q : QueueName) : (transmit s q).noticeLost = s.noticeLost := by
  cases q <;> simp only [transmit] <;> split <;> rfl
@[simp] theorem transmit_starvationCount (s : State) (q : QueueName) : (transmit s q).starvationCount = s.starvationCount := by
  cases q <;> simp only [transmit] <;> split <;> rfl
@[simp] theorem transmit_responseSent (s : State) (q : QueueName) : (transmit s q).responseSent = s.responseSent := by
  cases q <;> simp only [transmit] <;> split <;> rfl
@[simp] theorem transmit_copySent (s : State) (q : QueueName) : (transmit s q).copySent = s.copySent := by
  cases q <;> simp only [transmit] <;> split <;> rfl
@[simp] theorem transmit_freeCount (s : State) (q : QueueName) : (transmit s q).freeCount = s.freeCount := by
  cases q <;> simp only [transmit] <;> split <;> rfl
@[simp] theorem transmit_pending (s : State) (q : QueueName) : (transmit s q).pending = s.pending := by
  cases q <;> simp only [transmit] <;> split <;> rfl

/-! ### offerCommand: the fields it leaves alone -/

@[simp] theorem offerCommand_resetAsserted (s : State) (c : Cell) : (offerCommand s c).resetAsserted = s.resetAsserted := by
  unfold offerCommand; split
  · rfl
  · exact State.handNotice_resetAsserted _ _
@[simp] theorem offerCommand_downstreamReady (s : State) (c : Cell) : (offerCommand s c).downstreamReady = s.downstreamReady := by
  unfold offerCommand; split
  · rfl
  · exact State.handNotice_downstreamReady _ _
@[simp] theorem offerCommand_strap (s : State) (c : Cell) : (offerCommand s c).strap = s.strap := by
  unfold offerCommand; split
  · rfl
  · exact State.handNotice_strap _ _
@[simp] theorem offerCommand_receiver (s : State) (c : Cell) : (offerCommand s c).receiver = s.receiver := by
  unfold offerCommand; split
  · rfl
  · exact State.handNotice_receiver _ _
@[simp] theorem offerCommand_ingressBuffer (s : State) (c : Cell) : (offerCommand s c).ingressBuffer = s.ingressBuffer := by
  unfold offerCommand; split
  · rfl
  · exact State.handNotice_ingressBuffer _ _
@[simp] theorem offerCommand_badCells (s : State) (c : Cell) : (offerCommand s c).badCells = s.badCells := by
  unfold offerCommand; split
  · rfl
  · exact State.handNotice_badCells _ _
@[simp] theorem offerCommand_unknownChannels (s : State) (c : Cell) : (offerCommand s c).unknownChannels = s.unknownChannels := by
  unfold offerCommand; split
  · rfl
  · exact State.handNotice_unknownChannels _ _
@[simp] theorem offerCommand_engine (s : State) (c : Cell) : (offerCommand s c).engine = s.engine := by
  unfold offerCommand; split
  · rfl
  · exact State.handNotice_engine _ _
@[simp] theorem offerCommand_tables (s : State) (c : Cell) : (offerCommand s c).tables = s.tables := by
  unfold offerCommand; split
  · rfl
  · exact State.handNotice_tables _ _
@[simp] theorem offerCommand_slots (s : State) (c : Cell) : (offerCommand s c).slots = s.slots := by
  unfold offerCommand; split
  · rfl
  · exact State.handNotice_slots _ _
@[simp] theorem offerCommand_reconciliation (s : State) (c : Cell) : (offerCommand s c).reconciliation = s.reconciliation := by
  unfold offerCommand; split
  · rfl
  · exact State.handNotice_reconciliation _ _
@[simp] theorem offerCommand_epochCount (s : State) (c : Cell) : (offerCommand s c).epochCount = s.epochCount := by
  unfold offerCommand; split
  · rfl
  · exact State.handNotice_epochCount _ _
@[simp] theorem offerCommand_sweep (s : State) (c : Cell) : (offerCommand s c).sweep = s.sweep := by
  unfold offerCommand; split
  · rfl
  · exact State.handNotice_sweep _ _
@[simp] theorem offerCommand_commandUnit (s : State) (c : Cell) : (offerCommand s c).commandUnit = s.commandUnit := by
  unfold offerCommand; split
  · rfl
  · exact State.handNotice_commandUnit _ _
@[simp] theorem offerCommand_mode (s : State) (c : Cell) : (offerCommand s c).mode = s.mode := by
  unfold offerCommand; split
  · rfl
  · exact State.handNotice_mode _ _
@[simp] theorem offerCommand_forwardQueue (s : State) (c : Cell) : (offerCommand s c).forwardQueue = s.forwardQueue := by
  unfold offerCommand; split
  · rfl
  · exact State.handNotice_forwardQueue _ _
@[simp] theorem offerCommand_responseQueue (s : State) (c : Cell) : (offerCommand s c).responseQueue = s.responseQueue := by
  unfold offerCommand; split
  · rfl
  · exact State.handNotice_responseQueue _ _
@[simp] theorem offerCommand_summaryQueue (s : State) (c : Cell) : (offerCommand s c).summaryQueue = s.summaryQueue := by
  unfold offerCommand; split
  · rfl
  · exact State.handNotice_summaryQueue _ _
@[simp] theorem offerCommand_starvationCount (s : State) (c : Cell) : (offerCommand s c).starvationCount = s.starvationCount := by
  unfold offerCommand; split
  · rfl
  · exact State.handNotice_starvationCount _ _
@[simp] theorem offerCommand_port (s : State) (c : Cell) : (offerCommand s c).port = s.port := by
  unfold offerCommand; split
  · rfl
  · exact State.handNotice_port _ _
@[simp] theorem offerCommand_responseSent (s : State) (c : Cell) : (offerCommand s c).responseSent = s.responseSent := by
  unfold offerCommand; split
  · rfl
  · exact State.handNotice_responseSent _ _
@[simp] theorem offerCommand_copySent (s : State) (c : Cell) : (offerCommand s c).copySent = s.copySent := by
  unfold offerCommand; split
  · rfl
  · exact State.handNotice_copySent _ _
@[simp] theorem offerCommand_freeCount (s : State) (c : Cell) : (offerCommand s c).freeCount = s.freeCount := by
  unfold offerCommand; split
  · rfl
  · exact State.handNotice_freeCount _ _
@[simp] theorem offerCommand_pending (s : State) (c : Cell) : (offerCommand s c).pending = s.pending := by
  unfold offerCommand; split
  · rfl
  · exact State.handNotice_pending _ _

end Sys2Proof.Machine
end

