-- ==== Sys2Proof/Laws/Tables.lean ====
section
/-! SUPPORT. The laws of tables of fixed length and of the Slot Store read through them. -/

namespace Sys2Proof

namespace Table

theorem get_put_same {α : Type} {n : Nat} (t : Table α n) (i : Fin n) (x : α) : (t.put i x).get i = x := by
  simp [get, put]

theorem get_put_other {α : Type} {n : Nat} (t : Table α n) {i j : Fin n} (x : α) (h : j ≠ i) : (t.put i x).get j = t.get j := by
  have : i.val ≠ j.val := fun e => h (Fin.ext e.symm)
  simp [get, put, List.getElem_set_of_ne this]

theorem get_put {α : Type} {n : Nat} (t : Table α n) (i j : Fin n) (x : α) :
    (t.put i x).get j = if j = i then x else t.get j := by
  split
  · next h => subst h; exact get_put_same t j x
  · next h => exact get_put_other t x h

theorem put_get {α : Type} {n : Nat} (t : Table α n) (i : Fin n) : t.put i (t.get i) = t := by
  apply Subtype.ext
  simp [get, put]

theorem put_put {α : Type} {n : Nat} (t : Table α n) (i : Fin n) (x y : α) : (t.put i x).put i y = t.put i y := by
  apply Subtype.ext
  simp [put]

theorem get_map {α : Type} {n : Nat} (t : Table α n) (f : α → α) (i : Fin n) : (t.map f).get i = f (t.get i) := by
  simp [get, map]

theorem get_tabulate {α : Type} {n : Nat} (f : Fin n → α) (i : Fin n) : (tabulate n f).get i = f i := by
  simp [get, tabulate]

theorem get_replicate {α : Type} {n : Nat} (x : α) (i : Fin n) :
    get (⟨List.replicate n x, List.length_replicate⟩ : Table α n) i = x := List.getElem_replicate _

/-- Two tables that agree at every place are equal. -/
theorem ext_get {α : Type} {n : Nat} {t u : Table α n} (h : ∀ i, t.get i = u.get i) : t = u := by
  apply Subtype.ext
  apply List.ext_getElem (t.property.trans u.property.symm)
  intro k hk _
  exact h ⟨k, Nat.lt_of_lt_of_eq hk t.property⟩

end Table

namespace Machine.State

theorem slot_putSlot (s : State) (i j : SlotId) (x : Slot) : (s.putSlot i x).slot j = if j = i then x else s.slot j :=
  Table.get_put _ _ _ _

@[simp] theorem slot_putSlot_same (s : State) (i : SlotId) (x : Slot) : (s.putSlot i x).slot i = x := Table.get_put_same _ _ _

theorem slot_putSlot_other (s : State) {i j : SlotId} (x : Slot) (h : j ≠ i) : (s.putSlot i x).slot j = s.slot j :=
  Table.get_put_other _ _ h

@[simp] theorem slot_putRuntime_same (s : State) (i : SlotId) (r : Runtime) :
    (s.putRuntime i r).slot i = { s.slot i with runtime := some r } := Table.get_put_same _ _ _

theorem slot_putRuntime_other (s : State) {i j : SlotId} (r : Runtime) (h : j ≠ i) : (s.putRuntime i r).slot j = s.slot j :=
  Table.get_put_other _ _ h

/-- Writing back the slot that stands there changes nothing. -/
theorem putSlot_slot (s : State) (i : SlotId) : s.putSlot i (s.slot i) = s := by
  show { s with slots := s.slots.put i (s.slots.get i) } = s
  rw [Table.put_get]

/-- After power-on reset every slot is UNOWNED (R84). -/
theorem slot_reset (i : SlotId) : State.reset.slot i = ⟨none, false⟩ := Table.get_replicate Slot.unowned i

/-- The slots of two states whose tables agree are the same. -/
theorem slot_congr {s t : State} (h : t.slots = s.slots) (i : SlotId) : t.slot i = s.slot i := by
  simp only [slot, h]

end Machine.State

end Sys2Proof
end

