-- ==== Sys2Proof/Laws/Slots.lean ====
section
/-! SUPPORT. Everything a closing and a reconciliation can do, said once: what each changes when it answers, and when it waits. -/

namespace Sys2Proof.Machine

/-! ### Closing -/

@[simp] theorem Runtime.close_owner (r : Runtime) (k : ClosingCause) (n : Word) : (r.close k n).value.owner = r.owner := by
  unfold Runtime.close; split
  · rfl
  · split <;> rfl

@[simp] theorem Runtime.close_terms (r : Runtime) (k : ClosingCause) (n : Word) : (r.close k n).value.terms = r.terms := by
  unfold Runtime.close; split
  · rfl
  · split <;> rfl

@[simp] theorem Runtime.close_live (r : Runtime) (k : ClosingCause) (n : Word) : (r.close k n).value.live = r.live := by
  unfold Runtime.close; split
  · rfl
  · split <;> rfl

@[simp] theorem Runtime.close_lastGood (r : Runtime) (k : ClosingCause) (n : Word) : (r.close k n).value.lastGood = r.lastGood := by
  unfold Runtime.close; split
  · rfl
  · split <;> rfl

@[simp] theorem Runtime.close_lastSequence (r : Runtime) (k : ClosingCause) (n : Word) :
    (r.close k n).value.lastSequence = r.lastSequence := by
  unfold Runtime.close; split
  · rfl
  · split <;> rfl

@[simp] theorem Runtime.close_armed (r : Runtime) (k : ClosingCause) (n : Word) : (r.close k n).value.armed = r.armed := by
  unfold Runtime.close; split
  · rfl
  · split <;> rfl

/-- A closing leaves no window; the rule that orders it replaces it. -/
@[simp] theorem Runtime.close_window (r : Runtime) (k : ClosingCause) (n : Word) : (r.close k n).value.window = none := by
  unfold Runtime.close
  cases h : r.window with
  | none => simpa using h
  | some w => dsimp only; split <;> rfl

@[simp] theorem Runtime.closeAndReopen_owner (r : Runtime) (k : ClosingCause) (n : Word) :
    (r.closeAndReopen k n).value.owner = r.owner := Runtime.close_owner r k n

@[simp] theorem Runtime.closeAndReopen_terms (r : Runtime) (k : ClosingCause) (n : Word) :
    (r.closeAndReopen k n).value.terms = r.terms := Runtime.close_terms r k n

/-- After a closing with cause COUNT, EPOCH or FLUSH the window is the fresh one of the terms. -/
@[simp] theorem Runtime.closeAndReopen_window (r : Runtime) (k : ClosingCause) (n : Word) :
    (r.closeAndReopen k n).value.window = r.terms.window.map (Window.fresh n) := by
  show (r.close k n).value.terms.window.map _ = _
  rw [Runtime.close_terms]

@[simp] theorem Runtime.reset_owner (e : Entry) (n : Word) : (Runtime.reset e n).owner = e.input := rfl

@[simp] theorem Runtime.reset_terms (e : Entry) (n : Word) : (Runtime.reset e n).terms = e.terms := rfl

@[simp] theorem Runtime.continueUnder_owner (r : Runtime) (e : Entry) (n : Word) :
    (r.continueUnder e n).value.owner = r.owner := by
  unfold Runtime.continueUnder; dsimp only; split
  · rfl
  · exact Runtime.close_owner r _ n

@[simp] theorem Runtime.continueUnder_terms (r : Runtime) (e : Entry) (n : Word) :
    (r.continueUnder e n).value.terms = e.terms := by
  unfold Runtime.continueUnder; dsimp only; split <;> rfl

/-! ### Reconciliation of one slot -/

/-- A reconciled slot is not pending (R90). -/
@[simp] theorem Slot.reconcile_pending (x : Slot) (e : Option Entry) (n : Word) : (x.reconcile e n).value.pending = false := by
  unfold Slot.reconcile; split
  · rfl
  · split <;> rfl
  · rfl

/-- A reconciled slot has the owner and the terms of the entry that names it, or is UNOWNED (R80, R82, R90). -/
theorem Slot.reconcile_follows (x : Slot) (e : Option Entry) (n : Word) :
    (x.reconcile e n).value.runtime.map (fun r => (r.owner, r.terms)) = e.map (fun f => (f.input, f.terms)) := by
  obtain ⟨rt, p⟩ := x
  cases rt with
  | none => cases e <;> rfl
  | some r =>
    cases e with
    | none => rfl
    | some f =>
      by_cases h : r.owner = f.input
      · simp [Slot.reconcile, h]
      · simp [Slot.reconcile, h, Slot.reset]

/-! ### The operations that touch one slot and may add one summary -/

/-- `t` is `s` with slot `i` holding `x` and with the summary, if any, added where a place was free: the only shape in which a closing or a
reconciliation changes the part (R105). -/
structure SlotTouched (s : State) (i : SlotId) (x : Slot) (q : Option Summary) (t : State) : Prop where
  eq : t = { s with slots := s.slots.put i x, summaryQueue := s.summaryQueue ++ q.toList }
  room : q ≠ none → s.summaryQueue.length < 64

theorem SlotTouched.slot_same {s t : State} {i : SlotId} {x : Slot} {q : Option Summary} (h : SlotTouched s i x q t) :
    t.slot i = x := by
  rw [h.eq]; exact Table.get_put_same _ _ _

theorem SlotTouched.slot_other {s t : State} {i j : SlotId} {x : Slot} {q : Option Summary} (h : SlotTouched s i x q t)
    (hj : j ≠ i) : t.slot j = s.slot j := by
  rw [h.eq]; exact Table.get_put_other _ _ hj

theorem SlotTouched.summary_le {s t : State} {i : SlotId} {x : Slot} {q : Option Summary} (h : SlotTouched s i x q t)
    (hs : s.summaryQueue.length ≤ 64) : t.summaryQueue.length ≤ 64 := by
  have hr := h.room
  rw [h.eq]
  cases q with
  | none => simpa using hs
  | some y => have := hr (by simp); simp; omega

/-- Touching a slot with the value it holds, and adding nothing, is to change nothing. -/
theorem SlotTouched.refl (s : State) (i : SlotId) : SlotTouched s i (s.slot i) none s where
  eq := by
    show s = { s with slots := s.slots.put i (s.slots.get i), summaryQueue := s.summaryQueue ++ [] }
    rw [Table.put_get, List.append_nil]
  room := fun h => absurd rfl h

theorem State.takeClosing_touched {s t : State} {i : SlotId} {c : Closed Slot} (h : s.takeClosing i c = some t) :
    SlotTouched s i c.value c.summary t := by
  unfold State.takeClosing at h
  cases hc : c.summary with
  | none =>
    rw [hc] at h
    exact ⟨by rw [← Option.some.inj h]; simp [State.putSlot], fun e => absurd rfl e⟩
  | some y =>
    rw [hc] at h
    dsimp only at h
    split at h
    · next hf =>
      refine ⟨by rw [← Option.some.inj h]; rfl, fun _ => ?_⟩
      simpa [State.summaryFree] using hf
    · exact absurd h (by simp)

/-- A closing waits only for a Summary Queue place (R105). -/
theorem State.takeClosing_none {s : State} {i : SlotId} {c : Closed Slot} (h : s.takeClosing i c = none) :
    c.summary ≠ none ∧ 64 ≤ s.summaryQueue.length := by
  unfold State.takeClosing at h
  cases hc : c.summary with
  | none => rw [hc] at h; exact absurd h (by simp)
  | some y =>
    rw [hc] at h
    dsimp only at h
    split at h
    · exact absurd h (by simp)
    · next hf => exact ⟨by simp, by simpa [State.summaryFree] using hf⟩

/-- With a free place a closing takes effect (R105). -/
theorem State.takeClosing_room {s : State} (i : SlotId) (c : Closed Slot) (h : s.summaryQueue.length < 64) :
    s.takeClosing i c =
      some { s with slots := s.slots.put i c.value, summaryQueue := s.summaryQueue ++ c.summary.toList } := by
  unfold State.takeClosing
  cases hc : c.summary with
  | none => simp [State.putSlot]
  | some y =>
    have : s.summaryFree = true := by simpa [State.summaryFree] using h
    simp [this, State.putSlot, State.pushSummary]

/-- Without a free place a closing that forms a summary waits (R105). -/
theorem State.takeClosing_full {s : State} (i : SlotId) {c : Closed Slot} (hc : c.summary ≠ none)
    (h : 64 ≤ s.summaryQueue.length) : s.takeClosing i c = none := by
  unfold State.takeClosing
  cases hs : c.summary with
  | none => exact absurd hs hc
  | some y =>
    have : s.summaryFree = false := by simpa [State.summaryFree] using h
    simp [this]

/-- A closing that forms no summary never waits (R100). -/
theorem State.takeClosing_silent {s : State} (i : SlotId) {c : Closed Slot} (hc : c.summary = none) :
    s.takeClosing i c = some (s.putSlot i c.value) := by
  unfold State.takeClosing
  rw [hc]

/-- The closing of a window that has counted, its fresh window opened (R96, R100). -/
theorem Runtime.closeAndReopen_counted {r : Runtime} {w : Window} (k : ClosingCause) (n : Word) (h : r.window = some w)
    (hc : w.counted ≠ 0) :
    r.closeAndReopen k n =
      ⟨{ r with windowSequence := r.windowSequence + 1, window := r.terms.window.map (Window.fresh n) },
        some (w.summary k n r.terms.output r.windowSequence)⟩ := by
  unfold Runtime.closeAndReopen Runtime.close
  rw [h]
  dsimp only
  rw [if_neg hc]
  rfl

/-- The silent closing of a window that has counted nothing (R96, R100). -/
theorem Runtime.closeAndReopen_empty {r : Runtime} {w : Window} (k : ClosingCause) (n : Word) (h : r.window = some w)
    (hc : w.counted = 0) :
    r.closeAndReopen k n = ⟨{ r with window := r.terms.window.map (Window.fresh n) }, none⟩ := by
  unfold Runtime.closeAndReopen Runtime.close
  rw [h]
  dsimp only
  rw [if_pos hc]
  rfl

/-- The closing of a window that has counted, before the rule that orders it replaces it (R100). -/
theorem Runtime.close_counted {r : Runtime} {w : Window} (k : ClosingCause) (n : Word) (h : r.window = some w)
    (hc : w.counted ≠ 0) :
    r.close k n =
      ⟨{ r with window := none, windowSequence := r.windowSequence + 1 },
        some (w.summary k n r.terms.output r.windowSequence)⟩ := by
  unfold Runtime.close
  rw [h]
  dsimp only
  rw [if_neg hc]

/-- A closing with nothing counted forms no summary (R100). -/
theorem Runtime.close_empty {r : Runtime} (k : ClosingCause) (n : Word) (h : ∀ w, r.window = some w → w.counted = 0) :
    r.close k n = ⟨{ r with window := none }, none⟩ := by
  unfold Runtime.close
  cases hw : r.window with
  | none => dsimp only; rw [← hw]
  | some w => dsimp only; rw [if_pos (h w hw)]

/-- The on-demand reconciliation: a slot that is not pending is left alone, a pending one is reconciled (R90, R93). -/
theorem State.reconcileSlot_touched {s t : State} {i : SlotId} (h : s.reconcileSlot i = some t) :
    ((s.slot i).pending = false ∧ t = s) ∨
      ((s.slot i).pending = true ∧
        SlotTouched s i ((s.slot i).reconcile (s.ownerEntry i) s.epochCount).value
          ((s.slot i).reconcile (s.ownerEntry i) s.epochCount).summary t) := by
  unfold State.reconcileSlot at h
  split at h
  · next hp => exact Or.inr ⟨hp, State.takeClosing_touched h⟩
  · next hp => exact Or.inl ⟨by simpa using hp, (Option.some.inj h).symm⟩

/-- A slot that is not pending needs no reconciliation (R93). -/
theorem State.reconcileSlot_of_not_pending {s : State} {i : SlotId} (h : (s.slot i).pending = false) :
    s.reconcileSlot i = some s := by
  simp [State.reconcileSlot, h]

/-- After the on-demand reconciliation the slot is not pending (R93). -/
theorem State.reconcileSlot_pending {s t : State} {i : SlotId} (h : s.reconcileSlot i = some t) :
    (t.slot i).pending = false := by
  rcases State.reconcileSlot_touched h with ⟨hp, rfl⟩ | ⟨_, ht⟩
  · exact hp
  · rw [ht.slot_same]; exact Slot.reconcile_pending _ _ _

/-- Whatever the on-demand reconciliation does, it touches its one slot (R93). -/
theorem State.reconcileSlot_shape {s t : State} {i : SlotId} (h : s.reconcileSlot i = some t) :
    ∃ x q, SlotTouched s i x q t := by
  rcases State.reconcileSlot_touched h with ⟨_, rfl⟩ | ⟨_, ht⟩
  · exact ⟨_, _, SlotTouched.refl t i⟩
  · exact ⟨_, _, ht⟩

theorem State.closeSlotWindow_touched {s t : State} {i : SlotId} {r : Runtime} {k : ClosingCause}
    (h : s.closeSlotWindow i r k = some t) :
    SlotTouched s i { s.slot i with runtime := some (r.closeAndReopen k s.epochCount).value }
      (r.closeAndReopen k s.epochCount).summary t :=
  State.takeClosing_touched h

/-- The closing of a due window: nothing where none is due, otherwise the closing with cause EPOCH (R59, R109). -/
theorem State.closeDue_touched {s t : State} {i : SlotId} (h : s.closeDue i = some t) :
    t = s ∨ ∃ r w, (s.slot i).runtime = some r ∧ r.window = some w ∧ w.due s.epochCount = true ∧
      SlotTouched s i { s.slot i with runtime := some (r.closeAndReopen .epoch s.epochCount).value }
        (r.closeAndReopen .epoch s.epochCount).summary t := by
  unfold State.closeDue at h
  cases hr : (s.slot i).runtime with
  | none => rw [hr] at h; exact Or.inl (Option.some.inj h).symm
  | some r =>
    rw [hr] at h
    dsimp only at h
    cases hw : r.window with
    | none => rw [hw] at h; exact Or.inl (Option.some.inj h).symm
    | some w =>
      rw [hw] at h
      dsimp only at h
      split at h
      · next hd => exact Or.inr ⟨r, w, rfl, hw, hd, State.closeSlotWindow_touched h⟩
      · exact Or.inl (Option.some.inj h).symm

/-- Whatever the closing of a due window does, it touches its one slot (R109). -/
theorem State.closeDue_shape {s t : State} {i : SlotId} (h : s.closeDue i = some t) : ∃ x q, SlotTouched s i x q t := by
  rcases State.closeDue_touched h with rfl | ⟨_, _, _, _, _, ht⟩
  · exact ⟨_, _, SlotTouched.refl t i⟩
  · exact ⟨_, _, ht⟩

/-- A window that is not due is left open (R107). -/
theorem State.closeDue_of_not_due {s : State} {i : SlotId} {r : Runtime} (hr : (s.slot i).runtime = some r)
    (hd : ∀ w, r.window = some w → w.due s.epochCount = false) : s.closeDue i = some s := by
  unfold State.closeDue
  rw [hr]
  dsimp only
  cases hw : r.window with
  | none => rfl
  | some w => simp [hd w hw]

end Sys2Proof.Machine
end

