-- ==== Sys2Proof/Laws/Engine.lean ====
section
/-! SUPPORT. A ready reading, step by step: what each step of the Engine answers when nothing waits, and the state in which a reading ends. -/

namespace Sys2Proof.Machine

/-! ### What a reading's steps leave of a slot -/

@[simp] theorem sequenceCheck_owner (r : Runtime) (n : Half) : (sequenceCheck r n).runtime.owner = r.owner := by
  unfold sequenceCheck; split
  · dsimp only; repeat' split
    all_goals rfl
  · rfl

@[simp] theorem sequenceCheck_terms (r : Runtime) (n : Half) : (sequenceCheck r n).runtime.terms = r.terms := by
  unfold sequenceCheck; split
  · dsimp only; repeat' split
    all_goals rfl
  · rfl

@[simp] theorem sequenceCheck_armed (r : Runtime) (n : Half) : (sequenceCheck r n).runtime.armed = r.armed := by
  unfold sequenceCheck; split
  · dsimp only; repeat' split
    all_goals rfl
  · rfl

@[simp] theorem sequenceCheck_lastGood (r : Runtime) (n : Half) : (sequenceCheck r n).runtime.lastGood = r.lastGood := by
  unfold sequenceCheck; split
  · dsimp only; repeat' split
    all_goals rfl
  · rfl

@[simp] theorem sequenceCheck_dropCount (r : Runtime) (n : Half) : (sequenceCheck r n).runtime.dropCount = r.dropCount := by
  unfold sequenceCheck; split
  · dsimp only; repeat' split
    all_goals rfl
  · rfl

@[simp] theorem sequenceCheck_windowSequence (r : Runtime) (n : Half) :
    (sequenceCheck r n).runtime.windowSequence = r.windowSequence := by
  unfold sequenceCheck; split
  · dsimp only; repeat' split
    all_goals rfl
  · rfl

@[simp] theorem sequenceCheck_window (r : Runtime) (n : Half) : (sequenceCheck r n).runtime.window = r.window := by
  unfold sequenceCheck; split
  · dsimp only; repeat' split
    all_goals rfl
  · rfl

@[simp] theorem heard_owner (r : Runtime) (c : Cell) (d : Decided) : (heard r c d).owner = r.owner := sequenceCheck_owner r _

@[simp] theorem heard_terms (r : Runtime) (c : Cell) (d : Decided) : (heard r c d).terms = r.terms := sequenceCheck_terms r _

@[simp] theorem heard_armed (r : Runtime) (c : Cell) (d : Decided) : (heard r c d).armed = r.armed := sequenceCheck_armed r _

@[simp] theorem heard_lastGood (r : Runtime) (c : Cell) (d : Decided) : (heard r c d).lastGood = r.lastGood :=
  sequenceCheck_lastGood r _

@[simp] theorem heard_dropCount (r : Runtime) (c : Cell) (d : Decided) : (heard r c d).dropCount = r.dropCount :=
  sequenceCheck_dropCount r _

@[simp] theorem heard_windowSequence (r : Runtime) (c : Cell) (d : Decided) : (heard r c d).windowSequence = r.windowSequence :=
  sequenceCheck_windowSequence r _

@[simp] theorem heard_window (r : Runtime) (c : Cell) (d : Decided) :
    (heard r c d).window = r.window.map fun w => { w with faults := w.faults.union d.quality.faults } := by
  show ((sequenceCheck r _).runtime.window.map _) = _
  rw [sequenceCheck_window]

/-! ### Claims do not depend on what a reading or a closing changes -/

/-- Another party's claim is seen through the Engine's reading, the Command Unit, the sweep and the reconciliation alone. -/
theorem claimedByOther_congr {s t : State} (p : Party) (i : SlotId) (h1 : t.heldReading = s.heldReading)
    (h2 : t.commandUnit = s.commandUnit) (h3 : t.sweep = s.sweep) (h4 : t.reconciliation = s.reconciliation) :
    t.claimedByOther p i = s.claimedByOther p i := by
  unfold State.claimedByOther State.holdsClaim
  rw [h1, h2, h3, h4]

/-- What the Engine itself holds plays no part in whether it must wait. -/
theorem claimedByOther_engine_congr {s t : State} (i : SlotId) (h2 : t.commandUnit = s.commandUnit) (h3 : t.sweep = s.sweep)
    (h4 : t.reconciliation = s.reconciliation) : t.claimedByOther .engine i = s.claimedByOther .engine i := by
  simp [State.claimedByOther, State.holdsClaim, h2, h3, h4]

/-- What the Command Unit itself holds plays no part in whether it must wait. -/
theorem claimedByOther_command_congr {s t : State} (i : SlotId) (h1 : t.heldReading = s.heldReading) (h3 : t.sweep = s.sweep)
    (h4 : t.reconciliation = s.reconciliation) : t.claimedByOther .command i = s.claimedByOther .command i := by
  simp [State.claimedByOther, State.holdsClaim, h1, h3, h4]

/-! ### Notices -/

/-- With a free place a notice enters with the next number and the lost count (R157). -/
theorem State.handNotice_room {s : State} (b : NoticeBody) (h : s.noticeQueue.length < 32) :
    s.handNotice b =
      { s with
        noticeQueue := s.noticeQueue ++ [⟨s.noticeSequence, s.noticeLost, s.strap, b⟩]
        noticeSequence := s.noticeSequence + 1
        noticeLost := 0 } := by
  unfold State.handNotice
  rw [if_pos (by simpa [State.noticeFree] using h)]

/-- Without a free place a notice is lost, counted and numbered (R157). -/
theorem State.handNotice_lost {s : State} (b : NoticeBody) (h : 32 ≤ s.noticeQueue.length)
    (hl : s.noticeLost ≠ BitVec.allOnes 16) :
    s.handNotice b = { s with noticeSequence := s.noticeSequence + 1, noticeLost := s.noticeLost + 1 } := by
  unfold State.handNotice
  rw [if_neg (by simpa [State.noticeFree] using h), if_neg hl]

/-- A loss that would take the lost counter past 65535 takes no number (R157). -/
theorem State.handNotice_saturated {s : State} (b : NoticeBody) (h : 32 ≤ s.noticeQueue.length)
    (hl : s.noticeLost = BitVec.allOnes 16) : s.handNotice b = s := by
  unfold State.handNotice
  rw [if_neg (by simpa [State.noticeFree] using h), if_pos hl]

/-! ### Where a reading waits -/

/-- A reading whose slot another party claims waits (R88). -/
theorem prepareStep_claimed {h : HeldReading} {s : State} (hc : s.claimedByOther .engine h.entry.slot = true) :
    prepareStep h s = .next { s with engine := .waiting h } := by
  unfold prepareStep
  rw [if_pos hc]

/-- With its slot's claim a reading reconciles the slot, or waits for the place that needs (R58, R60). -/
theorem prepareStep_unclaimed {h : HeldReading} {s : State} (hc : s.claimedByOther .engine h.entry.slot = false) :
    prepareStep h s =
      match s.reconcileSlot h.entry.slot with
      | none => .next { s with engine := .waiting { h with ownClaim := true } }
      | some t => referenceStep { h with ownClaim := true } t := by
  unfold prepareStep
  exact if_neg (by rw [hc]; exact Bool.false_ne_true)

/-- A reading that is not RATIO has no reference slot to prepare (R58). -/
theorem referenceStep_plain {h : HeldReading} {s : State} (hc : h.entry.conversion.isRatio = false) :
    referenceStep h s = catchUpStep h s := by
  unfold referenceStep
  cases hk : h.entry.conversion with
  | ratio _ _ => rw [hk] at hc; exact absurd hc (by simp [Conversion.isRatio])
  | _ => rfl

/-! ### A ready reading -/

/-- The reading that the Engine holds once it has taken a cell of entry `e` (R55, R56). -/
def takenReading (s : State) (cell : Cell) (e : Entry) : HeldReading := ⟨cell, s.tables.generation, e, false, none, .prepare⟩

/-- The state once the Engine has taken the oldest cell (R55, R56). -/
def takenState (s : State) (cell : Cell) (rest : List Cell) (e : Entry) : State :=
  { s with ingressBuffer := rest, engine := .converting (takenReading s cell e) }

/-- A READING cell that may be taken and whose channel has an entry is prepared (R56, R57). -/
theorem takeReading_prepares {s : State} {cell : Cell} {rest : List Cell} {e : Entry} (hc : CellReady s cell rest)
    (hk : cellKind cell = 0x01) (hs : s.tables.shadowState ≠ .swapPending)
    (he : findChannel s.tables.activeBank.directory (readingChannel cell) = some e) :
    exec .takeReading s = prepareStep (takenReading s cell e) (takenState s cell rest e) := by
  have hm : mayTakeReading s = true := by simp [mayTakeReading, hc.engine, State.forwardFree, hc.place, hs]
  show execTakeReading s = _
  unfold execTakeReading
  rw [hc.buffer]
  dsimp only
  rw [if_pos ⟨hk, hm⟩]
  unfold beginReading
  dsimp only
  rw [he]
  rfl

/-- The preparation of a slot that is ready and whose window is not due, up to the conversion (R58, R59). -/
theorem prepareStep_ready {s : State} {h : HeldReading} {r : Runtime} (hs : SlotReady s .engine h.entry.slot)
    (hr : (s.slot h.entry.slot).runtime = some r) (hd : ∀ w, r.window = some w → w.due s.epochCount = false)
    (href : ∀ reference gain, h.entry.conversion = .ratio reference gain →
      ∃ f, findChannel s.tables.activeBank.directory reference = some f ∧ SlotReady s .engine f.slot) :
    ∃ i, prepareStep h s = convertStep { h with ownClaim := true, referenceClaim := i } s ∧
      ∀ reference gain, h.entry.conversion = .ratio reference gain →
        ∃ f, findChannel s.tables.activeBank.directory reference = some f ∧ i = some f.slot := by
  have hp : prepareStep h s = referenceStep { h with ownClaim := true } s := by
    unfold prepareStep
    rw [hs.unclaimed, State.reconcileSlot_of_not_pending hs.reconciled]
    rfl
  have hu : ∀ k : HeldReading, k.entry = h.entry → catchUpStep k s = convertStep k s := by
    intro k hk
    unfold catchUpStep
    rw [hk, State.closeDue_of_not_due hr hd]
  rw [hp]
  unfold referenceStep
  dsimp only
  cases hc : h.entry.conversion with
  | none => exact ⟨h.referenceClaim, hu _ rfl, fun _ _ e => by simp at e⟩
  | linear g o => exact ⟨h.referenceClaim, hu _ rfl, fun _ _ e => by simp at e⟩
  | segmented t => exact ⟨h.referenceClaim, hu _ rfl, fun _ _ e => by simp at e⟩
  | ratio reference gain =>
    obtain ⟨f, hf, hfs⟩ := href reference gain hc
    refine ⟨some f.slot, ?_, fun a b hab => ?_⟩
    · dsimp only
      rw [hf]
      dsimp only
      rw [hfs.unclaimed, State.reconcileSlot_of_not_pending hfs.reconciled]
      exact hu _ rfl
    · obtain ⟨rfl, rfl⟩ := Conversion.ratio.inj hab
      exact ⟨f, hf, rfl⟩

/-- A conversion depends on its reference value under RATIO alone (R63 to R66). -/
theorem convertRaw_reference {pool : Memory} {e : Entry} {raw : Word} {lastGood a b : Option Word}
    (h : ∀ reference gain, e.conversion = .ratio reference gain → a = b) :
    convertRaw pool e raw lastGood a = convertRaw pool e raw lastGood b := by
  unfold convertRaw
  cases hc : e.conversion with
  | ratio reference gain => rw [h reference gain hc]
  | _ => rfl

/-- The reference value the Engine reads is that of the entry's reference slot (R66). -/
theorem referenceValue_eq {s : State} {e : Entry} {i : Option SlotId} {reference : ChannelId} {gain : Word}
    (hc : e.conversion = .ratio reference gain)
    (h : ∃ f, findChannel s.tables.activeBank.directory reference = some f ∧ i = some f.slot) :
    referenceValue s i = referenceGood s e := by
  obtain ⟨f, hf, rfl⟩ := h
  unfold referenceValue referenceGood
  rw [hc]
  dsimp only
  rw [hf]
  show _ = (s.slot f.slot).runtime.bind Runtime.lastGood
  cases (s.slot f.slot).runtime <;> rfl

/-- The conversion step of a reading whose conversion is known (R62 to R69). -/
theorem convertStep_converts {s : State} {h : HeldReading} {r : Runtime} {d : Decided} (hr : (s.slot h.entry.slot).runtime = some r)
    (hd : ReadingConverts s h.cell h.entry r d)
    (href : ∀ reference gain, h.entry.conversion = .ratio reference gain →
      ∃ f, findChannel s.tables.activeBank.directory reference = some f ∧ h.referenceClaim = some f.slot) :
    convertStep h s = finishReading h (heard r h.cell d) d s := by
  obtain ⟨c, hc, rfl⟩ := hd.converts
  have hv : convertRaw s.tables.activeBank.pool h.entry (readingRaw h.cell)
      (sequenceCheck r (readingSequence h.cell)).runtime.lastGood (referenceValue s h.referenceClaim) = .ok c := by
    rw [sequenceCheck_lastGood, ← hc]
    apply convertRaw_reference
    intro reference gain hq
    exact referenceValue_eq hq (href reference gain hq)
  unfold convertStep
  rw [hr]
  dsimp only
  rw [hv]
  rfl

/-- A ready reading whose conversion is known is at its end: divert, drop, count or pass (R56 to R69). -/
theorem takeReading_ready {s : State} {cell : Cell} {rest : List Cell} {e : Entry} {r : Runtime} {d : Decided}
    (hr : ReadingReady s cell rest e r) (hd : ReadingConverts s cell e r d) :
    ∃ i, exec .takeReading s =
      finishReading ⟨cell, s.tables.generation, e, true, i, .prepare⟩ (heard r cell d) d (takenState s cell rest e) := by
  rw [takeReading_prepares hr.ready hr.kind hr.noSwap hr.entry]
  have hclaim : ∀ j, (takenState s cell rest e).claimedByOther .engine j = s.claimedByOther .engine j :=
    fun j => claimedByOther_engine_congr j rfl rfl rfl
  obtain ⟨i, hi, href⟩ := prepareStep_ready (s := takenState s cell rest e) (h := takenReading s cell e) (r := r)
    ⟨(hclaim _).trans hr.slot.unclaimed, hr.slot.reconciled⟩ hr.runtime hr.notDue
    (fun reference gain hc => by
      obtain ⟨f, hf, hs⟩ := hr.reference reference gain hc
      exact ⟨f, hf, (hclaim _).trans hs.unclaimed, hs.reconciled⟩)
  refine ⟨i, ?_⟩
  rw [hi]
  exact convertStep_converts (h := ⟨cell, s.tables.generation, e, true, i, .prepare⟩) hr.runtime ⟨hd.converts⟩ href

end Sys2Proof.Machine
end

