-- ==== Sys2Proof/Laws/Growth.lean ====
section
/-! SUPPORT. What the work on slots can do, said once: a slot is reconciled, or its runtime changes under the same owner and terms. Every
operation on a slot outside a reset and a swap is such work, and the lemmas below say so of each. -/

namespace Sys2Proof.Machine

/-- A runtime's window is of its terms and well formed (R95, R96). -/
def Runtime.Fits (r : Runtime) : Prop := r.window.map Window.definition = r.terms.window ∧ ∀ w, r.window = some w → w.wf

/-- A window definition in its range (R5). -/
def WindowDef.InRange : WindowDef → Prop
  | .count n => 1 ≤ n ∧ n ≤ 4096
  | .epoch n => 1 ≤ n ∧ n ≤ 255

/-- How one slot may change under the entry that names it: not at all, by its reconciliation, or by a new runtime of the same owner and terms. -/
inductive SlotGrows (e : Option Entry) (n : Word) : Slot → Slot → Prop where
  | refl (x : Slot) : SlotGrows e n x x
  | reconcile (x : Slot) : SlotGrows e n x (x.reconcile e n).value
  | runtime {x : Slot} {r r' : Runtime} (h : x.runtime = some r) (owner : r'.owner = r.owner) (terms : r'.terms = r.terms)
      (fits : r.Fits → r'.Fits) : SlotGrows e n x { x with runtime := some r' }
  | trans {x y z : Slot} (h : SlotGrows e n x y) (k : SlotGrows e n y z) : SlotGrows e n x z

/-- A slot that is not pending stays so. -/
theorem SlotGrows.settled {e : Option Entry} {n : Word} {x y : Slot} (h : SlotGrows e n x y) (hp : x.pending = false) :
    y.pending = false := by
  induction h with
  | refl => exact hp
  | reconcile x => exact Slot.reconcile_pending x e n
  | runtime => exact hp
  | trans _ _ ih1 ih2 => exact ih2 (ih1 hp)

/-- A slot that follows its entry, if it is not pending, goes on to do so. -/
theorem SlotGrows.follows {e : Option Entry} {n : Word} {x y : Slot} (h : SlotGrows e n x y)
    (hx : x.pending = false → x.runtime.map (fun r => (r.owner, r.terms)) = e.map fun f => (f.input, f.terms)) :
    y.pending = false → y.runtime.map (fun r => (r.owner, r.terms)) = e.map fun f => (f.input, f.terms) := by
  induction h with
  | refl => exact hx
  | reconcile x => exact fun _ => Slot.reconcile_follows x e n
  | runtime h owner terms _ =>
    intro hp
    have := hx hp
    rw [h] at this
    rw [← this]
    simp [owner, terms]
  | trans _ _ ih1 ih2 => exact ih2 (ih1 hx)

/-- An owned slot that is not pending stays owned where an entry names it. -/
theorem SlotGrows.owned {e : Option Entry} {n : Word} {x y : Slot} (h : SlotGrows e n x y) (he : e.isSome = true)
    (hx : x.runtime.isSome = true) : y.runtime.isSome = true := by
  induction h with
  | refl => exact hx
  | reconcile x =>
    have := congrArg Option.isSome (Slot.reconcile_follows x e n)
    simpa [he] using this
  | runtime => rfl
  | trans _ _ ih1 ih2 => exact ih2 (ih1 hx)

/-- A fresh window is well formed (R96). -/
theorem Window.fresh_wf (n : Word) {d : WindowDef} (h : d.InRange) : (Window.fresh n d).wf := by
  refine ⟨?_, by simp [Window.fresh]⟩
  cases d with
  | count k => exact ⟨h.1, h.2, h.1⟩
  | epoch k => exact ⟨h.1, h.2, Nat.zero_le _⟩

/-- A well formed window's definition is in range. -/
theorem Window.wf_inRange {w : Window} (h : w.wf) : w.definition.InRange := by
  have h1 := h.1
  cases hd : w.definition with
  | count k => rw [hd] at h1; exact ⟨h1.1, h1.2.1⟩
  | epoch k => rw [hd] at h1; exact ⟨h1.1, h1.2.1⟩

/-- A runtime whose window is the fresh one of its terms fits (R96). -/
theorem Runtime.fits_of_fresh {r : Runtime} {n : Word} (hw : r.window = r.terms.window.map (Window.fresh n))
    (hr : ∀ d, r.terms.window = some d → d.InRange) : r.Fits := by
  constructor
  · rw [hw]; cases r.terms.window <;> rfl
  · intro w h
    rw [hw] at h
    cases hd : r.terms.window with
    | none => rw [hd] at h; exact absurd h (by simp)
    | some d =>
      rw [hd] at h
      obtain rfl : _ = w := Option.some.inj h
      exact Window.fresh_wf n (hr d hd)

/-- The terms of a runtime that fits are in range where its window stands. -/
theorem Runtime.Fits.inRange {r : Runtime} (h : r.Fits) : ∀ d, r.terms.window = some d → d.InRange := by
  intro d hd
  rw [← h.1] at hd
  cases hw : r.window with
  | none => rw [hw] at hd; exact absurd hd (by simp)
  | some w =>
    rw [hw] at hd
    obtain rfl : _ = d := Option.some.inj hd
    exact Window.wf_inRange (h.2 w hw)

/-- A closing with its fresh window keeps the fit (R96, R100). -/
theorem Runtime.closeAndReopen_fits {r : Runtime} (k : ClosingCause) (n : Word) (h : r.Fits) :
    (r.closeAndReopen k n).value.Fits := by
  apply Runtime.fits_of_fresh (n := n)
  · simp
  · simpa using h.inRange

/-- Every runtime of the slot fits once the entry's window is in range, if it did before. -/
theorem SlotGrows.fits {e : Option Entry} {n : Word} {x y : Slot} (h : SlotGrows e n x y)
    (he : ∀ f, e = some f → ∀ d, f.window = some d → d.InRange) (hx : ∀ r, x.runtime = some r → r.Fits) :
    ∀ r, y.runtime = some r → r.Fits := by
  have reset : ∀ f, e = some f → (Runtime.reset f n).Fits := fun f hf =>
    Runtime.fits_of_fresh (n := n) rfl (he f hf)
  induction h with
  | refl => exact hx
  | reconcile x =>
    intro r hr
    obtain ⟨rt, p⟩ := x
    cases rt with
    | none =>
      cases e with
      | none => exact absurd hr (by simp [Slot.reconcile, Slot.reset])
      | some f =>
        obtain rfl : Runtime.reset f n = r := Option.some.inj hr
        exact reset f rfl
    | some q =>
      cases e with
      | none => exact absurd hr (by simp [Slot.reconcile, Slot.reset])
      | some f =>
        unfold Slot.reconcile at hr
        dsimp only at hr
        split at hr
        · obtain rfl : (q.continueUnder f n).value = r := Option.some.inj hr
          unfold Runtime.continueUnder
          dsimp only
          split
          · next hw =>
            have hq := hx q rfl
            exact ⟨hq.1.trans hw, hq.2⟩
          · exact Runtime.fits_of_fresh (n := n) rfl (he f rfl)
        · obtain rfl : Runtime.reset f n = r := Option.some.inj hr
          exact reset f rfl
  | runtime h _ _ fits =>
    intro r hr
    obtain rfl : _ = r := Option.some.inj hr
    exact fits (hx _ h)
  | trans _ _ ih1 ih2 => exact ih2 (ih1 hx)

/-! ### Work on slots, over the whole state -/

/-- The work on slots: slots grow, summaries join the Summary Queue within its capacity, nothing else changes. -/
structure SlotWork (s t : State) : Prop where
  frame : t = { s with slots := t.slots, summaryQueue := t.summaryQueue }
  grows : ∀ i, SlotGrows (s.ownerEntry i) s.epochCount (s.slot i) (t.slot i)
  room : s.summaryQueue.length ≤ 64 → t.summaryQueue.length ≤ 64

theorem SlotWork.refl (s : State) : SlotWork s s := ⟨rfl, fun _ => .refl _, id⟩

theorem SlotWork.ownerEntry {s t : State} (h : SlotWork s t) (i : SlotId) : t.ownerEntry i = s.ownerEntry i := by
  rw [h.frame]; rfl

theorem SlotWork.epochCount {s t : State} (h : SlotWork s t) : t.epochCount = s.epochCount := by rw [h.frame]

theorem SlotWork.trans {s t u : State} (h : SlotWork s t) (k : SlotWork t u) : SlotWork s u where
  frame := by rw [k.frame]; rw [h.frame]
  grows := fun i => (h.grows i).trans (by
    have := k.grows i
    rwa [h.ownerEntry, h.epochCount] at this)
  room := fun hs => k.room (h.room hs)

/-- One slot that grows, with at most the summary that had room. -/
theorem SlotTouched.work {s t : State} {i : SlotId} {x : Slot} {q : Option Summary} (h : SlotTouched s i x q t)
    (hx : SlotGrows (s.ownerEntry i) s.epochCount (s.slot i) x) : SlotWork s t where
  frame := by rw [h.eq]
  grows := fun j => by
    by_cases hj : j = i
    · subst hj; rw [h.slot_same]; exact hx
    · rw [h.slot_other hj]; exact .refl _
  room := h.summary_le

/-- A reconciliation on demand is work on slots (R93). -/
theorem State.reconcileSlot_work {s t : State} {i : SlotId} (h : s.reconcileSlot i = some t) : SlotWork s t := by
  rcases State.reconcileSlot_touched h with ⟨_, rfl⟩ | ⟨_, ht⟩
  · exact .refl _
  · exact ht.work (.reconcile _)

/-- A closing that answers is work on slots (R100). -/
theorem State.closeSlotWindow_work {s t : State} {i : SlotId} {r r' : Runtime} {k : ClosingCause}
    (h : s.closeSlotWindow i r' k = some t) (hr : (s.slot i).runtime = some r) (owner : r'.owner = r.owner)
    (terms : r'.terms = r.terms) (fits : r.Fits → ∀ d, r'.terms.window = some d → d.InRange) : SlotWork s t := by
  refine (State.closeSlotWindow_touched h).work (.runtime hr (by simpa using owner) (by simpa using terms) fun hf => ?_)
  exact Runtime.fits_of_fresh (n := s.epochCount) (by simp) (by simpa using fits hf)

/-- The closing of a due window is work on slots (R107). -/
theorem State.closeDue_work {s t : State} {i : SlotId} (h : s.closeDue i = some t) : SlotWork s t := by
  rcases State.closeDue_touched h with rfl | ⟨r, w, hr, hw, _, ht⟩
  · exact .refl _
  · exact ht.work (.runtime hr (by simp) (by simp) fun hf => Runtime.closeAndReopen_fits _ _ hf)

/-- A new runtime of the same owner and terms is work on slots. -/
theorem State.putRuntime_work {s : State} {i : SlotId} {r r' : Runtime} (hr : (s.slot i).runtime = some r)
    (owner : r'.owner = r.owner) (terms : r'.terms = r.terms) (fits : r.Fits → r'.Fits) : SlotWork s (s.putRuntime i r') where
  frame := rfl
  grows := fun j => by
    by_cases hj : j = i
    · subst hj; rw [State.slot_putRuntime_same]; exact .runtime hr owner terms fits
    · rw [State.slot_putRuntime_other _ _ hj]; exact .refl _
  room := id

/-- A runtime whose window keeps its definition, count and extremes fits as before. -/
theorem Runtime.Fits.collect {r : Runtime} (f : FaultSet) (h : r.Fits) : (r.collect f).Fits := by
  obtain ⟨h1, h2⟩ := h
  constructor
  · show (r.window.map _).map _ = r.terms.window
    rw [← h1, Option.map_map]; rfl
  · intro w hw
    have hw : (r.window.map fun w => { w with faults := w.faults.union f }) = some w := hw
    cases hr : r.window with
    | none => rw [hr] at hw; exact absurd hw (by simp)
    | some v =>
      rw [hr] at hw
      obtain rfl : _ = w := Option.some.inj hw
      exact ⟨(h2 v hr).1, (h2 v hr).2⟩

/-- Counting keeps a window's definition. -/
@[simp] theorem Window.count_definition (w : Window) (y : Word) (m : Nat) : (w.count y m).definition = w.definition := by
  unfold Window.count; split <;> rfl

/-- A counting that does not complete the window keeps it well formed (R97, R99). -/
theorem Window.count_wf {w : Window} (y : Word) (m : Nat) (h : w.wf) (hc : w.completes = false) : (w.count y m).wf := by
  obtain ⟨h1, h2⟩ := h
  unfold Window.count
  split
  · exact ⟨h1, h2⟩
  · next ha =>
    refine ⟨?_, by simp⟩
    dsimp only
    unfold Window.completes at hc
    unfold Window.atCapacity at ha
    cases hd : w.definition with
    | count n => rw [hd] at h1 hc; dsimp only at *; simp at hc; omega
    | epoch n => rw [hd] at h1 ha; dsimp only at *; simp at ha; omega

/-- The counting of a reading is work on slots (R73, R74). -/
theorem State.countReading_work {s t : State} {i : SlotId} {r : Runtime} {y : Word} {m : Nat}
    (h : s.countReading i r y m = some t) (hr : (s.slot i).runtime = some r) : SlotWork s t := by
  unfold State.countReading at h
  dsimp only at h
  cases hw : r.window with
  | none =>
    rw [hw] at h
    obtain rfl := Option.some.inj h
    exact State.putRuntime_work hr rfl rfl fun hf => ⟨by simpa [hw] using hf.1, fun w h => absurd h (by simp)⟩
  | some w =>
    rw [hw] at h
    dsimp only at h
    split at h
    · exact State.closeSlotWindow_work h hr rfl rfl fun hf => hf.inRange
    · next hc =>
      obtain rfl := Option.some.inj h
      refine State.putRuntime_work hr rfl rfl fun hf => ⟨?_, ?_⟩
      · rw [← hf.1, hw]; simp
      · intro v hv
        obtain rfl : _ = v := Option.some.inj hv
        exact Window.count_wf y m (hf.2 w hw) (by simpa using hc)

/-! ### Notices -/

/-- Notices handed over: the Notice Queue and its two counters change, within capacity, numbered without a gap, at most one LINK ERROR. -/
structure NoticeWork (s t : State) : Prop where
  frame : t = { s with noticeQueue := t.noticeQueue, noticeSequence := t.noticeSequence, noticeLost := t.noticeLost }
  room : s.noticeQueue.length ≤ 32 → t.noticeQueue.length ≤ 32
  numbered : NoticesNumbered s → NoticesNumbered t
  oneLinkError : OneLinkError s → OneLinkError t

theorem NoticeWork.refl (s : State) : NoticeWork s s := ⟨rfl, id, id, id⟩

/-- A notice after the last, numbered next and with the lost count, keeps the numbering (R157). -/
theorem noticesChained_append {l : List Notice} {next lost : Half} (n : Notice) (h : noticesChained l next lost)
    (hs : n.sequence = next) (hl : n.lost = lost) : noticesChained (l ++ [n]) (next + 1) 0 := by
  have key : (0 : Half) = next + 1 - n.sequence - 1 := by rw [hs, BitVec.add_comm, BitVec.add_sub_cancel, BitVec.sub_self]; rfl
  induction l with
  | nil => exact key
  | cons a l ih =>
    cases l with
    | nil =>
      refine ⟨?_, key⟩
      rw [hs, hl]; exact h
    | cons b l => exact ⟨h.1, ih h.2⟩

/-- A lost notice takes the next number and is counted (R157). -/
theorem noticesChained_lost {l : List Notice} {next lost : Half} (h : noticesChained l next lost) :
    noticesChained l (next + 1) (lost + 1) := by
  induction l with
  | nil => trivial
  | cons a l ih =>
    cases l with
    | nil =>
      show lost + 1 = next + 1 - a.sequence - 1
      have : lost = next - a.sequence - 1 := h
      rw [this]
      apply BitVec.eq_of_toNat_eq
      simp only [BitVec.toNat_add, BitVec.toNat_sub]
      have := a.sequence.isLt
      simp
      omega
    | cons b l => exact ⟨h.1, ih h.2⟩

/-- The numbering reads only each notice's number and lost count (R158). -/
theorem noticesChained_map {l : List Notice} {next lost : Half} (f : Notice → Notice)
    (hf : ∀ n, (f n).sequence = n.sequence ∧ (f n).lost = n.lost) (h : noticesChained l next lost) :
    noticesChained (l.map f) next lost := by
  induction l with
  | nil => trivial
  | cons a l ih =>
    cases l with
    | nil => show lost = next - (f a).sequence - 1; rw [(hf a).1]; exact h
    | cons b l =>
      refine ⟨?_, ih h.2⟩
      rw [(hf b).2, (hf b).1, (hf a).1]; exact h.1

/-- A notice handed over is work on notices, unless it would be a second LINK ERROR (R157, R160). -/
theorem State.handNotice_work (s : State) (b : NoticeBody)
    (hb : b.isLinkError = false ∨ s.noticeQueue.countP (fun n => n.body.isLinkError) = 0) : NoticeWork s (s.handNotice b) := by
  by_cases h : s.noticeQueue.length < 32
  · rw [State.handNotice_room b h]
    refine ⟨rfl, fun _ => by simp; omega, fun hn => ?_, fun ho => ?_⟩
    · exact noticesChained_append _ hn rfl rfl
    · show List.countP _ (_ ++ _) ≤ 1
      rw [List.countP_append]
      rcases hb with hb | hb
      · have : List.countP (fun n : Notice => n.body.isLinkError) [⟨s.noticeSequence, s.noticeLost, s.strap, b⟩] = 0 := by
          simp [hb]
        rw [this]; exact ho
      · rw [hb, Nat.zero_add]; exact List.countP_le_length
  · by_cases hl : s.noticeLost = BitVec.allOnes 16
    · rw [State.handNotice_saturated b (by omega) hl]; exact .refl s
    · rw [State.handNotice_lost b (by omega) hl]
      exact ⟨rfl, id, noticesChained_lost, id⟩

/-- A bad cell's report is work on notices, beside the counter (R160, R170). -/
theorem State.badCell_work (s : State) (reason : LinkReason) :
    NoticeWork { s with badCells := satInc s.badCells } (s.badCell reason) := by
  show NoticeWork _ (State.reportBadCell { s with badCells := satInc s.badCells } reason)
  generalize ({ s with badCells := satInc s.badCells } : State) = u
  unfold State.reportBadCell
  split
  · split
    · refine ⟨rfl, fun h => by simpa using h, fun h => noticesChained_map _ (fun n => ⟨rfl, rfl⟩) h, fun h => ?_⟩
      show List.countP _ (List.map _ _) ≤ 1
      rw [List.countP_map]
      have : ((fun n : Notice => n.body.isLinkError) ∘ fun n => { n with body := NoticeBody.coalesce reason n.body }) =
          fun n : Notice => n.body.isLinkError := by
        funext n
        show (NoticeBody.coalesce reason n.body).isLinkError = n.body.isLinkError
        cases n.body <;> rfl
      rw [this]; exact h
    · next h =>
      apply State.handNotice_work
      right
      rw [List.countP_eq_zero]
      simpa using h
  · exact .refl _

/-! ### The commands on slots -/

/-- A slot command's steps 2 and 3: it waits with or without the claim, or runs on a state whose slot is ready (R145). -/
theorem withSlot_work {s : State} {cell : Cell} {i : SlotId} (run : State → State) :
    (s.claimedByOther .command i = true ∧ withSlot s cell i run = waitAt s cell i false) ∨
      (s.claimedByOther .command i = false ∧ s.reconcileSlot i = none ∧ withSlot s cell i run = waitAt s cell i true) ∨
      ∃ t, s.claimedByOther .command i = false ∧ SlotWork s t ∧ (t.slot i).pending = false ∧ withSlot s cell i run = run t := by
  unfold withSlot
  cases hc : s.claimedByOther .command i with
  | true => exact .inl ⟨rfl, by simp⟩
  | false =>
    right
    cases hr : s.reconcileSlot i with
    | none => exact .inl ⟨rfl, rfl, by simp⟩
    | some t => exact .inr ⟨t, rfl, State.reconcileSlot_work hr, State.reconcileSlot_pending hr, by simp⟩

end Sys2Proof.Machine
end

