-- ==== Sys2Proof/Laws/Commands.lean ====
section
/-! SUPPORT. Everything a management command can do, said once: it is not taken, or it is answered, or it waits at a slot; and what each shared
operation of the commands changes. -/

namespace Sys2Proof.Machine

/-! ### Taking and answering -/

/-- The state in which a command taken from the head of the queue is executed (R137). -/
def commandTaken (s : State) (cell : Cell) (rest : List Cell) : State :=
  { s with commandQueue := rest, commandUnit := .executing cell }

/-- A command that may be taken is executed (R137). -/
theorem withCommand_ready {s : State} {cell : Cell} {rest : List Cell} {code : Byte} (h : CommandReady s cell rest code)
    (isMine : Byte → Bool) (run : Cell → State → State) (hm : isMine code = true) :
    withCommand s isMine run = .next (run cell (commandTaken s cell rest)) := by
  unfold withCommand
  rw [h.queue]
  dsimp only
  rw [if_pos]
  · rfl
  · refine ⟨?_, by rw [h.isCode]; exact hm⟩
    unfold mayTakeCommand
    rw [h.idle]
    simpa using h.place

/-- A command row answers a next state: the same where the command is not taken, else what its execution leaves (R137). -/
theorem withCommand_cases (s : State) (isMine : Byte → Bool) (run : Cell → State → State) :
    withCommand s isMine run = .next s ∨
      ∃ cell rest, CommandReady s cell rest (commandCode cell) ∧ isMine (commandCode cell) = true ∧
        withCommand s isMine run = .next (run cell (commandTaken s cell rest)) := by
  unfold withCommand
  cases hq : s.commandQueue with
  | nil => exact .inl rfl
  | cons cell rest =>
    dsimp only
    split
    · next h =>
      refine .inr ⟨cell, rest, ⟨?_, ?_, hq, rfl⟩, h.2, rfl⟩
      · have := h.1; unfold mayTakeCommand at this; simp at this; exact this.1
      · have := h.1; unfold mayTakeCommand at this; simp at this; exact this.2
    · exact .inl rfl

/-- The answer of a taken command that changed nothing else (R138). -/
theorem answer_taken {s : State} {cell : Cell} {rest : List Cell} {code : Byte} (h : CommandReady s cell rest code)
    (status : Status) (contents : List Byte) :
    answer (commandTaken s cell rest) cell status contents = answered s cell rest status contents := by
  have := h.idle
  cases s
  dsimp only at this
  subst this
  rfl

/-- A response added to the Response Queue commutes with a notice handed over. -/
theorem answer_handNotice (s : State) (b : NoticeBody) (cell : Cell) (status : Status) (contents : List Byte) :
    answer (s.handNotice b) cell status contents = (answer s cell status contents).handNotice b := by
  unfold State.handNotice State.noticeFree
  have h1 : (answer s cell status contents).noticeQueue = s.noticeQueue := rfl
  have h2 : (answer s cell status contents).noticeLost = s.noticeLost := rfl
  rw [h1, h2]
  by_cases h : decide (s.noticeQueue.length < Config.noticeCapacity) = true
  · rw [if_pos h, if_pos h]; rfl
  · rw [if_neg h, if_neg h]
    by_cases h : s.noticeLost = BitVec.allOnes 16
    · rw [if_pos h, if_pos h]
    · rw [if_neg h, if_neg h]; rfl

/-- Where no verify is in flight there is nothing to cancel (R125). -/
theorem cancelVerify_quiet {s : State} (cause : CancelCause) (cell : Cell) (h : s.tables.shadowState.isVerifying = false) :
    cancelVerify s cause cell = s := by
  unfold cancelVerify
  rw [h, if_neg Bool.false_ne_true]

/-- A verify in flight is cancelled with its notice (R125). -/
theorem cancelVerify_verifying {s : State} (cause : CancelCause) (cell : Cell) (h : s.tables.shadowState.isVerifying = true) :
    cancelVerify s cause cell =
      s.handNotice (.commitCancelled cause (commandCode cell) (commandTag cell) s.tables.generation) := by
  unfold cancelVerify
  rw [if_pos h]

/-! ### The Table Store's parts -/

@[simp] theorem TableStore.putShadow_activeBank (t : TableStore) (b : Bank) : (t.putShadow b).activeBank = t.activeBank := by
  obtain ⟨x, y, k, g, st⟩ := t; cases k <;> rfl

@[simp] theorem TableStore.putShadow_shadowBank (t : TableStore) (b : Bank) : (t.putShadow b).shadowBank = b := by
  obtain ⟨x, y, k, g, st⟩ := t; cases k <;> rfl

@[simp] theorem TableStore.putShadow_active (t : TableStore) (b : Bank) : (t.putShadow b).active = t.active := by
  obtain ⟨x, y, k, g, st⟩ := t; cases k <;> rfl

@[simp] theorem TableStore.putShadow_generation (t : TableStore) (b : Bank) : (t.putShadow b).generation = t.generation := by
  obtain ⟨x, y, k, g, st⟩ := t; cases k <;> rfl

@[simp] theorem TableStore.putShadow_shadowState (t : TableStore) (b : Bank) : (t.putShadow b).shadowState = t.shadowState := by
  obtain ⟨x, y, k, g, st⟩ := t; cases k <;> rfl

/-- Both banks are well formed exactly when the active and the shadow one are. -/
theorem banks_wf_iff (t : TableStore) : (t.bankA.wf ∧ t.bankB.wf) ↔ (t.activeBank.wf ∧ t.shadowBank.wf) := by
  obtain ⟨x, y, k, g, st⟩ := t
  cases k
  · exact Iff.rfl
  · exact and_comm

/-- What a command may do to the Table Store: the active bank, the roles and the generation stay, the shadow bank stays well formed, and only
an untouched Table Store has its swap still pending (R116, R118). -/
structure TableChange (t u : TableStore) : Prop where
  activeBank : u.activeBank = t.activeBank
  active : u.active = t.active
  generation : u.generation = t.generation
  shadow : t.shadowBank.wf → u.shadowBank.wf
  pending : u.shadowState = .swapPending → u = t

theorem TableChange.refl (t : TableStore) : TableChange t t := ⟨rfl, rfl, rfl, id, fun _ => rfl⟩

/-- The shadow state set to anything but swap pending. -/
theorem TableChange.state (t : TableStore) {z : ShadowState} (hz : z ≠ .swapPending) : TableChange t { t with shadowState := z } := by
  obtain ⟨x, y, k, g, st⟩ := t
  cases k <;> exact ⟨rfl, rfl, rfl, id, fun h => absurd h hz⟩

/-- The shadow bank replaced, the shadow state EDITABLE. -/
theorem TableChange.edit (t : TableStore) {b : Bank} (hb : t.shadowBank.wf → b.wf) :
    TableChange t { t.putShadow b with shadowState := .editable } := by
  obtain ⟨x, y, c, g, st⟩ := t
  cases c <;> exact ⟨rfl, rfl, rfl, hb, fun h => absurd h (by simp)⟩

/-! ### What an executed command leaves -/

/-- What the execution of a command leaves of the state `s` in which it executes; `held` says which slots it had claimed before. -/
inductive CommandLeaves (held : SlotId → Prop) (s : State) : State → Prop where
  | answered {u v : State} {tables : TableStore} {mode : Mode} {free : Nat} {r : Response} {unit : CommandUnit} (work : SlotWork s u)
      (notices : NoticeWork u v) (change : TableChange s.tables tables) (limit : s.mode.starvationLimit ≠ 0 → mode.starvationLimit ≠ 0)
      (next : unit = .idle ∨ ∃ broadcast, unit = .resetRequested broadcast) :
      CommandLeaves held s
        { v with
          tables := tables, mode := mode, freeCount := free, responseQueue := s.responseQueue ++ [r], commandUnit := unit }
  | waits {u : State} {cell : Cell} {i : SlotId} {claim : Bool} (work : SlotWork s u)
      (free : claim = true → s.claimedByOther .command i = false ∨ held i) :
      CommandLeaves held s { u with commandUnit := .waiting ⟨cell, i, claim⟩ }

/-- An answer after work on slots. -/
theorem answer_leaves {held : SlotId → Prop} {s u : State} (work : SlotWork s u) (cell : Cell) (status : Status) (contents : List Byte) :
    CommandLeaves held s (answer u cell status contents) := by
  have h := CommandLeaves.answered (held := held) (free := u.freeCount) (r := responseTo u cell status contents) work (.refl u)
    (TableChange.refl s.tables) (id : s.mode.starvationLimit ≠ 0 → _) (.inl rfl)
  have e : answer u cell status contents =
      { u with
        tables := s.tables, mode := s.mode, freeCount := u.freeCount,
        responseQueue := s.responseQueue ++ [responseTo u cell status contents], commandUnit := .idle } := by
    have h1 : u.tables = s.tables := by rw [work.frame]
    have h2 : u.mode = s.mode := by rw [work.frame]
    have h3 : u.responseQueue = s.responseQueue := by rw [work.frame]
    rw [← h1, ← h2, ← h3]; rfl
  rw [e]; exact h

/-- A refusal. -/
theorem refuse_leaves {held : SlotId → Prop} {s u : State} (work : SlotWork s u) (cell : Cell) (status : Status) :
    CommandLeaves held s (refuse u cell status) := answer_leaves work cell status []

/-- A cancellation is work on notices (R125). -/
theorem cancelVerify_work (s : State) (cause : CancelCause) (cell : Cell) : NoticeWork s (cancelVerify s cause cell) := by
  unfold cancelVerify
  split
  · exact State.handNotice_work s _ (.inl rfl)
  · exact .refl s

/-- A change of the Table Store with the notices of a cancelled verify, answered. -/
theorem changed_leaves {held : SlotId → Prop} {s v : State} {tables : TableStore} (notices : NoticeWork s v)
    (change : TableChange s.tables tables) (cell : Cell) (status : Status) (contents : List Byte) :
    CommandLeaves held s (answer { v with tables := tables } cell status contents) := by
  have h := CommandLeaves.answered (held := held) (free := v.freeCount)
    (r := responseTo { v with tables := tables } cell status contents) (.refl s) notices change
    (id : s.mode.starvationLimit ≠ 0 → _) (.inl rfl)
  have e : answer { v with tables := tables } cell status contents =
      { v with
        tables := tables, mode := s.mode, freeCount := v.freeCount,
        responseQueue := s.responseQueue ++ [responseTo { v with tables := tables } cell status contents],
        commandUnit := .idle } := by
    have h2 : v.mode = s.mode := by rw [notices.frame]
    have h3 : v.responseQueue = s.responseQueue := by rw [notices.frame]
    rw [← h2, ← h3]; rfl
  rw [e]; exact h

/-- A notice handed over with the Table Store replaced around it. -/
theorem handNotice_tables (s : State) (x : TableStore) (b : NoticeBody) :
    State.handNotice { s with tables := x } b = { s.handNotice b with tables := x } := by
  unfold State.handNotice State.noticeFree
  by_cases h : decide (s.noticeQueue.length < Config.noticeCapacity) = true
  · rw [if_pos h, if_pos h]
  · rw [if_neg h, if_neg h]
    by_cases h : s.noticeLost = BitVec.allOnes 16
    · rw [if_pos h, if_pos h]
    · rw [if_neg h, if_neg h]

/-- An applied shadow write, answered (R118). -/
theorem applyWrite_leaves {held : SlotId → Prop} {s : State} {b : Bank} (hb : s.tables.shadowBank.wf → b.wf) (cell : Cell)
    (status : Status) (contents : List Byte) : CommandLeaves held s (answer (applyWrite s cell b) cell status contents) := by
  have change := TableChange.edit s.tables hb
  unfold applyWrite setShadowState
  cases hv : (s.tables.putShadow b).shadowState.isVerifying with
  | false =>
    rw [cancelVerify_quiet _ _ hv]
    exact changed_leaves (.refl s) change cell status contents
  | true =>
    rw [cancelVerify_verifying _ _ hv, handNotice_tables]
    exact changed_leaves (State.handNotice_work s _ (.inl rfl)) change cell status contents

/-- A shadow write: BUSY, or what its operand test and edit leave (R118). -/
theorem shadowWrite_leaves {held : SlotId → Prop} {s : State} {cell : Cell} {run : State → State}
    (h : CommandLeaves held s (run s)) : CommandLeaves held s (shadowWrite s cell run) := by
  unfold shadowWrite
  split
  · exact refuse_leaves (.refl s) cell .busy
  · exact h

/-- A slot command from its claim on (R145). -/
theorem withSlot_leaves {held : SlotId → Prop} {s : State} {cell : Cell} {i : SlotId} {run : State → State}
    (h : ∀ t, s.claimedByOther .command i = false → SlotWork s t → CommandLeaves held s (run t)) :
    CommandLeaves held s (withSlot s cell i run) := by
  rcases withSlot_work (s := s) (cell := cell) (i := i) run with ⟨_, e⟩ | ⟨hc, _, e⟩ | ⟨t, hc, w, _, e⟩
  · rw [e]; exact .waits (.refl s) fun x => absurd x (by simp)
  · rw [e]; exact .waits (.refl s) fun _ => .inl hc
  · rw [e]; exact h t hc w

/-- With its slot ready a slot command runs at once (R145). -/
theorem withSlot_ready {s : State} {cell : Cell} {i : SlotId} {run : State → State} (h : SlotReady s .command i) :
    withSlot s cell i run = run s := by
  unfold withSlot; rw [h.unclaimed, State.reconcileSlot_of_not_pending h.reconciled]; rfl

/-- A slot stays ready for the Command Unit when it takes the command. -/
theorem slotReady_taken {s : State} {cell : Cell} {rest : List Cell} {i : SlotId} (h : SlotReady s .command i) :
    SlotReady (commandTaken s cell rest) .command i :=
  ⟨(claimedByOther_command_congr i rfl rfl rfl).trans h.unclaimed, h.reconciled⟩

/-- A key within 0..511 names its slot (R145). -/
theorem slotOfHalf_some {k : Half} {i : SlotId} (h : i.val = k.toNat) : slotOfHalf k = some i := by
  unfold slotOfHalf; rw [dif_pos (by have := i.isLt; omega)]; congr 1; exact Fin.ext h.symm

/-- A key above 511 names no slot (R145). -/
theorem slotOfHalf_none {k : Half} (h : 512 ≤ k.toNat) : slotOfHalf k = none := by
  unfold slotOfHalf; rw [dif_neg (by omega)]

/-- The slot a key names is reported as the key (R148). -/
theorem slotHalf_key {k : Half} {i : SlotId} (h : i.val = k.toNat) : slotHalf i = k := by
  unfold slotHalf; rw [h]; simp

/-- A clearing replaces its slot by the cleared one, an UNOWNED slot being clear already (R86). -/
theorem clearSlot_eq (s : State) (i : SlotId) : clearSlot s i = s.putSlot i (clearedSlot (s.slot i)) := by
  unfold clearSlot clearedSlot
  cases h : (s.slot i).runtime with
  | none =>
    dsimp only [Option.map]
    have : (⟨none, (s.slot i).pending⟩ : Slot) = s.slot i := by rw [← h]
    rw [this, State.putSlot_slot]
  | some r => rfl

/-! ### Each command -/

theorem runSetMode_leaves (held : SlotId → Prop) (cell : Cell) (s : State) : CommandLeaves held s (runSetMode cell s) := by
  unfold runSetMode
  cases hm : modeOperands cell with
  | none => exact refuse_leaves (.refl s) cell _
  | some m =>
    have hl : m.starvationLimit ≠ 0 := by
      unfold modeOperands at hm
      split at hm
      · split at hm
        · next hr =>
          obtain rfl := Option.some.inj hm
          intro h
          have := congrArg BitVec.toNat h
          simp only [BitVec.toNat_setWidth] at this
          have h0 : (0 : BitVec 4).toNat = 0 := rfl
          omega
        · exact absurd hm (by simp)
      · exact absurd hm (by simp)
    exact .answered (held := held) (v := s) (mode := m) (free := s.freeCount)
      (r := responseTo { s with mode := m } cell .done (modeBytes m)) (.refl s) (.refl s) (.refl s.tables) (fun _ => hl) (.inl rfl)

theorem runEntryInsert_leaves (held : SlotId → Prop) (cell : Cell) (s : State) : CommandLeaves held s (runEntryInsert cell s) := by
  unfold runEntryInsert
  apply shadowWrite_leaves
  dsimp only
  cases ho : insertOperands cell with
  | none => exact refuse_leaves (.refl s) cell _
  | some e =>
    dsimp only
    split
    · exact refuse_leaves (.refl s) cell _
    · next hf =>
      split
      · exact refuse_leaves (.refl s) cell _
      · next hl =>
        refine applyWrite_leaves (fun hb => ?_) cell _ _
        refine Bank.wf_directory hb (directoryWf_insert hb.1 (by simpa using hf) (by simpa using hl)) fun x hx => ?_
        rcases mem_insertEntry hx with rfl | hx
        exacts [insertOperands_wf ho, hb.2.1 x hx]

/-- An entry changed in place by an edit that keeps it in range. -/
theorem applyUpdate_leaves (held : SlotId → Prop) (cell : Cell) (s : State) {f : Entry → Entry} (hi : ∀ e, (f e).input = e.input)
    (hw : ∀ e : Entry, e.wf → (f e).wf) (status : Status) (contents : List Byte) :
    CommandLeaves held s
      (answer (applyDirectory s cell (updateEntry (commandKey cell) f s.tables.shadowBank.directory)) cell status contents) := by
  refine applyWrite_leaves (fun hb => ?_) cell _ _
  refine Bank.wf_directory hb (directoryWf_update hb.1 hi) fun x hx => ?_
  obtain ⟨y, hy, rfl⟩ := List.mem_map.1 hx
  split
  exacts [hw y (hb.2.1 y hy), hb.2.1 y hy]

theorem runEntryConvert_leaves (held : SlotId → Prop) (cell : Cell) (s : State) : CommandLeaves held s (runEntryConvert cell s) := by
  unfold runEntryConvert
  apply shadowWrite_leaves
  dsimp only
  cases ho : convertOperands cell with
  | none => exact refuse_leaves (.refl s) cell _
  | some c =>
    dsimp only
    split
    · exact refuse_leaves (.refl s) cell _
    · have h := convertOperands_wf ho
      exact applyUpdate_leaves held cell s (f := fun e => { e with conversion := c }) (fun _ => rfl)
        (fun e he => ⟨he.1, he.2.1, he.2.2.1, h.1, h.2⟩) _ _

theorem runEntryWindow_leaves (held : SlotId → Prop) (cell : Cell) (s : State) : CommandLeaves held s (runEntryWindow cell s) := by
  unfold runEntryWindow
  apply shadowWrite_leaves
  dsimp only
  cases ho : windowOperands cell with
  | none => exact refuse_leaves (.refl s) cell _
  | some c =>
    obtain ⟨w, p⟩ := c
    dsimp only
    split
    · exact refuse_leaves (.refl s) cell _
    · have h := windowOperands_wf ho
      exact applyUpdate_leaves held cell s (f := fun e => { e with window := w, divertPermitted := p }) (fun _ => rfl)
        (fun e he => ⟨he.1, h.1, h.2, he.2.2.2⟩) _ _

theorem runEntryRemove_leaves (held : SlotId → Prop) (cell : Cell) (s : State) : CommandLeaves held s (runEntryRemove cell s) := by
  unfold runEntryRemove
  apply shadowWrite_leaves
  dsimp only
  split
  · exact refuse_leaves (.refl s) cell _
  · refine applyWrite_leaves (fun hb => ?_) cell _ _
    exact Bank.wf_directory hb (directoryWf_remove _ hb.1) fun x hx => hb.2.1 x (List.mem_filter.1 hx).1

theorem runPoolWrite_leaves (held : SlotId → Prop) (cell : Cell) (s : State) : CommandLeaves held s (runPoolWrite cell s) := by
  unfold runPoolWrite
  apply shadowWrite_leaves
  cases ho : poolWriteOperands cell with
  | none => exact refuse_leaves (.refl s) cell _
  | some words =>
    dsimp only
    refine applyWrite_leaves
      (b := { s.tables.shadowBank with pool := Memory.writeList s.tables.shadowBank.pool (commandKey cell).toNat words }) (fun hb => ⟨hb.1, hb.2.1, ?_⟩) cell _ _
    exact Memory.wf_writeList words hb.2.2 (poolWriteOperands_fits ho)

theorem runEntryRead_leaves (held : SlotId → Prop) (cell : Cell) (s : State) : CommandLeaves held s (runEntryRead cell s) := by
  unfold runEntryRead
  split
  · exact refuse_leaves (.refl s) cell _
  · split
    · exact refuse_leaves (.refl s) cell _
    · dsimp only
      split
      · exact refuse_leaves (.refl s) cell _
      · split <;> exact answer_leaves (.refl s) cell _ _

theorem runPoolRead_leaves (held : SlotId → Prop) (cell : Cell) (s : State) : CommandLeaves held s (runPoolRead cell s) := by
  unfold runPoolRead
  split
  · exact refuse_leaves (.refl s) cell _
  · split
    · exact refuse_leaves (.refl s) cell _
    · exact answer_leaves (.refl s) cell _ _

theorem runCommit_leaves (held : SlotId → Prop) (cell : Cell) (s : State) : CommandLeaves held s (runCommit cell s) := by
  unfold runCommit
  split
  · exact .answered (held := held) (v := s) (mode := s.mode) (free := s.freeCount) (r := responseTo s cell .accepted []) (.refl s)
      (.refl s) (.state s.tables (by simp)) id (.inl rfl)
  · exact refuse_leaves (.refl s) cell _

theorem runAbandon_leaves (held : SlotId → Prop) (cell : Cell) (s : State) : CommandLeaves held s (runAbandon cell s) := by
  unfold runAbandon
  split
  · exact refuse_leaves (.refl s) cell _
  · unfold setShadowState
    have n := cancelVerify_work s .abandon cell
    have e : (cancelVerify s .abandon cell).tables = s.tables := by rw [n.frame]
    rw [e]
    exact changed_leaves n (.state s.tables (by simp)) cell _ _

theorem runResetPart_leaves (held : SlotId → Prop) (cell : Cell) (s : State) : CommandLeaves held s (runResetPart cell s) :=
  .answered (held := held) (v := s) (mode := s.mode) (free := s.freeCount) (r := responseTo s cell .accepted []) (.refl s) (.refl s)
    (.refl s.tables) id (.inr ⟨_, rfl⟩)

theorem slotReadAt_leaves (held : SlotId → Prop) (cell : Cell) (i : SlotId) (part : Part) (s : State) :
    CommandLeaves held s (slotReadAt cell i part s) := by
  apply withSlot_leaves
  intro t _ w
  unfold slotReadOutcome
  cases part with
  | b => exact answer_leaves w cell _ _
  | a =>
    dsimp only
    split
    · have h1 : t.tables = s.tables := by rw [w.frame]
      have h2 : t.mode = s.mode := by rw [w.frame]
      have h3 : t.responseQueue = s.responseQueue := by rw [w.frame]
      have h := CommandLeaves.answered (held := held) (free := t.freeCount + 1)
        (r := responseTo t cell .done (slotPartA (t.slot i) (Config.freeHalf t.freeCount))) w (.refl t) (TableChange.refl s.tables)
        (id : s.mode.starvationLimit ≠ 0 → _) (.inl rfl)
      rw [← h1, ← h2, ← h3] at h
      exact h
    · exact answer_leaves w cell _ _

/-- A clearing of one slot's record is work on slots (R86). -/
theorem clearSlot_work (s : State) (i : SlotId) : SlotWork s (clearSlot s i) := by
  unfold clearSlot
  cases hr : (s.slot i).runtime with
  | none => exact .refl s
  | some r => exact State.putRuntime_work hr rfl rfl id

theorem slotClearAt_leaves (held : SlotId → Prop) (cell : Cell) (i : SlotId) (s : State) :
    CommandLeaves held s (slotClearAt cell i s) := by
  apply withSlot_leaves
  intro t _ w
  exact answer_leaves (w.trans (clearSlot_work t i)) cell _ _

/-- Work on slots before a command's further steps. -/
theorem CommandLeaves.after {held : SlotId → Prop} {s u t : State} (work : SlotWork s u) (h : CommandLeaves held u t) :
    CommandLeaves held s t := by
  cases h with
  | answered w n c l x =>
    have h1 : u.tables = s.tables := by rw [work.frame]
    have h2 : u.mode = s.mode := by rw [work.frame]
    have h3 : u.responseQueue = s.responseQueue := by rw [work.frame]
    rw [h3]
    exact .answered (work.trans w) n (by rw [← h1]; exact c) (by rw [← h2]; exact l) x
  | @waits _ _ i _ w f =>
    refine .waits (work.trans w) fun x => ?_
    have : u.claimedByOther .command i = s.claimedByOther .command i := by rw [work.frame]; rfl
    rw [← this]
    exact f x

theorem clearFrom_leaves (held : SlotId → Prop) (cell : Cell) (n : Nat) (s : State) : CommandLeaves held s (clearFrom cell n s) := by
  induction n generalizing s with
  | zero => exact answer_leaves (.refl s) cell _ _
  | succ n ih =>
    unfold clearFrom
    apply withSlot_leaves
    intro t _ w
    exact .after (w.trans (clearSlot_work t _)) (ih _)

theorem armDivertAt_leaves (held : SlotId → Prop) (cell : Cell) (i : SlotId) (s : State) :
    CommandLeaves held s (armDivertAt cell i s) := by
  apply withSlot_leaves
  intro t _ w
  unfold armDivertOutcome
  cases hr : (t.slot i).runtime with
  | none => exact refuse_leaves w cell _
  | some r =>
    dsimp only
    split
    · exact answer_leaves (w.trans (State.putRuntime_work (r' := { r with armed := true }) hr rfl rfl id)) cell _ _
    · exact refuse_leaves w cell _

theorem flushWindowAt_leaves (held : SlotId → Prop) (cell : Cell) (i : SlotId) (s : State) :
    CommandLeaves held s (flushWindowAt cell i s) := by
  apply withSlot_leaves
  intro t hc w
  unfold flushOutcome
  cases hr : (t.slot i).runtime with
  | none => exact refuse_leaves w cell _
  | some r =>
    dsimp only
    split
    · exact refuse_leaves w cell _
    · split
      · exact .waits w fun _ => .inl hc
      · next hu => exact answer_leaves (w.trans (State.closeSlotWindow_work hu hr rfl rfl fun hf => hf.inRange)) cell _ _

theorem runSlotRead_leaves (held : SlotId → Prop) (cell : Cell) (s : State) : CommandLeaves held s (runSlotRead cell s) := by
  unfold runSlotRead
  split
  · exact slotReadAt_leaves held cell _ _ s
  · exact refuse_leaves (.refl s) cell _

theorem runSlotClear_leaves (held : SlotId → Prop) (cell : Cell) (s : State) : CommandLeaves held s (runSlotClear cell s) := by
  unfold runSlotClear
  split
  · exact refuse_leaves (.refl s) cell _
  · exact slotClearAt_leaves held cell _ s
  · exact clearFrom_leaves held cell _ s

theorem runArmDivert_leaves (held : SlotId → Prop) (cell : Cell) (s : State) : CommandLeaves held s (runArmDivert cell s) := by
  unfold runArmDivert
  split
  · exact refuse_leaves (.refl s) cell _
  · exact armDivertAt_leaves held cell _ s

theorem runFlushWindow_leaves (held : SlotId → Prop) (cell : Cell) (s : State) : CommandLeaves held s (runFlushWindow cell s) := by
  unfold runFlushWindow
  split
  · exact refuse_leaves (.refl s) cell _
  · exact flushWindowAt_leaves held cell _ s

/-- A resumed command (R141). -/
theorem resumeCommand_leaves (w : WaitingCommand) (s : State) :
    CommandLeaves (fun i => w.claim = true ∧ i = w.slot) s (resumeCommand w s) := by
  unfold resumeCommand
  split
  · split
    · exact clearFrom_leaves _ _ _ s
    · exact slotClearAt_leaves _ _ _ s
  · split
    · exact slotReadAt_leaves _ _ _ _ s
    · exact refuse_leaves (.refl s) _ _
  · exact armDivertAt_leaves _ _ _ s
  · exact flushWindowAt_leaves _ _ _ s
  · exact .waits (.refl s) fun h => .inr ⟨h, rfl⟩

/-- The seventeen commands and the undefined one: each row's executed command leaves one of the two ends (R137 to R149). -/
theorem commandRow_leaves {c : Instr} {s t : State} (ht : exec c s = .next t)
    (hc : c ∈ [Instr.identify, .readStatus, .setMode, .entryInsert, .entryConvert, .entryWindow, .entryRemove, .entryRead, .poolWrite,
      .poolRead, .commit, .abandon, .slotRead, .slotClear, .armDivert, .flushWindow, .resetPart, .badCommand]) :
    t = s ∨ ∃ cell rest, CommandReady s cell rest (commandCode cell) ∧ CommandLeaves (fun _ => False) (commandTaken s cell rest) t := by
  have key : ∀ (isMine : Byte → Bool) (run : Cell → State → State),
      (∀ cell s, CommandLeaves (fun _ => False) s (run cell s)) → withCommand s isMine run = .next t →
      t = s ∨ ∃ cell rest, CommandReady s cell rest (commandCode cell) ∧
        CommandLeaves (fun _ => False) (commandTaken s cell rest) t := by
    intro isMine run hrun h
    rcases withCommand_cases s isMine run with e | ⟨cell, rest, hr, _, e⟩
    · rw [e] at h
      exact .inl (Host.Outcome.next.inj h).symm
    · rw [e] at h
      obtain rfl := Host.Outcome.next.inj h
      exact .inr ⟨cell, rest, hr, hrun cell _⟩
  simp only [List.mem_cons, List.mem_nil_iff, or_false] at hc
  rcases hc with rfl | rfl | rfl | rfl | rfl | rfl | rfl | rfl | rfl | rfl | rfl | rfl | rfl | rfl | rfl | rfl | rfl | rfl
  · exact key _ runIdentify (fun c s => answer_leaves (.refl s) c _ _) ht
  · exact key _ runReadStatus (fun c s => answer_leaves (.refl s) c _ _) ht
  · exact key _ _ (runSetMode_leaves _) ht
  · exact key _ _ (runEntryInsert_leaves _) ht
  · exact key _ _ (runEntryConvert_leaves _) ht
  · exact key _ _ (runEntryWindow_leaves _) ht
  · exact key _ _ (runEntryRemove_leaves _) ht
  · exact key _ _ (runEntryRead_leaves _) ht
  · exact key _ _ (runPoolWrite_leaves _) ht
  · exact key _ _ (runPoolRead_leaves _) ht
  · exact key _ _ (runCommit_leaves _) ht
  · exact key _ _ (runAbandon_leaves _) ht
  · exact key _ _ (runSlotRead_leaves _) ht
  · exact key _ _ (runSlotClear_leaves _) ht
  · exact key _ _ (runArmDivert_leaves _) ht
  · exact key _ _ (runFlushWindow_leaves _) ht
  · exact key _ _ (runResetPart_leaves _) ht
  · exact key (fun code => (commandOfCode code).isNone) runBadCommand (fun c s => refuse_leaves (.refl s) c _) ht

end Sys2Proof.Machine
end

