-- ==== Sys2Proof/Laws/Operands.lean ====
section
/-! SUPPORT. What each operand decoder reads of a cell, in the cell's payload bytes: it answers exactly the operands that the cell says, and
nothing where the cell says none. -/

namespace Sys2Proof.Machine

/-- A decoder that answers exactly what is said answers nothing where nothing is said. -/
theorem none_of_iff {α : Type} {x : Option α} {spells : α → Prop} (h : ∀ a, x = some a ↔ spells a) (hn : ∀ a, ¬ spells a) : x = none :=
  Option.eq_none_iff_forall_ne_some.2 fun a ha => hn a ((h a).1 ha)

/-- A decoder that answers exactly what is said answers only where something is said. -/
theorem not_of_none {α : Type} {x : Option α} {spells : α → Prop} (h : ∀ a, x = some a ↔ spells a) (hn : x = none) (a : α) : ¬ spells a :=
  fun ha => Option.eq_none_iff_forall_ne_some.1 hn a ((h a).2 ha)

/-- A yes/no code (R176). -/
theorem boolOfCode_iff (b : Byte) (v : Bool) : boolOfCode b = some v ↔ (b, v) ∈ [((0 : Byte), false), (1, true)] := by
  unfold boolOfCode
  by_cases h0 : b = 0#8
  · subst h0; cases v <;> decide
  by_cases h1 : b = 1#8
  · subst h1; cases v <;> decide
  simp [h0, h1]

/-- An input form code (R176). -/
theorem inputFormOfCode_iff (b : Byte) (f : InputForm) :
    inputFormOfCode b = some f ↔ (b, f) ∈ [((0 : Byte), InputForm.int16), (1, .int24), (2, .uint16), (3, .float)] := by
  unfold inputFormOfCode
  by_cases h0 : b = 0#8
  · subst h0; cases f <;> decide
  by_cases h1 : b = 1#8
  · subst h1; cases f <;> decide
  by_cases h2 : b = 2#8
  · subst h2; cases f <;> decide
  by_cases h3 : b = 3#8
  · subst h3; cases f <;> decide
  simp [h0, h1, h2, h3]

/-- A bank selector code (R176). -/
theorem selectorOfCode_iff (b : Byte) (v : Selector) :
    selectorOfCode b = some v ↔ (b, v) ∈ [((0 : Byte), Selector.active), (1, .shadow)] := by
  unfold selectorOfCode
  by_cases h0 : b = 0#8
  · subst h0; cases v <;> decide
  by_cases h1 : b = 1#8
  · subst h1; cases v <;> decide
  simp [h0, h1]

/-- A part selector code (R176). -/
theorem partOfCode_iff (b : Byte) (v : Part) : partOfCode b = some v ↔ (b, v) ∈ [((0 : Byte), Part.a), (1, .b)] := by
  unfold partOfCode
  by_cases h0 : b = 0#8
  · subst h0; cases v <;> decide
  by_cases h1 : b = 1#8
  · subst h1; cases v <;> decide
  simp [h0, h1]

/-- An output form with its scale (R10). -/
theorem outputFormOfCode_iff (form scale : Byte) (f : OutputForm) :
    outputFormOfCode form scale = some f ↔
      (form = 0 ∧ f = .float) ∨ (form = 1 ∧ -4 ≤ scale.toInt ∧ scale.toInt ≤ 4 ∧ f = .integer scale.toInt) := by
  unfold outputFormOfCode
  by_cases h0 : form = 0#8
  · subst h0; simp [eq_comm]
  by_cases h1 : form = 1#8
  · subst h1
    by_cases hs : -4 ≤ scale.toInt ∧ scale.toInt ≤ 4
    · simp [hs, eq_comm]
    · rw [if_neg (by decide), if_pos (by decide), if_neg hs]
      simp only [reduceCtorEq, false_iff, not_or, not_and]
      exact ⟨fun h => absurd h (by decide), fun _ a b => absurd ⟨a, b⟩ hs⟩
  simp [h0, h1]

/-- A slot number (R10, R145). -/
theorem slotOfHalf_iff (h : Half) (i : SlotId) : slotOfHalf h = some i ↔ i.val = h.toNat := by
  unfold slotOfHalf
  split
  · next hlt =>
    rw [Option.some.injEq]
    exact ⟨fun e => by rw [← e], fun e => Fin.ext e.symm⟩
  · next hge =>
    simp only [reduceCtorEq, false_iff]
    have := i.isLt
    omega

/-- A gain or an offset (R11). -/
theorem operandFloat_iff (w v : Word) : operandFloat w = some v ↔ Acceptable w ∧ v = w := by
  unfold operandFloat Acceptable
  cases isNormalized w <;> cases isZeroFloat w <;> simp [eq_comm]

/-- ENTRY INSERT (R10). -/
theorem insertOperands_iff (cell : Cell) (e : Entry) : insertOperands cell = some e ↔ InsertSays cell e := by
  have hs := slotOfHalf_iff (payloadHalf cell 2)
  have hf := inputFormOfCode_iff (payloadByte cell 4)
  have ho := outputFormOfCode_iff (payloadByte cell 5) (payloadByte cell 6)
  have hb := boolOfCode_iff (payloadByte cell 7)
  obtain ⟨input, output, slot, inputForm, outputForm, emit, conversion, window, divert⟩ := e
  unfold InsertSays insertOperands
  dsimp only
  rw [← hs, ← hf, ← ho, ← hb]
  cases slotOfHalf (payloadHalf cell 2) <;> cases inputFormOfCode (payloadByte cell 4) <;>
    cases outputFormOfCode (payloadByte cell 5) (payloadByte cell 6) <;> cases boolOfCode (payloadByte cell 7) <;> simp
  constructor <;> rintro ⟨h1, h2, h3, h4, h5, h6, h7, h8, h9⟩ <;> exact ⟨h1.symm, h2.symm, h3, h4, h5, h6, h7.symm, h8.symm, h9⟩

/-- ENTRY CONVERT (R11). -/
theorem convertOperands_iff (cell : Cell) (c : Conversion) : convertOperands cell = some c ↔ ConvertSays cell c := by
  have hg := operandFloat_iff (payloadWord cell 4)
  have ho := operandFloat_iff (payloadWord cell 8)
  unfold ConvertSays convertOperands
  by_cases h0 : payloadByte cell 0 = 0#8
  · simp [h0, eq_comm]
  by_cases h1 : payloadByte cell 0 = 1#8
  · rw [h1]
    by_cases a : Acceptable (payloadWord cell 4) <;> by_cases b : Acceptable (payloadWord cell 8)
    · rw [(hg _).2 ⟨a, rfl⟩, (ho _).2 ⟨b, rfl⟩]; simp [a, b, eq_comm]
    · rw [(hg _).2 ⟨a, rfl⟩, none_of_iff ho fun _ h => b h.1]; simp [b]
    · rw [none_of_iff hg fun _ h => a h.1]; simp [a]
    · rw [none_of_iff hg fun _ h => a h.1]; simp [a]
  by_cases h2 : payloadByte cell 0 = 2#8
  · rw [h2]
    by_cases a : (payloadHalf cell 2).toNat ≤ 4095
    · simp only [Config.lastPoolAddress, a, if_true, true_and]
      constructor
      · intro h
        right; right; left
        refine ⟨by decide, (payloadHalf cell 2).setWidth 12, ?_, ?_⟩
        · rw [BitVec.toNat_setWidth]; omega
        · simpa [eq_comm] using h
      · rintro (h | h | ⟨-, t, ht, rfl⟩ | h)
        · exact absurd h.1 (by decide)
        · exact absurd h.1 (by decide)
        · have : (payloadHalf cell 2).setWidth 12 = t := by
            apply BitVec.eq_of_toNat_eq
            rw [BitVec.toNat_setWidth, ht]; omega
          rw [this]; rfl
        · exact absurd h.1 (by decide)
    · simp [Config.lastPoolAddress, a]
  by_cases h3 : payloadByte cell 0 = 3#8
  · rw [h3]
    by_cases a : Acceptable (payloadWord cell 4)
    · rw [(hg _).2 ⟨a, rfl⟩]; simp [a, eq_comm]
    · rw [none_of_iff hg fun _ h => a h.1]; simp [a]
  simp [h0, h1, h2, h3]

/-- A window definition (R12). -/
theorem windowDefOfCode_iff (kind : Byte) (n : Nat) (w : Option WindowDef) :
    windowDefOfCode kind n = some w ↔
      (kind = 0 ∧ w = none) ∨ (kind = 1 ∧ 1 ≤ n ∧ n ≤ 4096 ∧ w = some (.count n)) ∨ (kind = 2 ∧ 1 ≤ n ∧ n ≤ 255 ∧ w = some (.epoch n)) := by
  unfold windowDefOfCode
  by_cases h0 : kind = 0#8
  · subst h0; simp [eq_comm]
  by_cases h1 : kind = 1#8
  · subst h1
    by_cases a : 1 ≤ n ∧ n ≤ 4096
    · simp [a, eq_comm]
    · rw [if_neg (by decide), if_pos (by decide), if_neg a]
      simp only [reduceCtorEq, false_iff]
      rintro (h | h | h)
      · exact absurd h.1 (by decide)
      · exact a ⟨h.2.1, h.2.2.1⟩
      · exact absurd h.1 (by decide)
  by_cases h2 : kind = 2#8
  · subst h2
    by_cases a : 1 ≤ n ∧ n ≤ 255
    · simp [a, eq_comm]
    · rw [if_neg (by decide), if_neg (by decide), if_pos (by decide), if_neg a]
      simp only [reduceCtorEq, false_iff]
      rintro (h | h | h)
      · exact absurd h.1 (by decide)
      · exact absurd h.1 (by decide)
      · exact a ⟨h.2.1, h.2.2.1⟩
  simp [h0, h1, h2]

/-- ENTRY WINDOW (R12). -/
theorem windowOperands_iff (cell : Cell) (w : Option WindowDef) (p : Bool) :
    windowOperands cell = some (w, p) ↔ WindowSays cell w p := by
  unfold WindowSays windowOperands
  rw [← windowDefOfCode_iff, ← boolOfCode_iff]
  cases windowDefOfCode (payloadByte cell 0) (payloadHalf cell 2).toNat <;> cases boolOfCode (payloadByte cell 4) <;> simp

/-- ENTRY READ (R14). -/
theorem entryReadOperands_iff (cell : Cell) (selector : Selector) (part : Part) :
    entryReadOperands cell = some (selector, part) ↔ EntryReadSays cell selector part := by
  unfold EntryReadSays entryReadOperands
  rw [← selectorOfCode_iff, ← partOfCode_iff]
  cases selectorOfCode (payloadByte cell 0) <;> cases partOfCode (payloadByte cell 1) <;> simp

/-- POOL READ (R33). -/
theorem poolReadOperands_iff (cell : Cell) (selector : Selector) : poolReadOperands cell = some selector ↔ PoolReadSays cell selector := by
  unfold PoolReadSays poolReadOperands
  rw [← selectorOfCode_iff]
  split
  · next h => simp [h]
  · next h => simp [h]

end Sys2Proof.Machine
end

