-- ==== Sys2Proof/Laws/PerInstr.lean ====
section
/-! SUPPORT. Per command: every term of the command is well formed, for the widths of its operands are in their types. -/

namespace Sys2Proof.Laws.WellFormed

/-- Every level and byte at the pins is admissible (R134, R161, R168). -/
def Statement (i : Instr) : Prop := i.wellFormed = true

theorem powerOnReset : Statement .powerOnReset := rfl

theorem powerOnResetRelease (straps : BitVec 4) : Statement (.powerOnResetRelease straps) := rfl

theorem cellStartStrobe (byte : BitVec 8) : Statement (.cellStartStrobe byte) := rfl

theorem cellComplete (byte : BitVec 8) : Statement (.cellComplete byte) := rfl

theorem takeReading : Statement .takeReading := rfl

theorem engineResume : Statement .engineResume := rfl

theorem takeEpoch : Statement .takeEpoch := rfl

theorem takeCommand : Statement .takeCommand := rfl

theorem passThroughCell : Statement .passThroughCell := rfl

theorem identify : Statement .identify := rfl

theorem readStatus : Statement .readStatus := rfl

theorem setMode : Statement .setMode := rfl

theorem entryInsert : Statement .entryInsert := rfl

theorem entryConvert : Statement .entryConvert := rfl

theorem entryWindow : Statement .entryWindow := rfl

theorem entryRemove : Statement .entryRemove := rfl

theorem entryRead : Statement .entryRead := rfl

theorem poolWrite : Statement .poolWrite := rfl

theorem poolRead : Statement .poolRead := rfl

theorem commit : Statement .commit := rfl

theorem abandon : Statement .abandon := rfl

theorem slotRead : Statement .slotRead := rfl

theorem slotClear : Statement .slotClear := rfl

theorem armDivert : Statement .armDivert := rfl

theorem flushWindow : Statement .flushWindow := rfl

theorem resetPart : Statement .resetPart := rfl

theorem badCommand : Statement .badCommand := rfl

theorem commandResume : Statement .commandResume := rfl

theorem verifyComplete : Statement .verifyComplete := rfl

theorem swap : Statement .swap := rfl

theorem mirrorComplete : Statement .mirrorComplete := rfl

theorem reconciliationCursorStep : Statement .reconciliationCursorStep := rfl

theorem epochSweepStep : Statement .epochSweepStep := rfl

theorem grant (ready : Bool) : Statement (.grant ready) := rfl

theorem cellDeparture : Statement .cellDeparture := rfl

theorem softResetComplete : Statement .softResetComplete := rfl

theorem byteWithoutTheStrobe (byte : BitVec 8) : Statement (.byteWithoutTheStrobe byte) := rfl

end Sys2Proof.Laws.WellFormed
end

