-- ==== Sys2Proof/Laws/Readings.lean ====
section
/-! SUPPORT. Everything a step of the Engine can do, said once: it waits with its claims, or its reading ends. -/

namespace Sys2Proof.Machine

/-- What a step of a held reading leaves when it answers: a wait, in which nothing but slots and summaries changed beside the claims of the
reading; or the end of the reading, with at most one cell added to the Forward Queue. -/
inductive ReadingLeaves (h : HeldReading) (s : State) : State → Prop where
  | waits {u : State} {h' : HeldReading} (work : SlotWork s u) (cell : h'.cell = h.cell) (generation : h'.generation = h.generation)
      (entry : h'.entry = h.entry)
      (own : h'.ownClaim = true → h.ownClaim = true ∨ s.claimedByOther .engine h.entry.slot = false)
      (reference : ∀ i, h'.referenceClaim = some i → h.referenceClaim = some i ∨ s.claimedByOther .engine i = false)
      (step : h'.step ≠ .prepare → h.step ≠ .prepare ∨ (u.slot h.entry.slot).pending = false) :
      ReadingLeaves h s { u with engine := .waiting h' }
  | ends {u v : State} {queue : List ForwardCell} (work : SlotWork s u) (notices : NoticeWork u v)
      (queue_eq : queue = v.forwardQueue ∨ ∃ c, queue = v.forwardQueue ++ [c]) :
      ReadingLeaves h s { v with engine := .idle, forwardQueue := queue }

theorem SlotWork.claimedByOther {s t : State} (h : SlotWork s t) (p : Party) (i : SlotId) :
    t.claimedByOther p i = s.claimedByOther p i := by
  rw [h.frame]; rfl

/-- A step after work on slots, by a reading whose further claims were free to take. -/
theorem ReadingLeaves.after {h k : HeldReading} {s u t : State} (work : SlotWork s u) (cell : k.cell = h.cell)
    (generation : k.generation = h.generation) (entry : k.entry = h.entry) (step : k.step = h.step)
    (own : k.ownClaim = true → h.ownClaim = true ∨ s.claimedByOther .engine h.entry.slot = false)
    (reference : ∀ i, k.referenceClaim = some i → h.referenceClaim = some i ∨ s.claimedByOther .engine i = false)
    (leaves : ReadingLeaves k u t) : ReadingLeaves h s t := by
  cases leaves with
  | waits w c g e o r st =>
    refine .waits (work.trans w) (c.trans cell) (g.trans generation) (e.trans entry) (fun x => ?_) (fun i x => ?_) (fun x => ?_)
    · rcases o x with y | y
      · exact own y
      · right; rwa [entry, work.claimedByOther] at y
    · rcases r i x with y | y
      · exact reference i y
      · right; rwa [work.claimedByOther] at y
    · rw [← step, ← entry]; exact st x
  | ends w n q => exact .ends (work.trans w) n q

/-- A cell is emitted or absorbed (R75). -/
theorem State.emitConverted_queue (s : State) (emit : Bool) (c : ConvertedCell) :
    ∃ q, (q = s.forwardQueue ∨ ∃ d, q = s.forwardQueue ++ [d]) ∧
      (s.emitConverted emit c).endReading = { s with engine := .idle, forwardQueue := q } := by
  cases emit
  · exact ⟨_, .inl rfl, rfl⟩
  · exact ⟨_, .inr ⟨_, rfl⟩, rfl⟩

/-- The count step: it ends the reading, or waits holding what it held (R60, R73 to R75). -/
theorem countStep_leaves {h : HeldReading} {c : CountStep} {s t : State} (ht : countStep h c s = .next t)
    (hs : h.step ≠ .prepare ∨ (s.slot h.entry.slot).pending = false) : ReadingLeaves h s t := by
  unfold countStep at ht
  cases hr : (s.slot h.entry.slot).runtime with
  | none => rw [hr] at ht; exact absurd ht (by simp)
  | some r =>
    rw [hr] at ht
    dsimp only at ht
    cases hc : s.countReading h.entry.slot r c.y c.missed with
    | none =>
      rw [hc] at ht
      obtain rfl := Host.Outcome.next.inj ht
      exact .waits (.refl s) rfl rfl rfl .inl (fun _ x => .inl x) fun _ => hs
    | some u =>
      rw [hc] at ht
      obtain rfl := Host.Outcome.next.inj ht
      obtain ⟨q, hq, e⟩ := u.emitConverted_queue h.entry.emit c.cell
      rw [e]
      exact .ends (State.countReading_work hc hr) (.refl u) hq

/-- The end of a decided reading (R70 to R77). -/
theorem finishReading_leaves {h : HeldReading} {r r' : Runtime} {d : Decided} {s t : State}
    (ht : finishReading h r' d s = .next t) (hr : (s.slot h.entry.slot).runtime = some r) (owner : r'.owner = r.owner)
    (terms : r'.terms = r.terms) (fits : r.Fits → r'.Fits) (hp : (s.slot h.entry.slot).pending = false) :
    ReadingLeaves h s t := by
  have put : ∀ q : Runtime, q.owner = r'.owner → q.terms = r'.terms → (r'.Fits → q.Fits) →
      SlotWork s (s.putRuntime h.entry.slot q) := fun q ho ht hf =>
    State.putRuntime_work hr (ho.trans owner) (ht.trans terms) fun x => hf (fits x)
  unfold finishReading at ht
  split at ht
  · obtain rfl := Host.Outcome.next.inj ht
    have w := put { r' with armed := false } rfl rfl id
    unfold State.divertReading
    dsimp only
    generalize s.putRuntime h.entry.slot { r' with armed := false } = u at w ⊢
    have n := State.handNotice_work u (divertedNotice h d) (.inl rfl)
    split
    · exact .ends w n (.inl rfl)
    · split
      · exact .ends w n (.inl rfl)
      · obtain ⟨q, hq, e⟩ := (u.handNotice (divertedNotice h d)).emitConverted_queue h.entry.emit (convertedCell h s.strap d)
        rw [e]
        exact .ends w n hq
  · cases hy : d.y with
    | none =>
      rw [hy] at ht
      obtain rfl := Host.Outcome.next.inj ht
      exact .ends (put { r' with dropCount := satInc r'.dropCount } rfl rfl id) (.refl _) (.inl rfl)
    | some y =>
      rw [hy] at ht
      dsimp only at ht
      split at ht
      · have w := put r' rfl rfl id
        have hp' : ((s.putRuntime h.entry.slot r').slot h.entry.slot).pending = false := by
          rw [State.slot_putRuntime_same]; exact hp
        have l := countStep_leaves ht (.inr hp')
        cases l with
        | waits w' c g e o r st =>
          refine .waits (w.trans w') c g e (fun x => ?_) (fun i x => ?_) fun _ => .inr ?_
          · rcases o x with y | y
            · exact .inl y
            · right; rwa [w.claimedByOther] at y
          · rcases r i x with y | y
            · exact absurd y (by simp)
            · right; rwa [w.claimedByOther] at y
          · exact (w'.grows h.entry.slot).settled hp'
        | ends w' n q => exact .ends (w.trans w') n q
      · obtain rfl := Host.Outcome.next.inj ht
        obtain ⟨q, hq, e⟩ := (s.putRuntime h.entry.slot r').emitConverted_queue h.entry.emit (convertedCell h s.strap d)
        unfold State.passReading
        rw [e]
        exact .ends (put r' rfl rfl id) (.refl _) hq

/-- The sequence check and the fault collection keep a runtime's fit (R62, R69). -/
theorem sequenceCheck_fits {r : Runtime} (n : Half) (h : r.Fits) : (sequenceCheck r n).runtime.Fits := by
  obtain ⟨h1, h2⟩ := h
  exact ⟨by rw [sequenceCheck_window, sequenceCheck_terms]; exact h1, by rw [sequenceCheck_window]; exact h2⟩

/-- The conversion step (R62 to R77). -/
theorem convertStep_leaves {h : HeldReading} {s t : State} (ht : convertStep h s = .next t)
    (hp : (s.slot h.entry.slot).pending = false) : ReadingLeaves h s t := by
  unfold convertStep at ht
  cases hr : (s.slot h.entry.slot).runtime with
  | none => rw [hr] at ht; exact absurd ht (by simp)
  | some r =>
    rw [hr] at ht
    dsimp only at ht
    split at ht
    · exact absurd ht (by simp)
    · exact finishReading_leaves ht hr (sequenceCheck_owner r _) (sequenceCheck_terms r _)
        (fun f => (sequenceCheck_fits _ f).collect _) hp

/-- The catch-up step (R59). -/
theorem catchUpStep_leaves {h : HeldReading} {s t : State} (ht : catchUpStep h s = .next t)
    (hp : (s.slot h.entry.slot).pending = false) : ReadingLeaves h s t := by
  unfold catchUpStep at ht
  cases hc : s.closeDue h.entry.slot with
  | none =>
    rw [hc] at ht
    obtain rfl := Host.Outcome.next.inj ht
    exact .waits (.refl s) rfl rfl rfl .inl (fun _ x => .inl x) .inl
  | some u =>
    rw [hc] at ht
    have w := State.closeDue_work hc
    exact .after w rfl rfl rfl rfl .inl (fun _ x => .inl x) (convertStep_leaves ht ((w.grows _).settled hp))

/-- The reference step (R58). -/
theorem referenceStep_leaves {h : HeldReading} {s t : State} (ht : referenceStep h s = .next t)
    (hp : (s.slot h.entry.slot).pending = false) : ReadingLeaves h s t := by
  unfold referenceStep at ht
  split at ht
  · exact catchUpStep_leaves ht hp
  · exact catchUpStep_leaves ht hp
  · exact catchUpStep_leaves ht hp
  · next reference gain _ =>
    cases hf : findChannel s.tables.activeBank.directory reference with
    | none => rw [hf] at ht; exact absurd ht (by simp)
    | some e =>
      rw [hf] at ht
      dsimp only at ht
      cases hc : s.claimedByOther .engine e.slot with
      | true =>
        rw [hc, if_pos rfl] at ht
        obtain rfl := Host.Outcome.next.inj ht
        exact .waits (.refl s) rfl rfl rfl .inl (fun _ x => .inl x) .inl
      | false =>
        rw [hc, if_neg Bool.false_ne_true] at ht
        have free : ∀ i, some e.slot = some i → h.referenceClaim = some i ∨ s.claimedByOther .engine i = false := by
          intro i x
          obtain rfl := Option.some.inj x
          exact .inr hc
        cases hr : s.reconcileSlot e.slot with
        | none =>
          rw [hr] at ht
          obtain rfl := Host.Outcome.next.inj ht
          exact .waits (.refl s) rfl rfl rfl .inl free .inl
        | some u =>
          rw [hr] at ht
          dsimp only at ht
          have w := State.reconcileSlot_work hr
          exact .after (k := { h with referenceClaim := some e.slot }) w rfl rfl rfl rfl .inl free (catchUpStep_leaves ht ((w.grows _).settled hp))

/-- The preparation step (R58). -/
theorem prepareStep_leaves {h : HeldReading} {s t : State} (ht : prepareStep h s = .next t) : ReadingLeaves h s t := by
  cases hc : s.claimedByOther .engine h.entry.slot with
  | true =>
    rw [prepareStep_claimed hc] at ht
    obtain rfl := Host.Outcome.next.inj ht
    exact .waits (.refl s) rfl rfl rfl .inl (fun _ x => .inl x) .inl
  | false =>
    rw [prepareStep_unclaimed hc] at ht
    cases hr : s.reconcileSlot h.entry.slot with
    | none =>
      rw [hr] at ht
      obtain rfl := Host.Outcome.next.inj ht
      exact .waits (.refl s) rfl rfl rfl (fun _ => .inr hc) (fun _ x => .inl x) .inl
    | some u =>
      rw [hr] at ht
      dsimp only at ht
      exact .after (k := { h with ownClaim := true }) (State.reconcileSlot_work hr) rfl rfl rfl rfl (fun _ => .inr hc) (fun _ x => .inl x)
        (referenceStep_leaves ht (State.reconcileSlot_pending hr))

/-- Whatever step a held reading stands at, this is everything its running leaves (R55 to R78). -/
theorem runReading_leaves {h : HeldReading} {s t : State} (ht : runReading h s = .next t) : ReadingLeaves h s t := by
  unfold runReading at ht
  cases hs : h.step with
  | prepare => rw [hs] at ht; exact prepareStep_leaves ht
  | count c => rw [hs] at ht; exact countStep_leaves ht (.inl (by rw [hs]; simp))

end Sys2Proof.Machine
end

