-- ==== Sys2Proof/Laws/Segments.lean ====
section
/-! SUPPORT. What it means that a verify finds no failure: of the walk, of one entry, and of one table; and that what passes its checks shows none. -/

namespace Sys2Proof.Machine

/-- A walk without a failure checked every entry against those before it (R122). -/
theorem verifyWalk_none (b : Bank) (earlier d : List Entry) (h : verifyWalk b earlier d = none) :
   ∀ e before after, d = before ++ e :: after → verifyEntry b (earlier ++ before) e = none := by
  induction d generalizing earlier with
  | nil => intro e before after h; simp at h
  | cons x rest ih =>
    intro e before after hd
    unfold verifyWalk at h
    cases hv : verifyEntry b earlier x with
    | some p => rw [hv] at h; simp at h
    | none =>
      rw [hv] at h; dsimp only at h
      cases before with
      | nil => simp at hd; obtain ⟨rfl, rfl⟩ := hd; simpa using hv
      | cons y before =>
        simp at hd
        obtain ⟨rfl, hd⟩ := hd
        have := ih _ h e before after hd
        simpa using this

/-- An entry without a failure shares no slot and no output channel id with an earlier one, and its conversion passed (R122). -/
theorem verifyEntry_none {b earlier e} (h : verifyEntry b earlier e = none) : verifyConversion b e = none ∧ ∀ x ∈ earlier, x.slot ≠ e.slot ∧ x.output ≠ e.output := by
  unfold verifyEntry at h
  split at h
  · simp at h
  · split at h
    · simp at h
    · rename_i h1 h2
      refine ⟨h, ?_⟩
      simp at h1 h2
      exact fun x hx => ⟨h1 x hx, h2 x hx⟩

/-- In a table without a failure every bucket from L to H has its entry word inside the pool, and that word passed (R31). -/
theorem verifyHeader_none {pool f address} (h : verifyHeader pool f address = none) (b : Int) :
   (headerOfWord (Memory.read pool address)).low ≤ b → b ≤ (headerOfWord (Memory.read pool address)).high →
     entryAddress address (headerOfWord (Memory.read pool address)) b ≤ 4095 ∧ verifyBucket pool f (entryAddress address (headerOfWord (Memory.read pool address)) b) = none := by
  intro h1 h2
  unfold verifyHeader at h
  dsimp only at h
  unfold entryAddress
  generalize headerOfWord (Memory.read pool address) = hd at *
  split at h
  · simp at h
  rename_i hb
  split at h
  · simp at h
  split at h
  · simp at h
  simp only [Config.lastPoolAddress] at hb
  refine ⟨by omega, ?_⟩
  rw [List.findSome?_eq_none_iff] at h
  exact h (b - hd.low).toNat (by simp; omega)

/-- An entry that passes every check shows no failure (R122). -/
theorem EntryPasses.noFailure {b p e} (h : EntryPasses b p e) : verifyEntry b p e = none := by
  unfold verifyEntry
  rw [if_neg (by simpa using h.slot), if_neg (by simpa using h.output)]
  unfold verifyConversion
  cases hc : e.conversion with
  | none => rfl
  | linear _ _ => rfl
  | segmented table => dsimp only; rw [if_neg (h.form _ hc)]; exact h.tables _ hc
  | ratio ref gain =>
    dsimp only
    obtain ⟨f, hf, hfi⟩ := h.present _ _ hc
    cases hx : findChannel b.directory ref with
    | none => unfold findChannel at hx; rw [List.find?_eq_none] at hx; exact absurd (by simpa using hfi) (hx f hf)
    | some x =>
      dsimp only
      have := h.notRatio _ _ hc x (List.mem_of_find?_eq_some hx) (by simpa using List.find?_some hx)
      cases hk : x.conversion <;> simp [Conversion.isRatio]
      exact absurd hk (this _ _)

/-- The walk goes past entries that pass (R122). -/
theorem verifyWalk_append (b : Bank) : ∀ (before earlier rest : List Entry), (∀ p x q, before = p ++ x :: q → EntryPasses b (earlier ++ p) x) →
    verifyWalk b earlier (before ++ rest) = verifyWalk b (earlier ++ before) rest := by
  intro before
  induction before with
  | nil => intro earlier rest _; simp
  | cons y before ih =>
    intro earlier rest h
    rw [List.cons_append, verifyWalk, EntryPasses.noFailure (by simpa using h [] y before rfl)]
    dsimp only
    rw [ih]
    · simp
    · intro p x q hx
      have := h (y :: p) x q (by rw [hx]; rfl)
      simpa using this

/-- What a LINK word at depth 4, or above it, is checked for (R31). -/
def linkCheck (pool : Memory) (deeper a t : Nat) : Option (VerifyReason × Nat) :=
  match deeper with
  | 0 => some (.linkDepth, a)
  | d + 1 => verifyTable pool d t

/-- A bucket that passes shows no failure (R31). -/
theorem BucketPasses.noFailure (pool : Memory) (deeper a : Nat) (h : BucketPasses pool deeper a) (f)
    (hf : ∀ a t, f a t = linkCheck pool deeper a t) : verifyBucket pool f a = none := by
  unfold BucketPasses at h
  unfold verifyBucket
  dsimp only
  cases hk : (entryOfWord (Memory.read pool a)).kind <;> rw [hk] at h <;> dsimp only at h ⊢
  · have hlt : (entryOfWord (Memory.read pool a)).target < 2 ^ 12 := ((Memory.read pool a).extractLsb' 16 12).isLt
    have k : Config.lastPoolAddress = 4095 := rfl
    rw [k]
    generalize (entryOfWord (Memory.read pool a)).target = x at *
    rw [if_neg (by omega)]
  · obtain ⟨d, rfl, hd⟩ := h
    rw [hf]; exact hd

/-- The walk from a table is that table's checks with the LINK check of its depth (R31). -/
theorem verifyTable_header (pool : Memory) (deeper address : Nat) : ∃ f : Nat → Nat → Option (VerifyReason × Nat),
    (∀ a t, f a t = linkCheck pool deeper a t) ∧
    verifyTable pool deeper address = verifyHeader pool f address := by
  cases deeper with
  | zero => exact ⟨_, fun _ _ => rfl, rfl⟩
  | succ d => exact ⟨_, fun _ _ => rfl, rfl⟩

/-- The first answer over a range, where every earlier place has none. -/
theorem findSome_range {α : Type} (f : Nat → Option α) (N n : Nat) (hn : n < N) (h : ∀ m, m < n → f m = none) (v : α) (hv : f n = some v) :
    (List.range N).findSome? f = some v := by
  obtain ⟨k, rfl⟩ := Nat.exists_eq_add_of_lt hn
  rw [show n + k + 1 = n + (k + 1) by omega, List.range_add, List.findSome?_append]
  have : (List.range n).findSome? f = none := by
    rw [List.findSome?_eq_none_iff]; intro m hm; exact h m (by simpa using hm)
  rw [this, List.range_succ_eq_map]
  simp [hv]

end Sys2Proof.Machine
end

