-- ==== Sys2Proof/Laws/ValueRows.lean ====
section
/-! SUPPORT. The rows of the value arithmetic, one lemma per operation: the range test, left normalization, bringing to form, the add of a leading
and a trailing operand, and forming a wide float. -/

namespace Sys2Proof.Machine

/-- The digit count of a number is the one whose powers of sixteen it lies between (R38). -/
theorem hexDigits_eq {c n : Nat} (h1 : 1 ≤ n) (h2 : 16 ^ (n - 1) ≤ c) (h3 : c < 16 ^ n) : hexDigits c = n := by
  have h0 : c ≠ 0 := by have : 0 < 16 ^ (n - 1) := by positivity
                        omega
  obtain ⟨a, b, d⟩ := hexDigits_spec c h0
  rcases Nat.lt_trichotomy (hexDigits c) n with h | h | h
  · have : 16 ^ hexDigits c ≤ 16 ^ (n - 1) := Nat.pow_le_pow_right (by norm_num) (by omega)
    omega
  · exact h
  · have : 16 ^ n ≤ 16 ^ (hexDigits c - 1) := Nat.pow_le_pow_right (by norm_num) (by omega)
    omega

/-- The range test, row by row (R44). -/
theorem rangeTest_ranged (n : Nat) (u : Unpacked) : Ranged n u (rangeTest n u) := by
  unfold Ranged rangeTest
  refine ⟨?_, ?_, ?_⟩
  · intro h; rw [if_pos h]; rfl
  · intro h; rw [if_neg (by omega), if_pos h]; rfl
  · intro h1 h2; rw [if_neg (by omega), if_neg (by omega)]; rfl

/-- Left normalization of a fraction with `k` leading zero digits shifts it `k` places (R43). -/
theorem normalizeLeft_shift (n k fuel : Nat) (u : Unpacked) (hk : k ≤ n) (hf : k ≤ fuel) (h1 : 16 ^ (n - k) ≤ u.fraction) (h2 : u.fraction < 16 ^ (n - k + 1)) :
    normalizeLeft n fuel u = ⟨u.negative, u.exponent - k, u.fraction * 16 ^ k⟩ := by
  induction k generalizing fuel u with
  | zero =>
    have : normalizeLeft n fuel u = u := by
      cases fuel with
      | zero => rfl
      | succ f => unfold normalizeLeft; rw [if_neg (by simpa using h1)]
    rw [this]; simp
  | succ k ih =>
    obtain ⟨f, rfl⟩ : ∃ f, fuel = f + 1 := ⟨fuel - 1, by omega⟩
    have e : n - (k + 1) + 1 = n - k := by omega
    have lt : u.fraction < 16 ^ n := lt_of_lt_of_le h2 (Nat.pow_le_pow_right (by norm_num) (by omega))
    unfold normalizeLeft
    rw [if_pos lt, ih]
    · dsimp only; congr 1
      · push_cast; ring
      · rw [pow_succ]; ring
    · omega
    · omega
    · dsimp only; rw [← e, pow_succ]; omega
    · dsimp only; rw [pow_succ, ← e]; omega

/-- A combined fraction brought to form, row by row (R43). -/
theorem bringToForm_rows (n : Nat) (u : Unpacked) : BroughtToForm n u (bringToForm n u) := by
  unfold BroughtToForm bringToForm
  refine ⟨?_, ?_, ?_⟩
  · intro h; rw [if_pos h]; rfl
  · intro h
    have : 0 < 16 ^ (n + 1) := by positivity
    rw [if_neg (by omega), if_pos h, Nat.div_div_eq_div_mul]
    exact rangeTest_ranged _ _
  · intro k hk h1 h2
    have : 0 < 16 ^ (n - k) := by positivity
    have : 16 ^ (n - k + 1) ≤ 16 ^ (n + 1) := Nat.pow_le_pow_right (by norm_num) (by omega)
    rw [if_neg (by omega), if_neg (by omega)]
    dsimp only
    rw [normalizeLeft_shift n k (n + 1) u hk (by omega) h1 h2]
    exact rangeTest_ranged _ _

/-- The add of a leading and a trailing operand, row by row (R42, R43). -/
theorem alignAdd_added (n : Nat) (a b : Unpacked) (h : b.exponent ≤ a.exponent) : Added n a b (alignAdd n a b) := by
  intro d hd
  have e : (a.exponent - b.exponent).toNat = d := by omega
  unfold alignAdd
  dsimp only
  rw [e]
  refine ⟨?_, ?_⟩
  · intro h; rw [if_pos h]; rfl
  · intro h x y hx hy
    rw [if_neg (by omega), ← hx, ← hy]
    unfold combine
    dsimp only
    refine ⟨?_, ?_⟩
    · intro hs; rw [if_pos hs]; exact bringToForm_rows _ _
    · intro hs
      rw [if_neg hs]
      refine ⟨?_, ?_⟩
      · intro hc; rw [if_pos hc]; exact bringToForm_rows _ _
      · intro hc; rw [if_neg (by omega)]; exact bringToForm_rows _ _

/-- With equal exponents either operand serves as leading (R42). -/
theorem alignAdd_comm (n : Nat) (a b : Unpacked) (h : a.exponent = b.exponent) : alignAdd n a b = alignAdd n b a := by
  unfold alignAdd
  dsimp only
  rw [h, Int.sub_self]
  simp only [Int.toNat_zero, pow_zero, Nat.div_one]
  rw [if_neg (by omega), if_neg (by omega)]
  unfold combine
  dsimp only
  by_cases hs : a.negative = b.negative
  · rw [if_pos hs, if_pos hs.symm, hs, Nat.add_comm]
  · rw [if_neg hs, if_neg (Ne.symm hs)]
    rcases Nat.lt_trichotomy (a.fraction * 16) (b.fraction * 16) with h | h | h
    · rw [if_neg (by omega), if_pos (by omega)]
    · rw [if_pos (by omega), if_pos (by omega), h, Nat.sub_self]; rfl
    · rw [if_pos (by omega), if_neg (by omega)]

/-- An add of nonzero operands is that of the one with the larger exponent leading, in either order (R42). -/
theorem addDigits_leading (n : Nat) (a b : Unpacked) (ha : a.fraction ≠ 0) (hb : b.fraction ≠ 0) (h : b.exponent ≤ a.exponent) :
    addDigits n a b = alignAdd n a b ∧ addDigits n b a = alignAdd n a b := by
  unfold addDigits
  rw [if_neg ha, if_neg hb, if_neg (by omega), if_neg hb, if_neg ha]
  refine ⟨rfl, ?_⟩
  by_cases e : b.exponent < a.exponent
  · rw [if_pos e]
  · rw [if_neg e]; exact (alignAdd_comm n a b (by omega)).symm

/-- Forming a wide float and taking it apart gives the parts back where they are in range (R50). -/
theorem WideFloat.unpack_pack (u : Unpacked) (h0 : u.fraction ≠ 0) (h1 : u.fraction < 16 ^ 10) (h2 : -64 ≤ u.exponent) (h3 : u.exponent ≤ 63) : (WideFloat.pack u).unpack = u := by
  unfold WideFloat.pack; rw [if_neg h0]
  unfold WideFloat.unpack
  obtain ⟨n, e, f⟩ := u
  dsimp only at *
  simp only [BitVec.toNat_ofInt, BitVec.toNat_ofNat]
  congr 1
  · omega
  · norm_num at *; omega

/-- Taking a wide float apart and forming it again gives it back, unless it is zero (R50). -/
theorem WideFloat.pack_unpack (w : WideFloat) (h : w.fraction ≠ 0) : WideFloat.pack w.unpack = w := by
  unfold WideFloat.pack
  have : w.unpack.fraction ≠ 0 := fun e => h (BitVec.eq_of_toNat_eq e)
  rw [if_neg this]
  unfold WideFloat.unpack
  obtain ⟨n, e, f⟩ := w
  dsimp only at *
  rw [Int.sub_add_cancel, BitVec.ofInt_natCast, BitVec.ofNat_toNat, BitVec.setWidth_eq, BitVec.ofNat_toNat, BitVec.setWidth_eq]

end Sys2Proof.Machine
end

