-- ==== Sys2Proof/Tests/Slice0.lean ====
section
/-! SUPPORT. Tests of this sitting: the manual's worked numbers, steps on small states, and one witness of the hypotheses of each statement,
clause by clause. Every term of `Instr` is well formed (WellFormed.lean), so there is no ill-formed term for a check to refuse. -/

namespace Sys2Proof.Tests

open Sys2Proof.Machine

/-! ### Well-formedness -/

/-- The extreme pin levels are well formed, and so is a command without operands. -/
theorem test_wellFormed :
    [Instr.powerOnResetRelease 0, .powerOnResetRelease 15, .cellStartStrobe 0, .cellComplete 0xFF, .byteWithoutTheStrobe 0xFF, .grant true,
      .grant false, .swap].all Instr.wellFormed = true := by decide

/-- No word of the table spells a command. -/
theorem test_decodeTableWord : decodeTableWord 8 0 = none := rfl

/-! ### The arithmetic of section 3.10 -/

/-- Raw fields enter as the table of examples has them. -/
theorem test_inputValues :
    inputValue 0x00008000 .int16 = ⟨0xC4800000, FaultSet.none⟩ ∧ inputValue 0x0000FFFF .uint16 = ⟨0x44FFFF00, FaultSet.none⟩ ∧
      inputValue 0x00008000 .uint16 = ⟨0x44800000, FaultSet.none⟩ ∧
      inputValue 0x00800000 .int24 = ⟨0xC6800000, FaultSet.none⟩ ∧ inputValue 0x000005DC .int24 = ⟨0x435DC000, FaultSet.none⟩ ∧
      inputValue 0x4200A300 .float = ⟨0x40A30000, FaultSet.none⟩ ∧ inputValue 0xC5000000 .float = ⟨0, FaultSet.none⟩ ∧
      inputValue 0x02000010 .float = ⟨0, FaultSet.ofUnf⟩ := by decide +kernel

/-- The guard digit decides a subtraction; sums, differences and cancellations at the ends of the exponent range. -/
theorem test_addAndSubtract :
    subtractFloat 0x41100000 0x40FFFFFF = ⟨0x3B100000, FaultSet.none⟩ ∧ addFloat 0x7F800000 0x7F800000 = ⟨0x7FFFFFFF, FaultSet.ofOvf⟩ ∧
      addFloat 0x7F800000 0xFF800000 = ⟨0, FaultSet.none⟩ ∧ subtractFloat 0x00100001 0x00100000 = ⟨0, FaultSet.ofUnf⟩ := by
  decide +kernel

/-- Products: saturation, underflow, and a normalization by one digit. -/
theorem test_multiply :
    multiplyFloat 0x5E400000 0x68800000 = ⟨0x7FFFFFFF, FaultSet.ofOvf⟩ ∧ multiplyFloat 0x22100000 0x18100000 = ⟨0, FaultSet.ofUnf⟩ ∧
      multiplyFloat 0x4312C000 0x40300000 = ⟨0x42384000, FaultSet.none⟩ := by decide +kernel

/-- Quotients: the pre-shift, equal fractions, and a divisor of zero. -/
theorem test_divide :
    divideFloat 0x41A00000 0x41300000 = ⟨0x41355555, FaultSet.none⟩ ∧ divideFloat 0x42400000 0x40400000 = ⟨0x43100000, FaultSet.none⟩ ∧
      divideFloat 0x41A00000 0 = ⟨0, FaultSet.ofDvz⟩ := by decide +kernel

/-- The table of the fix to integer. -/
theorem test_fixToInteger :
    fixToInteger 0x41A95555 2 = ⟨2709, FaultSet.none⟩ ∧ fixToInteger 0xC21A4000 (-1) = ⟨-1, FaultSet.none⟩ ∧
      fixToInteger 0x403C0000 0 = ⟨0, FaultSet.none⟩ ∧ fixToInteger 0x46C35000 0 = ⟨8388607, FaultSet.ofMof⟩ ∧
      fixToInteger 0xC6800000 0 = ⟨-8388608, FaultSet.none⟩ ∧ fixToInteger 0xC6800001 0 = ⟨-8388608, FaultSet.ofMof⟩ ∧
      fixToInteger 0x45123456 2 = ⟨8388607, FaultSet.ofMof⟩ ∧ fixToInteger 0x7FFFFFFF (-4) = ⟨8388607, FaultSet.ofMof⟩ := by
  decide +kernel

/-- The mean of the three readings 10.5, 10.25 and 11. -/
theorem test_windowMean :
    windowMean (wideAdd (wideAdd (wideAdd WideFloat.zero 0x41A80000).value 0x41A40000).value 0x41B00000).value 3 =
      ⟨0x41A95555, FaultSet.none⟩ := by decide +kernel

/-! ### Words and check field -/

/-- The check of the nine bytes 31h to 39h. -/
theorem test_crc : crc16 [0x31, 0x32, 0x33, 0x34, 0x35, 0x36, 0x37, 0x38, 0x39] = 0x29B1 := by decide +kernel

/-- The words of the two-level table, read as R180 lays them out. -/
theorem test_poolWords :
    headerOfWord 0x00000352 = ⟨0, 3, 10, .holdLast, false⟩ ∧ entryOfWord 0x81100000 = ⟨.link, 0, 0x110, 0⟩ ∧
      entryOfWord 0x51340104 = ⟨.segment, 1, 0x134, 0x0104⟩ := by decide +kernel

/-- The pool of section 2.7, but for the segments its four readings do not use, and at 200h a header L 0, H 0 with miss action DROP. -/
def thermocouple : Memory :=
  [(0x100, 0x00000352), (0x101, 0x81100000), (0x102, 0x41300012), (0x103, 0x41320013), (0x110, 0x00000F36), (0x115, 0x51340104),
    (0x130, 0x40400000), (0x131, 0x41A00000), (0x132, 0x404CCCCC), (0x133, 0xC25A0000), (0x134, 0x40300000), (0x135, 0x42140000), (0x200, 0x00000004)]

/-- What a lookup hands on, if it does not stop. -/
def lookedUp (x : Except Fault LookupResult) : Option LookupResult :=
  match x with
  | .ok c => some c
  | .error _ => none

/-- The four readings of section 2.7. -/
theorem test_thermocouple :
    lookedUp (segmentLookup thermocouple 1500 none 4 0x100) = some ⟨some 0x43181000, FaultSet.none, false, false, 0x0012, 0⟩ ∧
      lookedUp (segmentLookup thermocouple 300 none 4 0x100) = some ⟨some 0x424C4000, FaultSet.none, false, false, 0x0104, 1⟩ ∧
      lookedUp (segmentLookup thermocouple 3500 (some 0x424C4000) 4 0x100) =
        some ⟨some 0x424C4000, FaultSet.ofRng, true, false, 0, 0⟩ ∧
      lookedUp (segmentLookup thermocouple 2100 none 4 0x100) = some ⟨some 0x4321BFFF, FaultSet.none, false, false, 0x0013, 0⟩ := by
  decide +kernel

/-! ### Small states -/

/-- The machine after its release with the straps at 0, before any cell. -/
def active : State := { State.reset with resetAsserted := false }

/-- A cell of the given first bytes. -/
def cellOf (l : List Byte) : Cell := Table.ofList 24 0 l

/-- A COMMAND cell with tag 55h. -/
def commandCell (address code : Byte) (key : Half) (contents : List Byte) : Cell :=
  cellOf ([0x03, address, 0x55, code] ++ halfBytes key ++ contents)

/-- A READING cell of channel 0300h. -/
def readingCell (sequence : Half) (raw : Word) : Cell :=
  cellOf ([0x01, 0x03, 0x00] ++ halfBytes sequence ++ [0] ++ wordBytes raw)

/-- A state whose Command Queue holds one command for unit 0. -/
def commanded (s : State) (code : Byte) (key : Half) (contents : List Byte) : State :=
  { s with commandQueue := [commandCell 0 code key contents] }

/-- A state whose Ingress Buffer holds one cell. -/
def received (s : State) (cell : Cell) : State := { s with ingressBuffer := [cell] }

/-- Slot 12. -/
def twelve : SlotId := ⟨12, by decide⟩

/-- An entry of channel 0300h in slot 12. -/
def entryOf (conversion : Conversion) (window : Option WindowDef) (divert : Bool) : Entry :=
  ⟨0x0300, 0x0B00, twelve, .int16, .float, true, conversion, window, divert⟩

/-- A machine whose active bank A holds the given entries, the first of which owns slot 12 with the given runtime. -/
def serving (d : List Entry) (r : Runtime) : State :=
  { active with
    tables := ⟨⟨d, thermocouple⟩, Bank.reset, .a, 0, .editable⟩
    slots := active.slots.put twelve ⟨some r, false⟩ }

/-- A machine that has just received a reading of channel 0300h, whose entry is given and whose slot is reset. -/
def reading (e : Entry) (raw : Word) : State := received (serving [e] (Runtime.reset e 0)) (readingCell 1 raw)

/-- What a step leaves, if it answers a next state. -/
def after (c : Instr) (s : State) : Option State :=
  match exec c s with
  | .next t => some t
  | .fault _ => none
  | .refused _ => none

/-- A response from unit 0 to tag 55h. -/
def responseOf (code : Byte) (status : Status) (contents : List Byte) : Response := ⟨0, 0x55, code, status, 0, payload contents⟩

/-- A reading of slot 12 decided in state `s`, converted to `c`. -/
def decidedOf (e : Entry) (r : Runtime) (c : Converted) : Decided := decideReading e.outputForm (sequenceCheck r 1) c

/-- An open COUNT window of length 2 that has counted one reading of value 1. -/
def halfFull : Window := ⟨.count 2, 0, 1, 0, ⟨false, 65, 0x1000000000⟩, some ⟨0x41100000, 0x41100000⟩, FaultSet.none⟩

/-- An open EPOCH window of span 1 that has counted one reading of value 1. -/
def epochOpen : Window := { halfFull with definition := .epoch 1 }

/-- A summary. -/
def someSummary : Summary := epochOpen.summary .flush 0 0x0B00 0

/-- A notice that no LINK ERROR joins. -/
def plainNotice : Notice := ⟨0, 0, 0, .commitDone 1⟩

/-- A waiting LINK ERROR notice. -/
def linkNotice : Notice := ⟨0, 0, 0, .linkError .runt ⟨true, false, false⟩ 1⟩

/-- The entries of the witnesses, by conversion and window. -/
def plainEntry : Entry := entryOf .none none false

/-- An entry with a COUNT window of length 2 and divert permitted. -/
def countEntry : Entry := entryOf .none (some (.count 2)) true

/-- An entry that RATIO divides by the last good value of channel 0400h. -/
def ratioEntry : Entry := entryOf (.ratio 0x0400 0x41100000) none true

/-- Channel 0400h, the reference, in slot 13. -/
def referenceEntry : Entry := { plainEntry with input := 0x0400, output := 0x0C00, slot := ⟨13, by decide⟩ }

/-- The converted value of the raw field 1. -/
def convertedOne : Converted := ⟨some 0x41100000, FaultSet.none, false, false, 0, 0⟩

/-! ### Steps -/

/-- IDENTIFY. -/
theorem test_identify :
    (after .identify (commanded active 0x01 0 [])).map State.responseQueue =
      some [responseOf 0x01 .done [5, 0x12, 0x10, 2, 0, 0x10, 0, 2, 0, 4, 32, 8, 16, 8, 32, 64]] := by decide +kernel

/-- A RESPONSE cell's bytes before its check. -/
theorem test_responseBytes :
    (responseOf 0x01 .done [5, 0x12]).bytes.take 8 = [0x13, 0, 0x55, 1, 0, 0, 5, 0x12] := by decide +kernel

/-- An entry inserted, then inserted again, then removed. -/
theorem test_entryInsertTwice :
    (after .entryInsert (commanded active 0x10 0x0300 [0x0B, 0x00, 0, 12, 0, 0, 0, 1])).map
        (fun t => (t.responseQueue, t.tables.bankB.directory)) =
      some ([responseOf 0x10 .done [0, 0, 0, 1]], [plainEntry]) ∧
    ((after .entryInsert
        (commanded { active with tables := active.tables.putShadow ⟨[plainEntry], []⟩ } 0x10 0x0300
          [0x0B, 0x00, 0, 12, 0, 0, 0, 1])).map State.responseQueue) = some [responseOf 0x10 .duplicate []] := by decide +kernel

/-- A reading of raw 1 under NONE leaves its CONVERTED cell with the value 1. -/
theorem test_takeReading :
    (after .takeReading (reading plainEntry 1)).map (fun t => (t.forwardQueue, t.ingressBuffer, (t.slot twelve).runtime.map Runtime.lastGood)) =
      some ([⟨.converted ⟨0x0B00, 1, 0, 0x41100000, 1, ⟨FaultSet.none, .inOrder, 0, false, false⟩, 0, twelve, 0, 0⟩, false⟩], [],
        some (some 0x41100000)) := by decide +kernel

/-- A cell received whole, its last byte the second of its check. -/
theorem test_cellComplete :
    (after (.cellComplete ((formCell [0x02]).val.getD 23 0))
        { active with receiver := .receiving ((formCell [0x02]).val.take 23) false }).map (fun t => (t.ingressBuffer, t.receiver)) =
      some ([formCell [0x02]], .idle) := by decide +kernel

/-- A response is granted before a reading, and the summary that waits raises the starvation count. -/
theorem test_grant :
    (after (.grant true)
        { active with
          responseQueue := [responseOf 0x01 .done []]
          forwardQueue := [⟨.received (cellOf [0x02]), false⟩]
          summaryQueue := [someSummary] }).map
        (fun t => (t.responseQueue, t.forwardQueue.length, t.starvationCount, t.port.map fun x => x.cell.val.take 4)) =
      some ([], 1, 1, some [0x13, 0, 0x55, 1]) := by decide +kernel

/-- A verify that passes is followed by the swap, which makes every slot pending. -/
theorem test_swap :
    (after .swap { active with tables := { active.tables with shadowState := .swapPending } }).map
        (fun t => (t.tables.generation, t.tables.active, (t.slot twelve).pending, t.reconciliation.inFlight)) =
      some (1, .b, true, true) := by decide +kernel

/-! ### Witnesses: the step and the resets -/

/-- Hypotheses of StepRunsFrontCommand. -/
theorem test_witness_StepRunsFrontCommand : ({ active with pending := [.swap, .takeEpoch] } : State).pending = .swap :: [.takeEpoch] := rfl

/-- A part whose departing cell makes the soft reset due, after a RESET PART of its own. -/
def departing : State :=
  { serving [plainEntry] (Runtime.reset plainEntry 0) with commandUnit := .resetRequested false, port := some ⟨cellOf [], true, false⟩ }

/-- The same after a broadcast, its response departed before. -/
def departingCopy : State :=
  { active with commandUnit := .resetRequested true, responseSent := true, port := some ⟨cellOf [], false, true⟩ }

/-- Hypotheses of the soft-reset part of SlotStoreAfterResets, of both its slot clauses, and of CellDeparts. -/
theorem test_witness_SlotStoreAfterResets :
    departing.port = some ⟨cellOf [], true, false⟩ ∧ ResetDueAfter departing ⟨cellOf [], true, false⟩ ∧
      findSlot departing.tables.activeBank.directory 0 = none ∧
      findSlot departing.tables.activeBank.directory twelve = some plainEntry :=
  ⟨rfl, ⟨false, rfl, Or.inr rfl, nofun⟩, by decide, by decide⟩

/-- Hypotheses of both clauses of PowerOnResetReleases. -/
theorem test_witness_PowerOnResetReleases : State.reset.resetAsserted = true ∧ State.reset.noticeQueue = [] := ⟨rfl, rfl⟩

/-- Hypotheses of CellDeparts: not due, due, and due by the marked copy of a broadcast. -/
theorem test_witness_CellDeparts :
    (∃ c, ({ active with port := some c } : State).port = some c ∧ ¬ ResetDueAfter { active with port := some c } c) ∧
      (∃ c, ({ departing with port := some c } : State).port = some c ∧ ¬ ResetDueAfter { departing with port := some c } c) ∧
      (departing.port = some ⟨cellOf [], true, false⟩ ∧ ResetDueAfter departing ⟨cellOf [], true, false⟩) ∧
      departingCopy.port = some ⟨cellOf [], false, true⟩ ∧ ResetDueAfter departingCopy ⟨cellOf [], false, true⟩ :=
  ⟨⟨⟨cellOf [], true, false⟩, rfl, fun ⟨_, h, _⟩ => CommandUnit.noConfusion h⟩,
    ⟨⟨cellOf [], false, false⟩, rfl, fun ⟨_, _, h, _⟩ => h.elim Bool.noConfusion Bool.noConfusion⟩,
    ⟨rfl, false, rfl, Or.inr rfl, nofun⟩, rfl, true, rfl, Or.inl rfl, fun _ => Or.inr rfl⟩

/-- Hypotheses of SoftResetCompletes. -/
theorem test_witness_SoftResetCompletes :
    ({ active with commandUnit := .resetting } : State).commandUnit = .resetting ∧
      ({ active with commandUnit := .resetting } : State).noticeQueue = [] := ⟨rfl, rfl⟩

/-! ### Witnesses: the egress port -/

/-- A part whose egress queues hold what is given, with a starvation count. -/
def queued (summaries : List Summary) (responses : List Response) (notices : List Notice) (forwards : List ForwardCell) (count : BitVec 4) : State :=
  { active with
    summaryQueue := summaries, responseQueue := responses, noticeQueue := notices, forwardQueue := forwards, starvationCount := count }

/-- The arbiter may grant in such a part. -/
theorem queued_ready (summaries : List Summary) (responses : List Response) (notices : List Notice) (forwards : List ForwardCell)
    (count : BitVec 4) : GrantReady (queued summaries responses notices forwards count) :=
  ⟨rfl, fun _ h => CommandUnit.noConfusion h, fun h => CommandUnit.noConfusion h⟩

/-- Hypotheses of GrantServesChosenQueue: no grant, and each row of the choice, at a starvation count of 8 and of 7 against the limit 8. -/
theorem test_witness_GrantServesChosenQueue :
    ¬ GrantReady { active with commandUnit := .resetting } ∧ ¬ GrantReady departing ∧
      ((queued [] [] [] [] 0).responseQueue = [] ∧ (queued [] [] [] [] 0).summaryQueue = []) ∧
      (GrantReady (queued [someSummary] [] [] [] 8) ∧
        (queued [someSummary] [] [] [] 8).mode.starvationLimit.toNat ≤ (queued [someSummary] [] [] [] 8).starvationCount.toNat) ∧
      (GrantReady (queued [someSummary] [responseOf 1 .done []] [] [] 7) ∧
        (queued [someSummary] [responseOf 1 .done []] [] [] 7).starvationCount.toNat <
          (queued [someSummary] [responseOf 1 .done []] [] [] 7).mode.starvationLimit.toNat) ∧
      (GrantReady (queued [] [] [plainNotice] [] 15) ∧ (queued [] [] [plainNotice] [] 15).summaryQueue = [] ∧
        (queued [] [] [plainNotice] [] 15).responseQueue = []) ∧
      (GrantReady (queued [someSummary] [] [] [⟨.received (cellOf []), true⟩] 0) ∧
        (queued [someSummary] [] [] [⟨.received (cellOf []), true⟩] 0).starvationCount.toNat <
          (queued [someSummary] [] [] [⟨.received (cellOf []), true⟩] 0).mode.starvationLimit.toNat) ∧
      (GrantReady (queued [someSummary] [] [] [] 0) ∧
        (queued [someSummary] [] [] [] 0).starvationCount.toNat < (queued [someSummary] [] [] [] 0).mode.starvationLimit.toNat ∧
        (queued [someSummary] [] [] [] 0).responseQueue = [] ∧ (queued [someSummary] [] [] [] 0).noticeQueue = [] ∧
        (queued [someSummary] [] [] [] 0).forwardQueue = []) :=
  ⟨fun h => h.notResetting rfl, fun h => Option.noConfusion rfl (heq_of_eq h.port), ⟨rfl, rfl⟩, ⟨queued_ready .., by decide⟩,
    ⟨queued_ready .., by decide⟩, ⟨queued_ready .., rfl, rfl⟩, ⟨queued_ready .., by decide⟩, queued_ready .., by decide, rfl, rfl, rfl⟩

/-- The codes at the ends of their ranges in the layouts of GrantServesChosenQueue, and the first bytes of a summary and of a notice (R174, R176,
R179). -/
theorem test_cellLayouts :
    (SequenceMark.late, (3 : BitVec 2)) ∈ [(SequenceMark.inOrder, (0 : BitVec 2)), (.gap, 1), (.repeated, 2), (.late, 3)] ∧
      (formCell someSummary.bytes).val.take 10 = [0x12, 0x0B, 0x00, 0, 2, 0, 0x41, 0x10, 0, 0] ∧
      (formCell linkNotice.bytes).val.take 12 = [0x14, 7, 0, 0, 0, 0, 0, 1, 1, 0, 1, 0] ∧
      (formCell (responseOf 0x33 .noWindow []).bytes).val.take 7 = [0x13, 0, 0x55, 0x33, 8, 0, 0] := by decide +kernel

/-! ### Witnesses: the ingress port -/

/-- A receiver with `n` bytes of a cell. -/
def receiving (n : Nat) (overrun : Bool) : State := { active with receiver := .receiving ((formCell [0x02]).val.take n) overrun }

/-- Hypotheses of ReceptionFollowsStrobes: idle, receiving with 1 and with 22 bytes, and both resets. -/
theorem test_witness_ReceptionFollowsStrobes :
    (active.resetAsserted = false ∧ active.commandUnit ≠ .resetting ∧ active.receiver = .idle) ∧
      ((receiving 1 true).resetAsserted = false ∧ (receiving 1 true).commandUnit ≠ .resetting ∧
        (receiving 1 true).receiver = .receiving ((formCell [0x02]).val.take 1) true) ∧
      ((receiving 22 false).receiver = .receiving ((formCell [0x02]).val.take 22) false ∧ ((formCell [0x02]).val.take 22).length < 23) ∧
      State.reset.resetAsserted = true ∧ ({ active with commandUnit := .resetting } : State).commandUnit = .resetting := by
  decide +kernel

/-- Hypotheses of CellCompletes: an overrun cell, a good one and one with a wrong check, and both rows that bring the last byte. -/
theorem test_witness_CellCompletes :
    ∃ bytes b, ∀ overrun : Bool, (receiving 23 overrun).resetAsserted = false ∧ (receiving 23 overrun).commandUnit ≠ .resetting ∧
      (receiving 23 overrun).receiver = .receiving bytes overrun ∧
      (formCell [0x02]).val = bytes ++ [b] ∧ (formCell [0x02]).val.drop 22 = halfBytes (crc16 ((formCell [0x02]).val.take 22)) ∧
      (cellOf ((formCell [0x02]).val.take 23 ++ [b + 1])).val = bytes ++ [b + 1] ∧
      (cellOf ((formCell [0x02]).val.take 23 ++ [b + 1])).val.drop 22 ≠
        halfBytes (crc16 ((cellOf ((formCell [0x02]).val.take 23 ++ [b + 1])).val.take 22)) ∧
      (Instr.byteWithoutTheStrobe b = .cellComplete b ∨ Instr.byteWithoutTheStrobe b = .byteWithoutTheStrobe b) :=
  ⟨(formCell [0x02]).val.take 23, (formCell [0x02]).val.getD 23 0, by decide +kernel⟩

/-- Hypotheses of NoticesHandedOver: 31 and 32 notices, the lost counter at 65534 and 65535, the enable off, a LINK ERROR waiting and none. -/
theorem test_witness_NoticesHandedOver :
    (List.replicate 31 plainNotice).length < 32 ∧
      (32 ≤ (List.replicate 32 plainNotice).length ∧
        ({ active with noticeQueue := List.replicate 32 plainNotice, noticeLost := 65534 } : State).noticeLost.toNat < 65535) ∧
      ({ active with noticeQueue := List.replicate 32 plainNotice, noticeLost := 65535 } : State).noticeLost.toNat = 65535 ∧
      ({ active with mode := ⟨.forward, false, 8⟩ } : State).mode.linkErrorEnable = false ∧
      active.mode.linkErrorEnable = true ∧
      ([plainNotice, linkNotice] = [plainNotice] ++ linkNotice :: [] ∧ linkNotice.body = .linkError .runt ⟨true, false, false⟩ 1 ∧
        ∀ m ∈ [plainNotice] ++ [], m.body.isLinkError = false) ∧
      ∀ m ∈ [plainNotice], m.body.isLinkError = false := by decide +kernel

/-! ### Witnesses: readings -/

/-- A part that has just received a reading of raw `raw` on channel 0300h, with its entry, its slot's runtime, and queues of given lengths. -/
def hearing (e : Entry) (r : Runtime) (raw : Word) (summaries notices : Nat) : State :=
  { received (serving [e, referenceEntry] r) (readingCell 1 raw) with
    summaryQueue := List.replicate summaries someSummary, noticeQueue := List.replicate notices plainNotice }

/-- The channel and the sequence number of such a cell. -/
theorem readingCell_fields (raw : Word) :
    readingChannel (readingCell 1 raw) = 0x0300 ∧ readingSequence (readingCell 1 raw) = 1 := by
  have h1 : cellByte (readingCell 1 raw) 1 = 0x03 := rfl
  have h2 : cellByte (readingCell 1 raw) (1 + 1) = 0x00 := rfl
  have h3 : cellByte (readingCell 1 raw) 3 = 0x00 := rfl
  have h4 : cellByte (readingCell 1 raw) (3 + 1) = 0x01 := rfl
  rw [readingChannel, readingSequence, cellHalf, cellHalf, h1, h2, h3, h4]
  exact ⟨rfl, rfl⟩

/-- A reading of channel 0300h in slot 12 whose window is not due is ready to be converted. -/
theorem hearing_ready (e : Entry) (r : Runtime) (raw : Word) (summaries notices : Nat) (hinput : e.input = 0x0300) (hslot : e.slot = twelve)
    (hdue : ∀ w, r.window = some w → w.due 0 = false) (hratio : ∀ c g, e.conversion = .ratio c g → c = 0x0400) :
    ReadingReady (hearing e r raw summaries notices) (readingCell 1 raw) [] e r where
  ready := ⟨rfl, rfl, Nat.zero_lt_succ _⟩
  kind := rfl
  noSwap h := ShadowState.noConfusion h
  entry := by
    rw [(readingCell_fields raw).1]
    simp [hearing, received, serving, findChannel, TableStore.activeBank, TableStore.bank, hinput]
  slot := ⟨rfl, by
    rw [hslot]
    exact congrArg Slot.pending (Table.get_put_same active.slots twelve ⟨some r, false⟩)⟩
  runtime := by
    rw [hslot]
    exact congrArg Slot.runtime (Table.get_put_same active.slots twelve ⟨some r, false⟩)
  notDue := hdue
  reference c g h := by
    cases hratio c g h
    refine ⟨referenceEntry, ?_, rfl, rfl⟩
    simp [hearing, received, serving, findChannel, TableStore.activeBank, TableStore.bank, hinput, referenceEntry]

/-- Such a reading is decided by its conversion's result. -/
theorem hearing_converts (e : Entry) (r : Runtime) (raw : Word) (summaries notices : Nat) (c : Converted)
    (h : convertRaw thermocouple e (readingRaw (readingCell 1 raw)) r.lastGood
      (referenceGood (hearing e r raw summaries notices) e) = .ok c) :
    ReadingConverts (hearing e r raw summaries notices) (readingCell 1 raw) e r (decidedOf e r c) :=
  ⟨c, h, by rw [decidedOf, (readingCell_fields raw).2]⟩

/-- A runtime of an entry just reset, with its window replaced. -/
def runtimeOf (e : Entry) (w : Option Window) : Runtime := { Runtime.reset e 0 with window := w }

/-- Hypotheses of UnknownReading: both policies, and each of the three reasons not to take a reading. -/
theorem test_witness_UnknownReading :
    (CellReady (received active (readingCell 1 1)) (readingCell 1 1) [] ∧ cellKind (readingCell 1 1) = 0x01 ∧
        (received active (readingCell 1 1)).tables.shadowState ≠ .swapPending ∧
        (∀ e ∈ (received active (readingCell 1 1)).tables.activeBank.directory, e.input ≠ readingChannel (readingCell 1 1))) ∧
      (received active (readingCell 1 1)).mode.unknownPolicy = .forward ∧
      ({ received active (readingCell 1 1) with mode := ⟨.discard, true, 8⟩ } : State).mode.unknownPolicy = .discard ∧
      ({ active with engine := .waiting ⟨readingCell 1 1, 0, plainEntry, false, none, .prepare⟩ } : State).engine ≠ .idle ∧
      16 ≤ (List.replicate 16 (⟨.received (cellOf []), false⟩ : ForwardCell)).length ∧
      ({ active with tables := { active.tables with shadowState := .swapPending } } : State).tables.shadowState = .swapPending :=
  ⟨⟨⟨rfl, rfl, by decide⟩, rfl, nofun, nofun⟩, rfl, rfl, nofun, by decide, rfl⟩

/-- An entry whose table at 200h drops every reading but 0, and one whose empty table passes every reading raw. -/
def missEntry (table : BitVec 12) : Entry := entryOf (.segmented table) none false

/-- Hypotheses of ReadingEndsUncounted: a reading dropped, and one passed raw with RNG. -/
theorem test_witness_ReadingEndsUncounted :
    (∃ d, ReadingReady (hearing (missEntry 0x200) (runtimeOf (missEntry 0x200) none) 1 0 0) (readingCell 1 1) [] (missEntry 0x200)
          (runtimeOf (missEntry 0x200) none) ∧
        ReadingConverts (hearing (missEntry 0x200) (runtimeOf (missEntry 0x200) none) 1 0 0) (readingCell 1 1) (missEntry 0x200)
          (runtimeOf (missEntry 0x200) none) d ∧
        (d.quality.faults.any && (runtimeOf (missEntry 0x200) none).armed) = false ∧ d.y = none) ∧
      ∃ d, ReadingReady (hearing (missEntry 0x300) (runtimeOf (missEntry 0x300) none) 1 0 0) (readingCell 1 1) [] (missEntry 0x300)
          (runtimeOf (missEntry 0x300) none) ∧
        ReadingConverts (hearing (missEntry 0x300) (runtimeOf (missEntry 0x300) none) 1 0 0) (readingCell 1 1) (missEntry 0x300)
          (runtimeOf (missEntry 0x300) none) d ∧
        (d.quality.faults.any && (runtimeOf (missEntry 0x300) none).armed) = false ∧ d.y = some 0x41100000 ∧ d.qualifies = false :=
  ⟨⟨_, hearing_ready _ _ _ _ _ rfl rfl nofun nofun, hearing_converts _ _ _ _ _ ⟨none, FaultSet.ofRng, false, false, 0, 0⟩ rfl, rfl, rfl⟩,
    ⟨_, hearing_ready _ _ _ _ _ rfl rfl nofun nofun,
      hearing_converts _ _ _ _ _ ⟨some 0x41100000, FaultSet.ofRng, false, false, 0, 0⟩ (by rfl), rfl, rfl, rfl⟩⟩

/-- Hypotheses of ReadingEndsUncounted's rows: an IDLE slot; the differences at which the rows of the sequence check meet, across the wrap of the
sequence number; a conversion without a y, and one with each output form. -/
theorem test_witness_ReadingEndsUncounted_rows :
    (runtimeOf plainEntry none).live = false ∧ ({ runtimeOf plainEntry none with live := true, lastSequence := 0xFFFF } : Runtime).live = true ∧
      (∀ d ∈ [0, 1, 2, 32767, 32768, 65535], d < 65536 ∧ (BitVec.ofNat 16 (65535 + d)).toNat = ((0xFFFF : Half).toNat + d) % 65536) ∧
      (⟨none, FaultSet.ofRng, false, false, 0, 0⟩ : Converted).y = none ∧ convertedOne.y = some 0x41100000 ∧
      plainEntry.outputForm = .float ∧ ({ plainEntry with outputForm := .integer 4 } : Entry).outputForm = .integer 4 := by decide

/-- The rows of the sequence check at those differences. -/
theorem test_sequenceCheck :
    (([0, 1, 2, 32767, 32768, 65535].map fun d =>
      let q := sequenceCheck { runtimeOf plainEntry none with live := true, lastSequence := 0xFFFF } (BitVec.ofNat 16 (65535 + d))
      (q.mark, q.missed, q.runtime.lastSequence)) =
      [(.repeated, 0, 0xFFFF), (.inOrder, 0, 0), (.gap, 1, 1), (.gap, 32766, 0x7FFE), (.late, 0, 0xFFFF), (.late, 0, 0xFFFF)]) := by decide

/-- Hypotheses of ReadingCounted: without a window, and into a COUNT window of length 2 that has counted none. -/
theorem test_witness_ReadingCounted :
    ∀ w ∈ [none, some (Window.fresh 0 (.count 2))],
      ∃ d, ReadingReady (hearing countEntry (runtimeOf countEntry w) 1 0 0) (readingCell 1 1) [] countEntry (runtimeOf countEntry w) ∧
        ReadingConverts (hearing countEntry (runtimeOf countEntry w) 1 0 0) (readingCell 1 1) countEntry (runtimeOf countEntry w) d ∧
        (d.quality.faults.any && (runtimeOf countEntry w).armed) = false ∧ d.y = some 0x41100000 ∧ d.qualifies = true ∧
        ∀ x length, (heard (runtimeOf countEntry w) (readingCell 1 1) d).window = some x → x.definition = .count length →
          x.counted + 1 < length := by
  intro w hw
  refine ⟨_, hearing_ready _ _ _ _ _ rfl rfl ?_ nofun, hearing_converts _ _ _ _ _ convertedOne rfl, rfl, rfl, rfl, ?_⟩
  · intro x hx
    rcases List.mem_pair.1 hw with rfl | rfl
    · cases hx
    · cases hx
      rfl
  · intro x length hx hl
    rcases List.mem_pair.1 hw with rfl | rfl
    · cases hx
    · cases hx
      cases hl
      decide

/-- Hypotheses of CountClosure: the second reading of a COUNT 2 window, with 63 and with 64 summaries waiting. -/
theorem test_witness_CountClosure :
    ∀ n ∈ [63, 64], ∃ d w length,
      ReadingReady (hearing countEntry (runtimeOf countEntry (some halfFull)) 1 n 0) (readingCell 1 1) [] countEntry
          (runtimeOf countEntry (some halfFull)) ∧
        ReadingConverts (hearing countEntry (runtimeOf countEntry (some halfFull)) 1 n 0) (readingCell 1 1) countEntry
          (runtimeOf countEntry (some halfFull)) d ∧
        (d.quality.faults.any && (runtimeOf countEntry (some halfFull)).armed) = false ∧ d.y = some 0x41100000 ∧ d.qualifies = true ∧
        (heard (runtimeOf countEntry (some halfFull)) (readingCell 1 1) d).window = some w ∧ w.definition = .count length ∧
        length ≤ w.counted + 1 ∧ (hearing countEntry (runtimeOf countEntry (some halfFull)) 1 n 0).summaryQueue.length = n := by
  intro n _
  exact ⟨_, _, 2, hearing_ready _ _ _ _ _ rfl rfl (fun x hx => by cases hx; rfl) nofun, hearing_converts _ _ _ _ _ convertedOne rfl, rfl, rfl,
    rfl, rfl, rfl, by decide, List.length_replicate⟩

/-- The Engine holding a reading at its count closure, with `n` summaries waiting. -/
def closing (n : Nat) : State :=
  { hearing countEntry (runtimeOf countEntry (some halfFull)) 1 n 0 with
    engine := .waiting
      ⟨readingCell 1 1, 0, countEntry, true, none,
        .count ⟨0x41100000, 0, ⟨0x0B00, 1, 0, 0x41100000, 1, ⟨FaultSet.none, .inOrder, 0, false, false⟩, 0, twelve, 0, 0⟩⟩⟩ }

/-- Hypotheses of EngineResumeClosesCount, with 63 and with 64 summaries waiting. -/
theorem test_witness_EngineResumeClosesCount :
    ∀ n ∈ [63, 64], ∃ h c, (closing n).engine = .waiting h ∧ h.step = .count c ∧
      ((closing n).slot h.entry.slot).runtime = some (runtimeOf countEntry (some halfFull)) ∧
      (runtimeOf countEntry (some halfFull)).window = some halfFull ∧ halfFull.definition = .count 2 ∧ 2 ≤ halfFull.counted + 1 ∧
      (closing n).summaryQueue.length = n := by
  intro n _
  exact ⟨_, _, rfl, rfl, congrArg Slot.runtime (Table.get_put_same active.slots twelve _), rfl, rfl, by decide, List.length_replicate⟩

/-- The Engine holding a reading at its slot preparation, the buffer empty. -/
def preparing : State :=
  { hearing plainEntry (runtimeOf plainEntry none) 1 0 0 with
    ingressBuffer := [], engine := .waiting ⟨readingCell 1 1, 0, plainEntry, false, none, .prepare⟩ }

/-- Hypotheses of ReadingDiverted: NOREF under an armed slot, with 31 and with 32 notices waiting, the lost counter at 0. -/
theorem test_witness_ReadingDiverted :
    ∀ n ∈ [31, 32], ∃ d,
      ReadingReady (hearing ratioEntry (runtimeOf ratioEntry none) 1 0 n) (readingCell 1 1) [] ratioEntry (runtimeOf ratioEntry none) ∧
        ReadingConverts (hearing ratioEntry (runtimeOf ratioEntry none) 1 0 n) (readingCell 1 1) ratioEntry (runtimeOf ratioEntry none) d ∧
        d.quality.faults.any = true ∧ (runtimeOf ratioEntry none).armed = true ∧
        (hearing ratioEntry (runtimeOf ratioEntry none) 1 0 n).noticeQueue.length = n ∧
        (hearing ratioEntry (runtimeOf ratioEntry none) 1 0 n).noticeLost.toNat < 65535 := by
  intro n _
  exact ⟨_, hearing_ready _ _ _ _ _ rfl rfl nofun (fun c g h => by cases h; rfl),
    hearing_converts _ _ _ _ _ ⟨some 0, FaultSet.ofNoref, false, false, 0, 0⟩ rfl, rfl, rfl, List.length_replicate, Nat.zero_lt_succ _⟩

/-- The third row of ReadingDiverted: 32 notices waiting and the lost counter at 65535. -/
theorem test_witness_ReadingDiverted_saturated :
    ∃ s d, ReadingReady s (readingCell 1 1) [] ratioEntry (runtimeOf ratioEntry none) ∧
        ReadingConverts s (readingCell 1 1) ratioEntry (runtimeOf ratioEntry none) d ∧ d.quality.faults.any = true ∧
        32 ≤ s.noticeQueue.length ∧ s.noticeLost.toNat = 65535 := by
  have h := hearing_ready ratioEntry (runtimeOf ratioEntry none) 1 0 32 rfl rfl nofun (fun c g h => by cases h; rfl)
  obtain ⟨c, hc⟩ := hearing_converts ratioEntry (runtimeOf ratioEntry none) 1 0 32 ⟨some 0, FaultSet.ofNoref, false, false, 0, 0⟩ rfl
  refine ⟨{ hearing ratioEntry (runtimeOf ratioEntry none) 1 0 32 with noticeLost := 65535 }, _,
    ⟨⟨h.ready.buffer, h.ready.engine, h.ready.place⟩, h.kind, h.noSwap, h.entry, ⟨h.slot.unclaimed, h.slot.reconciled⟩, h.runtime, h.notDue,
      ?_⟩, ⟨c, hc⟩, rfl, ?_, rfl⟩
  · intro channel gain k
    obtain ⟨f, hf, hs⟩ := h.reference channel gain k
    exact ⟨f, hf, ⟨hs.unclaimed, hs.reconciled⟩⟩
  · exact Nat.le_of_eq List.length_replicate.symm

/-- An entry with an EPOCH window of span 1. -/
def epochEntry : Entry := entryOf .none (some (.epoch 1)) false

/-- Its slot's runtime, the window open since epoch 0 with one reading counted. -/
def epochRuntime : Runtime := runtimeOf epochEntry (some epochOpen)

/-- A part at epoch 1, where that window is due, with `n` summaries waiting. -/
def overdue (n : Nat) : State := { hearing epochEntry epochRuntime 1 n 0 with epochCount := 1 }

/-- A part whose slot 12 is pending and belongs to channel 0999h, its window open, with `n` summaries waiting. -/
def unreconciled (n : Nat) : State :=
  { hearing epochEntry epochRuntime 1 n 0 with
    slots := active.slots.put twelve ⟨some { epochRuntime with owner := 0x0999 }, true⟩
    reconciliation := ⟨true, ⟨0, by decide⟩, false⟩ }

/-- The slots of a part that serves one channel. -/
theorem served_slot (x : Slot) (i : SlotId) : (active.slots.put twelve x).get i = if i = twelve then x else ⟨none, false⟩ := by
  rw [Table.get_put]
  split
  · rfl
  · exact State.slot_reset i

/-- The windows of that part at epoch 1 are well formed. -/
theorem overdue_windows (n : Nat) : WindowsWellFormed (overdue n) := by
  intro i r h
  have hs : (overdue n).slot i = if i = twelve then ⟨some epochRuntime, false⟩ else ⟨none, false⟩ := served_slot _ i
  rw [hs] at h
  split at h
  · cases h
    exact ⟨rfl, fun w hw => by cases hw; exact ⟨⟨by decide, by decide, by decide⟩, by decide⟩⟩
  · cases h

/-- The parts of the two witnesses below, whatever waits in the Summary Queue. -/
theorem served_parts (n : Nat) :
    (CellReady (overdue n) (readingCell 1 1) [] ∧ (overdue n).tables.shadowState ≠ .swapPending ∧
      findChannel (overdue n).tables.activeBank.directory (readingChannel (readingCell 1 1)) = some epochEntry ∧
      (overdue n).claimedByOther .engine twelve = false ∧ ((overdue n).slot twelve).pending = false) ∧
    CellReady (unreconciled n) (readingCell 1 1) [] ∧ (unreconciled n).tables.shadowState ≠ .swapPending ∧
      findChannel (unreconciled n).tables.activeBank.directory (readingChannel (readingCell 1 1)) = some epochEntry ∧
      (unreconciled n).claimedByOther .engine twelve = false ∧ ((unreconciled n).slot twelve).pending = true :=
  ⟨⟨⟨rfl, rfl, Nat.zero_lt_succ _⟩, nofun, rfl, rfl, rfl⟩, ⟨rfl, rfl, Nat.zero_lt_succ _⟩, nofun, rfl, rfl, rfl⟩

/-- The reference's slot. -/
def thirteen : SlotId := ⟨13, by decide⟩

/-- A RATIO entry with an EPOCH window of span 1. -/
def ratioEpoch : Entry := { ratioEntry with window := some (.epoch 1) }

/-- Its slot's runtime, the window open since epoch 0 with one reading counted. -/
def ratioRuntime : Runtime := runtimeOf ratioEpoch (some epochOpen)

/-- A part at epoch 1, where that window is due, with `n` summaries waiting; its reference slot belongs to channel 0999h, a window open, and is
pending or not. -/
def ratioPart (n : Nat) (pending : Bool) : State :=
  { hearing ratioEpoch ratioRuntime 1 n 0 with
    epochCount := 1
    slots := (active.slots.put twelve ⟨some ratioRuntime, false⟩).put thirteen ⟨some { epochRuntime with owner := 0x0999 }, pending⟩
    reconciliation := ⟨true, ⟨0, by decide⟩, false⟩ }

/-- Whatever waits in its Summary Queue, its reading may be taken, its own slot is ready, and its reference slot is no other party's. -/
theorem ratioPart_ready (n : Nat) (pending : Bool) :
    CellReady (ratioPart n pending) (readingCell 1 1) [] ∧ (ratioPart n pending).tables.shadowState ≠ .swapPending ∧
      findChannel (ratioPart n pending).tables.activeBank.directory (readingChannel (readingCell 1 1)) = some ratioEpoch ∧
      (ratioPart n pending).claimedByOther .engine twelve = false ∧ ((ratioPart n pending).slot twelve).pending = false ∧
      ratioEpoch.conversion = .ratio 0x0400 0x41100000 ∧
      findChannel (ratioPart n pending).tables.activeBank.directory 0x0400 = some referenceEntry ∧ referenceEntry.slot = thirteen ∧
      (ratioPart n pending).claimedByOther .engine thirteen = false :=
  ⟨⟨rfl, rfl, Nat.zero_lt_succ _⟩, nofun, rfl, rfl, rfl, rfl, rfl, rfl, rfl⟩

/-- Its windows are well formed. -/
theorem ratioPart_windows (n : Nat) (pending : Bool) : WindowsWellFormed (ratioPart n pending) := by
  intro i r h
  have hs : (ratioPart n pending).slot i =
      if i = thirteen then ⟨some { epochRuntime with owner := 0x0999 }, pending⟩
      else if i = twelve then ⟨some ratioRuntime, false⟩ else ⟨none, false⟩ := by
    show ((active.slots.put twelve _).put thirteen _).get i = _
    rw [Table.get_put, served_slot]
  rw [hs] at h
  split at h
  · cases h
    exact ⟨rfl, fun w hw => by cases hw; exact ⟨⟨by decide, by decide, by decide⟩, by decide⟩⟩
  split at h
  · cases h
    exact ⟨rfl, fun w hw => by cases hw; exact ⟨⟨by decide, by decide, by decide⟩, by decide⟩⟩
  · cases h

/-- Hypotheses of SlotPreparedBeforeReading, with 63 summaries waiting: a slot reconciled (`served_parts` gives the rest), a due window closed;
and for a RATIO entry (`ratioPart_ready` gives the rest) the reference slot reconciled, and the own slot's due window closed. -/
theorem test_witness_SlotPreparedBeforeReading :
    cellKind (readingCell 1 1) = 0x01 ∧ (∃ t, (unreconciled 63).reconcileSlot twelve = some t) ∧ epochEntry.conversion.isRatio = false ∧
      (WindowsWellFormed (overdue 63) ∧ ∃ t, (overdue 63).closeDue twelve = some t) ∧
      (∃ t, (ratioPart 63 true).reconcileSlot thirteen = some t) ∧
      ((ratioPart 63 false).slot thirteen).pending = false ∧ WindowsWellFormed (ratioPart 63 false) ∧
      ∃ t, (ratioPart 63 false).closeDue twelve = some t :=
  ⟨rfl, ⟨_, rfl⟩, rfl, ⟨overdue_windows 63, _, rfl⟩, ⟨_, rfl⟩, rfl, ratioPart_windows 63 false, _, rfl⟩

/-- Hypotheses of ReadingWaitsForSlot: a claim of another party, and both preparations in want of a place with 64 summaries waiting
(`served_parts` gives the rest); the same for the reference slot of a RATIO entry (`ratioPart_ready` gives the rest). -/
theorem test_witness_ReadingWaitsForSlot :
    ({ overdue 0 with sweep := ⟨true, twelve, false, true⟩ } : State).claimedByOther .engine twelve = true ∧
      (unreconciled 64).reconcileSlot twelve = none ∧ (overdue 64).closeDue twelve = none ∧
      ({ ratioPart 0 false with sweep := ⟨true, thirteen, false, true⟩ } : State).claimedByOther .engine thirteen = true ∧
      (ratioPart 64 true).reconcileSlot thirteen = none ∧
      (((ratioPart 64 false).slot thirteen).pending = false ∧ (ratioPart 64 false).closeDue twelve = none) :=
  ⟨rfl, rfl, rfl, rfl, rfl, rfl, rfl⟩

/-- The reading of a part, held by the Engine at its slot preparation. -/
def held (s : State) (e : Entry) : State :=
  { s with ingressBuffer := [], engine := .waiting ⟨readingCell 1 1, 0, e, false, none, .prepare⟩ }

/-- Hypotheses of the first two parts of ResumeRunsAsTaken: slots that are ready, without and with a swap pending. -/
theorem test_witness_ResumeRunsAsTaken_ready :
    (∃ h, preparing.engine = .waiting h ∧ h.step = .prepare ∧ h.generation = preparing.tables.generation ∧
      ReadingReady { preparing with engine := .idle, ingressBuffer := h.cell :: preparing.ingressBuffer } h.cell preparing.ingressBuffer
        h.entry (runtimeOf plainEntry none)) ∧
    ∃ h t, (setShadowState preparing .swapPending).engine = .waiting h ∧ h.step = .prepare ∧
      h.generation = (setShadowState preparing .swapPending).tables.generation ∧
      (setShadowState preparing .swapPending).tables.shadowState = .swapPending ∧
      ReadingReady
        { setShadowState (setShadowState preparing .swapPending) .editable with
          engine := .idle, ingressBuffer := h.cell :: (setShadowState preparing .swapPending).ingressBuffer }
        h.cell (setShadowState preparing .swapPending).ingressBuffer h.entry (runtimeOf plainEntry none) ∧
      exec .takeReading
        { setShadowState (setShadowState preparing .swapPending) .editable with
          engine := .idle, ingressBuffer := h.cell :: (setShadowState preparing .swapPending).ingressBuffer } = .next t :=
  ⟨⟨_, rfl, rfl, rfl, hearing_ready plainEntry (runtimeOf plainEntry none) 1 0 0 rfl rfl nofun nofun⟩, _, _, rfl, rfl, rfl, rfl,
    hearing_ready plainEntry (runtimeOf plainEntry none) 1 0 0 rfl rfl nofun nofun, rfl⟩

/-- Hypotheses of the steps of ResumeRunsAsTaken: the own slot's claim and its reconciliation, with and without a place; the same of the
reference slot of a RATIO entry; and the due window of either kind of entry, with and without a place. -/
theorem test_witness_ResumeRunsAsTaken_steps :
    (∀ s e, (held s e).engine = .waiting ⟨readingCell 1 1, 0, e, false, none, .prepare⟩) ∧
      (held { overdue 0 with sweep := ⟨true, twelve, false, true⟩ } epochEntry).claimedByOther .engine twelve = true ∧
      (held (unreconciled 63) epochEntry).claimedByOther .engine twelve = false ∧
      (∃ t, (held (unreconciled 63) epochEntry).reconcileSlot twelve = some t) ∧
      (held (unreconciled 64) epochEntry).reconcileSlot twelve = none ∧
      (((held (ratioPart 0 false) ratioEpoch).slot twelve).pending = false ∧
        findChannel (held (ratioPart 0 false) ratioEpoch).tables.activeBank.directory 0x0400 = some referenceEntry) ∧
      (held { ratioPart 0 false with sweep := ⟨true, thirteen, false, true⟩ } ratioEpoch).claimedByOther .engine thirteen = true ∧
      (held (ratioPart 0 false) ratioEpoch).claimedByOther .engine thirteen = false ∧
      (∃ t, (held (ratioPart 63 true) ratioEpoch).reconcileSlot thirteen = some t) ∧
      (held (ratioPart 64 true) ratioEpoch).reconcileSlot thirteen = none ∧
      ((held (ratioPart 63 false) ratioEpoch).slot thirteen).pending = false ∧
      (∃ t, (held (ratioPart 63 false) ratioEpoch).closeDue twelve = some t) ∧ (held (ratioPart 64 false) ratioEpoch).closeDue twelve = none ∧
      (∃ t, (held (overdue 63) epochEntry).closeDue twelve = some t) ∧ (held (overdue 64) epochEntry).closeDue twelve = none ∧
      WindowsWellFormed (held (ratioPart 63 false) ratioEpoch) ∧ WindowsWellFormed (held (overdue 63) epochEntry) :=
  ⟨fun _ _ => rfl, rfl, rfl, ⟨_, rfl⟩, rfl, ⟨rfl, rfl⟩, rfl, rfl, ⟨_, rfl⟩, rfl, rfl, ⟨_, rfl⟩, rfl, ⟨_, rfl⟩, rfl, ratioPart_windows 63 false,
    overdue_windows 63⟩

/-- Hypotheses of WindowCountsReading: a COUNT window, and EPOCH windows with 4095 and with 4096 counted; a window with extremes; counts of one
digit (1), of three (4095) and of four (4096), against a sum of zero, one whose first digits are at least the count's, and one below them. -/
theorem test_witness_WindowCountsReading :
    (∀ span, halfFull.definition = .epoch span → halfFull.counted < 4096) ∧
      (∀ span, ({ epochOpen with counted := 4095 } : Window).definition = .epoch span → ({ epochOpen with counted := 4095 } : Window).counted < 4096) ∧
      ({ epochOpen with counted := 4096 } : Window).definition = .epoch 1 ∧ 4096 ≤ ({ epochOpen with counted := 4096 } : Window).counted ∧
      (halfFull.extremes = some ⟨0x41100000, 0x41100000⟩ ∧ halfFull.definition = .count 2 ∧ epochOpen.definition = .epoch 1) ∧
      (∀ x ∈ [(1, 1), (4095, 3), (4096, 4)], 1 ≤ x.1 ∧ x.1 ≤ 4096 ∧ 1 ≤ x.2 ∧ 16 ^ (x.2 - 1) ≤ x.1 ∧ x.1 < 16 ^ x.2) ∧
      WideFloat.zero.fraction.toNat = 0 ∧ 1 * 16 ^ (10 - 1) ≤ halfFull.sum.fraction.toNat ∧ 4096 * 16 ^ (10 - 4) ≤ halfFull.sum.fraction.toNat ∧
      (halfFull.sum.fraction.toNat ≠ 0 ∧ halfFull.sum.fraction.toNat < 4095 * 16 ^ (10 - 3)) :=
  ⟨nofun, fun _ _ => Nat.lt_succ_self 4095, rfl, Nat.le_refl 4096, ⟨rfl, rfl, rfl⟩, by decide, rfl, by decide, by decide, by decide⟩

/-! ### Witnesses: conversion and arithmetic -/

/-- Hypotheses of NoneAndLinear: NONE; LINEAR, with a gain of zero and with an offset of zero, the other normalized or zero. -/
theorem test_witness_NoneAndLinear :
    plainEntry.conversion = .none ∧ (entryOf (.linear 0x40800000 0x41100000) none false).conversion = .linear 0x40800000 0x41100000 ∧
      (isZeroFloat 0 = true ∧ isNormalized 0x40800000 = true) ∧ isZeroFloat 0xC1000000 = true := by decide

/-- Hypotheses of RatioRows: no last good value, a zero one and one that is not zero. -/
theorem test_witness_RatioRows :
    ratioEntry.conversion = .ratio 0x0400 0x41100000 ∧ isZeroFloat 0x00000000 = true ∧ isZeroFloat 0x41100000 = false := by decide

/-- A pool with one header at 0 and the entry word of its bucket 0 at 1. -/
def oneTable (header entry : Word) : Memory := [(0, header), (1, entry)]

/-- Hypotheses of SegmentLookupAtOneTable: buckets below L, above H and EMPTY, each miss action, each kind of entry word, and the last
address for the entry word and for the offset. -/
theorem test_witness_SegmentLookupAtOneTable :
    (headerOfWord 0x00000000).miss = .passRaw ∧ (headerOfWord 0x00000002).miss = .holdLast ∧ (headerOfWord 0x00000004).miss = .drop ∧
      (headerOfWord 0x00000006).miss = .zero ∧
      ((-1 : Int).fdiv (2 ^ (headerOfWord 0x00000000).shift) < (headerOfWord 0x00000000).low) ∧
      ((headerOfWord 0x00000000).high < (1 : Int).fdiv (2 ^ (headerOfWord 0x00000000).shift)) ∧
      (4094 + 1 + ((0 : Int) - (headerOfWord 0x00000000).low).toNat ≤ 4095 ∧ (entryOfWord 0).kind = .empty) ∧
      ((headerOfWord 0x00000000).low ≤ 0 ∧ 0 ≤ (headerOfWord 0x00000000).high) ∧
      (entryOfWord (Memory.read (oneTable 0x00000001 0x80000000) 1)).kind = .link ∧
      (entryOfWord (Memory.read (oneTable 0x00000001 0xCFFF0000) 1)).kind = .constant ∧
      ((entryOfWord (Memory.read (oneTable 0x00000001 0x4FFE0000) 1)).kind = .segment ∧
        (entryOfWord (Memory.read (oneTable 0x00000001 0x4FFE0000) 1)).target + 1 ≤ 4095) := by decide +kernel

/-- Hypotheses of the SEGMENTED rows of SegmentLookupAtOneTable: each integer input form. -/
theorem test_witness_SegmentedForms :
    [InputForm.int16, .int24, .uint16].all fun f =>
      decide ((⟨0x0300, 0x0B00, twelve, f, .float, true, .segmented 0x100, none, false⟩ : Entry).conversion = .segmented 0x100) := by decide

/-- Hypotheses of SubtractAddsNegation and CompareOrdersValues: normalized values of both signs, and zeros of several patterns. -/
theorem test_witness_CompareOrdersValues :
    isNormalized 0x41100000 = true ∧ isNormalized 0xC1100000 = true ∧ isZeroFloat 0x00000000 = true ∧ isZeroFloat 0xC1000000 = true ∧
      (0x41100000 : Word).getLsbD 31 = false ∧ (0xC1100000 : Word).getLsbD 31 = true := by decide

/-- Hypotheses of NarrowingTruncates: a normalized wide float, the largest among them. -/
theorem test_witness_NarrowingTruncates :
    (⟨false, 65, 0x1000000000⟩ : WideFloat).fraction.extractLsb' 36 4 ≠ 0 ∧
      ((⟨true, 127, BitVec.allOnes 40⟩ : WideFloat).fraction.extractLsb' 36 4 ≠ 0 ∧
        (⟨true, 127, BitVec.allOnes 40⟩ : WideFloat).exponent = 127) := by decide

/-- Negation and magnitude, at a value of each sign and at zeros (R40). -/
theorem test_negateAndMagnitude :
    negate 0x41A80000 = 0xC1A80000 ∧ negate 0xC1A80000 = 0x41A80000 ∧ negate 0xC1000000 = 0 ∧ magnitude 0xC1A80000 = 0x41A80000 ∧
      magnitude 0x41A80000 = 0x41A80000 ∧ magnitude 0x80000000 = 0 := by decide

/-- Hypotheses of the sign and wide parts of ArithmeticResultsNormalized: values normalized and zero, sums normalized and wide true zero, and the
counts 1 and 4096. -/
theorem test_witness_ArithmeticResultsNormalized :
    (isNormalized 0xC1A80000 = true ∧ isZeroFloat 0x80000000 = true) ∧
      ((⟨true, 127, BitVec.allOnes 40⟩ : WideFloat).fraction.extractLsb' 36 4 ≠ 0 ∧ halfFull.sum.fraction.extractLsb' 36 4 ≠ 0 ∧
        (Window.fresh 0 (.count 2)).sum = WideFloat.zero) ∧
      (1 ≤ 1 ∧ 1 ≤ 4096) ∧ (1 ≤ 4096 ∧ 4096 ≤ 4096) := by decide

/-- Hypotheses of the entry rows of ArithmeticResultsNormalized: integers of 1 and of 6 digits; a FLOAT value with 1 and with 5 leading zero
digits, the exponent so lowered at -64 and below it. -/
theorem test_witness_EntryRows :
    ((16 ^ (1 - 1) ≤ (-1 : Int).natAbs ∧ (-1 : Int).natAbs < 16 ^ 1) ∧
      16 ^ (6 - 1) ≤ (-8388608 : Int).natAbs ∧ (-8388608 : Int).natAbs < 16 ^ 6) ∧
      ((16 ^ (5 - 1) ≤ (unpack 0x010FFFFF).fraction ∧ (unpack 0x010FFFFF).fraction < 16 ^ (6 - 1)) ∧
        (unpack 0x010FFFFF).exponent - (1 : Nat) = -64) ∧
      ((16 ^ (5 - 5) ≤ (unpack 0x04000001).fraction ∧ (unpack 0x04000001).fraction < 16 ^ (6 - 5)) ∧
        (unpack 0x04000001).exponent - (5 : Nat) < -64) ∧
      normalizeOnEntry 0x010FFFFF = ⟨0x00FFFFF0, FaultSet.none⟩ ∧ normalizeOnEntry 0x04000001 = ⟨0, FaultSet.ofUnf⟩ ∧
      normalizeOnEntry 0x85000001 = ⟨0x80100000, FaultSet.none⟩ := by decide +kernel

/-- Hypotheses of the add rows, with the numbers they give: an exponent difference of 0, 6 and 7; a carry within the range and past it; equal
fractions of opposite sign; 6 leading zero digits, with the exponent at -64 and below it; the trailing fraction larger (R42 to R44). -/
theorem test_addRows :
    ((unpack 0x41100000).exponent - (unpack 0x3BFFFFFF).exponent = (6 : Nat) ∧ addFloat 0x41100000 0x3BFFFFFF = ⟨0x41100000, FaultSet.none⟩ ∧
      addFloat 0xC1100000 0x3B100000 = ⟨0xC0FFFFFF, FaultSet.none⟩) ∧
      ((unpack 0x41100000).exponent - (unpack 0x3AFFFFFF).exponent = (7 : Nat) ∧ addFloat 0x3AFFFFFF 0xC1100000 = ⟨0xC1100000, FaultSet.none⟩) ∧
      (addFloat 0x7E800000 0x7E800000 = ⟨0x7F100000, FaultSet.none⟩ ∧ addFloat 0xFF800000 0xFF800000 = ⟨0xFFFFFFFF, FaultSet.ofOvf⟩) ∧
      addFloat 0x41100000 0xC1100000 = ⟨0, FaultSet.none⟩ ∧
      (addFloat 0x06100000 0x85FFFFFF = ⟨0x00100000, FaultSet.none⟩ ∧ addFloat 0x05100000 0x84FFFFFF = ⟨0, FaultSet.ofUnf⟩) ∧
      addFloat 0x41100000 0xC1300000 = ⟨0xC1200000, FaultSet.none⟩ := by decide +kernel

/-- Hypotheses of the multiply and divide rows, with the numbers they give: a product at 16^11 and below it, OVF and UNF at the ends of the
exponent range; a dividend fraction equal to the divisor's and one below it (R46, R47). -/
theorem test_multiplyAndDivideRows :
    ((unpack 0x41400000).fraction * (unpack 0x41400000).fraction = 16 ^ 11 ∧ multiplyFloat 0x41400000 0xC1400000 = ⟨0xC2100000, FaultSet.none⟩ ∧
      ((unpack 0x413FFFFF).fraction * (unpack 0x41400000).fraction < 16 ^ 11 ∧
        multiplyFloat 0x413FFFFF 0x41400000 = ⟨0x41FFFFFC, FaultSet.none⟩)) ∧
      (multiplyFloat 0x7F400000 0x41400000 = ⟨0x7FFFFFFF, FaultSet.ofOvf⟩ ∧ multiplyFloat 0x7F400000 0xC0400000 = ⟨0xFF100000, FaultSet.none⟩ ∧
        multiplyFloat 0x00100000 0x40400000 = ⟨0, FaultSet.ofUnf⟩ ∧ multiplyFloat 0x00100000 0x41400000 = ⟨0x00400000, FaultSet.none⟩) ∧
      (divideFloat 0x41300000 0xC1300000 = ⟨0xC1100000, FaultSet.none⟩ ∧ divideFloat 0x41200000 0x41300000 = ⟨0x40AAAAAA, FaultSet.none⟩) ∧
      (divideFloat 0x7F300000 0x40300000 = ⟨0x7FFFFFFF, FaultSet.ofOvf⟩ ∧ divideFloat 0x00200000 0x41300000 = ⟨0, FaultSet.ofUnf⟩) ∧
      (divideFloat 0 0x41300000 = ⟨0, FaultSet.none⟩ ∧ divideFloat 0 0xC1000000 = ⟨0, FaultSet.ofDvz⟩) := by decide +kernel

/-- Hypotheses of the wide add rows, with the numbers they give: the sum leading and the reading leading, an exponent difference of 10 and 11,
the largest magnitude with a reading that carries in and one that does not, and zero operands (R51; notes/assumptions/26.md). -/
theorem test_wideAddRows :
    wideAdd ⟨false, 75, 0x1000000000⟩ 0x41100000 = ⟨⟨false, 75, 0x1000000000⟩, FaultSet.none⟩ ∧
      wideAdd ⟨false, 75, 0x1000000000⟩ 0x42100000 = ⟨⟨false, 75, 0x1000000001⟩, FaultSet.none⟩ ∧
      wideAdd ⟨false, 64, 0x1000000000⟩ 0x4B100000 = ⟨⟨false, 75, 0x1000000000⟩, FaultSet.none⟩ ∧
      wideAdd ⟨false, 66, 0x1000000000⟩ 0xC2100000 = ⟨⟨false, 0, 0⟩, FaultSet.none⟩ ∧
      wideAdd ⟨false, 127, BitVec.allOnes 40⟩ 0x7F100000 = ⟨⟨false, 127, BitVec.allOnes 40⟩, FaultSet.ofOvf⟩ ∧
      wideAdd ⟨false, 127, BitVec.allOnes 40⟩ 0x41100000 = ⟨⟨false, 127, BitVec.allOnes 40⟩, FaultSet.none⟩ ∧
      wideAdd ⟨false, 0, 0⟩ 0xC1123456 = ⟨⟨true, 65, 0x1234560000⟩, FaultSet.none⟩ ∧
      wideAdd ⟨true, 65, 0x1234567890⟩ 0xC1000000 = ⟨⟨true, 65, 0x1234567890⟩, FaultSet.none⟩ := by decide +kernel

/-- Hypotheses of ArithmeticResultsNormalized and FixToIntegerRows: operands normalized and zero, an integer of the range, and e + k at 0, 1, 6
and 7. -/
theorem test_witness_FixToIntegerRows :
    (isNormalized 0x41100000 = true ∨ isZeroFloat 0x41100000 = true) ∧ (-8388608 : Int).natAbs < 16 ^ 6 ∧ isZeroFloat 0 = true ∧
      (isNormalized 0x44100000 = true ∧ (unpack 0x44100000).exponent + -4 ≤ 0) ∧ (unpack 0x44100000).exponent + -3 = (1 : Nat) ∧
      (unpack 0x44100000).exponent + 2 = (6 : Nat) ∧ 7 ≤ (unpack 0x44100000).exponent + 3 := by decide

/-! ### Witnesses: the Classifier and the commands -/

/-- Hypotheses of EpochAndPassThrough: an EPOCH cell, a kind that passes through, and a command for another unit. -/
theorem test_witness_EpochAndPassThrough :
    (∀ cell, CellReady (received active cell) cell []) ∧ cellKind (cellOf [0x02]) = 0x02 ∧
      (cellKind (cellOf [0x00]) ≠ 0x01 ∧ cellKind (cellOf [0x00]) ≠ 0x02 ∧ cellKind (cellOf [0x00]) ≠ 0x03) ∧
      (cellKind (commandCell 14 0x01 0 []) = 0x03 ∧ commandAddress (commandCell 14 0x01 0 []) ≠ 15 ∧
        (commandAddress (commandCell 14 0x01 0 [])).toNat ≠ active.strap.toNat) :=
  ⟨fun _ => ⟨rfl, rfl, Nat.zero_lt_succ _⟩, by decide, by decide, by decide⟩

/-- Hypotheses of TakeCommandRoutes: an own and a broadcast command, with 7 and with 8 commands queued, and 15 cells in the Forward Queue. -/
theorem test_witness_TakeCommandRoutes :
    (received active (commandCell 0 0x01 0 [])).ingressBuffer = commandCell 0 0x01 0 [] :: [] ∧
      cellKind (commandCell 0 0x01 0 []) = 0x03 ∧ active.engine = .idle ∧
      ((commandAddress (commandCell 0 0x01 0 [])).toNat = active.strap.toNat ∧ commandAddress (commandCell 0 0x01 0 []) ≠ 15) ∧
      (cellKind (commandCell 15 0x3F 0 []) = 0x03 ∧ commandAddress (commandCell 15 0x3F 0 []) = 15) ∧
      (List.replicate 15 (⟨.received (cellOf []), false⟩ : ForwardCell)).length < 16 ∧
      (List.replicate 7 (cellOf [])).length < 8 ∧ 8 ≤ (List.replicate 8 (cellOf [])).length := by decide +kernel

/-- A command at the head of the queue is ready while the Command Unit is idle and the Response Queue has a place. -/
theorem commanded_ready (s : State) (code : Byte) (key : Half) (contents : List Byte) (hidle : s.commandUnit = .idle)
    (hplace : s.responseQueue.length < 8) :
    CommandReady (commanded s code key contents) (commandCell 0 code key contents) [] code := ⟨hidle, hplace, rfl, rfl⟩

/-- Hypotheses of Identify, with 7 responses waiting. -/
theorem test_witness_Identify :
    CommandReady (commanded { active with responseQueue := List.replicate 7 (responseOf 0x01 .done []) } 0x01 0 [])
      (commandCell 0 0x01 0 []) [] 0x01 := commanded_ready _ _ _ _ rfl (by decide)

/-- Hypotheses of StatusAndUndefined: READ STATUS, and the undefined code 0. -/
theorem test_witness_StatusAndUndefined :
    CommandReady (commanded active 0x02 0 []) (commandCell 0 0x02 0 []) [] 0x02 ∧
      CommandReady (commanded active 0x00 0 []) (commandCell 0 0x00 0 []) [] 0x00 ∧
      ∀ n : CommandName, n.code ≠ commandCode (commandCell 0 0x00 0 []) :=
  ⟨commanded_ready _ _ _ _ rfl (by decide), commanded_ready _ _ _ _ rfl (by decide), fun n => by cases n <;> decide⟩

/-- Hypotheses of SetMode: limits 1 and 15 in range, 0 and 16 out of range, a policy code of 2. -/
theorem test_witness_SetMode :
    (∀ l, CommandReady (commanded active 0x03 0 l) (commandCell 0 0x03 0 l) [] 0x03) ∧
      (payloadByte (commandCell 0 0x03 0 [1, 1, 15]) 0 = 1 ∧ payloadByte (commandCell 0 0x03 0 [1, 1, 15]) 2 = 15) ∧
      payloadByte (commandCell 0 0x03 0 [0, 0, 1]) 2 = 1 ∧ payloadByte (commandCell 0 0x03 0 [0, 0, 16]) 2 = 16 ∧
      payloadByte (commandCell 0 0x03 0 [2, 0, 0]) 0 = 2 :=
  ⟨fun _ => commanded_ready _ _ _ _ rfl (Nat.zero_lt_succ _), by decide, by decide, by decide, by decide⟩

/-- A directory of `n` entries on channels 0 to n-1. -/
def manyEntries (n : Nat) : List Entry := (List.range n).map fun k => { plainEntry with input := BitVec.ofNat 16 k }

/-- Hypotheses of EntryInsert: operands in range (slot 511, scale -4 and 4) and out of range (slot 512, scale 5, an input form of 4), an entry
present, a full directory, and one with a place. -/
theorem test_witness_EntryInsert :
    (∀ s key l, s.commandUnit = .idle → s.responseQueue.length < 8 →
        CommandReady (commanded s 0x10 key l) (commandCell 0 0x10 key l) [] 0x10) ∧
      active.tables.shadowState = .editable ∧
      (∀ l ∈ [[0, 0, 2, 0], [0, 0, 0, 12, 0, 1, 5, 1], [0, 0, 0, 12, 4, 0, 0, 1]], ∀ e, ¬ InsertSays (commandCell 0 0x10 0x0300 l) e) ∧
      InsertSays (commandCell 0 0x10 0x0300 [0x0B, 0x00, 1, 0xFF, 0, 1, 0xFC, 1])
        { plainEntry with slot := 511, outputForm := .integer (-4) } ∧
      InsertSays (commandCell 0 0x10 0x0300 [0x0B, 0x00, 0, 12, 3, 1, 4, 0])
        { plainEntry with inputForm := .float, outputForm := .integer 4, emit := false } ∧
      directoryWf (manyEntries 512) = true ∧ (manyEntries 512).length = 512 ∧
      (∀ x ∈ manyEntries 512, x.input ≠ commandKey (commandCell 0 0x10 0x0300 [])) ∧
      (directoryWf (manyEntries 511) = true ∧ (manyEntries 511).length < 512 ∧
        ∀ x ∈ manyEntries 511, x.input ≠ commandKey (commandCell 0 0x10 0x0300 [])) ∧
      ∃ x ∈ manyEntries 512, x.input = commandKey (commandCell 0 0x10 0x01FF []) :=
  ⟨fun _ _ _ h1 h2 => commanded_ready _ _ _ _ h1 h2, rfl,
    fun l hl => not_of_none (insertOperands_iff _)
      ((by decide : ∀ l ∈ [[0, 0, 2, 0], [0, 0, 0, 12, 0, 1, 5, 1], [0, 0, 0, 12, 4, 0, 0, 1]],
        insertOperands (commandCell 0 0x10 0x0300 l) = none) l hl),
    (insertOperands_iff _ _).1 (by decide), (insertOperands_iff _ _).1 (by decide), by decide +kernel, by decide +kernel, by decide +kernel,
    by decide +kernel, by decide +kernel⟩

/-- Hypotheses of EntryEdits: operands in range (table 4095, COUNT 4096, EPOCH 255, a gain with an all-zero fraction) and out of range (table
4096, COUNT 0 and 4097, EPOCH 256, a gain that is not normalized, an undefined code), an entry present and absent, the directory split at it. -/
theorem test_witness_EntryEdits :
    (∀ code key l, CommandReady (commanded active code key l) (commandCell 0 code key l) [] code) ∧
      (∀ l ∈ [[4], [2, 0, 0x10, 0], [1, 0, 0, 0, 0x41, 0x01, 0, 0]], ∀ c, ¬ ConvertSays (commandCell 0 0x11 0x0300 l) c) ∧
      ConvertSays (commandCell 0 0x11 0x0300 [2, 0, 0x0F, 0xFF]) (.segmented 0xFFF) ∧
      ConvertSays (commandCell 0 0x11 0x0300 [3, 0, 4, 0, 0xC1, 0, 0, 0]) (.ratio 0x0400 0xC1000000) ∧
      (∀ l ∈ [[1, 0, 0, 0, 0], [1, 0, 0x10, 1, 0], [2, 0, 1, 0, 0], [0, 0, 0, 0, 2]], ∀ w p, ¬ WindowSays (commandCell 0 0x12 0x0300 l) w p) ∧
      WindowSays (commandCell 0 0x12 0x0300 [1, 0, 0x10, 0, 1]) (some (.count 4096)) true ∧
      WindowSays (commandCell 0 0x12 0x0300 [2, 0, 0, 0xFF, 0]) (some (.epoch 255)) false ∧
      (∀ x ∈ [referenceEntry], x.input ≠ commandKey (commandCell 0 0x13 0x0300 [])) ∧
      (directoryWf [plainEntry, referenceEntry] = true ∧ [plainEntry, referenceEntry] = [] ++ plainEntry :: [referenceEntry] ∧
        plainEntry.input = commandKey (commandCell 0 0x13 0x0300 [])) :=
  ⟨fun _ _ _ => commanded_ready _ _ _ _ rfl (Nat.zero_lt_succ _),
    fun l hl => not_of_none (convertOperands_iff _)
      ((by decide : ∀ l ∈ [[4], [2, 0, 0x10, 0], [1, 0, 0, 0, 0x41, 0x01, 0, 0]], convertOperands (commandCell 0 0x11 0x0300 l) = none) l hl),
    (convertOperands_iff _ _).1 (by decide), (convertOperands_iff _ _).1 (by decide),
    fun l hl w p => not_of_none (fun a : Option WindowDef × Bool => windowOperands_iff _ a.1 a.2)
      ((by decide : ∀ l ∈ [[1, 0, 0, 0, 0], [1, 0, 0x10, 1, 0], [2, 0, 1, 0, 0], [0, 0, 0, 0, 2]],
        windowOperands (commandCell 0 0x12 0x0300 l) = none) l hl) (w, p),
    (windowOperands_iff _ _ _).1 (by decide), (windowOperands_iff _ _ _).1 (by decide), by decide, by decide⟩

/-- Hypotheses of BankReads: selectors in and out of range, the first address 4092 and 4093, a mirror in flight, an entry absent and present. -/
theorem test_witness_BankReads :
    (∀ s code key l, s.commandUnit = .idle → s.responseQueue.length < 8 →
        CommandReady (commanded s code key l) (commandCell 0 code key l) [] code) ∧
      (∀ l ∈ [[2, 0], [0, 2]], ∀ selector part, ¬ EntryReadSays (commandCell 0 0x14 0x0300 l) selector part) ∧
      EntryReadSays (commandCell 0 0x14 0x0300 [1, 1]) .shadow .b ∧ EntryReadSays (commandCell 0 0x14 0x0300 [0, 0]) .active .a ∧
      (∀ selector, ¬ PoolReadSays (commandCell 0 0x19 4093 [0]) selector) ∧ PoolReadSays (commandCell 0 0x19 4092 [1]) .shadow ∧
      ({ active with tables := { active.tables with shadowState := .mirroring .swap } } : State).tables.shadowState.isMirroring = true ∧
      active.tables.shadowState.isMirroring = false ∧
      (∀ x ∈ [referenceEntry], x.input ≠ commandKey (commandCell 0 0x14 0x0300 [])) ∧
      (directoryWf [plainEntry, referenceEntry] = true ∧ [plainEntry, referenceEntry] = [] ++ plainEntry :: [referenceEntry] ∧
        plainEntry.input = commandKey (commandCell 0 0x14 0x0300 [])) :=
  ⟨fun _ _ _ _ h1 h2 => commanded_ready _ _ _ _ h1 h2,
    fun l hl selector part => not_of_none (fun a : Selector × Part => entryReadOperands_iff _ a.1 a.2)
      ((by decide : ∀ l ∈ [[2, 0], [0, 2]], entryReadOperands (commandCell 0 0x14 0x0300 l) = none) l hl) (selector, part),
    (entryReadOperands_iff _ _ _).1 (by decide), (entryReadOperands_iff _ _ _).1 (by decide),
    not_of_none (poolReadOperands_iff _) (by decide), (poolReadOperands_iff _ _).1 (by decide), by decide, by decide, by decide, by decide⟩

/-- Part A of an entry with every code nonzero, and part B of each conversion kind (R14, R178). -/
theorem test_entryParts :
    entryPartA ⟨0x0300, 0x0B00, 511, .float, .integer (-4), true, .ratio 0x0400 0x41100000, some (.epoch 255), true⟩ 1 512 =
        [0x03, 0x00, 0x0B, 0x00, 0x01, 0xFF, 0x31, 0xFC, 0xEC, 0x00, 0xFF, 0x00, 0x01, 0x02, 0x00] ∧
      entryPartB (.ratio 0x0400 0x41100000) = [3, 0, 0x04, 0x00, 0x41, 0x10, 0, 0] ∧ entryPartB (.segmented 0xFFF) = [2, 0, 0x0F, 0xFF] ∧
      entryPartB (.linear 0x40800000 0x41100000) = [1, 0, 0, 0, 0x40, 0x80, 0, 0, 0x41, 0x10, 0, 0] ∧ entryPartB .none = [0] := by
  decide +kernel

/-- Hypotheses of PoolWrite: counts 0 and 4, three words up to 4095 and past it. -/
theorem test_witness_PoolWrite :
    (∀ key l, CommandReady (commanded active 0x18 key l) (commandCell 0 0x18 key l) [] 0x18) ∧
      (payloadByte (commandCell 0 0x18 0 [0]) 0).toNat = 0 ∧ (payloadByte (commandCell 0 0x18 0 [4]) 0).toNat = 4 ∧
      ((commandKey (commandCell 0 0x18 4093 [3])).toNat + (payloadByte (commandCell 0 0x18 4093 [3]) 0).toNat - 1 ≤ 4095) ∧
      ¬ ((commandKey (commandCell 0 0x18 4094 [3])).toNat + (payloadByte (commandCell 0 0x18 4094 [3]) 0).toNat - 1 ≤ 4095) ∧
      Memory.wf active.tables.shadowBank.pool = true ∧ Memory.wf thermocouple = true :=
  ⟨fun _ _ => commanded_ready _ _ _ _ rfl (Nat.zero_lt_succ _), by decide, by decide, by decide, by decide, by decide, by decide⟩

/-- A part whose shadow state is given. -/
def shadowed (x : ShadowState) : State := { active with tables := { active.tables with shadowState := x } }

/-- Hypotheses of ShadowWritesByState: a mirror; and a verify in flight under an applied write and under a refused one. -/
theorem test_witness_ShadowWritesByState :
    (∀ x code key l, CommandReady (commanded (shadowed x) code key l) (commandCell 0 code key l) [] code) ∧
      (shadowed (.mirroring .abandon)).tables.shadowState.isMirroring = true ∧ (shadowed .walking).tables.shadowState.isVerifying = true ∧
      (shadowed .swapPending).tables.shadowState.isVerifying = true ∧
      (∃ t r, exec .poolWrite (setShadowState (commanded (shadowed .walking) 0x18 0 [1, 0, 0, 0, 1, 2, 3, 4]) .editable) = .next t ∧
        t.responseQueue = (shadowed .walking).responseQueue ++ [r] ∧ r.status = .done) ∧
      ∃ t r, exec .entryRemove (setShadowState (commanded (shadowed .swapPending) 0x13 0x0300 []) .editable) = .next t ∧
        t.responseQueue = (shadowed .swapPending).responseQueue ++ [r] ∧ r.status ≠ .done :=
  ⟨fun _ _ _ _ => commanded_ready _ _ _ _ rfl (Nat.zero_lt_succ _), rfl, rfl, rfl, ⟨_, _, rfl, rfl, rfl⟩, _, _, rfl, rfl, nofun⟩

/-- Hypotheses of AcceptedCommands: each of the four shadow states under COMMIT and ABANDON, and RESET PART. -/
theorem test_witness_AcceptedCommands :
    (∀ x code key l, CommandReady (commanded (shadowed x) code key l) (commandCell 0 code key l) [] code) ∧
      (shadowed .editable).tables.shadowState = .editable ∧ (shadowed .walking).tables.shadowState ≠ .editable ∧
      (shadowed .swapPending).tables.shadowState.isVerifying = true ∧ (shadowed (.mirroring .swap)).tables.shadowState.isMirroring = true :=
  ⟨fun _ _ _ _ => commanded_ready _ _ _ _ rfl (Nat.zero_lt_succ _), rfl, nofun, rfl, rfl⟩

/-! ### Witnesses: the slot commands -/

/-- A part whose slot 12 has the given runtime, a command waiting at the head of its queue. -/
def slotted (r : Runtime) (n : Nat) (code : Byte) (key : Half) (contents : List Byte) : State :=
  commanded { serving [countEntry] r with summaryQueue := List.replicate n someSummary } code key contents

/-- Its command is ready and its slots are. -/
theorem slotted_ready (r : Runtime) (n : Nat) (code : Byte) (key : Half) (contents : List Byte) :
    CommandReady (slotted r n code key contents) (commandCell 0 code key contents) [] code ∧
      (∀ i, SlotReady (slotted r n code key contents) .command i) ∧
      ((slotted r n code key contents).slot twelve).runtime = some r ∧ ((slotted r n code key contents).slot 511).runtime = none := by
  have hs : ∀ i, (slotted r n code key contents).slot i = if i = twelve then ⟨some r, false⟩ else ⟨none, false⟩ := fun i => served_slot _ i
  refine ⟨commanded_ready _ _ _ _ rfl (Nat.zero_lt_succ _), fun i => ⟨rfl, ?_⟩, ?_, ?_⟩
  · rw [hs]
    split <;> rfl
  · rw [hs]
    rfl
  · rw [hs]
    rfl

/-- Hypotheses of SlotReadReports: the keys 511 and 512, both parts and an undefined one (`slotted_ready` gives the slots). -/
theorem test_witness_SlotReadReports :
    512 ≤ (commandKey (commandCell 0 0x30 512 [])).toNat ∧ (511 : SlotId).val = (commandKey (commandCell 0 0x30 511 [])).toNat ∧
      twelve.val = (commandKey (commandCell 0 0x30 12 [])).toNat ∧ payloadByte (commandCell 0 0x30 12 [0]) 0 = 0 ∧
      payloadByte (commandCell 0 0x30 12 [1]) 0 = 1 ∧ 1 < (payloadByte (commandCell 0 0x30 12 [2]) 0).toNat := by decide

/-- Hypotheses of SlotClear: one slot, every slot, and a key past both (`slotted_ready` gives the slots). -/
theorem test_witness_SlotClear :
    512 < (commandKey (commandCell 0 0x31 513 [])).toNat ∧ (511 : SlotId).val = (commandKey (commandCell 0 0x31 511 [])).toNat ∧
      (commandKey (commandCell 0 0x31 512 [])).toNat = 512 := by decide

/-- Hypotheses of ArmDivert: a key past the slots, and slots whose terms permit and forbid divert (`slotted_ready` gives the rest). -/
theorem test_witness_ArmDivert :
    512 ≤ (commandKey (commandCell 0 0x32 512 [])).toNat ∧ (runtimeOf countEntry none).terms.divertPermitted = true ∧
      (runtimeOf plainEntry none).terms.divertPermitted = false := by decide

/-- Hypotheses of FlushWindow: no window, one that has counted none, and one that has counted, with 63 and with 64 summaries waiting. -/
theorem test_witness_FlushWindow :
    (runtimeOf countEntry none).window = none ∧
      ((runtimeOf countEntry (some (Window.fresh 0 (.count 2)))).window = some (Window.fresh 0 (.count 2)) ∧
        (Window.fresh 0 (.count 2)).counted = 0) ∧
      ((runtimeOf countEntry (some halfFull)).window = some halfFull ∧ halfFull.counted ≠ 0) ∧
      (slotted (runtimeOf countEntry (some halfFull)) 63 0x33 12 []).summaryQueue.length < 64 ∧
      64 ≤ (slotted (runtimeOf countEntry (some halfFull)) 64 0x33 12 []).summaryQueue.length := by decide +kernel

/-- A part whose FLUSH WINDOW of slot 12 waits, holding the claim. -/
def flushing : State :=
  { serving [countEntry] (runtimeOf countEntry (some halfFull)) with
    commandUnit := .waiting ⟨commandCell 0 0x33 12 [], twelve, true⟩, summaryQueue := List.replicate 63 someSummary }

/-- Hypotheses of the first two parts of CommandResumes. -/
theorem test_witness_CommandResumes :
    flushing.commandUnit = .waiting ⟨commandCell 0 0x33 12 [], twelve, true⟩ ∧ commandCode (commandCell 0 0x33 12 []) = 0x33 ∧
      SlotReady flushing .command twelve ∧ (flushing.slot twelve).runtime = some (runtimeOf countEntry (some halfFull)) ∧
      halfFull.counted ≠ 0 ∧ flushing.summaryQueue.length < 64 ∧ (commandKey (commandCell 0 0x33 12 [])).toNat = twelve.val ∧
      flushing.responseQueue.length < 8 ∧
      (Instr.flushWindow, (0x33 : Byte)) ∈ [(Instr.slotRead, 0x30), (.slotClear, 0x31), (.armDivert, 0x32), (.flushWindow, 0x33)] :=
  ⟨rfl, by decide, ⟨rfl, rfl⟩, rfl, by decide, by decide, by decide, by decide, by decide⟩

/-- A part without entries whose slot 12 is pending, a window open that has counted one, and `n` summaries waiting. -/
def unsettled (n : Nat) : State :=
  { active with
    slots := active.slots.put twelve ⟨some epochRuntime, true⟩
    reconciliation := ⟨true, ⟨0, by decide⟩, false⟩
    summaryQueue := List.replicate n someSummary }

/-- The same part with a SLOT CLEAR of every slot waiting at a slot. -/
def clearing (n : Nat) (i : SlotId) : State := { unsettled n with commandUnit := .waiting ⟨commandCell 0 0x31 512 [], i, true⟩ }

/-- Hypotheses of CommandResumes at a slot that is not ready, for each of the four commands: a claim of another party; a pending slot with and
without a place; and SLOT CLEAR of every slot taken, and waiting at slot 12 and at slot 511. -/
theorem test_witness_CommandResumes_waits :
    (∀ code ∈ [(0x30 : Byte), 0x31, 0x32, 0x33],
      twelve.val = (commandKey (commandCell 0 code 12 [1])).toNat ∧ (payloadByte (commandCell 0 code 12 [1]) 0).toNat ≤ 1) ∧
      (∀ code, CommandReady (commanded (unsettled 63) code 12 [1]) (commandCell 0 code 12 [1]) [] code ∧
        (commanded { unsettled 63 with sweep := ⟨true, twelve, false, true⟩ } code 12 [1]).claimedByOther .command twelve = true ∧
        (commanded (unsettled 63) code 12 [1]).claimedByOther .command twelve = false ∧
        (commanded (unsettled 64) code 12 [1]).reconcileSlot twelve = none ∧
        ∃ t, (commanded (unsettled 63) code 12 [1]).reconcileSlot twelve = some t) ∧
      (CommandReady (commanded active 0x31 512 []) (commandCell 0 0x31 512 []) [] 0x31 ∧ (commandKey (commandCell 0 0x31 512 [])).toNat = 512 ∧
        commandCode (commandCell 0 0x31 512 []) = 0x31) ∧
      ((clearing 64 twelve).commandUnit = .waiting ⟨commandCell 0 0x31 512 [], twelve, true⟩ ∧
        (clearing 64 twelve).claimedByOther .command twelve = false ∧ (clearing 64 twelve).reconcileSlot twelve = none ∧
        (∃ t, (clearing 63 twelve).reconcileSlot twelve = some t) ∧ thirteen.val = twelve.val + 1 ∧
        ({ clearing 0 twelve with sweep := ⟨true, twelve, false, true⟩ } : State).claimedByOther .command twelve = true) ∧
      ((clearing 0 511).claimedByOther .command 511 = false ∧ (∃ t, (clearing 0 511).reconcileSlot 511 = some t) ∧ (511 : SlotId).val = 511) := by
  refine ⟨by decide, fun _ => ⟨commanded_ready _ _ _ _ rfl (Nat.zero_lt_succ _), rfl, rfl, rfl, _, rfl⟩,
    ⟨commanded_ready _ _ _ _ rfl (Nat.zero_lt_succ _), by decide, by decide⟩, ⟨rfl, rfl, rfl, ⟨_, rfl⟩, rfl, rfl⟩, rfl,
    ⟨_, State.reconcileSlot_of_not_pending (congrArg Slot.pending (served_slot _ 511))⟩, rfl⟩

/-! ### Witnesses: the Table Store's events and the cursors -/

/-- A bank that passes verify: a segmented entry, a RATIO entry and its reference. -/
def goodBank : Bank :=
  ⟨[{ missEntry 0x100 with input := 0x0200, output := 0x0A00, slot := 511 }, ratioEntry, referenceEntry], thermocouple⟩

/-- Hypotheses of VerifyCompletes, VerifyPassMeans and VerifiedLookupsNeverStop: a walk of a bank that passes, and of one that fails. -/
theorem test_witness_VerifyCompletes :
    (shadowed .walking).tables.shadowState = .walking ∧ verifyBank goodBank = none ∧
      verifyBank ⟨[plainEntry, { plainEntry with input := 0x0301 }], []⟩ = some ⟨.slotShared, 0x0301, 0⟩ ∧
      { missEntry 0x100 with input := 0x0200, output := 0x0A00, slot := 511 } ∈ goodBank.directory ∧
      (missEntry 0x100).conversion = .segmented 0x100 := by decide +kernel

/-- A bank of two entries, the second of channel 0400h, with the first's checks passed: the shape of the rows of VerifyPassMeans. -/
theorem walkTo_second (e : Entry) (pool : Memory) :
    (⟨[plainEntry, e], pool⟩ : Bank).directory = [plainEntry] ++ e :: [] ∧
      ∀ p x q, [plainEntry] = p ++ x :: q → EntryPasses ⟨[plainEntry, e], pool⟩ p x := by
  refine ⟨rfl, ?_⟩
  intro p x q h
  cases p with
  | cons y p => cases p <;> simp at h
  | nil =>
    obtain ⟨rfl, -⟩ := List.cons.inj h
    exact ⟨nofun, nofun, nofun, nofun, nofun, nofun⟩

/-- Hypotheses of the rows of R122 in VerifyPassMeans, behind the first entry of `walkTo_second`: a slot and an output channel id shared; FORM; a
reference absent, present, and itself RATIO, a reference to the entry's own id among them; a table that fails. -/
theorem test_witness_VerifyPassMeans :
    (∃ x ∈ [plainEntry], x.slot = { referenceEntry with slot := twelve }.slot) ∧
      (∃ x ∈ [plainEntry], x.output = { referenceEntry with output := 0x0B00 }.output) ∧
      (∀ x ∈ [plainEntry], x.slot ≠ referenceEntry.slot ∧ x.output ≠ referenceEntry.output) ∧
      (∀ f ∈ [plainEntry, { referenceEntry with conversion := .ratio 0x0500 0 }], f.input ≠ 0x0500) ∧
      (∃ f ∈ [plainEntry, { referenceEntry with conversion := .ratio 0x0400 0 }], f.input = 0x0400) ∧
      (∀ f ∈ [plainEntry, { referenceEntry with conversion := .ratio 0x0400 0 }], f.input = 0x0400 →
        f.conversion = .ratio 0x0400 0) ∧
      verifyTable (oneTable 0x00100000 0) 3 0 = some (.limits, 0) := by decide

/-- What verify reports behind a first entry that passes, reason by reason, and a pass. -/
theorem test_verifyReasons :
    (fun (e : Entry) => verifyBank ⟨[plainEntry, e], oneTable 0x00100000 0⟩) <$>
        [{ referenceEntry with slot := twelve, output := 0x0B00 }, { referenceEntry with output := 0x0B00 },
          { referenceEntry with conversion := .segmented 0, inputForm := .float }, { referenceEntry with conversion := .ratio 0x0500 0 },
          { referenceEntry with conversion := .ratio 0x0400 0 }, { referenceEntry with conversion := .segmented 0 }, referenceEntry] =
      [some ⟨.slotShared, 0x0400, 0⟩, some ⟨.outShared, 0x0400, 0⟩, some ⟨.form, 0x0400, 0⟩, some ⟨.refMissing, 0x0400, 0⟩,
        some ⟨.refRatio, 0x0400, 0⟩, some ⟨.limits, 0x0400, 0⟩, none] := by decide +kernel

/-- Hypotheses of the rows of R31, with what the walk finds: an entry range up to 4095 and past it; L above H; a shift of 23 and 24; in bucket 1,
behind an EMPTY bucket, a SEGMENT at 4094 and at 4095; a LINK at depth 4 and above it; a cycle; and a failure in a table at depth 2. -/
theorem test_verifyTables :
    (verifyTable [] 3 4094 = none ∧ verifyTable [] 3 4095 = some (.poolBounds, 4095)) ∧
      (headerOfWord 0x00100000).high < (headerOfWord 0x00100000).low ∧
      (verifyTable (oneTable 0x000000B8 0) 3 0 = none ∧ verifyTable (oneTable 0x000000C0 0) 3 0 = some (.shift, 0)) ∧
      (verifyTable [(0, 0x00000100), (2, 0x4FFE0000)] 3 0 = none ∧
        verifyTable [(0, 0x00000100), (2, 0x4FFF0000)] 3 0 = some (.poolBounds, 2)) ∧
      (verifyTable [(1, 0x80100000)] 1 0 = none ∧ verifyTable [(1, 0x80100000)] 0 0 = some (.linkDepth, 1)) ∧
      verifyTable [(1, 0x80000000)] 3 0 = some (.linkDepth, 1) ∧
      verifyTable [(1, 0x80100000), (16, 0x000000C0)] 3 0 = some (.shift, 16) := by decide +kernel

/-- Buckets that pass: EMPTY, CONSTANT at 4095, SEGMENT at 4094, and a LINK above depth 4. -/
theorem test_witness_BucketPasses :
    BucketPasses [] 0 1 ∧ BucketPasses [(1, 0xCFFF0000)] 0 1 ∧ BucketPasses [(1, 0x4FFE0000)] 0 1 ∧ BucketPasses [(1, 0x80100000)] 1 1 :=
  ⟨trivial, trivial, by show _ ≠ _; decide, ⟨0, rfl, by decide +kernel⟩⟩

/-- Hypotheses of SwapAndMirror: a swap that may take place, the reasons it may not, and a mirror of each cause. -/
theorem test_witness_SwapAndMirror :
    ((shadowed .swapPending).tables.shadowState = .swapPending ∧ (shadowed .swapPending).engine = .idle ∧
        (shadowed .swapPending).reconciliation.inFlight = false) ∧
      preparing.engine ≠ .idle ∧ (unreconciled 0).reconciliation.inFlight = true ∧ active.tables.shadowState ≠ .swapPending ∧
      (shadowed (.mirroring .swap)).tables.shadowState = .mirroring .swap ∧
      (shadowed (.mirroring .abandon)).tables.shadowState = .mirroring .abandon ∧ active.commandUnit ≠ .resetting :=
  ⟨⟨rfl, rfl, rfl⟩, nofun, rfl, nofun, rfl, rfl, nofun⟩

/-- A part whose reconciliation cursor stands at slot 12, which has the given runtime and is pending. -/
def atTwelve (d : List Entry) (r : Option Runtime) (n : Nat) : State :=
  { serving d epochRuntime with
    slots := active.slots.put twelve ⟨r, true⟩, reconciliation := ⟨true, twelve, false⟩, summaryQueue := List.replicate n someSummary }

/-- Hypotheses of ReconciliationCursorStep: none in flight; another party's claim; a slot not pending; an UNOWNED slot; a continuing owner with
the same and with another window definition, and another owner or none, each with a window counted, with 63 and with 64 summaries waiting, with one not
counted, and with none. -/
theorem test_witness_ReconciliationCursorStep :
    active.reconciliation.inFlight = false ∧
      ({ atTwelve [] none 0 with sweep := ⟨true, twelve, false, true⟩ } : State).claimedByOther .cursor twelve = true ∧
      ((atTwelve [] none 0).reconciliation.inFlight = true ∧ (atTwelve [] none 0).reconciliation.cursor = twelve ∧
        (atTwelve [] none 0).claimedByOther .cursor twelve = false) ∧
      (({ active with reconciliation := ⟨true, 511, false⟩ } : State).slot 511).pending = false ∧
      (((atTwelve [] none 0).slot twelve).pending = true ∧ ((atTwelve [] none 0).slot twelve).runtime = none) ∧
      ((atTwelve [epochEntry] (some epochRuntime) 0).ownerEntry twelve = some epochEntry ∧ epochEntry.input = epochRuntime.owner ∧
        epochEntry.window = epochRuntime.terms.window) ∧
      ((atTwelve [countEntry] (some epochRuntime) 63).ownerEntry twelve = some countEntry ∧ countEntry.input = epochRuntime.owner ∧
        countEntry.window ≠ epochRuntime.terms.window ∧ epochRuntime.window = some epochOpen ∧ epochOpen.counted ≠ 0 ∧
        (atTwelve [countEntry] (some epochRuntime) 63).summaryQueue.length < 64) ∧
      64 ≤ (atTwelve [countEntry] (some epochRuntime) 64).summaryQueue.length ∧
      (countEntry.window ≠ (runtimeOf epochEntry none).terms.window ∧ (∀ w, (runtimeOf epochEntry none).window = some w → w.counted = 0) ∧
        ∀ w, (runtimeOf epochEntry (some (Window.fresh 0 (.epoch 1)))).window = some w → w.counted = 0) ∧
      ((atTwelve [] (some epochRuntime) 64).ownerEntry twelve = none ∧ 64 ≤ (atTwelve [] (some epochRuntime) 64).summaryQueue.length) ∧
      ((atTwelve [{ plainEntry with input := 0x0999 }] (some epochRuntime) 0).ownerEntry twelve = some { plainEntry with input := 0x0999 } ∧
        ({ plainEntry with input := 0x0999 } : Entry).input ≠ epochRuntime.owner) ∧
      ∀ w, (runtimeOf plainEntry none).window = some w → w.counted = 0 :=
  ⟨rfl, rfl, ⟨rfl, rfl, rfl⟩, congrArg Slot.pending (State.slot_reset 511), ⟨rfl, rfl⟩, ⟨rfl, rfl, rfl⟩,
    ⟨rfl, rfl, by decide, rfl, by decide, by decide⟩, by decide, ⟨by decide, nofun, fun w h => by cases h; rfl⟩, ⟨rfl, by decide⟩,
    ⟨rfl, by decide⟩, nofun⟩

/-- The overdue part with the sweep at its slot. -/
def sweeping (n : Nat) : State := { overdue n with sweep := ⟨true, twelve, false, false⟩ }

/-- Hypotheses of EpochSweepStep: another party's claim; a reconciliation that finds a place and one that does not; no due window; a due
one that has counted none, and one that has counted, with 63 and with 64 summaries waiting. -/
theorem test_witness_EpochSweepStep :
    (sweeping 0).sweep.inFlight = true ∧ (sweeping 0).sweep.cursor = twelve ∧
      ({ sweeping 0 with reconciliation := ⟨true, twelve, true⟩ } : State).claimedByOther .sweep twelve = true ∧
      (sweeping 0).claimedByOther .sweep twelve = false ∧
      ({ unreconciled 64 with sweep := ⟨true, twelve, false, false⟩ } : State).reconcileSlot twelve = none ∧
      (∃ t, ({ unreconciled 63 with sweep := ⟨true, twelve, false, false⟩ } : State).reconcileSlot twelve = some t) ∧
      (∀ w, epochRuntime.window = some w → w.due 0 = false) ∧
      (((sweeping 63).slot twelve).pending = false ∧ ((sweeping 63).slot twelve).runtime = some epochRuntime ∧
        epochRuntime.window = some epochOpen ∧ epochOpen.definition = .epoch 1 ∧
        1 ≤ ((sweeping 63).epochCount - epochOpen.openedAt).toNat ∧ epochOpen.counted ≠ 0 ∧ (sweeping 63).summaryQueue.length < 64) ∧
      64 ≤ (sweeping 64).summaryQueue.length ∧
      ((runtimeOf epochEntry (some (Window.fresh 0 (.epoch 1)))).window = some (Window.fresh 0 (.epoch 1)) ∧
        (Window.fresh 0 (.epoch 1)).counted = 0) :=
  ⟨rfl, rfl, rfl, rfl, rfl, ⟨_, rfl⟩, fun w h => by cases h; rfl, ⟨rfl, rfl, rfl, rfl, by decide, by decide, by decide⟩, by decide, rfl, rfl⟩

/-! ### Witnesses: the invariants -/

/-- A part in service: a reading, a command and a departing cell wait, a window is open, and the step of the reading comes next. -/
def inService : State :=
  { serving [epochEntry] epochRuntime with
    ingressBuffer := [readingCell 1 1]
    noticeQueue := [plainNotice]
    noticeSequence := 1
    summaryQueue := [someSummary]
    commandQueue := [commandCell 0 0x01 0 []]
    port := some ⟨cellOf [], false, false⟩
    pending := [.takeReading] }

/-- Its slots. -/
theorem inService_slot (i : SlotId) : inService.slot i = if i = twelve then ⟨some epochRuntime, false⟩ else ⟨none, false⟩ := served_slot _ i

/-- Its owner of each slot. -/
theorem inService_owner (i : SlotId) : inService.ownerEntry i = if i = twelve then some epochEntry else none := by
  change List.find? (fun e : Entry => decide (e.slot = i)) [epochEntry] = _
  by_cases h : i = twelve
  · subst h
    rfl
  · rw [if_neg h, List.find?_cons_of_neg, List.find?_nil]
    exact fun hs => h (of_decide_eq_true hs).symm

/-- Its entry has its operands in range. -/
theorem epochEntry_wf : epochEntry.wf :=
  ⟨nofun, nofun, fun n h => by cases h; decide, nofun, nofun⟩

/-- Its queues are within bounds. -/
theorem inService_queues : QueuesBounded inService :=
  ⟨by decide +kernel, by decide +kernel, by decide +kernel, by decide +kernel, by decide +kernel, by decide +kernel, fun h => absurd rfl h,
    nofun, nofun, nofun⟩

/-- No party holds a claim in it. -/
theorem inService_claims : ClaimsExclusive inService := by
  intro i p q hp _
  have h : inService.holdsClaim i p = false := by cases p <;> rfl
  rw [h] at hp
  cases hp

/-- Its banks are well formed. -/
theorem inService_banks : BanksWellFormed inService :=
  ⟨⟨by decide +kernel, fun e he => by rw [List.mem_singleton.1 he]; exact epochEntry_wf, by decide +kernel⟩, by decide +kernel, nofun,
    by decide +kernel⟩

/-- Its slots follow its directory. -/
theorem inService_slots : SlotsFollowDirectory inService := by
  intro i
  rw [inService_slot, inService_owner]
  by_cases h : i = twelve
  · simp only [h, if_true]
    rfl
  · simp only [h, if_false]
    rfl

/-- Its windows are well formed. -/
theorem inService_windows : WindowsWellFormed inService := by
  intro i r h
  rw [inService_slot] at h
  split at h
  · cases h
    exact ⟨rfl, fun w hw => by cases hw; exact ⟨⟨by decide, by decide, by decide⟩, by decide⟩⟩
  · cases h

/-- Its notices are numbered. -/
theorem inService_notices : NoticesNumbered inService := by
  change (0 : Half) = 1 - 0 - 1
  decide

/-- Its active bank has passed verify, and no swap is pending. -/
theorem inService_verified : ActiveVerified inService := by
  refine ⟨?_, fun h => ShadowState.noConfusion h⟩
  change verifyBank ⟨[epochEntry], thermocouple⟩ = none
  decide +kernel

/-- It holds no reading. -/
theorem inService_latched : ReadingLatched inService := by
  intro h hh
  have : inService.heldReading = none := rfl
  rw [this] at hh
  cases hh

/-- The part in service meets every invariant. -/
theorem inService_safe : Safe inService where
  queues := inService_queues
  framing _ _ h := Receiver.noConfusion h
  notices := inService_notices
  linkError := by
    change List.countP _ [plainNotice] ≤ 1
    decide
  claims := inService_claims
  banks := inService_banks
  verified := inService_verified
  latched := inService_latched
  slots := inService_slots
  windows := inService_windows
  limit := by
    change (8 : BitVec 4) ≠ 0
    decide

/-- Hypotheses of QueuesKept, NoticesKept, ClaimsKept, SlotsKept, BanksAndWindowsKept and EveryStepFromSafeIsSafe: a state that has every
invariant, and whose step answers a next state. -/
theorem test_witness_EveryStepFromSafeIsSafe : Safe inService ∧ ∃ t, step inService = .next t := ⟨inService_safe, _, rfl⟩

/-- Hypotheses of ActiveBankChangesOnlyAtSwap: a command other than the two, a swap that takes place and one that waits. -/
theorem test_witness_ActiveBankChangesOnlyAtSwap :
    (∃ t, exec .takeReading inService = .next t) ∧ Instr.takeReading ≠ .swap ∧ Instr.takeReading ≠ .powerOnReset ∧
      (∃ t, exec .swap (shadowed .swapPending) = .next t ∧ t.tables.generation = 1) ∧ ∃ t, exec .swap active = .next t ∧ t.tables = active.tables :=
  ⟨⟨_, rfl⟩, nofun, nofun, ⟨_, rfl, rfl⟩, _, rfl, rfl⟩

/-- Hypotheses of ShadowEditsInvisible. -/
theorem test_witness_ShadowEditsInvisible :
    Instr.takeEpoch ∈ [Instr.takeReading, .engineResume, .reconciliationCursorStep, .epochSweepStep, .takeEpoch] := by decide

end Sys2Proof.Tests
end

section
/-! PROOFS. Subtract, compare and narrowing: what each does to the fields of a reading float (R45, R49, R52). -/

namespace Sys2Proof.Machine

/-! ### Negation, by the two kinds of operand (R40) -/

/-- A normalized value is no true zero (R35). -/
theorem isZeroFloat_of_isNormalized {w : Word} (h : isNormalized w = true) : isZeroFloat w = false := by
  have hlo := (isNormalized_iff w).1 h
  rw [Bool.eq_false_iff, ne_eq, isZeroFloat_iff]
  omega

/-- A normalized value has a nonzero fraction (R35). -/
theorem unpack_fraction_ne_zero {w : Word} (h : isNormalized w = true) : (unpack w).fraction ≠ 0 := by
  have hlo := (isNormalized_iff w).1 h
  omega

/-- Negation of a normalized value inverts bit 31 (R40, R175). -/
theorem negate_of_isNormalized {w : Word} (h : isNormalized w = true) : negate w = w ^^^ 0x80000000 := by
  unfold negate
  rw [isZeroFloat_of_isNormalized h, if_neg Bool.false_ne_true]

/-- Negation of a true zero, whatever its sign and exponent bits hold, is the word zero (R40). -/
theorem negate_of_isZeroFloat {w : Word} (h : isZeroFloat w = true) : negate w = 0 := by
  unfold negate
  rw [if_pos h]
  rfl

/-- Negation keeps a value normalized (R40). -/
theorem isNormalized_negate {w : Word} (h : isNormalized w = true) : isNormalized (negate w) = true := by
  rw [isNormalized_iff, unpack_negate h]
  exact (isNormalized_iff w).1 h

/-! ### Adds with a zero operand or with opposite operands (R41, R43) -/

/-- Adding a true zero to a normalized value gives that value back (R41). -/
theorem addFloat_zero_right {a b : Word} (ha : isNormalized a = true) (hb : isZeroFloat b = true) :
    addFloat a b = ⟨a, FaultSet.none⟩ := by
  have ha0 := unpack_fraction_ne_zero ha
  have hb0 := (isZeroFloat_iff b).1 hb
  unfold addFloat addDigits
  rw [if_neg ha0, if_pos hb0]
  dsimp only
  rw [pack_unpack a ha0]

/-- Adding a normalized value to a true zero gives that value back (R41). -/
theorem addFloat_zero_left {a b : Word} (ha : isZeroFloat a = true) (hb : isNormalized b = true) :
    addFloat a b = ⟨b, FaultSet.none⟩ := by
  have ha0 := (isZeroFloat_iff a).1 ha
  have hb0 := unpack_fraction_ne_zero hb
  unfold addFloat addDigits
  rw [if_pos ha0, if_neg hb0]
  dsimp only
  rw [pack_unpack b hb0]

/-- The add of two true zeros is the word zero (R41). -/
theorem addFloat_zeros {a b : Word} (ha : isZeroFloat a = true) (hb : isZeroFloat b = true) :
    addFloat a b = ⟨0, FaultSet.none⟩ := by
  unfold addFloat addDigits
  rw [if_pos ((isZeroFloat_iff a).1 ha), if_pos ((isZeroFloat_iff b).1 hb)]
  rfl

/-- A nonzero value and the value of the other sign cancel to zero without a mark: equal exponents leave nothing shifted out, and the
difference of equal fractions is all zero (R42, R43). -/
theorem addDigits_opposite (n : Nat) (u : Unpacked) (h : u.fraction ≠ 0) :
    addDigits n u { u with negative := !u.negative } = ⟨Unpacked.zero, FaultSet.none⟩ := by
  rw [(addDigits_leading n u { u with negative := !u.negative } h h le_rfl).1]
  obtain ⟨-, aligned⟩ := alignAdd_added n u { u with negative := !u.negative } le_rfl 0 (Int.sub_self u.exponent).symm
  obtain ⟨-, opposite⟩ := aligned n.zero_le (u.fraction * 16) (u.fraction * 16) rfl (by rw [pow_zero, Nat.div_one])
  obtain ⟨difference, -⟩ := opposite (Bool.not_ne_self u.negative).symm
  obtain ⟨allZero, -, -⟩ := difference le_rfl
  exact allZero (Nat.sub_self _)

/-- A normalized value and its negation add to the word zero without a mark (R43). -/
theorem addFloat_negate_self {a : Word} (ha : isNormalized a = true) : addFloat a (negate a) = ⟨0, FaultSet.none⟩ := by
  unfold addFloat
  rw [unpack_negate ha, addDigits_opposite 6 (unpack a) (unpack_fraction_ne_zero ha)]
  rfl

/-- Settles O25: each row of R45 is the row of the add at the negation of the second operand. -/
theorem subtractAddsNegation : Obligations.SubtractAddsNegation := by
  refine ⟨fun a b => rfl, ?_, ?_, ?_, ?_⟩
  · intro a b ha hb
    have hz : isZeroFloat (negate b) = true := by rw [negate_of_isZeroFloat hb]; rfl
    exact addFloat_zero_right ha hz
  · intro a b ha hb
    rw [← negate_of_isNormalized hb]
    exact addFloat_zero_left ha (isNormalized_negate hb)
  · intro a b ha hb
    have hz : isZeroFloat (negate b) = true := by rw [negate_of_isZeroFloat hb]; rfl
    exact addFloat_zeros ha hz
  · intro a ha
    exact addFloat_negate_self ha

/-! ### The key that compare orders by (R49) -/

/-- A word's lower 31 bits are its exponent field and its fraction, read together (R175). -/
theorem magnitudeBits_eq (w : Word) :
    (w.extractLsb' 0 31).toNat = (w.extractLsb' 24 7).toNat * 16 ^ 6 + (w.extractLsb' 0 24).toNat := by
  simp only [BitVec.extractLsb'_toNat, Nat.shiftRight_eq_div_pow]
  omega

/-- Exponent and fraction read together, the exponent as its field holds it: the order of magnitudes (R49). -/
def Unpacked.rank (u : Unpacked) : Int := (u.exponent + 64) * 16 ^ 6 + u.fraction

/-- The rank of a reading float is what its lower 31 bits read as (R175). -/
theorem rank_unpack (w : Word) : (unpack w).rank = (w.extractLsb' 0 31).toNat := by
  rw [magnitudeBits_eq]
  unfold Unpacked.rank unpack
  push_cast
  ring

/-- Ranks order six-digit values by exponent and, at equal exponents, by fraction (R49). -/
theorem rank_lt_iff {u v : Unpacked} (hu : u.fraction < 16 ^ 6) (hv : v.fraction < 16 ^ 6) :
    u.rank < v.rank ↔ u.exponent < v.exponent ∨ (u.exponent = v.exponent ∧ u.fraction < v.fraction) := by
  unfold Unpacked.rank
  omega

/-- Equal ranks of six-digit values are equal exponents and equal fractions. -/
theorem rank_eq_iff {u v : Unpacked} (hu : u.fraction < 16 ^ 6) (hv : v.fraction < 16 ^ 6) :
    u.rank = v.rank ↔ u.exponent = v.exponent ∧ u.fraction = v.fraction := by
  unfold Unpacked.rank
  omega

/-- No rank of a reading float is negative. -/
theorem rank_unpack_nonneg (w : Word) : 0 ≤ (unpack w).rank := by
  rw [rank_unpack]
  exact Int.natCast_nonneg _

/-- A true zero's key is zero, whatever its sign and exponent bits hold (R49). -/
theorem algebraicKey_of_isZeroFloat {w : Word} (h : isZeroFloat w = true) : algebraicKey w = 0 := by
  unfold algebraicKey
  rw [if_pos h]

/-- A negative normalized value's key is below zero, and the lower the greater its rank (R49). -/
theorem algebraicKey_of_negative {w : Word} (h : isNormalized w = true) (hs : w.getLsbD 31 = true) :
    algebraicKey w = -(unpack w).rank - 1 := by
  unfold algebraicKey
  rw [isZeroFloat_of_isNormalized h, if_neg Bool.false_ne_true, if_pos hs, rank_unpack]

/-- A positive normalized value's key is above zero, and the higher the greater its rank (R49). -/
theorem algebraicKey_of_positive {w : Word} (h : isNormalized w = true) (hs : w.getLsbD 31 = false) :
    algebraicKey w = (unpack w).rank + 1 := by
  unfold algebraicKey
  rw [isZeroFloat_of_isNormalized h, if_neg Bool.false_ne_true, hs, if_neg Bool.false_ne_true, rank_unpack]

/-- A normalized value's key is negative exactly where its sign is minus, and is never zero (R49). -/
theorem algebraicKey_sign {w : Word} (h : isNormalized w = true) :
    (algebraicKey w < 0 ↔ w.getLsbD 31 = true) ∧ (0 < algebraicKey w ↔ w.getLsbD 31 = false) := by
  have hr := rank_unpack_nonneg w
  cases hs : w.getLsbD 31 with
  | true => rw [algebraicKey_of_negative h hs]; simp only [reduceCtorEq, iff_true, iff_false]; omega
  | false => rw [algebraicKey_of_positive h hs]; simp only [reduceCtorEq, iff_true, iff_false]; omega

/-- A reading float is below another where its key is (R49). -/
theorem isBelow_iff (a b : Word) : isBelow a b = true ↔ algebraicKey a < algebraicKey b := decide_eq_true_iff

/-- A reading float is not below another where its key is not (R49). -/
theorem isBelow_eq_false_iff (a b : Word) : isBelow a b = false ↔ algebraicKey b ≤ algebraicKey a := by
  rw [Bool.eq_false_iff, ne_eq, isBelow_iff, Int.not_lt]

/-- Values of equal sign, exponent and fraction are equal. -/
theorem Unpacked.eq_of_fields {u v : Unpacked} (hn : u.negative = v.negative) (he : u.exponent = v.exponent)
    (hf : u.fraction = v.fraction) : u = v := by
  obtain ⟨n, e, f⟩ := u
  obtain ⟨n', e', f'⟩ := v
  dsimp only at hn he hf
  rw [hn, he, hf]

/-- Normalized values of equal sign and equal rank are one word: the three fields make the word (R35). -/
theorem eq_of_sign_of_rank {a b : Word} (ha : isNormalized a = true) (hb : isNormalized b = true)
    (hs : a.getLsbD 31 = b.getLsbD 31) (hr : (unpack a).rank = (unpack b).rank) : a = b := by
  obtain ⟨he, hf⟩ := (rank_eq_iff (unpack_fraction_lt a) (unpack_fraction_lt b)).1 hr
  have hu : unpack a = unpack b := Unpacked.eq_of_fields hs he hf
  rw [← pack_unpack a (unpack_fraction_ne_zero ha), hu, pack_unpack b (unpack_fraction_ne_zero hb)]

/-- Normalized values have equal keys only where they are one word (R49). -/
theorem algebraicKey_injective {a b : Word} (ha : isNormalized a = true) (hb : isNormalized b = true)
    (h : algebraicKey a = algebraicKey b) : a = b := by
  obtain ⟨negA, posA⟩ := algebraicKey_sign ha
  obtain ⟨negB, posB⟩ := algebraicKey_sign hb
  cases hs : a.getLsbD 31 with
  | true =>
    have ht : b.getLsbD 31 = true := negB.1 (h ▸ negA.2 hs)
    rw [algebraicKey_of_negative ha hs, algebraicKey_of_negative hb ht] at h
    exact eq_of_sign_of_rank ha hb (hs.trans ht.symm) (by omega)
  | false =>
    have ht : b.getLsbD 31 = false := posB.1 (h ▸ posA.2 hs)
    rw [algebraicKey_of_positive ha hs, algebraicKey_of_positive hb ht] at h
    exact eq_of_sign_of_rank ha hb (hs.trans ht.symm) (by omega)

/-! ### Compare, row by row (R49) -/

/-- Against a true zero the sign of a normalized value decides, on either side (R49). -/
theorem isBelow_zero {a z : Word} (ha : isNormalized a = true) (hz : isZeroFloat z = true) :
    isBelow a z = a.getLsbD 31 ∧ isBelow z a = !a.getLsbD 31 := by
  obtain ⟨negative, positive⟩ := algebraicKey_sign ha
  constructor
  · rw [Bool.eq_iff_iff, isBelow_iff, algebraicKey_of_isZeroFloat hz, negative]
  · rw [Bool.eq_iff_iff, isBelow_iff, algebraicKey_of_isZeroFloat hz, positive, Bool.not_eq_true']

/-- Between two positive values the order is that of exponent, then fraction (R49). -/
theorem isBelow_positive {a b : Word} (ha : isNormalized a = true) (hb : isNormalized b = true)
    (hsa : a.getLsbD 31 = false) (hsb : b.getLsbD 31 = false) :
    isBelow a b = true ↔ (unpack a).exponent < (unpack b).exponent ∨
      ((unpack a).exponent = (unpack b).exponent ∧ (unpack a).fraction < (unpack b).fraction) := by
  rw [isBelow_iff, algebraicKey_of_positive ha hsa, algebraicKey_of_positive hb hsb, Int.add_lt_add_iff_right]
  exact rank_lt_iff (unpack_fraction_lt a) (unpack_fraction_lt b)

/-- Between two negative values the order of exponent, then fraction, is reversed (R49). -/
theorem isBelow_negative {a b : Word} (ha : isNormalized a = true) (hb : isNormalized b = true)
    (hsa : a.getLsbD 31 = true) (hsb : b.getLsbD 31 = true) :
    isBelow a b = true ↔ (unpack b).exponent < (unpack a).exponent ∨
      ((unpack a).exponent = (unpack b).exponent ∧ (unpack b).fraction < (unpack a).fraction) := by
  rw [isBelow_iff, algebraicKey_of_negative ha hsa, algebraicKey_of_negative hb hsb, Int.sub_lt_sub_right_iff, Int.neg_lt_neg_iff,
    eq_comm (a := (unpack a).exponent)]
  exact rank_lt_iff (unpack_fraction_lt b) (unpack_fraction_lt a)

/-- A negative value is below a positive one, and not the other way round (R49). -/
theorem isBelow_of_signs {a b : Word} (ha : isNormalized a = true) (hb : isNormalized b = true)
    (hsa : a.getLsbD 31 = true) (hsb : b.getLsbD 31 = false) : isBelow a b = true ∧ isBelow b a = false := by
  have hlt : algebraicKey a < 0 := (algebraicKey_sign ha).1.2 hsa
  have hgt : 0 < algebraicKey b := (algebraicKey_sign hb).2.2 hsb
  exact ⟨(isBelow_iff a b).2 (hlt.trans hgt), (isBelow_eq_false_iff b a).2 (hlt.trans hgt).le⟩

/-- Two normalized values compare equal exactly where they are one word (R49). -/
theorem isBelow_neither_iff {a b : Word} (ha : isNormalized a = true) (hb : isNormalized b = true) :
    (isBelow a b = false ∧ isBelow b a = false) ↔ a = b := by
  rw [isBelow_eq_false_iff, isBelow_eq_false_iff]
  constructor
  · rintro ⟨hle, hge⟩
    exact algebraicKey_injective ha hb (Int.le_antisymm hge hle)
  · rintro rfl
    exact ⟨le_rfl, le_rfl⟩

/-- Settles O26: compare orders by a key that is zero at zeros and otherwise the sign applied to exponent and fraction read together. -/
theorem compareOrdersValues : Obligations.CompareOrdersValues := by
  refine ⟨?_, ?_, ?_, ?_⟩
  · intro a z ha hz
    exact isBelow_zero ha hz
  · intro y z hy hz
    rw [isBelow_eq_false_iff, algebraicKey_of_isZeroFloat hy, algebraicKey_of_isZeroFloat hz]
  · intro a b ha hb
    exact ⟨isBelow_of_signs ha hb, isBelow_positive ha hb, isBelow_negative ha hb, isBelow_neither_iff ha hb⟩
  · intro y x
    exact ⟨rfl, rfl⟩

/-! ### Narrowing (R52) -/

/-- The first six of a wide float's ten digits (R50). -/
theorem wide_first_six_digits (w : WideFloat) : (w.fraction.extractLsb' 16 24).toNat = w.fraction.toNat / 16 ^ 4 := by
  have := w.fraction.isLt
  simp only [BitVec.extractLsb'_toNat, Nat.shiftRight_eq_div_pow]
  omega

/-- Narrowing forms the reading float of the sign, the exponent and the first six digits (R52). -/
theorem narrow_unpack (w : WideFloat) :
    narrow w.unpack = pack ⟨w.negative, (w.exponent.toNat : Int) - 64, (w.fraction.extractLsb' 16 24).toNat⟩ := by
  rw [wide_first_six_digits]
  rfl

/-- What a normalized wide float narrows to is in range: its first digit is the first of the six (R52). -/
theorem inRange_first_six_digits {w : WideFloat} (h : w.fraction.extractLsb' 36 4 ≠ 0) :
    Unpacked.InRange 6 ⟨w.negative, (w.exponent.toNat : Int) - 64, (w.fraction.extractLsb' 16 24).toNat⟩ := by
  have hlo := (wide_first_digit w).1 h
  have he := w.exponent.isLt
  refine ⟨?_, (w.fraction.extractLsb' 16 24).isLt, ?_, ?_⟩ <;> dsimp only
  · rw [wide_first_six_digits]
    omega
  · omega
  · omega

/-- The largest wide magnitude narrows to the largest reading float of its sign (R52). -/
theorem narrow_largest (negative : Bool) :
    narrow (WideFloat.unpack ⟨negative, 127, BitVec.allOnes 40⟩) = BitVec.ofBool negative ++ BitVec.allOnes 31 := by
  cases negative with
  | false => decide
  | true => decide

/-- Settles O27: narrowing forms the first six digits, which are in range. -/
theorem narrowingTruncates : Obligations.NarrowingTruncates := by
  refine ⟨rfl, ?_⟩
  intro w h
  have hr := inRange_first_six_digits h
  have h0 : (w.fraction.extractLsb' 16 24).toNat ≠ 0 := by have hlo := hr.lo; dsimp only at hlo; omega
  refine ⟨?_, ?_, ?_⟩
  · rw [narrow_unpack, unpack_pack _ h0 hr.hi hr.elo hr.ehi]
  · rw [narrow_unpack]
    exact hr.pack_normalized
  · obtain ⟨negative, exponent, fraction⟩ := w
    rintro rfl rfl
    exact narrow_largest negative

end Sys2Proof.Machine
end

section
/-! PROOFS. The conversions NONE and LINEAR: what an input value, a product and a sum with a zero are (R38, R39, R41, R46, R64). -/

namespace Sys2Proof.Machine

/-! ### The empty set of marks (R37) -/

/-- The empty mark set adds no mark (R37). -/
@[simp] theorem FaultSet.union_none (f : FaultSet) : f.union FaultSet.none = f := by
  unfold FaultSet.union FaultSet.none
  simp only [Bool.or_false]

/-! ### Input values are normalized or zero (R36, R38, R39, R63) -/

/-- The word zero is a true zero. -/
theorem isZeroFloat_zero : isZeroFloat 0 = true := rfl

/-- A result that is normalized or the word zero serves as an operand (R36). -/
theorem acceptable_of_formed {w : Word} (h : isNormalized w = true ∨ w = 0) : isNormalized w = true ∨ isZeroFloat w = true :=
  h.imp_right fun hw => by rw [hw, isZeroFloat_zero]

/-- An integer of at most six digits is formed normalized, or as the word zero (R36, R38). -/
theorem ofInteger_formed {n : Int} (h : n.natAbs < 16 ^ 6) : isNormalized (ofInteger n) = true ∨ ofInteger n = 0 := by
  unfold ofInteger
  dsimp only
  apply Unpacked.Formable.pack_cases
  by_cases h0 : n.natAbs = 0
  · right
    dsimp only
    rw [h0, Nat.zero_mul]
  · left
    obtain ⟨digits, lo, hi⟩ := hexDigits_shift n.natAbs h0 h
    exact ⟨lo, hi, by dsimp only; omega, by dsimp only; omega⟩

/-- Every word enters normalized, or as the word zero (R36, R39). -/
theorem normalizeOnEntry_formed (w : Word) : isNormalized (normalizeOnEntry w).value = true ∨ (normalizeOnEntry w).value = 0 := by
  unfold normalizeOnEntry
  dsimp only
  split
  · exact .inr rfl
  next h0 =>
  obtain ⟨digits, lo, hi⟩ := hexDigits_shift (unpack w).fraction h0 (unpack_fraction_lt w)
  split
  · next hlead =>
    rw [hlead, pow_zero, Nat.mul_one] at lo
    exact .inl ((isNormalized_iff w).2 lo)
  split
  · exact .inr rfl
  · next hexp =>
    have hmax := (unpack_exponent w).2
    exact .inl (Unpacked.InRange.pack_normalized ⟨lo, hi, by dsimp only; omega, by dsimp only; omega⟩)

/-- The integer of every integer input form has at most six digits (R38, R174). -/
theorem rawInteger_natAbs_lt {raw : Word} {form : InputForm} {n : Int} (h : rawInteger raw form = some n) :
    n.natAbs < 16 ^ 6 := by
  cases form with
  | int16 =>
    obtain rfl := Option.some.inj h
    have hlo := (raw.extractLsb' 0 16).le_toInt
    have hhi := (raw.extractLsb' 0 16).toInt_lt
    omega
  | int24 =>
    obtain rfl := Option.some.inj h
    have hlo := (raw.extractLsb' 0 24).le_toInt
    have hhi := (raw.extractLsb' 0 24).toInt_lt
    omega
  | uint16 =>
    obtain rfl := Option.some.inj h
    have hhi := (raw.extractLsb' 0 16).isLt
    omega
  | float => cases h

/-- The input value of every form is normalized or the word zero (R36, R63). -/
theorem inputValue_formed (raw : Word) (form : InputForm) :
    isNormalized (inputValue raw form).value = true ∨ (inputValue raw form).value = 0 := by
  unfold inputValue
  split
  · next n hn => exact ofInteger_formed (rawInteger_natAbs_lt hn)
  · exact normalizeOnEntry_formed raw

/-! ### Multiply (R46) -/

/-- A product with a true zero is the word zero, without a mark (R46). -/
theorem multiplyFloat_zero {a b : Word} (h : isZeroFloat a = true ∨ isZeroFloat b = true) :
    multiplyFloat a b = ⟨0, FaultSet.none⟩ := by
  unfold multiplyFloat
  dsimp only
  rw [if_pos (h.imp (isZeroFloat_iff a).1 (isZeroFloat_iff b).1)]
  rfl

/-- The product of two six-digit fractions has eleven or twelve digits (R46). -/
theorem fraction_product_digits {u v : Unpacked} (hu : u.InRange 6) (hv : v.InRange 6) :
    16 ^ 10 ≤ u.fraction * v.fraction ∧ u.fraction * v.fraction < 16 ^ 12 := by
  constructor
  · calc 16 ^ 10 = 16 ^ 5 * 16 ^ 5 := by rw [← pow_add]
      _ ≤ u.fraction * v.fraction := Nat.mul_le_mul hu.lo hv.lo
  · calc u.fraction * v.fraction < 16 ^ 6 * 16 ^ 6 := Nat.mul_lt_mul'' hu.hi hv.hi
      _ = 16 ^ 12 := by rw [← pow_add]

/-- The product of two operands is normalized or the word zero (R36, R46). -/
theorem multiplyFloat_formed {a b : Word} (ha : isNormalized a = true ∨ isZeroFloat a = true)
    (hb : isNormalized b = true ∨ isZeroFloat b = true) :
    isNormalized (multiplyFloat a b).value = true ∨ (multiplyFloat a b).value = 0 := by
  unfold multiplyFloat
  dsimp only
  split
  · exact .inr rfl
  next h0 =>
  obtain ⟨hu, hv⟩ := not_or.1 h0
  obtain ⟨lo, hi⟩ := fraction_product_digits ((Unpacked.formable_unpack ha).resolve_right hu)
    ((Unpacked.formable_unpack hb).resolve_right hv)
  apply Unpacked.Formable.pack_cases
  split
  · apply rangeTest_formed (by omega) <;> dsimp only <;> omega
  · apply rangeTest_formed (by omega) <;> dsimp only <;> omega

/-! ### Adds with a zero, whatever the other operand (R41) -/

/-- Adding the word zero to a result that is normalized or zero gives that result back (R41). -/
theorem addFloat_formed_zero {a b : Word} (ha : isNormalized a = true ∨ a = 0) (hb : isZeroFloat b = true) :
    addFloat a b = ⟨a, FaultSet.none⟩ := by
  rcases ha with ha | rfl
  · exact addFloat_zero_right ha hb
  · exact addFloat_zeros isZeroFloat_zero hb

/-- Adding an operand to the word zero gives that operand, a true zero as the word zero (R36, R41). -/
theorem addFloat_zero_acceptable {b : Word} (hb : isNormalized b = true ∨ isZeroFloat b = true) :
    addFloat 0 b = ⟨if isZeroFloat b then trueZero else b, FaultSet.none⟩ := by
  rcases hb with hb | hb
  · rw [addFloat_zero_left isZeroFloat_zero hb, isZeroFloat_of_isNormalized hb, if_neg Bool.false_ne_true]
  · rw [addFloat_zeros isZeroFloat_zero hb, if_pos hb]
    rfl

/-! ### NONE and LINEAR (R64) -/

/-- Under NONE y is x with its marks (R64). -/
theorem convertRaw_none (pool : Memory) {e : Entry} (raw : Word) (lastGood reference : Option Word) (h : e.conversion = .none) :
    convertRaw pool e raw lastGood reference =
      .ok (plainResult (inputValue raw e.inputForm).value (inputValue raw e.inputForm).faults) := by
  unfold convertRaw
  rw [h]

/-- Under LINEAR the conversion is the multiply and the add of x (R64). -/
theorem convertRaw_linear (pool : Memory) {e : Entry} (raw : Word) (lastGood reference : Option Word) {gain offset : Word}
    (h : e.conversion = .linear gain offset) :
    convertRaw pool e raw lastGood reference = .ok (linearResult (inputValue raw e.inputForm) gain offset) := by
  unfold convertRaw
  rw [h]

/-- A zero gain leaves the offset, with the marks of x alone (R41, R46, R64). -/
theorem linearResult_zero_gain (x : Formed Word) {gain offset : Word} (hg : isZeroFloat gain = true)
    (ho : isNormalized offset = true ∨ isZeroFloat offset = true) :
    linearResult x gain offset = plainResult (if isZeroFloat offset then trueZero else offset) x.faults := by
  unfold linearResult
  simp only [multiplyFloat_zero (.inr hg), addFloat_zero_acceptable ho, FaultSet.union_none]

/-- A zero offset leaves the product, with the marks of x and of the multiply (R41, R64). -/
theorem linearResult_zero_offset {x : Formed Word} {gain offset : Word} (hx : isNormalized x.value = true ∨ x.value = 0)
    (ho : isZeroFloat offset = true) (hg : isNormalized gain = true ∨ isZeroFloat gain = true) :
    linearResult x gain offset =
      plainResult (multiplyFloat x.value gain).value (x.faults.union (multiplyFloat x.value gain).faults) := by
  have product := multiplyFloat_formed (acceptable_of_formed hx) hg
  unfold linearResult
  simp only [addFloat_formed_zero product ho, FaultSet.union_none]

/-- Settles O22: NONE and LINEAR are their results over the input value, which is normalized or zero, so that a zero gain and a zero offset
meet the zero rows of multiply and add. -/
theorem noneAndLinear : Obligations.NoneAndLinear := by
  intro pool e raw lastGood reference
  refine ⟨fun h => convertRaw_none pool raw lastGood reference h, ?_⟩
  intro gain offset h
  rw [convertRaw_linear pool raw lastGood reference h]
  refine ⟨rfl, ?_, ?_⟩
  · intro hg ho
    rw [linearResult_zero_gain _ hg ho]
    rfl
  · intro ho hg
    rw [linearResult_zero_offset (inputValue_formed raw e.inputForm) ho hg]
    rfl

end Sys2Proof.Machine
end

section
/-! PROOFS. The Table Store at power-on reset: what the command leaves of the state, and what the reset Table Store holds (R131). -/

namespace Sys2Proof.Machine

/-! ### The reset Table Store (R131) -/

/-- Every word of a reset bank's pool is zero (R17). -/
@[simp] theorem Bank.read_reset_pool (a : Nat) : Memory.read Bank.reset.pool a = 0 := rfl

@[simp] theorem Bank.reset_directory : Bank.reset.directory = [] := rfl

@[simp] theorem TableStore.reset_bankA : TableStore.reset.bankA = Bank.reset := rfl

@[simp] theorem TableStore.reset_bankB : TableStore.reset.bankB = Bank.reset := rfl

/-- A Table Store whose bank A is active has bank A in the active role and bank B in the shadow role (R115). -/
theorem TableStore.roles_of_active_a {t : TableStore} (h : t.active = .a) : t.activeBank = t.bankA ∧ t.shadowBank = t.bankB := by
  unfold TableStore.activeBank TableStore.shadowBank
  rw [h]
  exact ⟨rfl, rfl⟩

/-! ### The command (R131) -/

/-- POWER_ON_RESET always answers the reset state, with the outside's ready level and the model's own two fields kept. -/
theorem exec_powerOnReset (s : State) :
    exec .powerOnReset s =
      .next { State.reset with downstreamReady := s.downstreamReady, freeCount := s.freeCount, pending := s.pending } := rfl

/-- POWER_ON_RESET leaves the reset Table Store and no notice, whatever stood before. -/
theorem exec_powerOnReset_tables (s : State) :
    ∃ t, exec .powerOnReset s = .next t ∧ t.tables = TableStore.reset ∧ t.noticeQueue = [] :=
  ⟨_, exec_powerOnReset s, rfl, rfl⟩

/-- Settles O2: the command leaves the reset Table Store, whose two banks are reset banks and whose active bank is bank A. -/
theorem tableStoreAtPowerOnReset : Obligations.TableStoreAtPowerOnReset := by
  intro s
  obtain ⟨t, answers, tables, notices⟩ := exec_powerOnReset_tables s
  have active : t.tables.active = .a := by rw [tables]; rfl
  obtain ⟨activeRole, shadowRole⟩ := TableStore.roles_of_active_a active
  refine ⟨t, answers, ?directoryA, ?directoryB, ?pools, active, activeRole, shadowRole, ?generation, ?shadowState, notices⟩
  case directoryA => rw [tables, TableStore.reset_bankA, Bank.reset_directory]
  case directoryB => rw [tables, TableStore.reset_bankB, Bank.reset_directory]
  case pools =>
    intro a _
    rw [tables, TableStore.reset_bankA, TableStore.reset_bankB]
    exact ⟨Bank.read_reset_pool a, Bank.read_reset_pool a⟩
  case generation => rw [tables]; rfl
  case shadowState => rw [tables]; rfl

end Sys2Proof.Machine
end

section
/-! PROOFS. IDENTIFY: its row stands for its code, its contents byte by byte, and the one change it makes (R137, R138, R142). -/

namespace Sys2Proof.Machine

/-! ### The row of a command (R137, R176) -/

/-- A command's own code names it (R176). -/
theorem isCommand_code (n : CommandName) : isCommand n n.code = true := by cases n <;> rfl

/-- A ready command whose execution is one answer leaves the state with that answer and nothing else changed (R137, R138). -/
theorem withCommand_answered {s : State} {cell : Cell} {rest : List Cell} {n : CommandName} (h : CommandReady s cell rest n.code)
    {run : Cell → State → State} {status : Status} {contents : List Byte}
    (runs : run cell (commandTaken s cell rest) = answer (commandTaken s cell rest) cell status contents) :
    withCommand s (isCommand n) run = .next (answered s cell rest status contents) := by
  rw [withCommand_ready h (isCommand n) run (isCommand_code n), runs, answer_taken h]

/-! ### IDENTIFY (R142) -/

/-- IDENTIFY's contents by value: part code 0512h, revision 1 over the strap address, 512 entries, 4096 pool words, 512 slots, four tables
and the six queue capacities (R142, R178). -/
theorem identifyBytes_eq (strap : UnitAddress) :
    identifyBytes strap =
      [0x05, 0x12, (1 : BitVec 4) ++ strap, 0x02, 0x00, 0x10, 0x00, 0x02, 0x00, 4, 32, 8, 16, 8, 32, 64] := rfl

/-- The execution of IDENTIFY is one DONE answer, whose contents are formed with the strap address sampled at release (R134, R142). -/
theorem runIdentify_taken (s : State) (cell : Cell) (rest : List Cell) :
    runIdentify cell (commandTaken s cell rest) = answer (commandTaken s cell rest) cell .done (identifyBytes s.strap) := rfl

/-- IDENTIFY's row takes the command of code 01h (R137, R176). -/
theorem exec_identify (s : State) : exec .identify s = withCommand s (isCommand .identify) runIdentify := rfl

/-- Settles O32: a ready IDENTIFY is executed on the state it was taken from, and its one answer carries the contents by value. -/
theorem identify : Obligations.Identify := by
  intro s cell rest ready
  rw [exec_identify, ← identifyBytes_eq s.strap]
  exact withCommand_answered (n := .identify) ready (runIdentify_taken s cell rest)

end Sys2Proof.Machine
end

section
/-! PROOFS. Everything a step can do, said once: one constructor per kind of change, from which every invariant follows. -/

namespace Sys2Proof.Machine

/-! ### What each command leaves -/

/-- What a command leaves of a state when it answers a next state, kind by kind: each constructor names the change and the conditions
under which the command makes it. Only the two changes of the Table Store's roles name their command. -/
inductive StepLeaves (s : State) : Instr → State → Prop where
  | unchanged (c : Instr) : StepLeaves s c s
  | powerOnReset : StepLeaves s .powerOnReset
      { State.reset with downstreamReady := s.downstreamReady, freeCount := s.freeCount, pending := s.pending }
  | resetEnds {c : Instr} {t : State} {asserted : Bool} {strap : UnitAddress} {unit : CommandUnit}
      (unit_eq : unit = s.commandUnit ∨ unit = .idle)
      (notices : NoticeWork { s with resetAsserted := asserted, strap := strap, commandUnit := unit } t) : StepLeaves s c t
  | badCell {c : Instr} {t : State} {bad : Half} {receiver : Receiver}
      (framed : receiver = .idle ∨
        ∃ byte overrun, receiver = .receiving [byte] overrun ∧ (overrun = false → s.ingressBuffer.length < 32))
      (notices : NoticeWork { s with badCells := bad, receiver := receiver } t) : StepLeaves s c t
  | byte {c : Instr} {bytes : List Byte} {overrun : Bool} {b : Byte} (receiver : s.receiver = .receiving bytes overrun)
      (short : bytes.length ≠ 23) : StepLeaves s c { s with receiver := .receiving (bytes ++ [b]) overrun }
  | goodCell {c : Instr} {bytes : List Byte} {cell : Cell} (receiver : s.receiver = .receiving bytes false) :
      StepLeaves s c { s with receiver := .idle, ingressBuffer := s.ingressBuffer ++ [cell] }
  | classified {c : Instr} {t : State} {cell : Cell} {rest commands : List Cell} {unknown discarded : Half} {epoch : Word} {sweep : Sweep}
      {forward : List ForwardCell} (buffer : s.ingressBuffer = cell :: rest) (idle : s.engine = .idle)
      (sweepClaim : sweep.claim = true → s.sweep.claim = true ∧ sweep.cursor = s.sweep.cursor)
      (forward_eq : forward = s.forwardQueue ∨ (s.forwardQueue.length < 16 ∧ ∃ f, forward = s.forwardQueue ++ [f]))
      (commands_eq : commands = s.commandQueue ∨ (s.commandQueue.length < 8 ∧ commands = s.commandQueue ++ [cell]))
      (notices : NoticeWork
        { s with
          ingressBuffer := rest, unknownChannels := unknown, discardedCommands := discarded, epochCount := epoch, sweep := sweep
          forwardQueue := forward, commandQueue := commands } t) : StepLeaves s c t
  | readingTaken {c : Instr} {t : State} {cell : Cell} {rest : List Cell} {e : Entry} (buffer : s.ingressBuffer = cell :: rest)
      (idle : s.engine = .idle) (place : s.forwardQueue.length < 16)
      (found : findChannel s.tables.activeBank.directory (readingChannel cell) = some e)
      (leaves : ReadingLeaves (takenReading s cell e) (takenState s cell rest e) t) : StepLeaves s c t
  | readingResumed {c : Instr} {t : State} {h : HeldReading} (waiting : s.engine = .waiting h)
      (leaves : ReadingLeaves h { s with engine := .converting h } t) : StepLeaves s c t
  | command {c : Instr} {t : State} {cell : Cell} {rest : List Cell} (ready : CommandReady s cell rest (commandCode cell))
      (leaves : CommandLeaves (fun _ => False) (commandTaken s cell rest) t) : StepLeaves s c t
  | commandResumed {c : Instr} {t : State} {w : WaitingCommand} (waiting : s.commandUnit = .waiting w)
      (leaves : CommandLeaves (fun i => w.claim = true ∧ i = w.slot) { s with commandUnit := .executing w.cell } t) : StepLeaves s c t
  | tables {c : Instr} {t : State} {tables : TableStore} (activeBank : tables.activeBank = s.tables.activeBank)
      (active : tables.active = s.tables.active) (generation : tables.generation = s.tables.generation)
      (shadow : tables.shadowBank = s.tables.shadowBank ∨ tables.shadowBank = s.tables.activeBank)
      (verified : tables.shadowState = .swapPending → verifyBank tables.shadowBank = none)
      (notices : NoticeWork { s with tables := tables } t) : StepLeaves s c t
  | swapped {t : State} (pending : s.tables.shadowState = .swapPending) (free : s.heldReading = none)
      (notices : NoticeWork (startReconciliation { s with tables := s.tables.swapped }) t) : StepLeaves s .swap t
  | cursorHeld {c : Instr} (flight : s.reconciliation.inFlight = true)
      (unclaimed : s.claimedByOther .cursor s.reconciliation.cursor = false) :
      StepLeaves s c { s with reconciliation := { s.reconciliation with claim := true } }
  | cursorMoved {c : Instr} {u : State} (flight : s.reconciliation.inFlight = true) (work : SlotWork s u)
      (settled : (u.slot s.reconciliation.cursor).pending = false) :
      StepLeaves s c (advanceReconciliation u s.reconciliation.cursor)
  | sweepHeld {c : Instr} {u : State} (work : SlotWork s u) (unclaimed : s.claimedByOther .sweep s.sweep.cursor = false) :
      StepLeaves s c (holdSweep u)
  | sweepMoved {c : Instr} {u : State} (work : SlotWork s u) : StepLeaves s c (advanceSweep u s.sweep.cursor)
  | granted {c : Instr} {ready : Bool} {count : BitVec 4} {port : Option Transmission} {forward : List ForwardCell}
      {responses : List Response} {notices : List Notice} {summaries : List Summary} (forward_suffix : forward <:+ s.forwardQueue)
      (responses_suffix : responses <:+ s.responseQueue) (notices_suffix : notices <:+ s.noticeQueue)
      (summaries_suffix : summaries <:+ s.summaryQueue) :
      StepLeaves s c
        { s with
          downstreamReady := ready, starvationCount := count, port := port, forwardQueue := forward, responseQueue := responses
          noticeQueue := notices, summaryQueue := summaries }
  | departed {c : Instr} (x : Transmission) : StepLeaves s c (recordDeparture s x)
  | softReset {c : Instr} (x : Transmission) : StepLeaves s c (softReset (recordDeparture s x))

/-! ### The resets and the ingress port -/

theorem execPowerOnResetRelease_leaves {straps : BitVec 4} {s t : State} (c : Instr)
    (ht : execPowerOnResetRelease straps s = .next t) : StepLeaves s c t := by
  unfold execPowerOnResetRelease at ht
  split at ht <;> obtain rfl := Host.Outcome.next.inj ht
  · exact .resetEnds (.inl rfl) (State.handNotice_work { s with resetAsserted := false, strap := straps } _ (.inl rfl))
  · exact .unchanged c

theorem execSoftResetComplete_leaves {s t : State} (c : Instr) (ht : execSoftResetComplete s = .next t) : StepLeaves s c t := by
  unfold execSoftResetComplete at ht
  split at ht <;> obtain rfl := Host.Outcome.next.inj ht
  · exact .resetEnds (.inr rfl) (State.handNotice_work { s with commandUnit := .idle } _ (.inl rfl))
  · exact .unchanged c

/-- The work on notices does not see the framing state. -/
theorem NoticeWork.withReceiver {s t : State} (h : NoticeWork s t) (x : Receiver) :
    NoticeWork { s with receiver := x } { t with receiver := x } where
  frame := by rw [h.frame]
  room := h.room
  numbered := h.numbered
  oneLinkError := h.oneLinkError

/-- A strobe that the receiver heeds is not OVERRUN only while the Ingress Buffer has a place (R170, R171). -/
theorem overrunAtStrobe_heeded {s : State} (h : s.receiverHeeds = true) : overrunAtStrobe s = decide (32 ≤ s.ingressBuffer.length) := by
  have ready : s.ingressReady = decide (s.ingressBuffer.length < 32) := by
    show (s.receiverHeeds && _) = _
    rw [h, Bool.true_and]
  unfold overrunAtStrobe
  rw [ready]
  by_cases hl : s.ingressBuffer.length < 32
  · simp only [hl, Config.ingressCapacity, Nat.not_le.2 hl, decide_true, decide_false, Bool.not_true, Bool.and_false]
  · simp only [hl, Config.ingressCapacity, Nat.not_lt.1 hl, decide_true, decide_false, Bool.not_false, Bool.and_true]

/-- A cell that begins is OVERRUN or has its place (R170). -/
theorem strobe_place {s : State} (h : s.receiverHeeds = true) (ho : overrunAtStrobe s = false) : s.ingressBuffer.length < 32 := by
  rw [overrunAtStrobe_heeded h] at ho
  exact Nat.not_le.1 (of_decide_eq_false ho)

theorem execCellStartStrobe_leaves {b : Byte} {s t : State} (c : Instr) (ht : execCellStartStrobe b s = .next t) :
    StepLeaves s c t := by
  unfold execCellStartStrobe at ht
  split at ht
  next heeds =>
    split at ht <;> obtain rfl := Host.Outcome.next.inj ht
    · exact .badCell (.inr ⟨b, _, rfl, strobe_place heeds⟩) (.refl _)
    · refine .badCell (receiver := .receiving [b] _) (.inr ⟨b, _, rfl, fun ho => ?_⟩) ((State.badCell_work s .runt).withReceiver _)
      rw [← State.badCell_ingressBuffer s .runt]
      refine strobe_place ?_ ho
      rw [← heeds]
      unfold State.receiverHeeds
      rw [State.badCell_resetAsserted, State.badCell_commandUnit]
  · obtain rfl := Host.Outcome.next.inj ht
    exact .unchanged c

theorem judgeCell_leaves {s : State} (c : Instr) {bytes : List Byte} {overrun : Bool} (cellBytes : List Byte)
    (receiver : s.receiver = .receiving bytes overrun) : StepLeaves s c (judgeCell s cellBytes overrun) := by
  unfold judgeCell
  dsimp only
  split
  · exact .badCell (.inl rfl) (State.badCell_work { s with receiver := .idle } .overrun)
  next ho =>
    obtain rfl := Bool.eq_false_iff.2 ho
    split
    · exact .goodCell receiver
    · exact .badCell (.inl rfl) (State.badCell_work { s with receiver := .idle } .crc)

theorem execByteWithoutTheStrobe_leaves {b : Byte} {s t : State} (c : Instr) (ht : execByteWithoutTheStrobe b s = .next t) :
    StepLeaves s c t := by
  unfold execByteWithoutTheStrobe at ht
  split at ht
  · split at ht <;> obtain rfl := Host.Outcome.next.inj ht
    · exact .unchanged c
    next receiver =>
      unfold receiveByte
      split
      · exact judgeCell_leaves c _ receiver
      · next short => exact .byte receiver short
  · obtain rfl := Host.Outcome.next.inj ht
    exact .unchanged c

theorem execCellComplete_leaves {b : Byte} {s t : State} (c : Instr) (ht : execCellComplete b s = .next t) : StepLeaves s c t := by
  unfold execCellComplete at ht
  split at ht
  · split at ht
    · obtain rfl := Host.Outcome.next.inj ht
      exact .unchanged c
    next receiver =>
      split at ht <;> obtain rfl := Host.Outcome.next.inj ht
      · exact judgeCell_leaves c _ receiver
      · exact .unchanged c
  · obtain rfl := Host.Outcome.next.inj ht
    exact .unchanged c

/-! ### The Engine and the Classifier -/

/-- What the Engine's condition to take a reading says (R56). -/
theorem mayTakeReading_iff (s : State) :
    mayTakeReading s = true ↔ s.engine = .idle ∧ s.forwardQueue.length < 16 ∧ s.tables.shadowState ≠ .swapPending := by
  unfold mayTakeReading State.forwardFree
  simp only [Bool.and_eq_true, decide_eq_true_eq, and_assoc, Config.forwardCapacity]

/-- The Engine holds no reading exactly while it is IDLE (R55). -/
theorem engineFree_iff (s : State) : s.engineFree = true ↔ s.engine = .idle := by
  unfold State.engineFree State.heldReading
  cases s.engine <;> simp

/-- What the Classifier's condition to forward a cell says (R172). -/
theorem mayForward_iff (s : State) : mayForward s = true ↔ s.engine = .idle ∧ s.forwardQueue.length < 16 := by
  unfold mayForward State.forwardFree
  rw [Bool.and_eq_true, engineFree_iff, decide_eq_true_eq]

theorem execTakeReading_leaves {s t : State} (c : Instr) (ht : execTakeReading s = .next t) : StepLeaves s c t := by
  unfold execTakeReading at ht
  split at ht
  · obtain rfl := Host.Outcome.next.inj ht
    exact .unchanged c
  next cell rest buffer =>
    split at ht
    next may =>
      obtain ⟨idle, place, -⟩ := (mayTakeReading_iff s).1 may.2
      unfold beginReading at ht
      split at ht
      · obtain rfl := Host.Outcome.next.inj ht
        unfold unknownReading
        dsimp only
        split
        · exact .classified (unknown := satInc s.unknownChannels) buffer idle (fun h => ⟨h, rfl⟩) (.inr ⟨place, _, rfl⟩)
            (.inl rfl) (.refl _)
        · exact .classified (unknown := satInc s.unknownChannels) buffer idle (fun h => ⟨h, rfl⟩) (.inl rfl) (.inl rfl) (.refl _)
      next e found => exact .readingTaken buffer idle place found (runReading_leaves ht)
    · obtain rfl := Host.Outcome.next.inj ht
      exact .unchanged c

theorem execEngineResume_leaves {s t : State} (c : Instr) (ht : execEngineResume s = .next t) : StepLeaves s c t := by
  unfold execEngineResume at ht
  split at ht
  · obtain rfl := Host.Outcome.next.inj ht
    exact .unchanged c
  · obtain rfl := Host.Outcome.next.inj ht
    exact .unchanged c
  next h waiting => exact .readingResumed waiting (runReading_leaves ht)

/-- A sweep started or asked to rescan holds its slot's claim only where it held it before (R108). -/
theorem startSweep_claim (w : Sweep) : (startSweep w).claim = true → w.claim = true ∧ (startSweep w).cursor = w.cursor := by
  unfold startSweep
  split
  · exact fun h => ⟨h, rfl⟩
  · exact fun h => absurd h Bool.false_ne_true

theorem execTakeEpoch_leaves {s t : State} (c : Instr) (ht : execTakeEpoch s = .next t) : StepLeaves s c t := by
  unfold execTakeEpoch at ht
  split at ht
  · obtain rfl := Host.Outcome.next.inj ht
    exact .unchanged c
  next cell rest buffer =>
    split at ht <;> obtain rfl := Host.Outcome.next.inj ht
    next may =>
      obtain ⟨idle, place⟩ := (mayForward_iff s).1 may.2
      exact .classified (epoch := s.epochCount + 1) (sweep := startSweep s.sweep) buffer idle (startSweep_claim s.sweep)
        (.inr ⟨place, _, rfl⟩) (.inl rfl) (.refl _)
    · exact .unchanged c

theorem execPassThroughCell_leaves {s t : State} (c : Instr) (ht : execPassThroughCell s = .next t) : StepLeaves s c t := by
  unfold execPassThroughCell at ht
  split at ht
  · obtain rfl := Host.Outcome.next.inj ht
    exact .unchanged c
  next cell rest buffer =>
    split at ht <;> obtain rfl := Host.Outcome.next.inj ht
    next may =>
      obtain ⟨idle, place⟩ := (mayForward_iff s).1 may.2
      exact .classified buffer idle (fun h => ⟨h, rfl⟩) (.inr ⟨place, _, rfl⟩) (.inl rfl) (.refl _)
    · exact .unchanged c

/-- A command offered to the Command Queue joins it, or is discarded with a notice (R136). -/
theorem offerCommand_leaves {s : State} (c : Instr) {cell : Cell} {rest : List Cell} {forward : List ForwardCell}
    (buffer : s.ingressBuffer = cell :: rest) (idle : s.engine = .idle)
    (forward_eq : forward = s.forwardQueue ∨ (s.forwardQueue.length < 16 ∧ ∃ f, forward = s.forwardQueue ++ [f])) :
    StepLeaves s c (offerCommand { s with ingressBuffer := rest, forwardQueue := forward } cell) := by
  unfold offerCommand
  split
  next admitted =>
    have place : s.commandQueue.length < 8 := by simpa [commandAdmitted] using admitted
    exact .classified buffer idle (fun h => ⟨h, rfl⟩) forward_eq (.inr ⟨place, rfl⟩) (.refl _)
  · exact .classified (discarded := satInc s.discardedCommands) buffer idle (fun h => ⟨h, rfl⟩) forward_eq (.inl rfl)
      (State.handNotice_work _ _ (.inl rfl))

theorem execTakeCommand_leaves {s t : State} (c : Instr) (ht : execTakeCommand s = .next t) : StepLeaves s c t := by
  unfold execTakeCommand at ht
  split at ht
  · obtain rfl := Host.Outcome.next.inj ht
    exact .unchanged c
  next cell rest buffer =>
    dsimp only at ht
    split at ht
    · split at ht
      · split at ht <;> obtain rfl := Host.Outcome.next.inj ht
        next free => exact offerCommand_leaves c buffer ((engineFree_iff s).1 free) (.inl rfl)
        · exact .unchanged c
      · split at ht <;> obtain rfl := Host.Outcome.next.inj ht
        next may =>
          obtain ⟨idle, place⟩ := (mayForward_iff s).1 may
          exact offerCommand_leaves c buffer idle (.inr ⟨place, _, rfl⟩)
        · exact .unchanged c
      · obtain rfl := Host.Outcome.next.inj ht
        exact .unchanged c
    · obtain rfl := Host.Outcome.next.inj ht
      exact .unchanged c

/-! ### The Command Unit and the Table Store -/

theorem commandRow_stepLeaves {c : Instr} {s t : State} (ht : exec c s = .next t)
    (hc : c ∈ [Instr.identify, .readStatus, .setMode, .entryInsert, .entryConvert, .entryWindow, .entryRemove, .entryRead, .poolWrite,
      .poolRead, .commit, .abandon, .slotRead, .slotClear, .armDivert, .flushWindow, .resetPart, .badCommand]) : StepLeaves s c t := by
  rcases commandRow_leaves ht hc with rfl | ⟨cell, rest, ready, leaves⟩
  · exact .unchanged c
  · exact .command ready leaves

theorem execCommandResume_leaves {s t : State} (c : Instr) (ht : execCommandResume s = .next t) : StepLeaves s c t := by
  unfold execCommandResume at ht
  split at ht <;> obtain rfl := Host.Outcome.next.inj ht
  case h_1 w waiting => exact .commandResumed waiting (resumeCommand_leaves w _)
  all_goals exact .unchanged c

theorem execVerifyComplete_leaves {s t : State} (c : Instr) (ht : execVerifyComplete s = .next t) : StepLeaves s c t := by
  unfold execVerifyComplete at ht
  split at ht
  · split at ht <;> obtain rfl := Host.Outcome.next.inj ht
    next passes =>
      exact .tables (tables := { s.tables with shadowState := .swapPending }) rfl rfl rfl (.inl rfl) (fun _ => passes) (.refl _)
    · exact .tables (tables := { s.tables with shadowState := .editable }) rfl rfl rfl (.inl rfl) (fun h => nomatch h)
        (State.handNotice_work _ _ (.inl rfl))
  · obtain rfl := Host.Outcome.next.inj ht
    exact .unchanged c

theorem execMirrorComplete_leaves {s t : State} (c : Instr) (ht : execMirrorComplete s = .next t) : StepLeaves s c t := by
  unfold execMirrorComplete at ht
  split at ht
  case h_4 =>
    split at ht <;> obtain rfl := Host.Outcome.next.inj ht
    · exact .unchanged c
    · exact .tables (tables := { s.tables.putShadow s.tables.activeBank with shadowState := .editable })
        (TableStore.putShadow_activeBank s.tables _) (TableStore.putShadow_active s.tables _)
        (TableStore.putShadow_generation s.tables _) (.inr (TableStore.putShadow_shadowBank s.tables _)) (fun h => nomatch h)
        (State.handNotice_work _ _ (.inl rfl))
  all_goals
    obtain rfl := Host.Outcome.next.inj ht
    exact .unchanged c

/-- What the conditions of a swap say (R126). -/
theorem maySwap_iff (s : State) :
    maySwap s = true ↔ s.tables.shadowState = .swapPending ∧ s.engine = .idle ∧ s.reconciliation.inFlight = false := by
  unfold maySwap
  rw [Bool.and_eq_true, Bool.and_eq_true, decide_eq_true_eq, engineFree_iff, Bool.not_eq_true', and_assoc]

theorem execSwap_leaves {s t : State} (ht : execSwap s = .next t) : StepLeaves s .swap t := by
  unfold execSwap at ht
  split at ht <;> obtain rfl := Host.Outcome.next.inj ht
  next may =>
    obtain ⟨pending, idle, -⟩ := (maySwap_iff s).1 may
    exact .swapped pending (by unfold State.heldReading; rw [idle]) (State.handNotice_work _ _ (.inl rfl))
  · exact .unchanged .swap

/-! ### The cursors and the egress port -/

theorem execReconciliationCursorStep_leaves {s t : State} (c : Instr) (ht : execReconciliationCursorStep s = .next t) :
    StepLeaves s c t := by
  unfold execReconciliationCursorStep at ht
  dsimp only at ht
  split at ht
  next flight =>
    split at ht
    · obtain rfl := Host.Outcome.next.inj ht
      exact .unchanged c
    next unclaimed =>
      split at ht <;> obtain rfl := Host.Outcome.next.inj ht
      · exact .cursorHeld flight (Bool.eq_false_iff.2 unclaimed)
      next reconciled => exact .cursorMoved flight (State.reconcileSlot_work reconciled) (State.reconcileSlot_pending reconciled)
  · obtain rfl := Host.Outcome.next.inj ht
    exact .unchanged c

theorem execEpochSweepStep_leaves {s t : State} (c : Instr) (ht : execEpochSweepStep s = .next t) : StepLeaves s c t := by
  unfold execEpochSweepStep at ht
  dsimp only at ht
  split at ht
  · split at ht
    · obtain rfl := Host.Outcome.next.inj ht
      exact .unchanged c
    next unclaimed =>
      split at ht
      · obtain rfl := Host.Outcome.next.inj ht
        exact .sweepHeld (.refl s) (Bool.eq_false_iff.2 unclaimed)
      next reconciled =>
        split at ht <;> obtain rfl := Host.Outcome.next.inj ht
        · exact .sweepHeld (State.reconcileSlot_work reconciled) (Bool.eq_false_iff.2 unclaimed)
        next closed => exact .sweepMoved ((State.reconcileSlot_work reconciled).trans (State.closeDue_work closed))
  · obtain rfl := Host.Outcome.next.inj ht
    exact .unchanged c

/-- A transmission takes the head of at most one queue (R161). -/
theorem transmit_leaves {s : State} (c : Instr) (ready : Bool) (count : BitVec 4) (q : QueueName) :
    StepLeaves s c (transmit { s with downstreamReady := ready, starvationCount := count } q) := by
  have refl {α : Type} {l : List α} : l <:+ l := List.suffix_refl l
  have rest {α : Type} {l r : List α} {x : α} (h : l = x :: r) : r <:+ l := h ▸ List.suffix_cons x r
  have quiet : StepLeaves s c { s with downstreamReady := ready, starvationCount := count } :=
    .granted (port := s.port) refl refl refl refl
  cases q <;> unfold transmit <;> dsimp only
  case forward =>
    split
    · exact quiet
    next h => exact .granted (rest h) refl refl refl
  case response =>
    split
    · exact quiet
    next h => exact .granted refl (rest h) refl refl
  case notice =>
    split
    · exact quiet
    next h => exact .granted refl refl (rest h) refl
  case summary =>
    split
    · exact quiet
    next h => exact .granted refl refl refl (rest h)

theorem execGrant_leaves {ready : Bool} {s t : State} (c : Instr) (ht : execGrant ready s = .next t) : StepLeaves s c t := by
  have quiet : StepLeaves s c { s with downstreamReady := ready } :=
    .granted (count := s.starvationCount) (port := s.port) (List.suffix_refl _) (List.suffix_refl _) (List.suffix_refl _)
      (List.suffix_refl _)
  unfold execGrant at ht
  dsimp only at ht
  split at ht
  · split at ht <;> obtain rfl := Host.Outcome.next.inj ht
    · exact quiet
    next q _ => exact transmit_leaves c ready _ q
  · obtain rfl := Host.Outcome.next.inj ht
    exact quiet

theorem execCellDeparture_leaves {s t : State} (c : Instr) (ht : execCellDeparture s = .next t) : StepLeaves s c t := by
  unfold execCellDeparture at ht
  split at ht
  · obtain rfl := Host.Outcome.next.inj ht
    exact .unchanged c
  next x _ =>
    dsimp only at ht
    obtain rfl := Host.Outcome.next.inj ht
    split
    · exact .softReset x
    · exact .departed x

/-! ### Every command -/

/-- Every command's next state is one of the changes of `StepLeaves`. -/
theorem exec_leaves {c : Instr} {s t : State} (ht : exec c s = .next t) : StepLeaves s c t := by
  cases c with
  | powerOnReset =>
    obtain rfl := Host.Outcome.next.inj ht
    exact .powerOnReset
  | powerOnResetRelease straps => exact execPowerOnResetRelease_leaves _ ht
  | cellStartStrobe b => exact execCellStartStrobe_leaves _ ht
  | cellComplete b => exact execCellComplete_leaves _ ht
  | takeReading => exact execTakeReading_leaves _ ht
  | engineResume => exact execEngineResume_leaves _ ht
  | takeEpoch => exact execTakeEpoch_leaves _ ht
  | takeCommand => exact execTakeCommand_leaves _ ht
  | passThroughCell => exact execPassThroughCell_leaves _ ht
  | commandResume => exact execCommandResume_leaves _ ht
  | verifyComplete => exact execVerifyComplete_leaves _ ht
  | swap => exact execSwap_leaves ht
  | mirrorComplete => exact execMirrorComplete_leaves _ ht
  | reconciliationCursorStep => exact execReconciliationCursorStep_leaves _ ht
  | epochSweepStep => exact execEpochSweepStep_leaves _ ht
  | grant ready => exact execGrant_leaves _ ht
  | cellDeparture => exact execCellDeparture_leaves _ ht
  | softResetComplete => exact execSoftResetComplete_leaves _ ht
  | byteWithoutTheStrobe b => exact execByteWithoutTheStrobe_leaves _ ht
  | _ => exact commandRow_stepLeaves ht (by decide)

/-- A step runs the command at the front of the queue on the state with the queue's rest. -/
theorem step_front {s : State} {c : Instr} {rest : List Instr} (h : s.pending = c :: rest) :
    step s = exec c { s with pending := rest } := by
  unfold step
  rw [h]

/-- With no command pending the block idles. -/
theorem step_idle {s : State} (h : s.pending = []) : step s = .next s := by
  unfold step
  rw [h]

/-- A property that sees neither the pending commands nor anything but the changes of `StepLeaves` is kept by every step. -/
theorem keptByStep_of_leaves {inv : State → Prop} (pending : ∀ s rest, inv s → inv { s with pending := rest })
    (leaves : ∀ s c t, inv s → StepLeaves s c t → inv t) : KeptByStep inv := by
  intro s t hs ht
  cases hp : s.pending with
  | nil =>
    rw [step_idle hp] at ht
    obtain rfl := Host.Outcome.next.inj ht
    exact hs
  | cons c rest =>
    rw [step_front hp] at ht
    exact leaves _ c t (pending s rest hs) (exec_leaves ht)

/-- Settles O1: the definition of a step on a queue that is not empty. -/
theorem stepRunsFrontCommand : Obligations.StepRunsFrontCommand := fun _ _ _ h => step_front h

end Sys2Proof.Machine
end

section
/-! PROOFS. Queue capacities, notices, reception and the starvation limit: what every step keeps of them (R56, R136, R137, R144, R154 to R158,
R160, R168, R171). -/

namespace Sys2Proof.Machine

/-! ### Queue capacities -/

theorem QueuesBounded.notices {s t : State} (h : NoticeWork s t) (hs : QueuesBounded s) : QueuesBounded t := by
  obtain ⟨ingress, commands, forward, responses, notices, summaries, held, executing, waiting, receiving⟩ := hs
  rw [h.frame]
  exact ⟨ingress, commands, forward, responses, h.room notices, summaries, held, executing, waiting, receiving⟩

theorem QueuesBounded.slots {s t : State} (h : SlotWork s t) (hs : QueuesBounded s) : QueuesBounded t := by
  obtain ⟨ingress, commands, forward, responses, notices, summaries, held, executing, waiting, receiving⟩ := hs
  rw [h.frame]
  exact ⟨ingress, commands, forward, responses, notices, h.room summaries, held, executing, waiting, receiving⟩

/-- A held reading has its Forward Queue place, and takes it only as it ends (R56). -/
theorem QueuesBounded.reading {h : HeldReading} {s t : State} (leaves : ReadingLeaves h s t) (busy : s.engine ≠ .idle)
    (hs : QueuesBounded s) : QueuesBounded t := by
  cases leaves with
  | waits work =>
    obtain ⟨ingress, commands, forward, responses, notices, summaries, held, executing, waiting, receiving⟩ := hs.slots work
    have place := held (by rw [work.frame]; exact busy)
    exact ⟨ingress, commands, forward, responses, notices, summaries, fun _ => place, executing, waiting, receiving⟩
  | ends work handed queue_eq =>
    obtain ⟨ingress, commands, forward, responses, notices, summaries, held, executing, waiting, receiving⟩ :=
      (hs.slots work).notices handed
    have place := held (by rw [handed.frame, work.frame]; exact busy)
    refine ⟨ingress, commands, ?_, responses, notices, summaries, fun h => absurd rfl h, executing, waiting, receiving⟩
    rcases queue_eq with rfl | ⟨c, rfl⟩
    · exact forward
    · simpa using Nat.lt_succ_of_le place

/-- A command in execution has its Response Queue place, and takes it as it is answered (R137). -/
theorem QueuesBounded.command {p : SlotId → Prop} {s t : State} {cell : Cell} (leaves : CommandLeaves p s t)
    (unit_eq : s.commandUnit = .executing cell) (hs : QueuesBounded s) : QueuesBounded t := by
  cases leaves with
  | answered work notices change limit next =>
    obtain ⟨ingress, commands, forward, responses, notices', summaries, held, executing, -, receiving⟩ :=
      (hs.slots work).notices notices
    have place : s.responseQueue.length ≤ 7 := by
      obtain ⟨-, -, -, -, -, -, -, executing, -, -⟩ := hs
      exact executing cell unit_eq
    refine ⟨ingress, commands, forward, by simpa using Nat.lt_succ_of_le place, notices', summaries, held, fun c hc => ?_, fun w hw => ?_, receiving⟩
    · rcases next with rfl | ⟨_, rfl⟩ <;> cases hc
    · rcases next with rfl | ⟨_, rfl⟩ <;> cases hw
  | waits work =>
    obtain ⟨ingress, commands, forward, responses, notices, summaries, held, executing, -, receiving⟩ := hs.slots work
    have place := executing cell (by rw [work.frame]; exact unit_eq)
    exact ⟨ingress, commands, forward, responses, notices, summaries, held, fun _ h => (by cases h), fun _ _ => place, receiving⟩

theorem advanceReconciliation_queues {s : State} (i : SlotId) (hs : QueuesBounded s) : QueuesBounded (advanceReconciliation s i) := by
  unfold advanceReconciliation
  split <;> exact hs

theorem advanceSweep_queues {s : State} (i : SlotId) (hs : QueuesBounded s) : QueuesBounded (advanceSweep s i) := by
  unfold advanceSweep
  split <;> exact hs

/-- A queue of which at most its head has left still has its places. -/
theorem suffix_bound {α : Type} {l m : List α} {n : Nat} (h : l <:+ m) (hm : m.length ≤ n) : l.length ≤ n :=
  h.length_le.trans hm

theorem StepLeaves.queues {s t : State} {c : Instr} (leaves : StepLeaves s c t) (hs : QueuesBounded s) : QueuesBounded t := by
  have bounds := hs
  obtain ⟨ingress, commands, forward, responses, notices, summaries, held, executing, waiting, receiving⟩ := bounds
  cases leaves with
  | unchanged => exact hs
  | powerOnReset =>
    exact ⟨Nat.zero_le _, Nat.zero_le _, Nat.zero_le _, Nat.zero_le _, Nat.zero_le _, Nat.zero_le _, fun _ => Nat.zero_le _,
      fun _ h => (by cases h), fun _ h => (by cases h), fun _ _ => Nat.zero_le _⟩
  | resetEnds unit_eq work =>
    refine QueuesBounded.notices work ?_
    rcases unit_eq with rfl | rfl
    · exact hs
    · exact ⟨ingress, commands, forward, responses, notices, summaries, held, fun _ h => (by cases h), fun _ h => (by cases h), receiving⟩
  | badCell framed work =>
    refine QueuesBounded.notices work ⟨ingress, commands, forward, responses, notices, summaries, held, executing, waiting, ?_⟩
    rcases framed with rfl | ⟨byte, overrun, rfl, place⟩
    · exact fun _ h => (by cases h)
    · intro bytes h
      obtain ⟨-, rfl⟩ := Receiver.receiving.inj h
      exact Nat.le_of_lt_succ (place rfl)
  | byte receiver =>
    refine ⟨ingress, commands, forward, responses, notices, summaries, held, executing, waiting, fun bytes h => ?_⟩
    obtain ⟨-, rfl⟩ := Receiver.receiving.inj h
    exact receiving _ receiver
  | goodCell receiver =>
    have place := receiving _ receiver
    exact ⟨by simpa using Nat.lt_succ_of_le place, commands, forward, responses, notices, summaries, held, executing, waiting, fun _ h => (by cases h)⟩
  | classified buffer idle _ forward_eq commands_eq work =>
    rw [buffer, List.length_cons] at ingress receiving
    refine QueuesBounded.notices work ⟨Nat.le_of_succ_le ingress, ?_, ?_, responses, notices, summaries, fun h => absurd idle h, executing, waiting,
      fun bytes h => Nat.le_of_succ_le (receiving bytes h)⟩
    · rcases commands_eq with rfl | ⟨place, rfl⟩
      · exact commands
      · simpa using place
    · rcases forward_eq with rfl | ⟨place, _, rfl⟩
      · exact forward
      · simpa using place
  | readingTaken buffer idle place _ work =>
    rw [buffer, List.length_cons] at ingress receiving
    refine QueuesBounded.reading work (fun h => (by cases h)) ?_
    exact ⟨Nat.le_of_succ_le ingress, commands, forward, responses, notices, summaries, fun _ => Nat.le_of_lt_succ place, executing,
      waiting, fun bytes h => Nat.le_of_succ_le (receiving bytes h)⟩
  | readingResumed engine work =>
    have place := held (by rw [engine]; exact fun h => (by cases h))
    exact QueuesBounded.reading work (fun h => (by cases h))
      ⟨ingress, commands, forward, responses, notices, summaries, fun _ => place, executing, waiting, receiving⟩
  | command ready work =>
    refine QueuesBounded.command work rfl ?_
    rw [ready.queue, List.length_cons] at commands
    exact ⟨ingress, Nat.le_of_succ_le commands, forward, responses, notices, summaries, held,
      fun _ _ => Nat.le_of_lt_succ ready.place, fun _ h => (by cases h), receiving⟩
  | commandResumed unit_eq work =>
    have place := waiting _ unit_eq
    exact QueuesBounded.command work rfl
      ⟨ingress, commands, forward, responses, notices, summaries, held, fun _ _ => place, fun _ h => (by cases h), receiving⟩
  | tables _ _ _ _ _ work => exact QueuesBounded.notices work hs
  | swapped _ _ work => exact QueuesBounded.notices work hs
  | cursorHeld => exact hs
  | cursorMoved _ work => exact advanceReconciliation_queues _ (hs.slots work)
  | sweepHeld work =>
    have kept := hs.slots work
    exact kept
  | sweepMoved work => exact advanceSweep_queues _ (hs.slots work)
  | granted forward_suffix responses_suffix notices_suffix summaries_suffix =>
    exact ⟨ingress, commands, suffix_bound forward_suffix forward, suffix_bound responses_suffix responses,
      suffix_bound notices_suffix notices, suffix_bound summaries_suffix summaries,
      fun h => suffix_bound forward_suffix (held h), fun cell h => suffix_bound responses_suffix (executing cell h),
      fun w h => suffix_bound responses_suffix (waiting w h), receiving⟩
  | departed => exact hs
  | softReset =>
    exact ⟨Nat.zero_le _, Nat.zero_le _, Nat.zero_le _, Nat.zero_le _, Nat.zero_le _, Nat.zero_le _, fun _ => Nat.zero_le _,
      fun _ h => (by cases h), fun _ h => (by cases h), fun _ _ => Nat.zero_le _⟩

/-- Settles O52: each change of a queue has its place, by the place reserved before or by the condition of the change. -/
theorem queuesKept : Obligations.QueuesKept :=
  keptByStep_of_leaves (fun _ _ h => h) fun _ _ _ hs leaves => leaves.queues hs

/-! ### Notices -/

/-- The notices of a state, and the two counters that number them, are all that the numbering depends on. -/
structure SameNotices (s t : State) : Prop where
  queue : t.noticeQueue = s.noticeQueue
  sequence : t.noticeSequence = s.noticeSequence
  lost : t.noticeLost = s.noticeLost

theorem SlotWork.notices {s t : State} (h : SlotWork s t) : SameNotices s t := by
  rw [h.frame]
  exact ⟨rfl, rfl, rfl⟩

theorem advanceReconciliation_notices (s : State) (i : SlotId) : SameNotices s (advanceReconciliation s i) :=
  ⟨by simp, by simp, by simp⟩

theorem advanceSweep_notices (s : State) (i : SlotId) : SameNotices s (advanceSweep s i) :=
  ⟨by simp, by simp, by simp⟩

/-- What every step makes of the notices: none, notices handed over to the same ones, or the oldest notice sent. -/
inductive NoticesMove (s t : State) : Prop where
  | cleared (queue : t.noticeQueue = [])
  | sent (queue : t.noticeQueue <:+ s.noticeQueue) (sequence : t.noticeSequence = s.noticeSequence) (lost : t.noticeLost = s.noticeLost)
  | handed {u v : State} (work : NoticeWork u v) (before : SameNotices s u) (after : SameNotices v t)

theorem NoticesMove.same {s t : State} (h : SameNotices s t) : NoticesMove s t := .handed (.refl t) h ⟨rfl, rfl, rfl⟩

theorem StepLeaves.notices {s t : State} {c : Instr} (leaves : StepLeaves s c t) : NoticesMove s t := by
  have rfl' {u : State} : SameNotices u u := ⟨rfl, rfl, rfl⟩
  cases leaves with
  | unchanged => exact .same rfl'
  | powerOnReset => exact .cleared rfl
  | resetEnds _ work => exact .handed work ⟨rfl, rfl, rfl⟩ rfl'
  | badCell _ work => exact .handed work ⟨rfl, rfl, rfl⟩ rfl'
  | byte => exact .same ⟨rfl, rfl, rfl⟩
  | goodCell => exact .same ⟨rfl, rfl, rfl⟩
  | classified _ _ _ _ _ work => exact .handed work ⟨rfl, rfl, rfl⟩ rfl'
  | readingTaken _ _ _ _ work =>
    cases work with
    | waits work => exact .same ⟨work.notices.queue, work.notices.sequence, work.notices.lost⟩
    | ends work notices => exact .handed notices ⟨work.notices.queue, work.notices.sequence, work.notices.lost⟩ ⟨rfl, rfl, rfl⟩
  | readingResumed _ work =>
    cases work with
    | waits work => exact .same ⟨work.notices.queue, work.notices.sequence, work.notices.lost⟩
    | ends work notices => exact .handed notices ⟨work.notices.queue, work.notices.sequence, work.notices.lost⟩ ⟨rfl, rfl, rfl⟩
  | command _ work =>
    cases work with
    | answered work notices => exact .handed notices ⟨work.notices.queue, work.notices.sequence, work.notices.lost⟩ ⟨rfl, rfl, rfl⟩
    | waits work => exact .same ⟨work.notices.queue, work.notices.sequence, work.notices.lost⟩
  | commandResumed _ work =>
    cases work with
    | answered work notices => exact .handed notices ⟨work.notices.queue, work.notices.sequence, work.notices.lost⟩ ⟨rfl, rfl, rfl⟩
    | waits work => exact .same ⟨work.notices.queue, work.notices.sequence, work.notices.lost⟩
  | tables _ _ _ _ _ work => exact .handed work ⟨rfl, rfl, rfl⟩ rfl'
  | swapped _ _ work => exact .handed work ⟨rfl, rfl, rfl⟩ rfl'
  | cursorHeld => exact .same ⟨rfl, rfl, rfl⟩
  | cursorMoved _ work => exact .handed (.refl _) work.notices (advanceReconciliation_notices _ _)
  | sweepHeld work => exact .same ⟨work.notices.queue, work.notices.sequence, work.notices.lost⟩
  | sweepMoved work => exact .handed (.refl _) work.notices (advanceSweep_notices _ _)
  | granted _ _ notices_suffix => exact .sent notices_suffix rfl rfl
  | departed => exact .same ⟨rfl, rfl, rfl⟩
  | softReset => exact .cleared rfl

theorem SameNotices.numbered {s t : State} (h : SameNotices s t) : NoticesNumbered t ↔ NoticesNumbered s := by
  unfold NoticesNumbered
  rw [h.queue, h.sequence, h.lost]

theorem SameNotices.oneLinkError {s t : State} (h : SameNotices s t) : OneLinkError t ↔ OneLinkError s := by
  unfold OneLinkError
  rw [h.queue]

/-- The numbering goes on without the oldest notices (R158). -/
theorem noticesChained_suffix {l m : List Notice} {next lost : Half} (h : l <:+ m) (hm : noticesChained m next lost) :
    noticesChained l next lost := by
  induction m with
  | nil => rwa [List.suffix_nil.1 h]
  | cons a rest ih =>
    rcases List.suffix_cons_iff.1 h with rfl | h
    · exact hm
    · cases rest with
      | nil =>
        rw [List.suffix_nil.1 h]
        trivial
      | cons b rest => exact ih h hm.2

theorem NoticesMove.numbered {s t : State} (h : NoticesMove s t) (hs : NoticesNumbered s) : NoticesNumbered t := by
  cases h with
  | cleared queue =>
    unfold NoticesNumbered
    rw [queue]
    trivial
  | sent queue sequence lost =>
    unfold NoticesNumbered
    rw [sequence, lost]
    exact noticesChained_suffix queue hs
  | handed work before after => exact after.numbered.2 (work.numbered (before.numbered.2 hs))

theorem NoticesMove.oneLinkError {s t : State} (h : NoticesMove s t) (hs : OneLinkError s) : OneLinkError t := by
  cases h with
  | cleared queue =>
    unfold OneLinkError
    rw [queue]
    exact Nat.zero_le 1
  | sent queue => exact (queue.sublist.countP_le).trans hs
  | handed work before after => exact after.oneLinkError.2 (work.oneLinkError (before.oneLinkError.2 hs))

/-- Settles O53: every step clears the notices, sends the oldest, or hands notices over, and each keeps both invariants. -/
theorem noticesKept : Obligations.NoticesKept :=
  ⟨keptByStep_of_leaves (fun _ _ h => h) fun _ _ _ hs leaves => leaves.notices.numbered hs,
    keptByStep_of_leaves (fun _ _ h => h) fun _ _ _ hs leaves => leaves.notices.oneLinkError hs⟩

/-! ### Reception and the starvation limit -/

theorem StepLeaves.framing {s t : State} {c : Instr} (leaves : StepLeaves s c t) (hs : ReceptionFramed s) : ReceptionFramed t := by
  have congr {u v : State} (h : v.receiver = u.receiver) (hu : ReceptionFramed u) : ReceptionFramed v := fun bytes overrun hv =>
    hu bytes overrun (h ▸ hv)
  have work {u v : State} (h : SlotWork u v) (hu : ReceptionFramed u) : ReceptionFramed v := congr (by rw [h.frame]) hu
  have notices {u v : State} (h : NoticeWork u v) (hu : ReceptionFramed u) : ReceptionFramed v := congr (by rw [h.frame]) hu
  cases leaves with
  | unchanged => exact hs
  | powerOnReset => exact fun _ _ h => (by cases h)
  | resetEnds _ h => exact notices h hs
  | badCell framed h =>
    refine notices h ?_
    rcases framed with rfl | ⟨byte, overrun, rfl, _⟩
    · exact fun _ _ h => (by cases h)
    · intro bytes overrun' h
      obtain ⟨rfl, -⟩ := Receiver.receiving.inj h
      exact ⟨le_rfl, by simp⟩
  | byte receiver short =>
    intro bytes overrun h
    obtain ⟨rfl, -⟩ := Receiver.receiving.inj h
    obtain ⟨lo, hi⟩ := hs _ _ receiver
    rw [List.length_append, List.length_singleton]
    omega
  | goodCell => exact fun _ _ h => (by cases h)
  | classified _ _ _ _ _ h => exact notices h hs
  | readingTaken _ _ _ _ h =>
    cases h with
    | waits h => exact congr (by rw [h.frame]; rfl) hs
    | ends h k => exact congr (by rw [k.frame, h.frame]; rfl) hs
  | readingResumed _ h =>
    cases h with
    | waits h => exact congr (by rw [h.frame]) hs
    | ends h k => exact congr (by rw [k.frame, h.frame]) hs
  | command _ h =>
    cases h with
    | answered h k => exact congr (by rw [k.frame, h.frame]; rfl) hs
    | waits h => exact congr (by rw [h.frame]; rfl) hs
  | commandResumed _ h =>
    cases h with
    | answered h k => exact congr (by rw [k.frame, h.frame]) hs
    | waits h => exact congr (by rw [h.frame]) hs
  | tables _ _ _ _ _ h => exact notices h hs
  | swapped _ _ h => exact notices h hs
  | cursorHeld => exact hs
  | cursorMoved _ h => exact congr (by simp) (work h hs)
  | sweepHeld h =>
    have kept := work h hs
    exact kept
  | sweepMoved h => exact congr (by simp) (work h hs)
  | granted => exact hs
  | departed => exact hs
  | softReset => exact fun _ _ h => (by cases h)

theorem StepLeaves.limit {s t : State} {c : Instr} (leaves : StepLeaves s c t) (hs : LimitInRange s) : LimitInRange t := by
  have congr {u v : State} (h : v.mode = u.mode) (hu : LimitInRange u) : LimitInRange v := by
    unfold LimitInRange
    rw [h]
    exact hu
  cases leaves with
  | unchanged => exact hs
  | powerOnReset => exact (by decide : Mode.reset.starvationLimit ≠ 0)
  | resetEnds _ h => exact congr (by rw [h.frame]) hs
  | badCell _ h => exact congr (by rw [h.frame]) hs
  | byte => exact hs
  | goodCell => exact hs
  | classified _ _ _ _ _ h => exact congr (by rw [h.frame]) hs
  | readingTaken _ _ _ _ h =>
    cases h with
    | waits h => exact congr (by rw [h.frame]; rfl) hs
    | ends h k => exact congr (by rw [k.frame, h.frame]; rfl) hs
  | readingResumed _ h =>
    cases h with
    | waits h => exact congr (by rw [h.frame]) hs
    | ends h k => exact congr (by rw [k.frame, h.frame]) hs
  | command _ h =>
    cases h with
    | answered _ _ _ limit => exact limit hs
    | waits h => exact congr (by rw [h.frame]; rfl) hs
  | commandResumed _ h =>
    cases h with
    | answered _ _ _ limit => exact limit hs
    | waits h => exact congr (by rw [h.frame]) hs
  | tables _ _ _ _ _ h => exact congr (by rw [h.frame]) hs
  | swapped _ _ h => exact congr (by rw [h.frame]; rfl) hs
  | cursorHeld => exact hs
  | cursorMoved _ h => exact congr (by rw [advanceReconciliation_mode, h.frame]) hs
  | sweepHeld h => exact congr (by rw [holdSweep_mode, h.frame]) hs
  | sweepMoved h => exact congr (by rw [advanceSweep_mode, h.frame]) hs
  | granted => exact hs
  | departed => exact hs
  | softReset => exact hs

end Sys2Proof.Machine
end

section
/-! PROOFS. Claims: where each party's claim stands, and that every step leaves at most one claimant a slot (R88). -/

namespace Sys2Proof.Machine

/-! ### Where a claim stands -/

theorem holdsClaim_engine_iff (s : State) (i : SlotId) :
    s.holdsClaim i .engine = true ↔
      ∃ h, s.heldReading = some h ∧ ((h.ownClaim = true ∧ h.entry.slot = i) ∨ h.referenceClaim = some i) := by
  unfold State.holdsClaim
  cases s.heldReading <;> simp

theorem holdsClaim_command_iff (s : State) (i : SlotId) :
    s.holdsClaim i .command = true ↔ ∃ w, s.commandUnit = .waiting w ∧ w.claim = true ∧ w.slot = i := by
  unfold State.holdsClaim
  cases s.commandUnit <;> simp

theorem holdsClaim_sweep_iff (s : State) (i : SlotId) :
    s.holdsClaim i .sweep = true ↔ s.sweep.claim = true ∧ s.sweep.cursor = i := by
  unfold State.holdsClaim
  rw [Bool.and_eq_true, decide_eq_true_eq]

theorem holdsClaim_cursor_iff (s : State) (i : SlotId) :
    s.holdsClaim i .cursor = true ↔ s.reconciliation.claim = true ∧ s.reconciliation.cursor = i := by
  unfold State.holdsClaim
  rw [Bool.and_eq_true, decide_eq_true_eq]

theorem heldReading_iff (s : State) (h : HeldReading) : s.heldReading = some h ↔ s.engine = .converting h ∨ s.engine = .waiting h := by
  unfold State.heldReading
  cases s.engine <;> simp

/-- Another party's claim is the claim of one of the other three (R88). -/
theorem claimedByOther_iff (s : State) (p : Party) (i : SlotId) :
    s.claimedByOther p i = true ↔ ∃ q, q ≠ p ∧ s.holdsClaim i q = true := by
  have every (q : Party) : q ∈ [Party.engine, Party.command, Party.sweep, Party.cursor] := by cases q <;> decide
  unfold State.claimedByOther
  rw [List.any_eq_true]
  constructor
  · rintro ⟨q, -, h⟩
    rw [Bool.and_eq_true, decide_eq_true_eq] at h
    exact ⟨q, h⟩
  · rintro ⟨q, h⟩
    exact ⟨q, every q, by rwa [Bool.and_eq_true, decide_eq_true_eq]⟩

theorem holdsClaim_engine_congr {s t : State} (h : t.heldReading = s.heldReading) (i : SlotId) :
    t.holdsClaim i .engine = s.holdsClaim i .engine := by
  unfold State.holdsClaim
  rw [h]

theorem holdsClaim_command_congr {s t : State} (h : t.commandUnit = s.commandUnit) (i : SlotId) :
    t.holdsClaim i .command = s.holdsClaim i .command := by
  unfold State.holdsClaim
  rw [h]

theorem holdsClaim_sweep_congr {s t : State} (h : t.sweep = s.sweep) (i : SlotId) :
    t.holdsClaim i .sweep = s.holdsClaim i .sweep := by
  unfold State.holdsClaim
  rw [h]

theorem holdsClaim_cursor_congr {s t : State} (h : t.reconciliation = s.reconciliation) (i : SlotId) :
    t.holdsClaim i .cursor = s.holdsClaim i .cursor := by
  unfold State.holdsClaim
  rw [h]

theorem heldReading_congr {s t : State} (h : t.engine = s.engine) : t.heldReading = s.heldReading := by
  unfold State.heldReading
  rw [h]

/-! ### Claims that grow for one party alone -/

/-- Every claim of the second state was one of the first, but for claims of one party on slots that no other party had claimed. -/
def ClaimsGrow (party : Party) (s t : State) : Prop :=
  ∀ i p, t.holdsClaim i p = true → s.holdsClaim i p = true ∨ (p = party ∧ s.claimedByOther party i = false)

theorem ClaimsGrow.exclusive {party : Party} {s t : State} (h : ClaimsGrow party s t) (hs : ClaimsExclusive s) : ClaimsExclusive t := by
  have fresh {i : SlotId} {q : Party} (free : s.claimedByOther party i = false) (hq : s.holdsClaim i q = true) : q = party := by
    by_contra hne
    rw [(claimedByOther_iff s party i).2 ⟨q, hne, hq⟩] at free
    exact Bool.noConfusion free
  intro i p q hp hq
  rcases h i p hp with oldP | ⟨rfl, free⟩ <;> rcases h i q hq with oldQ | ⟨rfl, free'⟩
  · exact hs i p q oldP oldQ
  · exact fresh free' oldP
  · exact (fresh free oldQ).symm
  · rfl

theorem claimsGrow_engine {s t : State} (unit : t.commandUnit = s.commandUnit) (sweep : t.sweep = s.sweep)
    (reconciliation : t.reconciliation = s.reconciliation)
    (own : ∀ i, t.holdsClaim i .engine = true → s.holdsClaim i .engine = true ∨ s.claimedByOther .engine i = false) :
    ClaimsGrow .engine s t
  | i, .engine, h => (own i h).imp_right fun free => ⟨rfl, free⟩
  | i, .command, h => .inl ((holdsClaim_command_congr unit i).symm.trans h)
  | i, .sweep, h => .inl ((holdsClaim_sweep_congr sweep i).symm.trans h)
  | i, .cursor, h => .inl ((holdsClaim_cursor_congr reconciliation i).symm.trans h)

theorem claimsGrow_command {s t : State} (engine : t.engine = s.engine) (sweep : t.sweep = s.sweep)
    (reconciliation : t.reconciliation = s.reconciliation)
    (own : ∀ i, t.holdsClaim i .command = true → s.holdsClaim i .command = true ∨ s.claimedByOther .command i = false) :
    ClaimsGrow .command s t
  | i, .engine, h => .inl ((holdsClaim_engine_congr (heldReading_congr engine) i).symm.trans h)
  | i, .command, h => (own i h).imp_right fun free => ⟨rfl, free⟩
  | i, .sweep, h => .inl ((holdsClaim_sweep_congr sweep i).symm.trans h)
  | i, .cursor, h => .inl ((holdsClaim_cursor_congr reconciliation i).symm.trans h)

theorem claimsGrow_sweep {s t : State} (engine : t.engine = s.engine) (unit : t.commandUnit = s.commandUnit)
    (reconciliation : t.reconciliation = s.reconciliation)
    (own : ∀ i, t.holdsClaim i .sweep = true → s.holdsClaim i .sweep = true ∨ s.claimedByOther .sweep i = false) :
    ClaimsGrow .sweep s t
  | i, .engine, h => .inl ((holdsClaim_engine_congr (heldReading_congr engine) i).symm.trans h)
  | i, .command, h => .inl ((holdsClaim_command_congr unit i).symm.trans h)
  | i, .sweep, h => (own i h).imp_right fun free => ⟨rfl, free⟩
  | i, .cursor, h => .inl ((holdsClaim_cursor_congr reconciliation i).symm.trans h)

theorem claimsGrow_cursor {s t : State} (engine : t.engine = s.engine) (unit : t.commandUnit = s.commandUnit)
    (sweep : t.sweep = s.sweep)
    (own : ∀ i, t.holdsClaim i .cursor = true → s.holdsClaim i .cursor = true ∨ s.claimedByOther .cursor i = false) :
    ClaimsGrow .cursor s t
  | i, .engine, h => .inl ((holdsClaim_engine_congr (heldReading_congr engine) i).symm.trans h)
  | i, .command, h => .inl ((holdsClaim_command_congr unit i).symm.trans h)
  | i, .sweep, h => .inl ((holdsClaim_sweep_congr sweep i).symm.trans h)
  | i, .cursor, h => (own i h).imp_right fun free => ⟨rfl, free⟩

/-- A change of nothing that a claim depends on. -/
theorem claimsGrow_same {s t : State} (engine : t.engine = s.engine) (unit : t.commandUnit = s.commandUnit) (sweep : t.sweep = s.sweep)
    (reconciliation : t.reconciliation = s.reconciliation) : ClaimsGrow .cursor s t :=
  claimsGrow_cursor engine unit sweep fun i h => .inl ((holdsClaim_cursor_congr reconciliation i).symm.trans h)

/-- A state in which nobody claims anything. -/
theorem claimsExclusive_of_none {s : State} (h : ∀ i p, s.holdsClaim i p = false) : ClaimsExclusive s := fun i p _ hp => by
  rw [h i p] at hp
  exact Bool.noConfusion hp

/-- An idle Engine, an idle or resetting Command Unit and cursors without their claims: nobody claims anything. -/
theorem holdsClaim_of_idle {s : State} (engine : s.engine = .idle) (unit : ∀ w, s.commandUnit ≠ .waiting w) (sweep : s.sweep.claim = false)
    (reconciliation : s.reconciliation.claim = false) (i : SlotId) (p : Party) : s.holdsClaim i p = false := by
  rw [Bool.eq_false_iff]
  intro h
  cases p with
  | engine =>
    obtain ⟨k, hk, -⟩ := (holdsClaim_engine_iff s i).1 h
    rcases (heldReading_iff s k).1 hk with hk | hk <;> rw [engine] at hk <;> cases hk
  | command =>
    obtain ⟨w, hw, -⟩ := (holdsClaim_command_iff s i).1 h
    exact unit w hw
  | sweep =>
    have claim := ((holdsClaim_sweep_iff s i).1 h).1
    rw [sweep] at claim
    exact Bool.noConfusion claim
  | cursor =>
    have claim := ((holdsClaim_cursor_iff s i).1 h).1
    rw [reconciliation] at claim
    exact Bool.noConfusion claim

/-- A held reading's new claims were free to take (R88). -/
theorem ReadingLeaves.claims {h : HeldReading} {s t : State} (leaves : ReadingLeaves h s t) (held : s.heldReading = some h) :
    ClaimsGrow .engine s t := by
  cases leaves with
  | waits work _ _ entry own reference =>
    refine claimsGrow_engine (by rw [work.frame]) (by rw [work.frame]) (by rw [work.frame]) fun i hi => ?_
    obtain ⟨k, hk, claim⟩ := (holdsClaim_engine_iff _ i).1 hi
    obtain rfl := Option.some.inj hk
    have mine : (h.ownClaim = true ∧ h.entry.slot = i) ∨ h.referenceClaim = some i → s.holdsClaim i .engine = true :=
      fun hc => (holdsClaim_engine_iff s i).2 ⟨h, held, hc⟩
    rcases claim with ⟨claimed, rfl⟩ | claimed
    · rw [entry] at mine ⊢
      exact (own claimed).imp_left fun hc => mine (.inl ⟨hc, rfl⟩)
    · exact (reference i claimed).imp_left fun hc => mine (.inr hc)
  | ends work notices =>
    refine claimsGrow_engine (by rw [notices.frame, work.frame]) (by rw [notices.frame, work.frame])
      (by rw [notices.frame, work.frame]) fun i hi => ?_
    obtain ⟨k, hk, -⟩ := (holdsClaim_engine_iff _ i).1 hi
    cases hk

/-- A command's new claim was free to take, or was the command's before (R88, R141). -/
theorem CommandLeaves.claims {held : SlotId → Prop} {s u t : State} (leaves : CommandLeaves held u t) (engine : u.engine = s.engine)
    (sweep : u.sweep = s.sweep) (reconciliation : u.reconciliation = s.reconciliation)
    (mine : ∀ i, held i → s.holdsClaim i .command = true) : ClaimsGrow .command s t := by
  cases leaves with
  | answered work notices _ _ next =>
    refine claimsGrow_command (by rw [notices.frame, work.frame, ← engine]) (by rw [notices.frame, work.frame, ← sweep])
      (by rw [notices.frame, work.frame, ← reconciliation]) fun i hi => ?_
    obtain ⟨w, hw, -⟩ := (holdsClaim_command_iff _ i).1 hi
    rcases next with rfl | ⟨_, rfl⟩ <;> cases hw
  | waits work free =>
    refine claimsGrow_command (by rw [work.frame, ← engine]) (by rw [work.frame, ← sweep])
      (by rw [work.frame, ← reconciliation]) fun i hi => ?_
    obtain ⟨w, hw, claim, rfl⟩ := (holdsClaim_command_iff _ i).1 hi
    obtain rfl := CommandUnit.waiting.inj hw
    refine (free claim).symm.imp (mine _) fun unclaimed => ?_
    rwa [claimedByOther_command_congr _ (heldReading_congr engine) sweep reconciliation] at unclaimed

theorem StepLeaves.claims {s t : State} {c : Instr} (leaves : StepLeaves s c t) (hs : ClaimsExclusive s) : ClaimsExclusive t := by
  cases leaves with
  | unchanged => exact hs
  | powerOnReset => exact claimsExclusive_of_none (holdsClaim_of_idle rfl (fun _ h => (by cases h)) rfl rfl)
  | resetEnds unit_eq work =>
    refine ClaimsGrow.exclusive (claimsGrow_command (by rw [work.frame]) (by rw [work.frame]) (by rw [work.frame]) fun i hi => ?_) hs
    obtain ⟨w, hw, claim⟩ := (holdsClaim_command_iff _ i).1 hi
    rw [work.frame] at hw
    rcases unit_eq with rfl | rfl
    · exact .inl ((holdsClaim_command_iff s i).2 ⟨w, hw, claim⟩)
    · cases hw
  | badCell _ work =>
    exact (claimsGrow_same (by rw [work.frame]) (by rw [work.frame]) (by rw [work.frame]) (by rw [work.frame])).exclusive hs
  | byte => exact hs
  | goodCell => exact hs
  | classified _ _ sweepClaim _ _ work =>
    refine (claimsGrow_sweep (by rw [work.frame]) (by rw [work.frame]) (by rw [work.frame]) fun i hi => .inl ?_).exclusive hs
    obtain ⟨claim, cursor⟩ := (holdsClaim_sweep_iff _ i).1 hi
    rw [work.frame] at claim cursor
    obtain ⟨claim', cursor'⟩ := sweepClaim claim
    exact (holdsClaim_sweep_iff s i).2 ⟨claim', cursor'.symm.trans cursor⟩
  | @readingTaken _ _ cell rest e _ _ _ _ work =>
    refine (work.claims rfl).exclusive ?_
    refine (claimsGrow_engine (s := s) (t := takenState s cell rest e) rfl rfl rfl fun i hi => ?_).exclusive hs
    obtain ⟨h, hh, claim⟩ := (holdsClaim_engine_iff _ i).1 hi
    obtain rfl := Option.some.inj hh
    rcases claim with ⟨claim, -⟩ | claim <;> cases claim
  | @readingResumed _ _ h waiting work =>
    refine (work.claims rfl).exclusive ?_
    refine (claimsGrow_engine (s := s) (t := { s with engine := .converting h }) rfl rfl rfl fun i hi => .inl ?_).exclusive hs
    have same := (heldReading_iff s h).2 (.inr waiting)
    exact (holdsClaim_engine_congr (s := s) (t := { s with engine := .converting h }) same.symm i).symm.trans hi
  | command _ work => exact (work.claims (s := s) rfl rfl rfl fun _ h => h.elim).exclusive hs
  | commandResumed waiting work =>
    refine (work.claims (s := s) rfl rfl rfl ?_).exclusive hs
    rintro i ⟨claim, rfl⟩
    exact (holdsClaim_command_iff s _).2 ⟨_, waiting, claim, rfl⟩
  | tables _ _ _ _ _ work =>
    exact (claimsGrow_same (by rw [work.frame]) (by rw [work.frame]) (by rw [work.frame]) (by rw [work.frame])).exclusive hs
  | swapped _ _ work =>
    refine (claimsGrow_cursor (by rw [work.frame]; rfl) (by rw [work.frame]; rfl) (by rw [work.frame]; rfl) fun i hi => ?_).exclusive hs
    have claim := ((holdsClaim_cursor_iff _ i).1 hi).1
    rw [work.frame] at claim
    cases claim
  | cursorHeld _ unclaimed =>
    refine (claimsGrow_cursor (s := s) (t := { s with reconciliation := { s.reconciliation with claim := true } }) rfl rfl rfl
      fun i hi => ?_).exclusive hs
    obtain ⟨-, rfl⟩ := (holdsClaim_cursor_iff _ i).1 hi
    exact .inr unclaimed
  | @cursorMoved _ u _ work _ =>
    refine (claimsGrow_cursor (by rw [advanceReconciliation_engine, work.frame]) (by rw [advanceReconciliation_commandUnit, work.frame])
      (by rw [advanceReconciliation_sweep, work.frame]) fun i hi => ?_).exclusive hs
    have claim := ((holdsClaim_cursor_iff _ i).1 hi).1
    unfold advanceReconciliation at claim
    split at claim <;> cases claim
  | @sweepHeld _ u work unclaimed =>
    refine (claimsGrow_sweep (by rw [holdSweep_engine, work.frame]) (by rw [holdSweep_commandUnit, work.frame])
      (by rw [holdSweep_reconciliation, work.frame]) fun i hi => ?_).exclusive hs
    have cursor : u.sweep.cursor = i := ((holdsClaim_sweep_iff _ i).1 hi).2
    rw [work.frame] at cursor
    exact .inr (cursor ▸ unclaimed)
  | @sweepMoved _ u work =>
    refine (claimsGrow_sweep (by rw [advanceSweep_engine, work.frame]) (by rw [advanceSweep_commandUnit, work.frame])
      (by rw [advanceSweep_reconciliation, work.frame]) fun i hi => ?_).exclusive hs
    have claim := ((holdsClaim_sweep_iff _ i).1 hi).1
    unfold advanceSweep at claim
    split at claim <;> cases claim
  | granted => exact hs
  | departed => exact hs
  | softReset => exact claimsExclusive_of_none (holdsClaim_of_idle rfl (fun _ h => (by cases h)) rfl rfl)

/-- Settles O54: a step's new claims are of one party and on slots free to take; and each party's claim, and another's, by content. -/
theorem claimsKept : Obligations.ClaimsKept := by
  refine ⟨keptByStep_of_leaves (fun _ _ h => h) fun _ _ _ hs leaves => leaves.claims hs, fun s i => ?_⟩
  refine ⟨fun p => claimedByOther_iff s p i, ?_, holdsClaim_command_iff s i, holdsClaim_sweep_iff s i, holdsClaim_cursor_iff s i⟩
  simp only [holdsClaim_engine_iff, heldReading_iff]

end Sys2Proof.Machine
end

section
/-! PROOFS. What a step makes of the Table Store and of the Slot Store, said once for each: banks, roles and verify, slots and windows, and the
held reading (R1, R4, R5, R17, R80, R82, R89, R95, R99, R116, R124). -/

namespace Sys2Proof.Machine

/-! ### The Table Store -/

/-- What a step makes of the Table Store: the active role is kept, or a power-on reset or a swap takes place (R116, R127, R131). -/
inductive TablesMove (c : Instr) (t u : TableStore) : Prop where
  | kept (activeBank : u.activeBank = t.activeBank) (active : u.active = t.active) (generation : u.generation = t.generation)
      (shadow : t.activeBank.wf → t.shadowBank.wf → u.shadowBank.wf)
      (pending : u.shadowState = .swapPending → u = t ∨ verifyBank u.shadowBank = none)
  | reset (command : c = .powerOnReset) (tables : u = TableStore.reset)
  | swapped (command : c = .swap) (pending : t.shadowState = .swapPending) (tables : u = t.swapped)

theorem TablesMove.same {c : Instr} {t u : TableStore} (h : u = t) : TablesMove c t u := by
  rw [h]
  exact .kept rfl rfl rfl (fun _ h => h) fun _ => .inl rfl

theorem CommandLeaves.tables {held : SlotId → Prop} {s t : State} (c : Instr) (leaves : CommandLeaves held s t) :
    TablesMove c s.tables t.tables := by
  cases leaves with
  | answered _ _ change =>
    exact .kept change.activeBank change.active change.generation (fun _ => change.shadow) fun h => .inl (change.pending h)
  | waits work => exact .same (by rw [work.frame])

theorem ReadingLeaves.tables {h : HeldReading} {s t : State} (leaves : ReadingLeaves h s t) : t.tables = s.tables := by
  cases leaves with
  | waits work => rw [work.frame]
  | ends work notices => rw [notices.frame, work.frame]

/-- A soft reset keeps banks, roles and generation, and leaves no swap pending (R132). -/
theorem softReset_tables (s : State) (c : Instr) : TablesMove c s.tables (softReset s).tables := by
  refine .kept ?_ rfl rfl (fun _ h => ?_) fun h => ?_
  · exact rfl
  · exact h
  · have state : s.tables.shadowState.softReset = .swapPending := h
    cases hs : s.tables.shadowState <;> rw [hs] at state <;> cases state

theorem StepLeaves.tables_move {s t : State} {c : Instr} (leaves : StepLeaves s c t) : TablesMove c s.tables t.tables := by
  cases leaves with
  | unchanged => exact .same rfl
  | powerOnReset => exact .reset rfl rfl
  | resetEnds _ work => exact .same (by rw [work.frame])
  | badCell _ work => exact .same (by rw [work.frame])
  | byte => exact .same rfl
  | goodCell => exact .same rfl
  | classified _ _ _ _ _ work => exact .same (by rw [work.frame])
  | readingTaken _ _ _ _ work => exact .same work.tables
  | readingResumed _ work => exact .same work.tables
  | command _ work => exact work.tables c
  | commandResumed _ work => exact work.tables c
  | tables activeBank active generation shadow verified work =>
    rw [work.frame]
    refine .kept activeBank active generation (fun wa ws => ?_) fun h => .inr (verified h)
    rcases shadow with shadow | shadow <;> (dsimp only; rw [shadow]; assumption)
  | swapped pending _ work => exact .swapped rfl pending (by rw [work.frame]; rfl)
  | cursorHeld => exact .same rfl
  | cursorMoved _ work => exact .same (by rw [advanceReconciliation_tables, work.frame])
  | sweepHeld work => exact .same (by rw [holdSweep_tables, work.frame])
  | sweepMoved work => exact .same (by rw [advanceSweep_tables, work.frame])
  | granted => exact .same rfl
  | departed => exact .same rfl
  | softReset x => exact softReset_tables (recordDeparture s x) c

theorem Bank.wf_reset : Bank.reset.wf := ⟨rfl, fun _ h => (by cases h), Memory.wf_reset⟩

/-- After a swap the shadow role is the former active bank's, and the active role the former shadow bank's (R127). -/
theorem TableStore.swapped_roles (t : TableStore) : t.swapped.activeBank = t.shadowBank ∧ t.swapped.shadowBank = t.activeBank := by
  obtain ⟨a, b, k, g, st⟩ := t
  cases k <;> exact ⟨rfl, rfl⟩

theorem TablesMove.banks {c : Instr} {t u : TableStore} (h : TablesMove c t u) (ht : t.bankA.wf ∧ t.bankB.wf) :
    u.bankA.wf ∧ u.bankB.wf := by
  rw [banks_wf_iff] at ht ⊢
  obtain ⟨active, shadow⟩ := ht
  cases h with
  | kept activeBank _ _ keeps => exact ⟨activeBank ▸ active, keeps active shadow⟩
  | reset _ tables =>
    rw [tables]
    exact ⟨Bank.wf_reset, Bank.wf_reset⟩
  | swapped _ _ tables =>
    rw [tables, (TableStore.swapped_roles t).1, (TableStore.swapped_roles t).2]
    exact ⟨shadow, active⟩

theorem StepLeaves.banks {s t : State} {c : Instr} (leaves : StepLeaves s c t) (hs : BanksWellFormed s) : BanksWellFormed t :=
  leaves.tables_move.banks hs

theorem StepLeaves.verified {s t : State} {c : Instr} (leaves : StepLeaves s c t) (hs : ActiveVerified s) : ActiveVerified t := by
  obtain ⟨active, pendingVerified⟩ := hs
  cases leaves.tables_move with
  | kept activeBank _ _ _ pending =>
    refine ⟨activeBank ▸ active, fun h => ?_⟩
    rcases pending h with same | verified
    · rw [same] at h ⊢
      exact pendingVerified h
    · exact verified
  | reset _ tables =>
    unfold ActiveVerified
    rw [tables]
    exact ⟨rfl, fun h => (by cases h)⟩
  | swapped _ pending tables =>
    unfold ActiveVerified
    rw [tables, (TableStore.swapped_roles s.tables).1]
    exact ⟨pendingVerified pending, fun h => (by cases h)⟩

/-- Settles O59: every other command keeps the active role; a swap either waits or exchanges the roles. -/
theorem activeBankChangesOnlyAtSwap : Obligations.ActiveBankChangesOnlyAtSwap := by
  intro s t c ht
  have move := (exec_leaves ht).tables_move
  constructor
  · intro noSwap noReset
    cases move with
    | kept activeBank active generation => exact ⟨activeBank, active, generation⟩
    | reset command => exact absurd command noReset
    | swapped command => exact absurd command noSwap
  · rintro rfl
    have hs : execSwap s = .next t := ht
    unfold execSwap at hs
    split at hs <;> obtain rfl := Host.Outcome.next.inj hs
    · right
      rw [State.handNotice_tables, startReconciliation_tables]
      obtain ⟨active, shadow⟩ := TableStore.swapped_roles s.tables
      exact ⟨active, shadow, rfl⟩
    · exact .inl rfl

/-! ### The Slot Store -/

/-- What a step makes of the slots: they grow under the same active directory, the cursor passes one that is settled, a swap makes all pending, or
a reset makes each what the directory says (R83, R84, R89, R92). -/
inductive SlotsMove (s t : State) : Prop where
  | grown {u : State} (work : SlotWork s u) (slots : t.slots = u.slots) (bank : t.tables.activeBank = s.tables.activeBank)
      (flight : t.reconciliation.inFlight = s.reconciliation.inFlight) (cursor : t.reconciliation.cursor = s.reconciliation.cursor)
  | passed {u : State} (work : SlotWork s u) (settled : (u.slot s.reconciliation.cursor).pending = false)
      (moves : t = advanceReconciliation u s.reconciliation.cursor)
  | pending (slots : t.slots = s.slots.map fun x => { x with pending := true }) (reconciliation : t.reconciliation = ⟨true, firstSlot, false⟩)
  | reset (epoch : Word) (slots : ∀ i, t.slot i = Slot.reset (t.ownerEntry i) epoch)

theorem SlotsMove.same {s t : State} (slots : t.slots = s.slots) (bank : t.tables.activeBank = s.tables.activeBank)
    (flight : t.reconciliation.inFlight = s.reconciliation.inFlight) (cursor : t.reconciliation.cursor = s.reconciliation.cursor) :
    SlotsMove s t := .grown (.refl s) slots bank flight cursor

/-- Work on slots after a change of nothing that it looks at, or of nothing that the slots depend on. -/
theorem SlotWork.of_frame {s u v : State} (work : SlotWork u v) (slots : u.slots = s.slots) (tables : u.tables = s.tables)
    (epoch : u.epochCount = s.epochCount) : SlotWork s { s with slots := v.slots } := by
  refine ⟨rfl, fun i => ?_, fun h => h⟩
  have grows := work.grows i
  rwa [State.slot_congr slots i, show u.ownerEntry i = s.ownerEntry i by unfold State.ownerEntry; rw [tables], epoch] at grows

theorem CommandLeaves.slots {held : SlotId → Prop} {s u t : State} (leaves : CommandLeaves held u t) (slots : u.slots = s.slots)
    (tables : u.tables = s.tables) (epoch : u.epochCount = s.epochCount) (reconciliation : u.reconciliation = s.reconciliation) :
    SlotsMove s t := by
  cases leaves with
  | answered work notices change =>
    exact .grown (work.of_frame slots tables epoch) (by rw [notices.frame]) (by rw [← tables]; exact change.activeBank)
      (by rw [notices.frame, work.frame, ← reconciliation]) (by rw [notices.frame, work.frame, ← reconciliation])
  | waits work =>
    exact .grown (work.of_frame slots tables epoch) rfl (by rw [work.frame, ← tables])
      (by rw [work.frame, ← reconciliation]) (by rw [work.frame, ← reconciliation])

theorem ReadingLeaves.slots {h : HeldReading} {s u t : State} (leaves : ReadingLeaves h u t) (slots : u.slots = s.slots)
    (tables : u.tables = s.tables) (epoch : u.epochCount = s.epochCount) (reconciliation : u.reconciliation = s.reconciliation) :
    SlotsMove s t := by
  cases leaves with
  | waits work =>
    exact .grown (work.of_frame slots tables epoch) rfl (by rw [work.frame, ← tables])
      (by rw [work.frame, ← reconciliation]) (by rw [work.frame, ← reconciliation])
  | ends work notices =>
    exact .grown (work.of_frame slots tables epoch) (by rw [notices.frame]) (by rw [notices.frame, work.frame, ← tables])
      (by rw [notices.frame, work.frame, ← reconciliation]) (by rw [notices.frame, work.frame, ← reconciliation])

theorem StepLeaves.slots_move {s t : State} {c : Instr} (leaves : StepLeaves s c t) : SlotsMove s t := by
  cases leaves with
  | unchanged => exact .same rfl rfl rfl rfl
  | powerOnReset => exact .reset 0 fun i => State.slot_reset i
  | resetEnds _ work => exact .same (by rw [work.frame]) (by rw [work.frame]) (by rw [work.frame]) (by rw [work.frame])
  | badCell _ work => exact .same (by rw [work.frame]) (by rw [work.frame]) (by rw [work.frame]) (by rw [work.frame])
  | byte => exact .same rfl rfl rfl rfl
  | goodCell => exact .same rfl rfl rfl rfl
  | classified _ _ _ _ _ work => exact .same (by rw [work.frame]) (by rw [work.frame]) (by rw [work.frame]) (by rw [work.frame])
  | readingTaken _ _ _ _ work => exact work.slots rfl rfl rfl rfl
  | readingResumed _ work => exact work.slots rfl rfl rfl rfl
  | command _ work => exact work.slots rfl rfl rfl rfl
  | commandResumed _ work => exact work.slots rfl rfl rfl rfl
  | tables activeBank _ _ _ _ work =>
    exact .same (by rw [work.frame]) (by rw [work.frame]; exact activeBank) (by rw [work.frame]) (by rw [work.frame])
  | swapped _ _ work => exact .pending (by rw [work.frame]; rfl) (by rw [work.frame]; rfl)
  | cursorHeld => exact .same rfl rfl rfl rfl
  | cursorMoved _ work settled => exact .passed work settled rfl
  | sweepHeld work =>
    exact .grown work (holdSweep_slots _) (by rw [holdSweep_tables, work.frame]) (by rw [holdSweep_reconciliation, work.frame])
      (by rw [holdSweep_reconciliation, work.frame])
  | sweepMoved work =>
    exact .grown work (advanceSweep_slots _ _) (by rw [advanceSweep_tables, work.frame])
      (by rw [advanceSweep_reconciliation, work.frame]) (by rw [advanceSweep_reconciliation, work.frame])
  | granted => exact .same rfl rfl rfl rfl
  | departed => exact .same rfl rfl rfl rfl
  | softReset x => exact .reset 0 fun i => Table.get_tabulate _ i

/-- A slot follows the active directory: owner and terms as its entry has them, UNOWNED where no entry names it (R80). -/
def SlotFollows (s : State) (i : SlotId) : Prop :=
  (s.slot i).runtime.map (fun r => (r.owner, r.terms)) = (s.ownerEntry i).map (fun e => (e.input, e.terms))

theorem slotsFollowDirectory_iff (s : State) :
    SlotsFollowDirectory s ↔
      ∀ i, ((s.slot i).pending = true → s.reconciliation.inFlight = true ∧ s.reconciliation.cursor ≤ i) ∧
        ((s.slot i).pending = false → SlotFollows s i) := by
  unfold SlotsFollowDirectory SlotFollows
  refine forall_congr' fun i => ?_
  cases (s.slot i).pending <;> simp

/-- Work on slots makes none pending, and what it settles follows the directory (R82, R90). -/
theorem SlotWork.follows {s t : State} (work : SlotWork s t) (hs : SlotsFollowDirectory s) (i : SlotId) :
    ((t.slot i).pending = true → (s.slot i).pending = true) ∧ ((t.slot i).pending = false → SlotFollows t i) := by
  obtain ⟨-, settled⟩ := (slotsFollowDirectory_iff s).1 hs i
  constructor
  · intro h
    by_contra hp
    rw [(work.grows i).settled (Bool.eq_false_iff.2 hp)] at h
    exact Bool.noConfusion h
  · intro h
    unfold SlotFollows
    rw [work.ownerEntry]
    exact (work.grows i).follows settled h

theorem Slot.reset_follows (e : Option Entry) (n : Word) :
    (Slot.reset e n).runtime.map (fun r => (r.owner, r.terms)) = e.map (fun f => (f.input, f.terms)) := by
  cases e <;> rfl

theorem nextSlot_some {i j : SlotId} (h : nextSlot i = some j) : j.val = i.val + 1 := by
  unfold nextSlot at h
  split at h
  · obtain rfl := Option.some.inj h
    rfl
  · cases h

theorem nextSlot_none {i : SlotId} (h : nextSlot i = none) : i.val = 511 := by
  unfold nextSlot at h
  split at h
  · cases h
  · have bound := i.isLt
    omega

/-- A slot pending after the cursor has passed lies ahead of it (R92). -/
theorem SlotsMove.passed_pending {u : State} {i j : SlotId} (settled : (u.slot i).pending = false)
    (ahead : (u.slot j).pending = true → i ≤ j) (h : ((advanceReconciliation u i).slot j).pending = true) :
    (advanceReconciliation u i).reconciliation.inFlight = true ∧ (advanceReconciliation u i).reconciliation.cursor ≤ j := by
  rw [State.slot_congr (advanceReconciliation_slots u i)] at h
  have after : i.val < j.val := by
    refine Nat.lt_of_le_of_ne (ahead h) fun same => ?_
    obtain rfl := Fin.ext same
    rw [settled] at h
    exact Bool.noConfusion h
  unfold advanceReconciliation
  split
  next k hk =>
    have next := nextSlot_some hk
    exact ⟨rfl, Fin.le_def.2 (by dsimp only; omega)⟩
  next hk =>
    have last := nextSlot_none hk
    have bound := j.isLt
    omega

theorem SlotsMove.follows {s t : State} (h : SlotsMove s t) (hs : SlotsFollowDirectory s) : SlotsFollowDirectory t := by
  have hs' := (slotsFollowDirectory_iff s).1 hs
  rw [slotsFollowDirectory_iff]
  intro i
  cases h with
  | @grown u work slots bank flight cursor =>
    obtain ⟨older, follows⟩ := work.follows hs i
    rw [State.slot_congr slots, flight, cursor]
    refine ⟨fun hp => (hs' i).1 (older hp), fun hp => ?_⟩
    have now := follows hp
    unfold SlotFollows State.ownerEntry at now ⊢
    rwa [State.slot_congr slots, bank, show s.tables = u.tables by rw [work.frame]]
  | @passed u work settled moves =>
    obtain ⟨older, follows⟩ := work.follows hs i
    rw [moves]
    refine ⟨SlotsMove.passed_pending settled fun hp => ((hs' i).1 (older hp)).2, fun hp => ?_⟩
    rw [State.slot_congr (advanceReconciliation_slots u _)] at hp
    have now := follows hp
    unfold SlotFollows State.ownerEntry at now ⊢
    rwa [State.slot_congr (advanceReconciliation_slots u _), advanceReconciliation_tables]
  | pending slots reconciliation =>
    have pending : (t.slot i).pending = true := by
      unfold State.slot
      rw [slots, Table.get_map]
    rw [reconciliation, pending]
    exact ⟨fun _ => ⟨rfl, Nat.zero_le _⟩, fun hp => Bool.noConfusion hp⟩
  | reset epoch slots =>
    rw [slots i]
    refine ⟨fun hp => Bool.noConfusion hp, fun _ => ?_⟩
    unfold SlotFollows
    rw [slots i]
    exact Slot.reset_follows _ _

/-- Settles O55: each change of the Slot Store leaves the settled slots following the directory, and the pending ones ahead of the cursor. -/
theorem slotsKept : Obligations.SlotsKept :=
  keptByStep_of_leaves (fun _ _ h => h) fun _ _ _ hs leaves => leaves.slots_move.follows hs

/-! ### Windows -/

/-- The window of an entry that a well-formed bank's directory gives a slot is in range (R5). -/
theorem ownerEntry_window {s : State} (h : s.tables.activeBank.wf) {i : SlotId} {e : Entry} (he : s.ownerEntry i = some e) :
    ∀ d, e.window = some d → d.InRange := by
  obtain ⟨-, entries, -⟩ := h
  obtain ⟨-, count, epoch, -⟩ := entries e (findSlot_some he).1
  intro d hd
  cases d with
  | count n => exact count n hd
  | epoch n => exact epoch n hd

theorem windowsWellFormed_iff (s : State) : WindowsWellFormed s ↔ ∀ i r, (s.slot i).runtime = some r → r.Fits := Iff.rfl

theorem SlotWork.windows {s t : State} (work : SlotWork s t) (bank : s.tables.activeBank.wf) (hs : WindowsWellFormed s) :
    WindowsWellFormed t := fun i => (work.grows i).fits (fun _ he => ownerEntry_window bank he) (hs i)

theorem SlotsMove.windows {s t : State} (h : SlotsMove s t) (before : s.tables.activeBank.wf) (after : t.tables.activeBank.wf)
    (hs : WindowsWellFormed s) : WindowsWellFormed t := by
  intro i r hr
  cases h with
  | grown work slots =>
    rw [State.slot_congr slots] at hr
    exact work.windows before hs i r hr
  | passed work _ moves =>
    rw [moves, State.slot_congr (advanceReconciliation_slots _ _)] at hr
    exact work.windows before hs i r hr
  | pending slots =>
    refine hs i r ?_
    unfold State.slot at hr ⊢
    rwa [slots, Table.get_map] at hr
  | reset epoch slots =>
    rw [slots i] at hr
    cases he : t.ownerEntry i with
    | none =>
      rw [he] at hr
      cases hr
    | some e =>
      rw [he] at hr
      obtain rfl := Option.some.inj hr
      exact Runtime.fits_of_fresh (n := epoch) rfl (ownerEntry_window after he)

theorem StepLeaves.windows {s t : State} {c : Instr} (leaves : StepLeaves s c t) (banks : BanksWellFormed s) (hs : WindowsWellFormed s) :
    WindowsWellFormed t :=
  leaves.slots_move.windows ((banks_wf_iff s.tables).1 banks).1 ((banks_wf_iff t.tables).1 (leaves.banks banks)).1 hs

/-- Settles O56: the banks move by roles and edits that keep them well formed, and the windows by work on slots under a well-formed directory. -/
theorem banksAndWindowsKept : Obligations.BanksAndWindowsKept :=
  ⟨keptByStep_of_leaves (fun _ _ h => h) fun _ _ _ hs leaves => leaves.banks hs,
    keptByStep_of_leaves (fun _ _ h => h) fun _ _ _ ⟨banks, windows⟩ leaves => ⟨leaves.banks banks, leaves.windows banks windows⟩⟩

end Sys2Proof.Machine
end

section
/-! PROOFS. A verified bank: what its pass gives each entry, and that its lookups never stop (R27, R122, R124). -/

namespace Sys2Proof.Machine

/-! ### Entries of a verified bank -/

/-- In a bank that passes, each entry's conversion passes and no earlier entry shares its slot or output channel id (R122). -/
theorem verifyBank_none_entry {b : Bank} (h : verifyBank b = none) {before after : List Entry} {e : Entry}
    (split : b.directory = before ++ e :: after) :
    verifyConversion b e = none ∧ ∀ x ∈ before, x.slot ≠ e.slot ∧ x.output ≠ e.output :=
  verifyEntry_none (verifyWalk_none b [] b.directory h e before after split)

theorem verifyBank_none_conversion {b : Bank} (h : verifyBank b = none) {e : Entry} (he : e ∈ b.directory) :
    verifyConversion b e = none := by
  obtain ⟨before, after, split⟩ := List.append_of_mem he
  exact (verifyBank_none_entry h split).1

/-- A relation of every entry to each one before it in a list holds pairwise. -/
theorem pairwise_of_splits {α : Type} {R : α → α → Prop} {l : List α}
    (h : ∀ before e after, l = before ++ e :: after → ∀ x ∈ before, R x e) : l.Pairwise R := by
  induction l with
  | nil => exact .nil
  | cons a rest ih =>
    refine .cons (fun e he => ?_) (ih fun before e after split x hx => ?_)
    · obtain ⟨before, after, rfl⟩ := List.append_of_mem he
      exact h (a :: before) e after rfl a (List.mem_cons_self ..)
    · exact h (a :: before) e after (by rw [split]; rfl) x (List.mem_cons_of_mem _ hx)

theorem verifyBank_none_pairwise {b : Bank} (h : verifyBank b = none) :
    b.directory.Pairwise fun x y => x.slot ≠ y.slot ∧ x.output ≠ y.output :=
  pairwise_of_splits fun _ _ _ split => (verifyBank_none_entry h split).2

/-- In a verified bank the slot of an entry names that entry (R8, R122). -/
theorem verifyBank_none_findSlot {b : Bank} (h : verifyBank b = none) {e : Entry} (he : e ∈ b.directory) :
    findSlot b.directory e.slot = some e := by
  refine findSlot_unique he fun x hx same => ?_
  by_contra differs
  have pairwise := (verifyBank_none_pairwise h).imp (S := fun x y => x.slot ≠ y.slot) fun hxy => hxy.1
  have symmetric : Std.Symm fun x y : Entry => x.slot ≠ y.slot := ⟨fun _ _ hxy => hxy.symm⟩
  exact pairwise.forall hx he differs same

/-- In a verified bank a RATIO entry's reference is present and not RATIO itself (R122). -/
theorem verifyConversion_ratio {b : Bank} {e : Entry} (h : verifyConversion b e = none) {reference : ChannelId} {gain : Word}
    (hc : e.conversion = .ratio reference gain) :
    ∃ f, findChannel b.directory reference = some f ∧ f ∈ b.directory ∧ f.conversion.isRatio = false := by
  unfold verifyConversion at h
  rw [hc] at h
  dsimp only at h
  split at h
  · cases h
  next f found =>
    split at h
    · cases h
    next notRatio => exact ⟨f, found, (findChannel_some found).1, Bool.eq_false_iff.2 notRatio⟩

/-- In a verified bank a SEGMENTED entry has an integer input form and a table that passes with three levels below it (R31, R122). -/
theorem verifyConversion_segmented {b : Bank} {e : Entry} (h : verifyConversion b e = none) {table : BitVec 12}
    (hc : e.conversion = .segmented table) : e.inputForm ≠ .float ∧ verifyTable b.pool 3 table.toNat = none := by
  unfold verifyConversion at h
  rw [hc] at h
  dsimp only at h
  split at h
  · cases h
  next form => exact ⟨form, h⟩

/-! ### Lookups -/

/-- A SEGMENT that passes has its second word inside the pool (R31). -/
theorem verifyBucket_segment {pool : Memory} {f : Nat → Nat → Option (VerifyReason × Nat)} {a : Nat} (h : verifyBucket pool f a = none)
    (kind : (entryOfWord (Memory.read pool a)).kind = .segment) : (entryOfWord (Memory.read pool a)).target + 1 ≤ 4095 := by
  unfold verifyBucket at h
  dsimp only at h
  rw [kind] at h
  dsimp only at h
  split at h
  · cases h
  next inside => exact Nat.not_lt.1 inside

/-- A LINK that passes leads to a table that passes with one level less below it (R31). -/
theorem verifyBucket_link {pool : Memory} {f : Nat → Nat → Option (VerifyReason × Nat)} {deeper a : Nat}
    (hf : ∀ a t, f a t = linkCheck pool deeper a t) (h : verifyBucket pool f a = none)
    (kind : (entryOfWord (Memory.read pool a)).kind = .link) :
    ∃ d, deeper = d + 1 ∧ verifyTable pool d (entryOfWord (Memory.read pool a)).target = none := by
  unfold verifyBucket at h
  dsimp only at h
  rw [kind] at h
  dsimp only at h
  rw [hf] at h
  cases deeper with
  | zero => cases h
  | succ d => exact ⟨d, rfl, h⟩

/-- At a table that passes, a lookup ends with a result, or goes on at a table that passes with one level less below it (R27). -/
theorem segmentLookup_verified_step {pool : Memory} {deeper address : Nat} (h : verifyTable pool deeper address = none) (r : Int)
    (lastGood : Option Word) (tables : Nat) :
    (∃ c, segmentLookup pool r lastGood (tables + 1) address = .ok c) ∨
      ∃ d target, deeper = d + 1 ∧ verifyTable pool d target = none ∧
        segmentLookup pool r lastGood (tables + 1) address = segmentLookup pool r lastGood tables target := by
  obtain ⟨f, hf, header⟩ := verifyTable_header pool deeper address
  rw [header] at h
  rw [segmentLookup]
  dsimp only
  split
  · exact .inl ⟨_, rfl⟩
  next inside =>
    obtain ⟨lo, hi⟩ := not_or.1 inside
    obtain ⟨address_le, bucket⟩ := verifyHeader_none h _ (Int.not_lt.1 lo) (Int.not_lt.1 hi)
    rw [if_neg (Nat.not_lt.2 address_le)]
    split
    · exact .inl ⟨_, rfl⟩
    next kind =>
      rw [if_neg (Nat.not_lt.2 (verifyBucket_segment bucket kind))]
      exact .inl ⟨_, rfl⟩
    next kind =>
      obtain ⟨d, hd, passes⟩ := verifyBucket_link hf bucket kind
      exact .inr ⟨d, _, hd, passes, rfl⟩
    · exact .inl ⟨_, rfl⟩

/-- From a table that passes, a lookup with as many tables allowed as verify walked ends with a result (R27). -/
theorem segmentLookup_verified (pool : Memory) (r : Int) (lastGood : Option Word) (deeper address : Nat)
    (h : verifyTable pool deeper address = none) : ∃ c, segmentLookup pool r lastGood (deeper + 1) address = .ok c := by
  induction deeper generalizing address with
  | zero =>
    rcases segmentLookup_verified_step h r lastGood 0 with ends | ⟨d, _, hd, _⟩
    · exact ends
    · cases hd
  | succ deeper ih =>
    rcases segmentLookup_verified_step h r lastGood (deeper + 1) with ends | ⟨d, target, hd, passes, goesOn⟩
    · exact ends
    · obtain rfl := Nat.succ.inj hd
      rw [goesOn]
      exact ih target passes

/-- Settles O58: verify walks the same tables, with the same number of them allowed, as any lookup can. -/
theorem verifiedLookupsNeverStop : Obligations.VerifiedLookupsNeverStop := by
  intro b e table r lastGood verified he hc
  exact segmentLookup_verified b.pool r lastGood 3 table.toNat
    (verifyConversion_segmented (verifyBank_none_conversion verified he) hc).2

end Sys2Proof.Machine
end

section
/-! PROOFS. Safety: a step of a safe state always answers, and every invariant is kept, so its answer is safe (R27, R62, R124). -/

namespace Sys2Proof.Machine

/-! ### The steps of a reading answer -/

/-- An outcome that is a next state: no fault and no refusal. -/
def Answers (o : Host.Outcome State Fault Refusal) : Prop := ∃ t, o = .next t

theorem answers_next (t : State) : Answers (.next t) := ⟨t, rfl⟩

theorem countStep_answers {h : HeldReading} {c : CountStep} {s : State} {r : Runtime} (hr : (s.slot h.entry.slot).runtime = some r) :
    Answers (countStep h c s) := by
  unfold countStep
  rw [hr]
  dsimp only
  split <;> exact answers_next _

theorem finishReading_answers (h : HeldReading) (r : Runtime) (d : Decided) (s : State) : Answers (finishReading h r d s) := by
  unfold finishReading
  split
  · exact answers_next _
  · split
    · exact answers_next _
    · split
      · exact countStep_answers (r := r) (by rw [State.slot_putRuntime_same])
      · exact answers_next _

/-- The conversion of an entry of a verified bank never stops (R22, R27, R124). -/
theorem convertRaw_verified {b : Bank} (verified : verifyBank b = none) {e : Entry} (he : e ∈ b.directory) (raw : Word)
    (lastGood reference : Option Word) : ∃ c, convertRaw b.pool e raw lastGood reference = .ok c := by
  unfold convertRaw
  dsimp only
  cases hc : e.conversion with
  | none => exact ⟨_, rfl⟩
  | linear gain offset => exact ⟨_, rfl⟩
  | ratio channel gain => exact ⟨_, rfl⟩
  | segmented table =>
    obtain ⟨form, -⟩ := verifyConversion_segmented (verifyBank_none_conversion verified he) hc
    dsimp only
    cases hr : rawInteger raw e.inputForm with
    | none =>
      cases hf : e.inputForm with
      | float => exact absurd hf form
      | _ => rw [hf] at hr; cases hr
    | some r => exact verifiedLookupsNeverStop b e table r lastGood verified he hc

/-- What a reading's steps need so as not to stop: a verified active bank that holds its entry. -/
structure Convertible (s : State) (e : Entry) : Prop where
  verified : verifyBank s.tables.activeBank = none
  present : e ∈ s.tables.activeBank.directory

theorem Convertible.of_tables {s t : State} {e : Entry} (h : Convertible s e) (ht : t.tables = s.tables) : Convertible t e :=
  ⟨ht ▸ h.verified, ht ▸ h.present⟩

theorem Convertible.ownerEntry {s : State} {e : Entry} (h : Convertible s e) : s.ownerEntry e.slot = some e :=
  verifyBank_none_findSlot h.verified h.present

theorem convertStep_answers {h : HeldReading} {s : State} (hc : Convertible s h.entry)
    (owned : (s.slot h.entry.slot).runtime.isSome = true) : Answers (convertStep h s) := by
  obtain ⟨r, hr⟩ := Option.isSome_iff_exists.1 owned
  unfold convertStep
  rw [hr]
  dsimp only
  obtain ⟨c, converts⟩ := convertRaw_verified hc.verified hc.present (readingRaw h.cell)
    (sequenceCheck r (readingSequence h.cell)).runtime.lastGood (referenceValue s h.referenceClaim)
  rw [converts]
  exact finishReading_answers _ _ _ _

/-- Work on slots leaves an entry's owned slot owned (R80, R83). -/
theorem Convertible.owned {s t : State} {e : Entry} (h : Convertible s e) (work : SlotWork s t)
    (owned : (s.slot e.slot).runtime.isSome = true) : (t.slot e.slot).runtime.isSome = true :=
  (work.grows e.slot).owned (by rw [h.ownerEntry]; rfl) owned

theorem catchUpStep_answers {h : HeldReading} {s : State} (hc : Convertible s h.entry)
    (owned : (s.slot h.entry.slot).runtime.isSome = true) : Answers (catchUpStep h s) := by
  unfold catchUpStep
  split
  · exact answers_next _
  next t closed =>
    have work := State.closeDue_work closed
    exact convertStep_answers (hc.of_tables (by rw [work.frame])) (hc.owned work owned)

theorem referenceStep_answers {h : HeldReading} {s : State} (hc : Convertible s h.entry)
    (owned : (s.slot h.entry.slot).runtime.isSome = true) : Answers (referenceStep h s) := by
  by_cases plain : h.entry.conversion.isRatio = false
  · rw [referenceStep_plain plain]
    exact catchUpStep_answers hc owned
  · unfold referenceStep
    split
    case h_4 reference gain conversion =>
      obtain ⟨f, found, -⟩ := verifyConversion_ratio (verifyBank_none_conversion hc.verified hc.present) conversion
      rw [found]
      dsimp only
      split
      · exact answers_next _
      · split
        · exact answers_next _
        next t reconciled =>
          have work := State.reconcileSlot_work reconciled
          exact catchUpStep_answers (hc.of_tables (by rw [work.frame])) (hc.owned work owned)
    all_goals exact catchUpStep_answers hc owned

/-- The slot of an entry of the verified active bank is owned once it is settled (R80, R82). -/
theorem Convertible.settled_owned {s : State} {e : Entry} (h : Convertible s e) (follows : SlotFollows s e.slot) :
    (s.slot e.slot).runtime.isSome = true := by
  unfold SlotFollows at follows
  rw [h.ownerEntry] at follows
  cases hr : (s.slot e.slot).runtime with
  | none =>
    rw [hr] at follows
    cases follows
  | some r => rfl

theorem prepareStep_answers {h : HeldReading} {s : State} (hc : Convertible s h.entry) (slots : SlotsFollowDirectory s) :
    Answers (prepareStep h s) := by
  unfold prepareStep
  split
  · exact answers_next _
  · dsimp only
    split
    · exact answers_next _
    next t reconciled =>
      have work := State.reconcileSlot_work reconciled
      have hct : Convertible t h.entry := hc.of_tables (by rw [work.frame])
      exact referenceStep_answers hct (hct.settled_owned ((work.follows slots _).2 (State.reconcileSlot_pending reconciled)))

/-! ### Every command answers in a safe state -/

theorem withCommand_answers (s : State) (isMine : Byte → Bool) (run : Cell → State → State) : Answers (withCommand s isMine run) := by
  rcases withCommand_cases s isMine run with h | ⟨_, _, _, _, h⟩ <;> rw [h] <;> exact answers_next _

theorem execTakeReading_answers {s : State} (safe : Safe s) : Answers (execTakeReading s) := by
  unfold execTakeReading
  split
  · exact answers_next _
  · split
    · unfold beginReading
      split
      · exact answers_next _
      next e found => exact prepareStep_answers ⟨safe.verified.1, (findChannel_some found).1⟩ safe.slots
    · exact answers_next _

theorem execEngineResume_answers {s : State} (safe : Safe s) : Answers (execEngineResume s) := by
  unfold execEngineResume
  split
  · exact answers_next _
  · exact answers_next _
  next h waiting =>
    obtain ⟨-, found, settled⟩ := safe.latched h ((heldReading_iff s h).2 (.inr waiting))
    have hc : Convertible s h.entry := ⟨safe.verified.1, (findChannel_some found).1⟩
    unfold runReading
    split
    · exact prepareStep_answers (hc.of_tables rfl) safe.slots
    next c hstep =>
      have follows := ((slotsFollowDirectory_iff s).1 safe.slots h.entry.slot).2 (settled (by rw [hstep]; exact fun h => (by cases h)))
      obtain ⟨r, hr⟩ := Option.isSome_iff_exists.1 (hc.settled_owned follows)
      exact countStep_answers (r := r) hr

theorem exec_answers {s : State} (safe : Safe s) (c : Instr) : Answers (exec c s) := by
  cases c with
  | powerOnReset => exact answers_next _
  | powerOnResetRelease straps =>
    show Answers (execPowerOnResetRelease straps s)
    unfold execPowerOnResetRelease
    split <;> exact answers_next _
  | cellStartStrobe b =>
    show Answers (execCellStartStrobe b s)
    unfold execCellStartStrobe
    repeat' split
    all_goals exact answers_next _
  | cellComplete b =>
    show Answers (execCellComplete b s)
    unfold execCellComplete
    repeat' split
    all_goals exact answers_next _
  | takeReading => exact execTakeReading_answers safe
  | engineResume => exact execEngineResume_answers safe
  | takeEpoch =>
    show Answers (execTakeEpoch s)
    unfold execTakeEpoch
    repeat' split
    all_goals exact answers_next _
  | takeCommand =>
    show Answers (execTakeCommand s)
    unfold execTakeCommand
    dsimp only
    repeat' split
    all_goals exact answers_next _
  | passThroughCell =>
    show Answers (execPassThroughCell s)
    unfold execPassThroughCell
    repeat' split
    all_goals exact answers_next _
  | commandResume =>
    show Answers (execCommandResume s)
    unfold execCommandResume
    split <;> exact answers_next _
  | verifyComplete =>
    show Answers (execVerifyComplete s)
    unfold execVerifyComplete
    repeat' split
    all_goals exact answers_next _
  | swap =>
    show Answers (execSwap s)
    unfold execSwap
    split <;> exact answers_next _
  | mirrorComplete =>
    show Answers (execMirrorComplete s)
    unfold execMirrorComplete
    repeat' split
    all_goals exact answers_next _
  | reconciliationCursorStep =>
    show Answers (execReconciliationCursorStep s)
    unfold execReconciliationCursorStep
    dsimp only
    repeat' split
    all_goals exact answers_next _
  | epochSweepStep =>
    show Answers (execEpochSweepStep s)
    unfold execEpochSweepStep
    dsimp only
    repeat' split
    all_goals exact answers_next _
  | grant ready =>
    show Answers (execGrant ready s)
    unfold execGrant
    dsimp only
    repeat' split
    all_goals exact answers_next _
  | cellDeparture =>
    show Answers (execCellDeparture s)
    unfold execCellDeparture
    split <;> exact answers_next _
  | softResetComplete =>
    show Answers (execSoftResetComplete s)
    unfold execSoftResetComplete
    split <;> exact answers_next _
  | byteWithoutTheStrobe b =>
    show Answers (execByteWithoutTheStrobe b s)
    unfold execByteWithoutTheStrobe
    repeat' split
    all_goals exact answers_next _
  | badCommand => exact withCommand_answers s (fun code => (commandOfCode code).isNone) runBadCommand
  | _ => exact withCommand_answers s _ _

/-! ### The held reading -/

theorem SlotWork.settled {s t : State} (work : SlotWork s t) {i : SlotId} (h : (s.slot i).pending = false) : (t.slot i).pending = false :=
  (work.grows i).settled h

/-- Settled slots stay settled but at a swap. -/
def KeepsSettled (s t : State) : Prop := ∀ i, (s.slot i).pending = false → (t.slot i).pending = false

theorem SlotWork.keepsSettled {s u t : State} (work : SlotWork s u) (h : t.slots = u.slots) : KeepsSettled s t := fun i hi => by
  rw [State.slot_congr h]
  exact work.settled hi

theorem readingLatched_of_none {s : State} (h : s.heldReading = none) : ReadingLatched s := fun k hk => by
  rw [h] at hk
  cases hk

/-- A reading stays latched while the reading, the active bank and the generation stay and settled slots stay settled. -/
theorem ReadingLatched.kept {s t : State} (held : t.engine = s.engine) (bank : t.tables.activeBank = s.tables.activeBank)
    (generation : t.tables.generation = s.tables.generation) (settled : KeepsSettled s t) (hs : ReadingLatched s) : ReadingLatched t := by
  intro h hh
  rw [heldReading_congr held] at hh
  obtain ⟨latched, found, step⟩ := hs h hh
  rw [bank, generation]
  exact ⟨latched, found, fun hstep => settled _ (step hstep)⟩

theorem ReadingLeaves.latched {h : HeldReading} {s t : State} (leaves : ReadingLeaves h s t)
    (generation : h.generation = s.tables.generation)
    (found : findChannel s.tables.activeBank.directory (readingChannel h.cell) = some h.entry)
    (settled : h.step ≠ .prepare → (s.slot h.entry.slot).pending = false) : ReadingLatched t := by
  cases leaves with
  | @waits u h' work cell generation' entry own reference step =>
    intro k hk
    obtain rfl := Option.some.inj hk
    refine ⟨?_, ?_, fun hstep => ?_⟩
    · rw [generation', generation, work.frame]
    · rw [cell, entry, ← found, work.frame]
    · rw [entry]
      rcases step hstep with older | now
      · exact work.settled (settled older)
      · exact now
  | ends => exact readingLatched_of_none rfl

theorem CommandLeaves.latched {held : SlotId → Prop} {s t : State} (leaves : CommandLeaves held s t) (hs : ReadingLatched s) :
    ReadingLatched t := by
  cases leaves with
  | answered work notices change =>
    exact hs.kept (by rw [notices.frame, work.frame]) change.activeBank change.generation (work.keepsSettled (by rw [notices.frame]))
  | waits work => exact hs.kept (by rw [work.frame]) (by rw [work.frame]) (by rw [work.frame]) (work.keepsSettled rfl)

theorem StepLeaves.latched {s t : State} {c : Instr} (leaves : StepLeaves s c t) (hs : ReadingLatched s) : ReadingLatched t := by
  have same {u v : State} (h : v.slots = u.slots) : KeepsSettled u v := fun i hi => by rwa [State.slot_congr h]
  cases leaves with
  | unchanged => exact hs
  | powerOnReset => exact readingLatched_of_none rfl
  | resetEnds _ work =>
    exact hs.kept (by rw [work.frame]) (by rw [work.frame]) (by rw [work.frame]) (same (by rw [work.frame]))
  | badCell _ work =>
    exact hs.kept (by rw [work.frame]) (by rw [work.frame]) (by rw [work.frame]) (same (by rw [work.frame]))
  | byte => exact hs
  | goodCell => exact hs
  | classified _ _ _ _ _ work =>
    exact hs.kept (by rw [work.frame]) (by rw [work.frame]) (by rw [work.frame]) (same (by rw [work.frame]))
  | readingTaken _ _ _ found work => exact work.latched rfl found fun h => absurd rfl h
  | @readingResumed _ _ h waiting work =>
    obtain ⟨generation, found, settled⟩ := hs h ((heldReading_iff s h).2 (.inr waiting))
    exact work.latched generation found settled
  | command _ work =>
    refine work.latched ?_
    exact hs
  | commandResumed _ work =>
    refine work.latched ?_
    exact hs
  | tables activeBank _ generation _ _ work =>
    exact hs.kept (by rw [work.frame]) (by rw [work.frame]; exact activeBank) (by rw [work.frame]; exact generation)
      (same (by rw [work.frame]))
  | swapped _ free work =>
    refine readingLatched_of_none ?_
    rw [heldReading_congr (s := s) (by rw [work.frame]; rfl)]
    exact free
  | cursorHeld => exact hs
  | cursorMoved _ work =>
    exact hs.kept (by rw [advanceReconciliation_engine, work.frame]) (by rw [advanceReconciliation_tables, work.frame])
      (by rw [advanceReconciliation_tables, work.frame]) (work.keepsSettled (advanceReconciliation_slots _ _))
  | sweepHeld work =>
    exact hs.kept (by rw [holdSweep_engine, work.frame]) (by rw [holdSweep_tables, work.frame])
      (by rw [holdSweep_tables, work.frame]) (work.keepsSettled (holdSweep_slots _))
  | sweepMoved work =>
    exact hs.kept (by rw [advanceSweep_engine, work.frame]) (by rw [advanceSweep_tables, work.frame])
      (by rw [advanceSweep_tables, work.frame]) (work.keepsSettled (advanceSweep_slots _ _))
  | granted => exact hs
  | departed => exact hs
  | softReset => exact readingLatched_of_none rfl

/-! ### Safe states -/

theorem StepLeaves.safe {s t : State} {c : Instr} (leaves : StepLeaves s c t) (hs : Safe s) : Safe t where
  queues := leaves.queues hs.queues
  framing := leaves.framing hs.framing
  notices := leaves.notices.numbered hs.notices
  linkError := leaves.notices.oneLinkError hs.linkError
  claims := leaves.claims hs.claims
  banks := leaves.banks hs.banks
  verified := leaves.verified hs.verified
  latched := leaves.latched hs.latched
  slots := leaves.slots_move.follows hs.slots
  windows := leaves.windows hs.banks hs.windows
  limit := leaves.limit hs.limit

/-- Being safe does not depend on which commands wait to be stepped. -/
theorem Safe.withPending {s : State} (h : Safe s) (rest : List Instr) : Safe { s with pending := rest } :=
  ⟨h.queues, h.framing, h.notices, h.linkError, h.claims, h.banks, h.verified, h.latched, h.slots, h.windows, h.limit⟩

/-- Settles O57: the command at the front answers, as nothing that could stop it arises in a safe state, and what it leaves is safe. -/
theorem everyStepFromSafeIsSafe : Obligations.EveryStepFromSafeIsSafe := by
  intro s safe
  cases hp : s.pending with
  | nil => exact ⟨s, step_idle hp, safe⟩
  | cons c rest =>
    obtain ⟨t, answers⟩ := exec_answers (safe.withPending rest) c
    exact ⟨t, (step_front hp).trans answers, (exec_leaves answers).safe (safe.withPending rest)⟩

/-- Settles O51: nothing is queued, held, claimed or owned after a power-on reset, and both banks are empty. -/
theorem resetIsSafe : Obligations.ResetIsSafe := by
  have nothing {α : Type} (n : Nat) : ([] : List α).length ≤ n := Nat.zero_le n
  have slot (i : SlotId) : State.reset.slot i = ⟨none, false⟩ := State.slot_reset i
  refine ⟨⟨nothing 32, nothing 8, nothing 16, nothing 8, nothing 32, nothing 64, fun _ => nothing 15, fun _ _ => nothing 7,
    fun _ _ => nothing 7, fun _ _ => nothing 31⟩, fun _ _ h => (by cases h), trivial, Nat.zero_le 1, ?claims, ⟨Bank.wf_reset, Bank.wf_reset⟩,
    ⟨rfl, fun h => (by cases h)⟩, readingLatched_of_none rfl, ?slots, ?windows, (by decide : Mode.reset.starvationLimit ≠ 0)⟩
  case claims => exact claimsExclusive_of_none (holdsClaim_of_idle rfl (fun _ h => (by cases h)) rfl rfl)
  case slots =>
    rw [slotsFollowDirectory_iff]
    intro i
    unfold SlotFollows
    rw [slot i]
    exact ⟨fun h => Bool.noConfusion h, fun _ => rfl⟩
  case windows =>
    intro i r hr
    rw [slot i] at hr
    cases hr

end Sys2Proof.Machine
end

section
/-! PROOFS. The two resets: the values of every block, the slots and claims after each, the departure that makes a soft reset due, and the
notices of their ends (R83 to R85, R131, R132, R134, R150 to R152, R165, R167). -/

namespace Sys2Proof.Machine

/-! ### The reset pin (R131, R134, R152) -/

theorem exec_powerOnResetRelease {s : State} (straps : BitVec 4) (h : s.resetAsserted = true) :
    exec (.powerOnResetRelease straps) s =
      .next (State.handNotice { s with resetAsserted := false, strap := straps } (.resetDone .power s.tables.generation)) := by
  show execPowerOnResetRelease straps s = _
  unfold execPowerOnResetRelease
  rw [if_pos h]

/-- A notice handed to an empty Notice Queue stands there alone (R157). -/
theorem handNotice_empty {s : State} (body : NoticeBody) (h : s.noticeQueue = []) :
    s.handNotice body =
      { s with
        noticeQueue := [⟨s.noticeSequence, s.noticeLost, s.strap, body⟩]
        noticeSequence := s.noticeSequence + 1
        noticeLost := 0 } := by
  rw [State.handNotice_room body (by rw [h]; exact Nat.zero_lt_succ 31), h]
  rfl

/-- Settles O3: the command leaves the reset state, whose blocks hold their power-on values, but for three fields kept. -/
theorem powerOnResetOfEveryBlock : Obligations.PowerOnResetOfEveryBlock := by
  intro s
  refine ⟨_, exec_powerOnReset s, rfl, rfl, rfl, rfl, rfl, rfl, rfl, rfl, rfl, rfl, rfl, rfl, rfl, rfl, rfl, rfl, rfl, rfl, rfl, rfl,
    rfl, rfl, rfl, rfl, rfl, rfl⟩

/-- A release under an empty Notice Queue leaves RESET DONE with cause POWER alone in it (R152). -/
theorem exec_powerOnResetRelease_empty {s : State} (straps : BitVec 4) (asserted : s.resetAsserted = true) (empty : s.noticeQueue = []) :
    exec (.powerOnResetRelease straps) s = .next
      { s with
        resetAsserted := false
        strap := straps
        noticeQueue := [⟨s.noticeSequence, s.noticeLost, straps, .resetDone .power s.tables.generation⟩]
        noticeSequence := s.noticeSequence + 1
        noticeLost := 0 } := by
  rw [exec_powerOnResetRelease straps asserted]
  exact congrArg Host.Outcome.next (handNotice_empty (s := { s with resetAsserted := false, strap := straps }) _ empty)

/-- Settles O5: a release hands RESET DONE over to the empty queue that the power-on reset left. -/
theorem powerOnResetReleases : Obligations.PowerOnResetReleases := by
  refine ⟨fun s straps => exec_powerOnResetRelease_empty straps, fun s straps => ?_⟩
  exact ⟨_, _, exec_powerOnReset s, exec_powerOnResetRelease_empty straps rfl rfl, rfl, rfl, rfl, rfl, rfl⟩

/-- Settles O7: the notice is handed over to the empty Notice Queue that RESETTING has (R151). -/
theorem softResetCompletes : Obligations.SoftResetCompletes := by
  intro s resetting empty
  show execSoftResetComplete s = _
  unfold execSoftResetComplete
  rw [if_pos resetting]
  exact congrArg Host.Outcome.next (handNotice_empty (s := { s with commandUnit := .idle }) _ empty)

/-! ### The soft reset (R132, R150, R165) -/

/-- After the departure's records are set, the soft reset is due exactly in the terms of R165. -/
theorem softResetDue_recordDeparture (s : State) (c : Transmission) : softResetDue (recordDeparture s c) = true ↔ ResetDueAfter s c := by
  unfold softResetDue ResetDueAfter
  rw [recordDeparture_commandUnit, recordDeparture_responseSent, recordDeparture_copySent]
  cases s.commandUnit with
  | resetRequested broadcast => cases broadcast <;> simp
  | _ => simp

theorem exec_cellDeparture {s : State} {c : Transmission} (h : s.port = some c) :
    exec .cellDeparture s = .next (if softResetDue (recordDeparture s c) then softReset (recordDeparture s c) else recordDeparture s c) := by
  show execCellDeparture s = _
  unfold execCellDeparture
  rw [h]

theorem exec_cellDeparture_due {s : State} {c : Transmission} (h : s.port = some c) (due : ResetDueAfter s c) :
    exec .cellDeparture s = .next (softReset (recordDeparture s c)) := by
  rw [exec_cellDeparture h, if_pos ((softResetDue_recordDeparture s c).2 due)]

/-- Every slot after a soft reset is the reset slot of the entry that names it (R85). -/
theorem slot_softReset (s : State) (i : SlotId) : (softReset s).slot i = Slot.reset (s.ownerEntry i) 0 := Table.get_tabulate _ i

/-- The shadow state after a soft reset: a mirror restarts, anything else is EDITABLE (R132). -/
theorem softReset_shadowState (t : TableStore) :
    ({ t with shadowState := t.shadowState.softReset } : TableStore) =
      if t.shadowState.isMirroring then t else { t with shadowState := .editable } := by
  obtain ⟨a, b, k, g, state⟩ := t
  cases state <;> rfl

/-- Settles O4: the reset slots are UNOWNED, and after a soft reset those that the active directory gives; nobody claims anything. -/
theorem slotStoreAfterResets : Obligations.SlotStoreAfterResets := by
  constructor
  · intro s
    exact ⟨_, exec_powerOnReset s, State.slot_reset, rfl, rfl, holdsClaim_of_idle rfl (fun _ h => (by cases h)) rfl rfl⟩
  · intro s c port due
    refine ⟨_, exec_cellDeparture_due port due, fun i unnamed => ?_, fun i e named => ?_, rfl, rfl,
      holdsClaim_of_idle rfl (fun _ h => (by cases h)) rfl rfl⟩
    · rw [slot_softReset]
      have none : (recordDeparture s c).ownerEntry i = none := unnamed
      rw [none]
      rfl
    · rw [slot_softReset]
      have some : (recordDeparture s c).ownerEntry i = some e := named
      rw [some]
      rfl

/-- Settles O6: the records decide whether the soft reset is due, and its state is that of `softReset`, block by block. -/
theorem cellDeparts : Obligations.CellDeparts := by
  intro s c port
  constructor
  · intro notDue
    rw [exec_cellDeparture port, if_neg (mt (softResetDue_recordDeparture s c).1 notDue)]
    rfl
  · intro due
    rw [exec_cellDeparture_due port due, ← softReset_shadowState s.tables]
    rfl

end Sys2Proof.Machine
end

section
/-! PROOFS. The ingress port: framing, the completion of a cell, and the notices of bad cells (R157, R160, R168 to R171). -/

namespace Sys2Proof.Machine

/-! ### Framing (R168) -/

theorem receiverHeeds_iff (s : State) : s.receiverHeeds = true ↔ s.resetAsserted = false ∧ s.commandUnit ≠ .resetting := by
  unfold State.receiverHeeds
  rw [Bool.and_eq_true, Bool.not_eq_true', decide_eq_true_eq]

/-- Under either reset the receiver heeds nothing (R168). -/
theorem receiverHeeds_reset {s : State} (h : s.resetAsserted = true ∨ s.commandUnit = .resetting) : ¬ s.receiverHeeds = true := by
  rw [receiverHeeds_iff]
  rintro ⟨pin, unit⟩
  rcases h with h | h
  · rw [pin] at h
    cases h
  · exact unit h

theorem beginCell_heeded {s : State} (h : s.receiverHeeds = true) (b : Byte) :
    beginCell s b = { s with receiver := .receiving [b] (decide (32 ≤ s.ingressBuffer.length)) } := by
  unfold beginCell
  rw [overrunAtStrobe_heeded h]

theorem badCell_receiverHeeds (s : State) (reason : LinkReason) : (s.badCell reason).receiverHeeds = s.receiverHeeds := by
  unfold State.receiverHeeds
  rw [State.badCell_resetAsserted, State.badCell_commandUnit]

theorem execCellStartStrobe_idle {s : State} (heeds : s.receiverHeeds = true) (h : s.receiver = .idle) (b : Byte) :
    execCellStartStrobe b s = .next (beginCell s b) := by
  unfold execCellStartStrobe
  rw [if_pos heeds, h]

theorem execCellStartStrobe_receiving {s : State} (heeds : s.receiverHeeds = true) {bytes : List Byte} {overrun : Bool}
    (h : s.receiver = .receiving bytes overrun) (b : Byte) : execCellStartStrobe b s = .next (beginCell (s.badCell .runt) b) := by
  unfold execCellStartStrobe
  rw [if_pos heeds, h]

theorem execByteWithoutTheStrobe_idle {s : State} (heeds : s.receiverHeeds = true) (h : s.receiver = .idle) (b : Byte) :
    execByteWithoutTheStrobe b s = .next s := by
  unfold execByteWithoutTheStrobe
  rw [if_pos heeds, h]

theorem execByteWithoutTheStrobe_receiving {s : State} (heeds : s.receiverHeeds = true) {bytes : List Byte} {overrun : Bool}
    (h : s.receiver = .receiving bytes overrun) (b : Byte) :
    execByteWithoutTheStrobe b s = .next (receiveByte s bytes overrun b) := by
  unfold execByteWithoutTheStrobe
  rw [if_pos heeds, h]

theorem execCellComplete_receiving {s : State} (heeds : s.receiverHeeds = true) {bytes : List Byte} {overrun : Bool}
    (h : s.receiver = .receiving bytes overrun) (full : bytes.length = 23) (b : Byte) :
    execCellComplete b s = .next (judgeCell s (bytes ++ [b]) overrun) := by
  unfold execCellComplete
  rw [if_pos heeds, h]
  exact if_pos full

/-- Settles O9: each event by the framing state, OVERRUN judged at the strobe, and nothing under a reset. -/
theorem receptionFollowsStrobes : Obligations.ReceptionFollowsStrobes := by
  intro s b
  refine ⟨fun pin unit => ?_, fun reset => ?_⟩
  · have heeds := (receiverHeeds_iff s).2 ⟨pin, unit⟩
    refine ⟨fun idle => ⟨?_, execByteWithoutTheStrobe_idle heeds idle b⟩, fun bytes overrun receiving => ⟨?_, fun short => ?_⟩⟩
    · rw [← beginCell_heeded heeds b]
      exact execCellStartStrobe_idle heeds idle b
    · have length : (s.badCell .runt).ingressBuffer.length = s.ingressBuffer.length := by rw [State.badCell_ingressBuffer]
      show execCellStartStrobe b s = _
      rw [execCellStartStrobe_receiving heeds receiving, beginCell_heeded (by rw [badCell_receiverHeeds, heeds]), length]
    · show execByteWithoutTheStrobe b s = _
      rw [execByteWithoutTheStrobe_receiving heeds receiving]
      unfold receiveByte
      rw [if_neg short.ne]
  · have deaf := receiverHeeds_reset reset
    refine ⟨?_, ?_, ?_⟩
    · show execCellStartStrobe b s = _
      unfold execCellStartStrobe
      rw [if_neg deaf]
    · show execByteWithoutTheStrobe b s = _
      unfold execByteWithoutTheStrobe
      rw [if_neg deaf]
    · show execCellComplete b s = _
      unfold execCellComplete
      rw [if_neg deaf]

/-! ### Completion (R169, R170, R171) -/

/-- A list of the table's length fills it exactly. -/
theorem ofList_val {α : Type} {n : Nat} (fill : α) (t : Table α n) : Table.ofList n fill t.val = t := by
  refine Table.ext_get fun i => ?_
  unfold Table.ofList
  rw [Table.get_tabulate]
  exact List.getD_eq_getElem t.val fill (Nat.lt_of_lt_of_eq i.isLt t.property.symm)

/-- A completed cell of 24 bytes is judged for OVERRUN, then for CRC (R170). -/
theorem judgeCell_eq {s : State} {bytes : List Byte} {cell : Cell} (h : cell.val = bytes) (overrun : Bool) :
    judgeCell s bytes overrun =
      if overrun then State.badCell { s with receiver := .idle } .overrun
      else if checkGood cell then { s with receiver := .idle, ingressBuffer := s.ingressBuffer ++ [cell] }
      else State.badCell { s with receiver := .idle } .crc := by
  unfold judgeCell
  rw [← h, ofList_val]

theorem checkGood_iff (cell : Cell) : checkGood cell = true ↔ cell.val.drop 22 = halfBytes (crc16 (cell.val.take 22)) := beq_iff_eq

/-- Settles O10: both events judge the cell of the 24 bytes. -/
theorem cellCompletes : Obligations.CellCompletes := by
  intro s b bytes overrun cell c pin unit receiving cell_eq event
  have heeds := (receiverHeeds_iff s).2 ⟨pin, unit⟩
  have full : bytes.length = 23 := by
    have length := cell.property
    rw [cell_eq, List.length_append, List.length_singleton] at length
    omega
  have judged : exec c s = .next (judgeCell s (bytes ++ [b]) overrun) := by
    rcases event with rfl | rfl
    · exact execCellComplete_receiving heeds receiving full b
    · show execByteWithoutTheStrobe b s = _
      rw [execByteWithoutTheStrobe_receiving heeds receiving]
      unfold receiveByte
      rw [if_pos full]
  rw [judged, judgeCell_eq cell_eq]
  refine ⟨fun ho => ?_, fun ho good => ?_, fun ho bad => ?_⟩
  · rw [if_pos ho]
  · rw [ho, if_neg Bool.false_ne_true, if_pos ((checkGood_iff cell).2 good)]
  · rw [ho, if_neg Bool.false_ne_true, if_neg (mt (checkGood_iff cell).1 bad)]

/-! ### Notices of bad cells (R157, R160, R170) -/

theorem half_eq_allOnes_iff (c : Half) : c = BitVec.allOnes 16 ↔ c.toNat = 65535 := by
  rw [← BitVec.toNat_inj]
  rfl

/-- A 16-bit counter counts up to 65535 and holds there. -/
theorem satInc_toNat (c : Half) : (satInc c).toNat = min 65535 (c.toNat + 1) := by
  have bound := c.isLt
  unfold satInc
  split
  next h =>
    have full := (half_eq_allOnes_iff c).1 h
    omega
  next h =>
    have room := mt (half_eq_allOnes_iff c).2 h
    rw [BitVec.toNat_add, show (1 : Half).toNat = 1 from rfl]
    omega

/-- A bad cell joins no notice but a LINK ERROR (R160). -/
theorem coalesce_other {body : NoticeBody} (h : body.isLinkError = false) (reason : LinkReason) : body.coalesce reason = body := by
  cases body with
  | linkError => cases h
  | _ => rfl

/-- Notices none of which is a LINK ERROR stay as they are. -/
theorem map_coalesce_other {l : List Notice} (h : ∀ m ∈ l, m.body.isLinkError = false) (reason : LinkReason) :
    (l.map fun n => { n with body := n.body.coalesce reason }) = l := by
  conv_rhs => rw [← List.map_id l]
  refine List.map_congr_left fun n hn => ?_
  rw [coalesce_other (h n hn)]
  rfl

theorem badCell_disabled {s : State} (h : s.mode.linkErrorEnable = false) (reason : LinkReason) :
    s.badCell reason = { s with badCells := satInc s.badCells } := by
  unfold State.badCell State.reportBadCell
  exact if_neg (by dsimp only; rw [h]; exact Bool.false_ne_true)

/-- A bad cell joins the LINK ERROR notice that waits, and the other notices stay (R160). -/
theorem badCell_joins {s : State} (enabled : s.mode.linkErrorEnable = true) {before after : List Notice} {n : Notice} {first : LinkReason}
    {seen : LinkReasons} {count : Half} (queue : s.noticeQueue = before ++ n :: after) (body : n.body = .linkError first seen count)
    (others : ∀ m ∈ before ++ after, m.body.isLinkError = false) (reason : LinkReason) :
    s.badCell reason =
      { s with
        badCells := satInc s.badCells
        noticeQueue := before ++ { n with body := .linkError first (seen.add reason) (satInc count) } :: after } := by
  have waits : (s.noticeQueue.any fun n => n.body.isLinkError) = true := by
    rw [queue, List.any_append, List.any_cons, body]
    exact Bool.or_true _
  have joined : (s.noticeQueue.map fun n => { n with body := n.body.coalesce reason }) =
      before ++ { n with body := .linkError first (seen.add reason) (satInc count) } :: after := by
    rw [queue, List.map_append, List.map_cons, body, map_coalesce_other fun m hm => others m (List.mem_append_left _ hm),
      map_coalesce_other fun m hm => others m (List.mem_append_right _ hm)]
    rfl
  rw [← joined]
  unfold State.badCell State.reportBadCell
  exact (if_pos enabled).trans (if_pos waits)

theorem badCell_reports {s : State} (enabled : s.mode.linkErrorEnable = true) (none : ∀ m ∈ s.noticeQueue, m.body.isLinkError = false)
    (reason : LinkReason) :
    s.badCell reason =
      State.handNotice { s with badCells := satInc s.badCells } (.linkError reason (LinkReasons.none.add reason) 1) := by
  have waits : ¬ (s.noticeQueue.any fun n => n.body.isLinkError) = true := by
    rw [List.any_eq_true]
    rintro ⟨m, hm, h⟩
    rw [none m hm] at h
    cases h
  unfold State.badCell State.reportBadCell
  exact (if_pos enabled).trans (if_neg waits)

/-- Settles O11: the rows of handing over and of a bad cell, each as its lemma has it. -/
theorem noticesHandedOver : Obligations.NoticesHandedOver := by
  refine ⟨⟨fun s body => ⟨State.handNotice_room body, fun full lost => ?_, fun full lost => ?_⟩,
    fun s reason => ⟨fun off => badCell_disabled off reason, fun enabled => ⟨?_, fun none => badCell_reports enabled none reason⟩⟩⟩,
    satInc_toNat, fun seen => ⟨rfl, rfl, rfl⟩⟩
  · exact State.handNotice_lost body full fun h => absurd ((half_eq_allOnes_iff _).1 h) lost.ne
  · exact State.handNotice_saturated body full ((half_eq_allOnes_iff _).2 lost)
  · intro before n first seen count after queue body others
    exact badCell_joins enabled queue body others reason

end Sys2Proof.Machine
end

section
/-! PROOFS. The egress port: the arbiter's choice and its rows, and the formed cells byte by byte (R154, R161, R162, R165, R169, R174 to R176,
R179). -/

namespace Sys2Proof.Machine

/-! ### When a grant may be made (R161, R165) -/

theorem softResetDue_iff (s : State) :
    softResetDue s = true ↔ ∃ broadcast, s.commandUnit = .resetRequested broadcast ∧ (s.responseSent && (!broadcast || s.copySent)) = true := by
  unfold softResetDue
  cases s.commandUnit <;> simp

theorem grantReady_iff (s : State) : GrantReady s ↔ s.port = none ∧ softResetDue s = false ∧ s.commandUnit ≠ .resetting := by
  have due : softResetDue s = false ↔
      ∀ broadcast, s.commandUnit = .resetRequested broadcast → (s.responseSent && (!broadcast || s.copySent)) = false := by
    rw [← Bool.not_eq_true, softResetDue_iff]
    simp only [not_exists, not_and, Bool.not_eq_true]
  rw [due]
  exact ⟨fun ⟨port, notDue, unit⟩ => ⟨port, notDue, unit⟩, fun ⟨port, notDue, unit⟩ => ⟨port, notDue, unit⟩⟩

theorem mayGrant_iff (s : State) : mayGrant s = true ↔ s.downstreamReady = true ∧ GrantReady s := by
  rw [grantReady_iff]
  unfold mayGrant
  rw [Bool.and_eq_true, Bool.and_eq_true, Bool.and_eq_true, Bool.not_eq_true', decide_eq_true_eq, Option.isNone_iff_eq_none, and_assoc,
    and_assoc]

/-- The ready line's level plays no part in whether the port and the resets let a grant be made. -/
theorem grantReady_level (s : State) (ready : Bool) : GrantReady { s with downstreamReady := ready } ↔ GrantReady s :=
  ⟨fun ⟨port, notDue, unit⟩ => ⟨port, notDue, unit⟩, fun ⟨port, notDue, unit⟩ => ⟨port, notDue, unit⟩⟩

theorem exec_grant_quiet {s : State} {ready : Bool} (h : ¬ (ready = true ∧ GrantReady s)) :
    exec (.grant ready) s = .next { s with downstreamReady := ready } := by
  show execGrant ready s = _
  unfold execGrant
  refine if_neg fun may => h ?_
  obtain ⟨high, grants⟩ := (mayGrant_iff _).1 may
  exact ⟨high, (grantReady_level s ready).1 grants⟩

theorem mayGrant_ready {s : State} (h : GrantReady s) : mayGrant { s with downstreamReady := true } = true :=
  (mayGrant_iff _).2 ⟨rfl, (grantReady_level s true).2 h⟩

/-- A grant that is made transmits from the chosen queue and sets the starvation count (R161, R162). -/
theorem exec_grant_chosen {s : State} (h : GrantReady s) {q : QueueName} (hq : chooseQueue s = some q) :
    exec (.grant true) s = .next (transmit { s with downstreamReady := true, starvationCount := starvationAfter s q } q) := by
  have chosen : chooseQueue { s with downstreamReady := true } = some q := hq
  show execGrant true s = _
  unfold execGrant
  dsimp only
  rw [if_pos (mayGrant_ready h), chosen]
  rfl

theorem exec_grant_empty {s : State} (hq : chooseQueue s = none) : exec (.grant true) s = .next { s with downstreamReady := true } := by
  by_cases h : GrantReady s
  · have chosen : chooseQueue { s with downstreamReady := true } = none := hq
    show execGrant true s = _
    unfold execGrant
    dsimp only
    rw [if_pos (mayGrant_ready h), chosen]
  · exact exec_grant_quiet fun ready => h ready.2

/-! ### The arbiter's choice (R162) -/

/-- The arbiter's choice while no summary starves: responses, notices, forwards, summaries (R162). -/
theorem chooseQueue_unstarved {s : State} (h : s.summaryQueue = [] ∨ s.starvationCount.toNat < s.mode.starvationLimit.toNat) :
    chooseQueue s =
      if s.responseQueue ≠ [] then some .response
      else if s.noticeQueue ≠ [] then some .notice
      else if s.forwardQueue ≠ [] then some .forward
      else if s.summaryQueue ≠ [] then some .summary
      else none := by
  unfold chooseQueue
  refine if_neg ?_
  rintro ⟨summary, starved⟩
  rcases h with h | h
  · exact summary h
  · exact absurd (BitVec.le_def.1 starved) (Nat.not_le.2 h)

theorem satInc_starvation (c : BitVec 4) : satInc c = if c = 15 then 15 else c + 1 := by
  revert c
  decide

theorem starvationAfter_other {s : State} {q : QueueName} (h : q ≠ .summary) : starvationAfter s q = passedOver s := by
  unfold starvationAfter passedOver
  rw [if_neg h, satInc_starvation]

theorem exec_grant_summary {s : State} (h : GrantReady s) {c : Summary} {rest : List Summary} (hq : s.summaryQueue = c :: rest)
    (chosen : chooseQueue s = some .summary) :
    exec (.grant true) s = .next
      { s with
        downstreamReady := true, summaryQueue := rest, port := some ⟨formCell c.bytes, false, false⟩, starvationCount := 0 } := by
  rw [exec_grant_chosen h chosen]
  unfold transmit
  dsimp only
  rw [hq]
  rfl

theorem exec_grant_response {s : State} (h : GrantReady s) {r : Response} {rest : List Response} (hq : s.responseQueue = r :: rest)
    (chosen : chooseQueue s = some .response) :
    exec (.grant true) s = .next
      { s with
        downstreamReady := true
        responseQueue := rest
        port := some ⟨formCell r.bytes, decide (r.code = 0x3F) && decide (r.status = .accepted), false⟩
        starvationCount := passedOver s } := by
  rw [exec_grant_chosen h chosen, starvationAfter_other fun h => (by cases h)]
  unfold transmit
  dsimp only
  rw [hq]
  rfl

theorem exec_grant_notice {s : State} (h : GrantReady s) {n : Notice} {rest : List Notice} (hq : s.noticeQueue = n :: rest)
    (chosen : chooseQueue s = some .notice) :
    exec (.grant true) s = .next
      { s with
        downstreamReady := true
        noticeQueue := rest
        port := some ⟨formCell n.bytes, false, false⟩
        starvationCount := passedOver s } := by
  rw [exec_grant_chosen h chosen, starvationAfter_other fun h => (by cases h)]
  unfold transmit
  dsimp only
  rw [hq]

theorem exec_grant_forward {s : State} (h : GrantReady s) {f : ForwardCell} {rest : List ForwardCell} (hq : s.forwardQueue = f :: rest)
    (chosen : chooseQueue s = some .forward) :
    exec (.grant true) s = .next
      { s with
        downstreamReady := true
        forwardQueue := rest
        port := some ⟨f.body.cell, false, f.resetMark⟩
        starvationCount := passedOver s } := by
  rw [exec_grant_chosen h chosen, starvationAfter_other fun h => (by cases h)]
  unfold transmit
  dsimp only
  rw [hq]

/-! ### The check field (R169) -/

theorem crcBit_eq (register : Half) (bit : Bool) :
    crcBit register bit = if register.getLsbD 15 = bit then register <<< 1 else (register <<< 1) ^^^ 0x1021 := by
  have top : register.msb = register.getLsbD 15 := rfl
  unfold crcBit
  rw [top]
  cases register.getLsbD 15 <;> cases bit <;> rfl

theorem crc16_append (l : List Byte) (b : Byte) : crc16 (l ++ [b]) = crcByte (crc16 l) b := by
  unfold crc16
  rw [List.foldl_append]
  rfl

/-! ### Formed cells (R174 to R176, R179) -/

/-- The code of a sequence mark, as the pairs of R176 list it. -/
theorem sequenceMark_code {q : SequenceMark} {mark : BitVec 2}
    (h : (q, mark) ∈ [(SequenceMark.inOrder, (0 : BitVec 2)), (.gap, 1), (.repeated, 2), (.late, 3)]) : q.code = mark := by
  simp only [List.mem_cons, Prod.mk.injEq, List.not_mem_nil, or_false] at h
  rcases h with ⟨rfl, rfl⟩ | ⟨rfl, rfl⟩ | ⟨rfl, rfl⟩ | ⟨rfl, rfl⟩ <;> rfl

theorem closingCause_code {k : ClosingCause} {code : Byte}
    (h : (k, code) ∈ [(ClosingCause.count, (0 : Byte)), (.epoch, 1), (.flush, 2), (.truncated, 3)]) : k.code = code := by
  simp only [List.mem_cons, Prod.mk.injEq, List.not_mem_nil, or_false] at h
  rcases h with ⟨rfl, rfl⟩ | ⟨rfl, rfl⟩ | ⟨rfl, rfl⟩ | ⟨rfl, rfl⟩ <;> rfl

theorem status_code {x : Status} {code : Byte}
    (h : (x, code) ∈ [(Status.done, (0 : Byte)), (.accepted, 1), (.busy, 2), (.notFound, 3), (.duplicate, 4), (.full, 5),
      (.badOperand, 6), (.badCommand, 7), (.noWindow, 8)]) : x.code = code := by
  simp only [List.mem_cons, Prod.mk.injEq, List.not_mem_nil, or_false] at h
  rcases h with ⟨rfl, rfl⟩ | ⟨rfl, rfl⟩ | ⟨rfl, rfl⟩ | ⟨rfl, rfl⟩ | ⟨rfl, rfl⟩ | ⟨rfl, rfl⟩ | ⟨rfl, rfl⟩ | ⟨rfl, rfl⟩ | ⟨rfl, rfl⟩ <;> rfl

theorem verifyReason_code {x : VerifyReason} {code : Byte}
    (h : (x, code) ∈ [(VerifyReason.slotShared, (1 : Byte)), (.outShared, 2), (.form, 3), (.refMissing, 4), (.refRatio, 5),
      (.poolBounds, 6), (.limits, 7), (.shift, 8), (.linkDepth, 9)]) : x.code = code := by
  simp only [List.mem_cons, Prod.mk.injEq, List.not_mem_nil, or_false] at h
  rcases h with ⟨rfl, rfl⟩ | ⟨rfl, rfl⟩ | ⟨rfl, rfl⟩ | ⟨rfl, rfl⟩ | ⟨rfl, rfl⟩ | ⟨rfl, rfl⟩ | ⟨rfl, rfl⟩ | ⟨rfl, rfl⟩ | ⟨rfl, rfl⟩ <;> rfl

theorem cancelCause_code {x : CancelCause} {code : Byte} (h : (x, code) ∈ [(CancelCause.edit, (0 : Byte)), (.abandon, 1)]) :
    x.code = code := by
  simp only [List.mem_cons, Prod.mk.injEq, List.not_mem_nil, or_false] at h
  rcases h with ⟨rfl, rfl⟩ | ⟨rfl, rfl⟩ <;> rfl

theorem mirrorCause_code {x : MirrorCause} {code : Byte} (h : (x, code) ∈ [(MirrorCause.swap, (0 : Byte)), (.abandon, 1)]) :
    x.code = code := by
  simp only [List.mem_cons, Prod.mk.injEq, List.not_mem_nil, or_false] at h
  rcases h with ⟨rfl, rfl⟩ | ⟨rfl, rfl⟩ <;> rfl

theorem linkReason_code {x : LinkReason} {code : Byte} (h : (x, code) ∈ [(LinkReason.runt, (1 : Byte)), (.crc, 2), (.overrun, 3)]) :
    x.code = code := by
  simp only [List.mem_cons, Prod.mk.injEq, List.not_mem_nil, or_false] at h
  rcases h with ⟨rfl, rfl⟩ | ⟨rfl, rfl⟩ | ⟨rfl, rfl⟩ <;> rfl

theorem resetCause_code {x : ResetCause} {code : Byte} (h : (x, code) ∈ [(ResetCause.power, (0 : Byte)), (.soft, 1)]) :
    x.code = code := by
  simp only [List.mem_cons, Prod.mk.injEq, List.not_mem_nil, or_false] at h
  rcases h with ⟨rfl, rfl⟩ | ⟨rfl, rfl⟩ <;> rfl

/-- The six marks lead the fault set byte after two zero bits (R175). -/
theorem faultSet_byte (f : FaultSet) :
    f.byte =
      (0 : BitVec 2) ++ BitVec.ofBool f.ovf ++ BitVec.ofBool f.unf ++ BitVec.ofBool f.dvz ++ BitVec.ofBool f.mof ++ BitVec.ofBool f.rng ++
        BitVec.ofBool f.noref := by
  obtain ⟨ovf, unf, dvz, mof, rng, noref⟩ := f
  revert ovf unf dvz mof rng noref
  decide

theorem convertedCell_formed (c : ConvertedCell) : (formCell c.bytes).val = withCheck c.bytes := formCell_full _ rfl

theorem summary_formed (c : Summary) : (formCell c.bytes).val = withCheck c.bytes := formCell_full _ rfl

theorem response_formed (c : Response) : (formCell c.bytes).val = withCheck c.bytes :=
  formCell_full _ (congrArg (· + 6) c.contents.property)

/-- A notice's contents of at most fifteen bytes are sent after its number and filled up with zeros (R169, R174, R179). -/
theorem noticeSent_of_bytes {body : NoticeBody} {code : Byte} {contents : List Byte} (hcode : body.code = code)
    (hbytes : body.bytes = contents) (hlength : contents.length ≤ 15) (numbered lost : Half) (unit : UnitAddress) :
    NoticeSent numbered lost unit body code contents := by
  have fills : (Notice.bytes ⟨numbered, lost, unit, body⟩).length + (15 - contents.length) = 22 := by
    have length : (Notice.bytes ⟨numbered, lost, unit, body⟩).length = 7 + contents.length := by
      unfold Notice.bytes
      rw [hbytes, List.length_append]
      rfl
    omega
  unfold NoticeSent
  rw [formCell_padded _ _ fills]
  unfold Notice.bytes
  rw [hcode, hbytes]
  rfl

/-- The payload of a response is its contents filled up with zeros (R174). -/
theorem payload_padded {l : List Byte} (h : l.length ≤ 16) : (payload l).val = l ++ List.replicate (16 - l.length) 0 := by
  have full : l.length + (16 - l.length) = 16 := by omega
  refine List.ext_getElem ?_ fun i h1 h2 => ?_
  · rw [(payload l).property, List.length_append, List.length_replicate, full]
  · simp only [payload, Table.ofList, Table.tabulate, List.getElem_map, List.getElem_finRange, Fin.val_cast,
      List.getD_eq_getElem?_getD, List.getElem_append, List.getElem_replicate]
    split
    next inside => rw [List.getElem?_eq_getElem inside, Option.getD_some]
    next outside => rw [List.getElem?_eq_none (Nat.not_lt.1 outside), Option.getD_none]

/-- Settles O8: the choice row by row with its transmission, and each kind of cell by its bytes and its check. -/
theorem grantServesChosenQueue : Obligations.GrantServesChosenQueue := by
  refine ⟨fun s => ⟨?low, ?busy, ?empty⟩, fun s ready => ⟨?starved, ?unstarved⟩, ⟨fun _ => rfl, fun _ => rfl, fun _ => rfl, fun _ => rfl⟩,
    ⟨crcBit_eq, rfl, crc16_append⟩, ?converted, ?summary, ⟨?response, fun l h => payload_padded h⟩, fun numbered lost unit => ?notices⟩
  case low => exact exec_grant_quiet fun h => Bool.noConfusion h.1
  case busy => exact fun h => exec_grant_quiet fun ready => h ready.2
  case empty =>
    intro responses notices forwards summaries
    refine exec_grant_empty ?_
    rw [chooseQueue_unstarved (.inl summaries), if_neg (not_not.2 responses), if_neg (not_not.2 notices), if_neg (not_not.2 forwards),
      if_neg (not_not.2 summaries)]
  case starved =>
    intro c rest queue starved
    refine exec_grant_summary ready queue ?_
    unfold chooseQueue
    exact if_pos ⟨by rw [queue]; exact List.cons_ne_nil c rest, BitVec.le_def.2 starved⟩
  case unstarved =>
    intro unstarved
    have choice := chooseQueue_unstarved unstarved
    refine ⟨fun r rest queue => ?_, fun responses => ⟨fun n rest queue => ?_, fun notices => ⟨fun f rest queue => ?_,
      fun forwards c rest queue => ?_⟩⟩⟩
    · refine exec_grant_response ready queue ?_
      rw [choice, if_pos (by rw [queue]; exact List.cons_ne_nil r rest)]
    · refine exec_grant_notice ready queue ?_
      rw [choice, if_neg (not_not.2 responses), if_pos (by rw [queue]; exact List.cons_ne_nil n rest)]
    · refine exec_grant_forward ready queue ?_
      rw [choice, if_neg (not_not.2 responses), if_neg (not_not.2 notices), if_pos (by rw [queue]; exact List.cons_ne_nil f rest)]
    · refine exec_grant_summary ready queue ?_
      rw [choice, if_neg (not_not.2 responses), if_neg (not_not.2 notices), if_neg (not_not.2 forwards),
        if_pos (by rw [queue]; exact List.cons_ne_nil c rest)]
  case converted =>
    rintro c q mark rfl code
    rw [convertedCell_formed, ← sequenceMark_code code]
    rfl
  case summary =>
    intro c cause code
    rw [summary_formed, ← closingCause_code code, ← faultSet_byte]
    rfl
  case response =>
    intro c status code
    rw [response_formed, ← status_code code]
    rfl
  case notices =>
    refine ⟨fun channel number raw slot generation q tag mark code => ?_, fun generation => noticeSent_of_bytes rfl rfl (Nat.le_of_ble_eq_true rfl) ..,
      fun reason channel address generation code h => ?_, fun cause command tag generation code h => ?_, fun generation cause code h => ?_,
      fun address tag command => noticeSent_of_bytes rfl rfl (Nat.le_of_ble_eq_true rfl) .., fun first seen count code h => ?_, fun cause generation code h => ?_⟩
    · rw [← sequenceMark_code code]
      exact noticeSent_of_bytes rfl rfl (Nat.le_of_ble_eq_true rfl) ..
    · rw [← verifyReason_code h]
      exact noticeSent_of_bytes rfl rfl (Nat.le_of_ble_eq_true rfl) ..
    · rw [← cancelCause_code h]
      exact noticeSent_of_bytes rfl rfl (Nat.le_of_ble_eq_true rfl) ..
    · rw [← mirrorCause_code h]
      exact noticeSent_of_bytes rfl rfl (Nat.le_of_ble_eq_true rfl) ..
    · rw [← linkReason_code h]
      exact noticeSent_of_bytes rfl rfl (Nat.le_of_ble_eq_true rfl) ..
    · rw [← resetCause_code h]
      exact noticeSent_of_bytes rfl rfl (Nat.le_of_ble_eq_true rfl) ..

end Sys2Proof.Machine
end

section
/-! PROOFS. The Classifier and readings of unknown channels: routes, admission, forwarding, and the fields of a cell (R7, R56, R57, R106, R108, R135,
R136, R154, R172, R174). -/

namespace Sys2Proof.Machine

/-! ### Readings of unknown channels (R56, R57) -/

theorem execTakeReading_waits {s : State} (h : mayTakeReading s = false) : exec .takeReading s = .next s := by
  show execTakeReading s = _
  unfold execTakeReading
  split
  · rfl
  · exact if_neg fun may => Bool.noConfusion (h.symm.trans may.2)

theorem execTakeReading_taken {s : State} {cell : Cell} {rest : List Cell} (ready : CellReady s cell rest) (kind : cellKind cell = 0x01)
    (noSwap : s.tables.shadowState ≠ .swapPending) : exec .takeReading s = beginReading cell { s with ingressBuffer := rest } := by
  show execTakeReading s = _
  unfold execTakeReading
  rw [ready.buffer]
  exact if_pos ⟨kind, (mayTakeReading_iff s).2 ⟨ready.engine, ready.place, noSwap⟩⟩

theorem beginReading_unknown {s : State} {cell : Cell} (h : findChannel s.tables.activeBank.directory (readingChannel cell) = none) :
    beginReading cell s = .next (unknownReading cell s) := by
  unfold beginReading
  rw [h]

/-- Settles O12: a reading whose lookup finds nothing ends by the policy; without the conditions of R56 nothing is taken. -/
theorem unknownReadingByPolicy : Obligations.UnknownReading := by
  refine ⟨⟨fun s cell rest ready kind noSwap absent => ?_, fun s blocked => execTakeReading_waits ?_⟩,
    fun cell => ⟨rfl, rfl, rfl, rfl, rfl⟩, fun d channel => ⟨findChannel_none, fun e found => findChannel_some found⟩⟩
  · have unknown : beginReading cell { s with ingressBuffer := rest } = .next (unknownReading cell { s with ingressBuffer := rest }) :=
      beginReading_unknown (findChannel_none.2 absent)
    rw [execTakeReading_taken ready kind noSwap, unknown]
    refine ⟨fun policy => ?_, fun policy => ?_⟩
    · unfold unknownReading
      dsimp only
      rw [policy]
      rfl
    · unfold unknownReading
      dsimp only
      rw [policy]
  · rw [← Bool.not_eq_true, mayTakeReading_iff]
    rintro ⟨idle, place, noSwap⟩
    rcases blocked with busy | full | pending
    · exact busy idle
    · omega
    · exact noSwap pending

/-! ### EPOCH cells and cells that pass through (R106, R108, R135, R172) -/

theorem CellReady.mayForward {s : State} {cell : Cell} {rest : List Cell} (h : CellReady s cell rest) : mayForward s = true :=
  (mayForward_iff s).2 ⟨h.engine, h.place⟩

/-- The unit field holds the strap address (R134, R174). -/
theorem unitByte_toNat (u : UnitAddress) : (unitByte u).toNat = u.toNat := by
  revert u
  decide

theorem eq_unitByte_iff (address : Byte) (u : UnitAddress) : address = unitByte u ↔ address.toNat = u.toNat := by
  rw [← BitVec.toNat_inj, unitByte_toNat]

theorem routeOf_own {strap : UnitAddress} {address : Byte} (own : address.toNat = strap.toNat) (single : address ≠ 15) :
    routeOf strap address = .own := by
  unfold routeOf
  rw [if_neg single, if_pos ((eq_unitByte_iff _ _).2 own)]

theorem routeOf_foreign {strap : UnitAddress} {address : Byte} (single : address ≠ 15) (other : address.toNat ≠ strap.toNat) :
    routeOf strap address = .foreign := by
  unfold routeOf
  rw [if_neg single, if_neg (mt (eq_unitByte_iff _ _).1 other)]

theorem routeOf_broadcast (strap : UnitAddress) : routeOf strap 15 = .broadcast := if_pos rfl

/-- What passes through: a cell of another kind, or a command for another unit (R135, R172). -/
theorem passesThrough_of {s : State} {cell : Cell}
    (h : (cellKind cell ≠ 0x01 ∧ cellKind cell ≠ 0x02 ∧ cellKind cell ≠ 0x03) ∨
      (cellKind cell = 0x03 ∧ commandAddress cell ≠ 15 ∧ (commandAddress cell).toNat ≠ s.strap.toNat)) : passesThrough s cell = true := by
  unfold passesThrough
  rcases h with ⟨noReading, noEpoch, noCommand⟩ | ⟨command, single, other⟩
  · rw [if_neg (show ¬ cellKind cell = kindCommand from noCommand), Bool.and_eq_true, decide_eq_true_eq, decide_eq_true_eq]
    exact ⟨noReading, noEpoch⟩
  · rw [if_pos (show cellKind cell = kindCommand from command), decide_eq_true_eq]
    exact routeOf_foreign single other

/-- Settles O30: both rows under their one condition. -/
theorem epochAndPassThrough : Obligations.EpochAndPassThrough := by
  refine fun s cell rest ready => ⟨fun kind => ?_, fun passes => ?_⟩
  · show execTakeEpoch s = _
    unfold execTakeEpoch
    rw [ready.buffer]
    exact if_pos ⟨kind, ready.mayForward⟩
  · show execPassThroughCell s = _
    unfold execPassThroughCell
    rw [ready.buffer]
    exact if_pos ⟨passesThrough_of passes, ready.mayForward⟩

/-! ### Admission of commands (R135, R136, R154) -/

theorem commandAdmitted_iff (s : State) : commandAdmitted s = true ↔ s.commandQueue.length < 8 := decide_eq_true_iff

theorem offerCommand_admitted {s : State} (h : s.commandQueue.length < 8) (cell : Cell) :
    offerCommand s cell = { s with commandQueue := s.commandQueue ++ [cell] } := if_pos ((commandAdmitted_iff s).2 h)

theorem offerCommand_discarded {s : State} (h : 8 ≤ s.commandQueue.length) (cell : Cell) :
    offerCommand s cell =
      State.handNotice { s with discardedCommands := satInc s.discardedCommands }
        (.commandDiscarded (commandAddress cell) (commandTag cell) (commandCode cell)) :=
  if_neg (mt (commandAdmitted_iff s).1 (Nat.not_lt.2 h))

theorem exec_takeCommand_own {s : State} {cell : Cell} {rest : List Cell} (buffer : s.ingressBuffer = cell :: rest)
    (kind : cellKind cell = 0x03) (idle : s.engine = .idle) (route : routeOf s.strap (commandAddress cell) = .own) :
    exec .takeCommand s = .next (offerCommand { s with ingressBuffer := rest } cell) := by
  show execTakeCommand s = _
  unfold execTakeCommand
  rw [buffer]
  dsimp only
  rw [if_pos (show cellKind cell = kindCommand from kind), route]
  exact if_pos ((engineFree_iff s).2 idle)

theorem exec_takeCommand_broadcast {s : State} {cell : Cell} {rest : List Cell} (buffer : s.ingressBuffer = cell :: rest)
    (kind : cellKind cell = 0x03) (idle : s.engine = .idle) (place : s.forwardQueue.length < 16)
    (route : routeOf s.strap (commandAddress cell) = .broadcast) :
    exec .takeCommand s = .next (offerCommand
      { s with ingressBuffer := rest, forwardQueue := s.forwardQueue ++ [⟨.received cell, resetMarkOf s cell⟩] } cell) := by
  show execTakeCommand s = _
  unfold execTakeCommand
  rw [buffer]
  dsimp only
  rw [if_pos (show cellKind cell = kindCommand from kind), route]
  exact if_pos ((mayForward_iff s).2 ⟨idle, place⟩)

theorem resetMarkOf_admitted {s : State} (h : s.commandQueue.length < 8) (cell : Cell) :
    resetMarkOf s cell = decide (commandCode cell = 0x3F) := by
  unfold resetMarkOf
  rw [(commandAdmitted_iff s).2 h, Bool.true_and]
  rfl

theorem resetMarkOf_discarded {s : State} (h : 8 ≤ s.commandQueue.length) (cell : Cell) : resetMarkOf s cell = false := by
  unfold resetMarkOf
  rw [Bool.eq_false_iff.2 (mt (commandAdmitted_iff s).1 (Nat.not_lt.2 h)), Bool.false_and]

/-- Settles O31: the route decides what is offered and forwarded, and the Command Queue's fill whether it is admitted. -/
theorem takeCommandRoutes : Obligations.TakeCommandRoutes := by
  refine ⟨fun s cell rest buffer kind idle => ⟨fun own single => ?_, fun address place => ?_⟩, fun cell i => ?_⟩
  · rw [exec_takeCommand_own buffer kind idle (routeOf_own own single)]
    exact ⟨fun room => congrArg Host.Outcome.next (offerCommand_admitted (s := { s with ingressBuffer := rest }) room cell),
      fun full => congrArg Host.Outcome.next (offerCommand_discarded (s := { s with ingressBuffer := rest }) full cell)⟩
  · have route : routeOf s.strap (commandAddress cell) = .broadcast := by rw [address, routeOf_broadcast]
    rw [exec_takeCommand_broadcast buffer kind idle place route]
    refine ⟨fun room => ?_, fun full => ?_⟩
    · rw [resetMarkOf_admitted room]
      exact congrArg Host.Outcome.next (offerCommand_admitted
        (s := { s with ingressBuffer := rest, forwardQueue := s.forwardQueue ++ [⟨.received cell, decide (commandCode cell = 0x3F)⟩] }) room cell)
    · rw [resetMarkOf_discarded full]
      exact congrArg Host.Outcome.next (offerCommand_discarded
        (s := { s with ingressBuffer := rest, forwardQueue := s.forwardQueue ++ [⟨.received cell, false⟩] }) full cell)
  · refine ⟨rfl, rfl, rfl, rfl, ?_, rfl, rfl⟩
    rw [Nat.add_comm]
    rfl

end Sys2Proof.Machine
end

section
/-! PROOFS. The end of a reading: sequence check, output forming, drop, divert, pass, count and count closure (R59, R60, R62, R67 to R77,
R96, R100). -/

namespace Sys2Proof.Machine

/-! ### The sequence check and the fault collection (R62, R69) -/

theorem sequenceCheck_first {r : Runtime} (n : Half) (h : r.live = false) :
    sequenceCheck r n = ⟨.inOrder, 0, { r with live := true, lastSequence := n }⟩ := by
  unfold sequenceCheck
  exact if_neg (by rw [h]; exact Bool.false_ne_true)

theorem sequenceCheck_live {r : Runtime} (n : Half) (h : r.live = true) {d : Nat} (hd : (n - r.lastSequence).toNat = d) :
    sequenceCheck r n =
      if d = 0 then ⟨.repeated, 0, r⟩
      else if d = 1 then ⟨.inOrder, 0, { r with lastSequence := n }⟩
      else if d ≤ 32767 then ⟨.gap, d - 1, { r with lastSequence := n }⟩
      else ⟨.late, 0, r⟩ := by
  unfold sequenceCheck
  dsimp only
  rw [if_pos h, hd]

/-- The distance of two sequence numbers is taken modulo 65536 (R62). -/
theorem sub_toNat_of_ahead {n m : Half} {d : Nat} (small : d < 65536) (h : n.toNat = (m.toNat + d) % 65536) : (n - m).toNat = d := by
  bv_omega

theorem sequenceCheck_rows (r : Runtime) (n : Half) :
    (r.live = false → sequenceCheck r n = ⟨.inOrder, 0, { r with live := true, lastSequence := n }⟩) ∧
    (r.live = true → ∀ d : Nat, d < 65536 → n.toNat = (r.lastSequence.toNat + d) % 65536 →
      (d = 0 → sequenceCheck r n = ⟨.repeated, 0, r⟩) ∧
      (d = 1 → sequenceCheck r n = ⟨.inOrder, 0, { r with lastSequence := n }⟩) ∧
      (2 ≤ d → d ≤ 32767 → sequenceCheck r n = ⟨.gap, d - 1, { r with lastSequence := n }⟩) ∧
      (32768 ≤ d → sequenceCheck r n = ⟨.late, 0, r⟩)) := by
  refine ⟨sequenceCheck_first n, fun live d small ahead => ?_⟩
  rw [sequenceCheck_live n live (sub_toNat_of_ahead small ahead)]
  refine ⟨fun zero => if_pos zero, fun one => ?_, fun two near => ?_, fun far => ?_⟩
  · rw [if_neg (by omega), if_pos one]
  · rw [if_neg (by omega), if_neg (by omega), if_pos near]
  · rw [if_neg (by omega), if_neg (by omega), if_neg (by omega)]

theorem FaultSet.any_eq_false_iff (f : FaultSet) : f.any = false ↔ f = FaultSet.none := by
  obtain ⟨a, b, c, d, e, g⟩ := f
  simp [FaultSet.any, FaultSet.none, and_assoc]

theorem FaultSet.atMostMof_iff (f : FaultSet) : f.atMostMof = true ↔ f = FaultSet.none ∨ f = FaultSet.ofMof := by
  obtain ⟨a, b, c, d, e, g⟩ := f
  cases d <;> simp [FaultSet.atMostMof, FaultSet.none, FaultSet.ofMof, and_assoc]

/-! ### Output forming (R48, R67, R68) -/

/-- What the fix gives lies in the 24-bit limits (R48). -/
theorem fixToInteger_range (y : Word) (k : Int) : -8388608 ≤ (fixToInteger y k).value ∧ (fixToInteger y k).value ≤ 8388607 := by
  unfold fixToInteger
  dsimp only
  split
  · decide
  · split
    · split <;> decide
    · split <;> split <;> dsimp only <;> omega

theorem outputValue_integer (y : Word) (k : Int) :
    (outputValue (.integer k) y).value.toInt = (fixToInteger y k).value ∧
      (outputValue (.integer k) y).faults = (fixToInteger y k).faults := by
  obtain ⟨low, high⟩ := fixToInteger_range y k
  refine ⟨?_, rfl⟩
  show (BitVec.ofInt 32 (fixToInteger y k).value).toInt = _
  exact BitVec.toInt_ofInt_eq_self (by decide) (by omega) (by omega)

/-- ZEROED (R68). -/
theorem zeroedMark_iff (c : Converted) :
    zeroedMark c = true ↔
      c.zeroed = true ∨ (c.y = some 0 ∧ (c.faults.unf = true ∨ c.faults.dvz = true ∨ c.faults.noref = true)) := by
  unfold zeroedMark
  simp only [Bool.or_eq_true, Bool.and_eq_true, decide_eq_true_eq, or_assoc]
  rfl

theorem Decided.qualifies_iff (d : Decided) :
    d.qualifies = true ↔
      (d.mark = .inOrder ∨ d.mark = .gap) ∧ (d.quality.faults = FaultSet.none ∨ d.quality.faults = FaultSet.ofMof) := by
  unfold Decided.qualifies
  rw [Bool.and_eq_true, Bool.or_eq_true, decide_eq_true_eq, decide_eq_true_eq, FaultSet.atMostMof_iff]

theorem decideReading_faults_none {form : OutputForm} {q : Sequenced} {c : Converted} (h : c.y = none) :
    (decideReading form q c).quality.faults = c.faults := by
  unfold decideReading
  rw [h]
  exact FaultSet.union_none _

theorem decideReading_some {form : OutputForm} {q : Sequenced} {c : Converted} {y : Word} (h : c.y = some y) :
    (decideReading form q c).output = (outputValue form y).value ∧
      (decideReading form q c).quality.faults = c.faults.union (outputValue form y).faults := by
  unfold decideReading
  rw [h]
  exact ⟨rfl, rfl⟩

theorem decideReading_output {form : OutputForm} {q : Sequenced} {c : Converted} {y : Word} (h : c.y = some y) :
    (form = .float → (decideReading form q c).output = y ∧ (decideReading form q c).quality.faults = c.faults) ∧
      ∀ k, form = .integer k →
        (decideReading form q c).output.toInt = (fixToInteger y k).value ∧
          (decideReading form q c).quality.faults = c.faults.union (fixToInteger y k).faults := by
  obtain ⟨output, faults⟩ := decideReading_some (form := form) (q := q) h
  rw [output, faults]
  refine ⟨fun float => ?_, fun k integer => ?_⟩
  · subst float
    exact ⟨rfl, FaultSet.union_none _⟩
  · subst integer
    exact ⟨(outputValue_integer y k).1, rfl⟩

/-! ### The slot and the CONVERTED cell of an ended reading (R75) -/

theorem State.emitConverted_eq (s : State) (emit : Bool) (c : ConvertedCell) :
    s.emitConverted emit c =
      { s with forwardQueue := if emit then s.forwardQueue ++ [⟨.converted c, false⟩] else s.forwardQueue } := by
  cases emit <;> rfl

/-- A runtime written to the reading's slot, which is not pending. -/
theorem takenState_putRuntime {s : State} (cell : Cell) (rest : List Cell) {e : Entry} (h : (s.slot e.slot).pending = false)
    (r : Runtime) :
    (takenState s cell rest e).putRuntime e.slot r = (takenState s cell rest e).putSlot e.slot ⟨some r, false⟩ := by
  show (takenState s cell rest e).putSlot e.slot ⟨some r, (s.slot e.slot).pending⟩ = _
  rw [h]

theorem State.endReading_of_idle {s : State} (idle : s.engine = .idle) (t : State) : t.endReading = { t with engine := s.engine } := by
  rw [idle]
  rfl

theorem State.putSlot_putSlot (s : State) (i : SlotId) (x y : Slot) : (s.putSlot i x).putSlot i y = s.putSlot i y := by
  unfold State.putSlot
  dsimp only
  rw [Table.put_put]

/-- The state after a reading's end: its cell consumed, its slot written, its CONVERTED cell sent or absorbed, the Engine idle. -/
def passedState (s : State) (cell : Cell) (rest : List Cell) (e : Entry) (d : Decided) (r : Runtime) : State :=
  { s with
    ingressBuffer := rest
    slots := s.slots.put e.slot ⟨some r, false⟩
    forwardQueue := forwardAfter s cell e d }

theorem emitConverted_endReading {s : State} {cell : Cell} {rest : List Cell} {e : Entry} (d : Decided) (r : Runtime)
    (idle : s.engine = .idle) :
    (((takenState s cell rest e).putSlot e.slot ⟨some r, false⟩).emitConverted e.emit (convertedOf s cell e d)).endReading =
      passedState s cell rest e d r := by
  rw [State.emitConverted_eq, State.endReading_of_idle idle]
  rfl

section
variable {s : State} {cell : Cell} {rest : List Cell} {e : Entry} {r : Runtime} {d : Decided}

/-- A reading that is dropped (R72). -/
theorem takeReading_dropped (ready : ReadingReady s cell rest e r) (converts : ReadingConverts s cell e r d)
    (kept : (d.quality.faults.any && r.armed) = false) (noY : d.y = none) :
    exec .takeReading s = .next
      { s with
        ingressBuffer := rest
        slots := s.slots.put e.slot ⟨some { heard r cell d with dropCount := satInc r.dropCount }, false⟩ } := by
  obtain ⟨i, run⟩ := takeReading_ready ready converts
  rw [run]
  unfold finishReading
  dsimp only
  rw [heard_armed, kept, noY, heard_dropCount]
  show Host.Outcome.next (State.endReading (State.putRuntime _ _ _)) = _
  rw [takenState_putRuntime cell rest ready.slot.reconciled, State.endReading_of_idle ready.ready.engine]
  rfl

/-- A reading that does not qualify (R75). -/
theorem takeReading_passed (ready : ReadingReady s cell rest e r) (converts : ReadingConverts s cell e r d)
    (kept : (d.quality.faults.any && r.armed) = false) {y : Word} (hy : d.y = some y) (unqualified : d.qualifies = false) :
    exec .takeReading s = .next (passedState s cell rest e d (heard r cell d)) := by
  obtain ⟨i, run⟩ := takeReading_ready ready converts
  rw [run]
  unfold finishReading
  dsimp only
  rw [heard_armed, kept, hy, unqualified]
  show Host.Outcome.next (State.endReading (State.emitConverted (State.putRuntime _ _ _) _ _)) = _
  rw [takenState_putRuntime cell rest ready.slot.reconciled]
  exact congrArg Host.Outcome.next (emitConverted_endReading d _ ready.ready.engine)

/-- A qualifying reading is at its count step, its slot written (R73). -/
theorem takeReading_counts (ready : ReadingReady s cell rest e r) (converts : ReadingConverts s cell e r d)
    (kept : (d.quality.faults.any && r.armed) = false) {y : Word} (hy : d.y = some y) (qualified : d.qualifies = true) :
    exec .takeReading s =
      countStep ⟨cell, s.tables.generation, e, true, none, .prepare⟩ ⟨y, d.missed, convertedOf s cell e d⟩
        ((takenState s cell rest e).putSlot e.slot ⟨some (heard r cell d), false⟩) := by
  obtain ⟨i, run⟩ := takeReading_ready ready converts
  rw [run]
  unfold finishReading
  dsimp only
  rw [heard_armed, kept, hy, qualified]
  show countStep _ _ (State.putRuntime _ _ _) = _
  rw [takenState_putRuntime cell rest ready.slot.reconciled]
  rfl

end

/-- Settles O13: from the three ends of a reading that is not counted, and the rows of the sequence check and of the decision. -/
theorem readingEndsUncounted : Obligations.ReadingEndsUncounted := by
  refine ⟨fun s cell rest e r d ready converts kept => ⟨fun noY => takeReading_dropped ready converts kept noY,
    fun y hy unqualified => takeReading_passed ready converts kept hy unqualified⟩, sequenceCheck_rows, fun r cell d => rfl, ?_⟩
  rintro form q c d rfl
  exact ⟨rfl, rfl, rfl, rfl, rfl, rfl, rfl, zeroedMark_iff c, decideReading_faults_none, fun y hy => decideReading_output hy,
    Decided.qualifies_iff _⟩

/-! ### The count step (R73, R74, R96, R100) -/

/-- A COUNT window counts every reading (R99). -/
theorem Window.count_counted {w : Window} {length : Nat} (h : w.definition = .count length) (y : Word) (missed : Nat) :
    (w.count y missed).counted = w.counted + 1 := by
  unfold Window.count Window.atCapacity
  rw [h]
  rfl

theorem Window.completes_count {w : Window} {length : Nat} (h : w.definition = .count length) :
    w.completes = decide (length ≤ w.counted + 1) := by
  unfold Window.completes
  rw [h]

theorem Window.completes_eq_false {w : Window} (h : ∀ length, w.definition = .count length → w.counted + 1 < length) :
    w.completes = false := by
  cases hd : w.definition with
  | count length =>
    rw [Window.completes_count hd]
    exact decide_eq_false (Nat.not_le.2 (h length hd))
  | epoch span =>
    unfold Window.completes
    rw [hd]

section
variable {h : HeldReading} {c : CountStep} {s : State} {r : Runtime}

/-- A reading that completes no window ends with its count (R73, R74). -/
theorem countStep_counted (runtime : (s.slot h.entry.slot).runtime = some r) (short : ∀ w, r.window = some w → w.completes = false) :
    countStep h c s = .next
      ((s.putRuntime h.entry.slot
        { r with lastGood := some c.y, window := r.window.map fun w => w.count c.y c.missed }).emitConverted h.entry.emit
          c.cell).endReading := by
  unfold countStep
  rw [runtime]
  dsimp only
  unfold State.countReading
  cases hw : r.window with
  | none =>
    rfl
  | some w =>
    dsimp only
    rw [short w hw]
    rfl

variable {w : Window} {length : Nat}

/-- The closing of the window that the reading brings to its length (R73, R96). -/
theorem countReading_closes (window : r.window = some w) (definition : w.definition = .count length)
    (reached : length ≤ w.counted + 1) :
    s.countReading h.entry.slot r c.y c.missed =
      s.takeClosing h.entry.slot
        ⟨⟨some
            { r with
              lastGood := some c.y
              windowSequence := r.windowSequence + 1
              window := r.terms.window.map (Window.fresh s.epochCount) }, (s.slot h.entry.slot).pending⟩,
          some ((w.count c.y c.missed).summary .count s.epochCount r.terms.output r.windowSequence)⟩ := by
  unfold State.countReading
  rw [window]
  dsimp only
  rw [Window.completes_count definition, decide_eq_true reached]
  show State.closeSlotWindow _ _ _ _ = _
  unfold State.closeSlotWindow
  dsimp only
  rw [Runtime.closeAndReopen_counted (w := w.count c.y c.missed) .count s.epochCount rfl
    (by rw [Window.count_counted definition]; exact Nat.succ_ne_zero _)]

theorem countStep_closes (runtime : (s.slot h.entry.slot).runtime = some r) (window : r.window = some w)
    (definition : w.definition = .count length) (reached : length ≤ w.counted + 1) (room : s.summaryQueue.length < 64) :
    countStep h c s = .next
      (({ s.putSlot h.entry.slot
            ⟨some
              { r with
                lastGood := some c.y
                windowSequence := r.windowSequence + 1
                window := r.terms.window.map (Window.fresh s.epochCount) }, (s.slot h.entry.slot).pending⟩ with
          summaryQueue := s.summaryQueue ++
            [(w.count c.y c.missed).summary .count s.epochCount r.terms.output r.windowSequence] } : State).emitConverted h.entry.emit
        c.cell).endReading := by
  unfold countStep
  rw [runtime]
  dsimp only
  rw [countReading_closes window definition reached, State.takeClosing_room _ _ room]
  rfl

theorem countStep_waits (runtime : (s.slot h.entry.slot).runtime = some r) (window : r.window = some w)
    (definition : w.definition = .count length) (reached : length ≤ w.counted + 1) (full : 64 ≤ s.summaryQueue.length) :
    countStep h c s = .next { s with engine := .waiting { h with step := .count c } } := by
  unfold countStep
  rw [runtime]
  dsimp only
  rw [countReading_closes window definition reached, State.takeClosing_full _ (Option.some_ne_none _) full]

end

section
variable {s : State} {cell : Cell} {rest : List Cell} {e : Entry} {r : Runtime}

theorem slot_heard : ((takenState s cell rest e).putSlot e.slot ⟨some r, false⟩).slot e.slot = ⟨some r, false⟩ :=
  State.slot_putSlot_same _ _ _

theorem runtime_heard : (((takenState s cell rest e).putSlot e.slot ⟨some r, false⟩).slot e.slot).runtime = some r :=
  congrArg Slot.runtime slot_heard

end

/-- Settles O14: the count step with no window completed. -/
theorem readingCounted : Obligations.ReadingCounted := by
  intro s cell rest e r d y ready converts kept hy qualified short
  rw [takeReading_counts ready converts kept hy qualified,
    countStep_counted runtime_heard fun w hw => Window.completes_eq_false fun length => short w length hw]
  refine congrArg Host.Outcome.next ?_
  unfold State.putRuntime
  rw [slot_heard, State.putSlot_putSlot]
  exact emitConverted_endReading d _ ready.ready.engine

/-- Settles O15: the count step at a window that the reading completes. -/
theorem countClosure : Obligations.CountClosure := by
  intro s cell rest e r d y w length ready converts kept hy qualified window definition reached
  rw [takeReading_counts ready converts kept hy qualified]
  refine ⟨fun room => ?_, fun full => ?_⟩
  · rw [countStep_closes runtime_heard window definition reached room, slot_heard, State.putSlot_putSlot, State.emitConverted_eq,
      State.endReading_of_idle ready.ready.engine, ← heard_terms r cell d, ← heard_windowSequence r cell d]
    rfl
  · exact countStep_waits runtime_heard window definition reached full

/-- Settles O16: the count step again, from the waiting Engine. -/
theorem engineResumeClosesCount : Obligations.EngineResumeClosesCount := by
  intro s h c r w length waiting step runtime window definition reached
  have resume : exec .engineResume s = countStep h c { s with engine := .converting h } := by
    show execEngineResume s = _
    unfold execEngineResume
    rw [waiting]
    dsimp only
    unfold runReading
    rw [step]
  rw [resume]
  refine ⟨fun room => ?_, fun full => ?_⟩
  · rw [countStep_closes (s := { s with engine := .converting h }) runtime window definition reached room, State.emitConverted_eq]
    rfl
  · rw [countStep_waits (s := { s with engine := .converting h }) runtime window definition reached full]
    have same : ({ h with step := .count c } : HeldReading) = h := by rw [← step]
    rw [same, ← waiting]

/-! ### A diverted reading (R70, R71, R157) -/

section
variable {s : State} {cell : Cell} {rest : List Cell} {e : Entry} {r : Runtime} {d : Decided}

/-- The state of a diverted reading, its slot disarmed, with the notice still to be handed over. -/
def disarmedState (s : State) (cell : Cell) (rest : List Cell) (e : Entry) (r : Runtime) : State :=
  (takenState s cell rest e).putSlot e.slot ⟨some { r with armed := false }, false⟩

theorem takeReading_diverted (ready : ReadingReady s cell rest e r) (converts : ReadingConverts s cell e r d)
    (faulted : d.quality.faults.any = true) (armed : r.armed = true) :
    exec .takeReading s = .next
      (if s.noticeQueue.length < 32 ∨ d.y = none then
        ((disarmedState s cell rest e (heard r cell d)).handNotice (.diverted (readingChannel cell) (readingSequence cell)
          (readingRaw cell) e.slot s.tables.generation d.quality d.tag)).endReading
      else
        (((disarmedState s cell rest e (heard r cell d)).handNotice (.diverted (readingChannel cell) (readingSequence cell)
          (readingRaw cell) e.slot s.tables.generation d.quality d.tag)).emitConverted e.emit (convertedOf s cell e d)).endReading) := by
  obtain ⟨i, run⟩ := takeReading_ready ready converts
  rw [run]
  unfold finishReading
  rw [heard_armed, faulted, armed]
  show Host.Outcome.next (State.endReading (State.divertReading _ _ _ _)) = _
  unfold State.divertReading
  dsimp only
  rw [takenState_putRuntime cell rest ready.slot.reconciled]
  refine congrArg Host.Outcome.next ?_
  by_cases room : s.noticeQueue.length < 32
  · rw [if_pos (Or.inl room)]
    exact congrArg State.endReading (if_pos (decide_eq_true room))
  · have full : ((takenState s cell rest e).putSlot e.slot
        ⟨some { heard r cell d with armed := false }, false⟩).noticeFree = false := decide_eq_false room
    rw [full]
    cases hy : d.y with
    | none =>
      rw [if_pos (Or.inr rfl)]
      rfl
    | some y =>
      rw [if_neg fun h => Or.elim h room (Option.some_ne_none y)]
      rfl

/-- The end of a diverted reading whose notice the full Notice Queue does not take. -/
theorem takeReading_diverted_full (ready : ReadingReady s cell rest e r) (converts : ReadingConverts s cell e r d)
    (faulted : d.quality.faults.any = true) (armed : r.armed = true) (full : 32 ≤ s.noticeQueue.length) {sequence lost : Half}
    (handed : ∀ b, (disarmedState s cell rest e (heard r cell d)).handNotice b =
      { disarmedState s cell rest e (heard r cell d) with noticeSequence := sequence, noticeLost := lost }) :
    exec .takeReading s = .next
      { s with
        ingressBuffer := rest
        slots := s.slots.put e.slot ⟨some { heard r cell d with armed := false }, false⟩
        noticeSequence := sequence
        noticeLost := lost
        forwardQueue := if d.y = none then s.forwardQueue else forwardAfter s cell e d } := by
  rw [takeReading_diverted ready converts faulted armed, handed]
  refine congrArg Host.Outcome.next ?_
  by_cases noY : d.y = none
  · rw [if_pos (Or.inr noY), if_pos noY, State.endReading_of_idle ready.ready.engine]
    rfl
  · rw [if_neg fun h => h.elim (Nat.not_lt.2 full) noY, if_neg noY, State.endReading_of_idle ready.ready.engine,
      State.emitConverted_eq]
    rfl

end

/-- Settles O18: the three outcomes of handing the notice over. -/
theorem readingDiverted : Obligations.ReadingDiverted := by
  intro s cell rest e r d ready converts faulted armed
  refine ⟨fun room => ?_, fun full unsaturated => ?_, fun full saturated => ?_⟩
  · rw [takeReading_diverted ready converts faulted armed, if_pos (Or.inl room),
      State.handNotice_room (s := disarmedState s cell rest e (heard r cell d)) _ room,
      State.endReading_of_idle ready.ready.engine]
    rfl
  · exact takeReading_diverted_full ready converts faulted armed full fun b =>
      State.handNotice_lost (s := disarmedState s cell rest e (heard r cell d)) b full
        fun h => absurd ((half_eq_allOnes_iff _).1 h) (Nat.ne_of_lt unsaturated)
  · exact takeReading_diverted_full ready converts faulted armed full fun b =>
      State.handNotice_saturated (s := disarmedState s cell rest e (heard r cell d)) b full
        ((half_eq_allOnes_iff _).2 saturated)

end Sys2Proof.Machine
end

section
/-! PROOFS. What a reading and the cursors do not depend on: the Ingress Buffer, what the Engine held, the shadow bank and the shadow state
(R15, R34, R58 to R60, R126). -/

namespace Sys2Proof.Machine

/-- An outcome's next state changed; an end is kept. -/
def mapNext (f : State → State) : Host.Outcome State Fault Refusal → Host.Outcome State Fault Refusal
  | .next t => .next (f t)
  | .fault e => .fault e
  | .refused e => .refused e

/-- A state with its Ingress Buffer and its Table Store changed and another Engine: the fields that work on slots neither reads, but for the
active bank, nor writes. -/
def State.reframe (b : List Cell → List Cell) (g : TableStore → TableStore) (x : Engine) (s : State) : State :=
  { s with ingressBuffer := b s.ingressBuffer, tables := g s.tables, engine := x }

/-- The same for a state after a reading's step, which has set the Engine itself. -/
def State.recast (b : List Cell → List Cell) (g : TableStore → TableStore) (s : State) : State := s.reframe b g s.engine

section
variable {b : List Cell → List Cell} {g : TableStore → TableStore} {x : Engine}

theorem takeClosing_reframe (s : State) (i : SlotId) (c : Closed Slot) :
    (s.reframe b g x).takeClosing i c = (s.takeClosing i c).map (State.reframe b g x) := by
  unfold State.takeClosing
  cases c.summary with
  | none => rfl
  | some summary =>
    show (if s.summaryFree then _ else _) = Option.map _ (if s.summaryFree then _ else _)
    cases s.summaryFree <;> rfl

theorem closeSlotWindow_reframe (s : State) (i : SlotId) (r : Runtime) (k : ClosingCause) :
    (s.reframe b g x).closeSlotWindow i r k = (s.closeSlotWindow i r k).map (State.reframe b g x) :=
  takeClosing_reframe s i _

theorem closeDue_reframe (s : State) (i : SlotId) : (s.reframe b g x).closeDue i = (s.closeDue i).map (State.reframe b g x) := by
  have slot : (s.reframe b g x).slot i = s.slot i := rfl
  unfold State.closeDue
  rw [slot]
  cases (s.slot i).runtime with
  | none => rfl
  | some r =>
    dsimp only
    cases r.window with
    | none => rfl
    | some w =>
      show (if w.due s.epochCount then _ else _) = Option.map _ (if w.due s.epochCount then _ else _)
      cases w.due s.epochCount with
      | false => rfl
      | true => exact closeSlotWindow_reframe s i r .epoch

theorem reconcileSlot_reframe {s : State} (active : (g s.tables).activeBank = s.tables.activeBank) (i : SlotId) :
    (s.reframe b g x).reconcileSlot i = (s.reconcileSlot i).map (State.reframe b g x) := by
  have owner : (s.reframe b g x).ownerEntry i = s.ownerEntry i := by
    show findSlot (g s.tables).activeBank.directory i = _
    rw [active]
    rfl
  unfold State.reconcileSlot
  rw [owner]
  show (if (s.slot i).pending then _ else _) = Option.map _ (if (s.slot i).pending then _ else _)
  cases (s.slot i).pending with
  | false => rfl
  | true => exact takeClosing_reframe s i _

theorem handNotice_reframe (s : State) (n : NoticeBody) : (s.reframe b g x).handNotice n = (s.handNotice n).reframe b g x := by
  by_cases room : s.noticeQueue.length < 32
  · rw [State.handNotice_room (s := s.reframe b g x) n room, State.handNotice_room n room]
    rfl
  · by_cases saturated : s.noticeLost = BitVec.allOnes 16
    · rw [State.handNotice_saturated (s := s.reframe b g x) n (Nat.not_lt.1 room) saturated,
        State.handNotice_saturated n (Nat.not_lt.1 room) saturated]
    · rw [State.handNotice_lost (s := s.reframe b g x) n (Nat.not_lt.1 room) saturated,
        State.handNotice_lost n (Nat.not_lt.1 room) saturated]
      rfl

theorem emitConverted_reframe (s : State) (emit : Bool) (c : ConvertedCell) :
    (s.reframe b g x).emitConverted emit c = (s.emitConverted emit c).reframe b g x := by
  cases emit <;> rfl

/-- A reading's end leaves the Engine idle, whatever it held. -/
theorem endReading_reframe (s : State) : (s.reframe b g x).endReading = s.endReading.recast b g := rfl

theorem countReading_reframe (s : State) (i : SlotId) (r : Runtime) (y : Word) (missed : Nat) :
    (s.reframe b g x).countReading i r y missed = (s.countReading i r y missed).map (State.reframe b g x) := by
  unfold State.countReading
  cases r.window with
  | none => rfl
  | some w =>
    dsimp only
    cases w.completes with
    | false => rfl
    | true => exact closeSlotWindow_reframe s i _ .count

theorem countStep_reframe (h : HeldReading) (c : CountStep) (s : State) :
    countStep h c (s.reframe b g x) = mapNext (State.recast b g) (countStep h c s) := by
  have slot : (s.reframe b g x).slot h.entry.slot = s.slot h.entry.slot := rfl
  unfold countStep
  rw [slot]
  cases (s.slot h.entry.slot).runtime with
  | none => rfl
  | some r =>
    dsimp only
    rw [countReading_reframe]
    cases s.countReading h.entry.slot r c.y c.missed with
    | none => rfl
    | some t =>
      show Host.Outcome.next ((t.reframe b g x).emitConverted h.entry.emit c.cell).endReading = _
      rw [emitConverted_reframe]
      rfl

theorem divertReading_reframe (s : State) (h : HeldReading) (r : Runtime) (d : Decided) :
    (s.reframe b g x).divertReading h r d = (s.divertReading h r d).reframe b g x := by
  have put : (s.reframe b g x).putRuntime h.entry.slot { r with armed := false } =
      (s.putRuntime h.entry.slot { r with armed := false }).reframe b g x := rfl
  unfold State.divertReading
  dsimp only
  rw [put, handNotice_reframe]
  generalize s.putRuntime h.entry.slot { r with armed := false } = t
  show (if t.noticeFree then _ else _) = State.reframe b g x (if t.noticeFree then _ else _)
  cases t.noticeFree with
  | true => rfl
  | false =>
    cases d.y with
    | none => rfl
    | some y => exact emitConverted_reframe _ _ _

theorem finishReading_reframe (h : HeldReading) (r : Runtime) (d : Decided) (s : State) :
    finishReading h r d (s.reframe b g x) = mapNext (State.recast b g) (finishReading h r d s) := by
  unfold finishReading
  cases d.quality.faults.any && r.armed with
  | true =>
    show Host.Outcome.next ((s.reframe b g x).divertReading h r d).endReading = _
    rw [divertReading_reframe]
    rfl
  | false =>
    cases d.y with
    | none => rfl
    | some y =>
      cases d.qualifies with
      | true => exact countStep_reframe _ _ (s.putRuntime h.entry.slot r)
      | false =>
        show Host.Outcome.next (((s.putRuntime h.entry.slot r).reframe b g x).emitConverted h.entry.emit _).endReading = _
        rw [emitConverted_reframe]
        rfl

/-- A reading from its conversion on reads the pool of the active bank and nothing else of the Table Store (R15, R56). -/
theorem convertStep_reframe {s : State} (active : (g s.tables).activeBank = s.tables.activeBank) (h : HeldReading) :
    convertStep h (s.reframe b g x) = mapNext (State.recast b g) (convertStep h s) := by
  have slot : (s.reframe b g x).slot h.entry.slot = s.slot h.entry.slot := rfl
  have bank : (s.reframe b g x).tables.activeBank = s.tables.activeBank := active
  have reference : referenceValue (s.reframe b g x) h.referenceClaim = referenceValue s h.referenceClaim := by
    cases h.referenceClaim <;> rfl
  unfold convertStep
  rw [slot, bank, reference]
  cases (s.slot h.entry.slot).runtime with
  | none => rfl
  | some r =>
    dsimp only
    cases convertRaw s.tables.activeBank.pool h.entry (readingRaw h.cell)
        (sequenceCheck r (readingSequence h.cell)).runtime.lastGood (referenceValue s h.referenceClaim) with
    | error f => rfl
    | ok c => exact finishReading_reframe _ _ _ _

theorem catchUpStep_reframe {s : State} (active : (g s.tables).activeBank = s.tables.activeBank) (h : HeldReading) :
    catchUpStep h (s.reframe b g x) = mapNext (State.recast b g) (catchUpStep h s) := by
  unfold catchUpStep
  rw [closeDue_reframe]
  cases closed : s.closeDue h.entry.slot with
  | none => rfl
  | some t =>
    obtain ⟨y, q, touched⟩ := State.closeDue_shape closed
    exact convertStep_reframe (by rw [touched.eq]; exact active) h

theorem reconcileSlot_active {s t : State} {i : SlotId} (reconciled : s.reconcileSlot i = some t) : t.tables = s.tables := by
  obtain ⟨y, q, touched⟩ := State.reconcileSlot_shape reconciled
  rw [touched.eq]

theorem Conversion.ratio_of_isRatio {c : Conversion} (h : c.isRatio = true) : ∃ reference gain, c = .ratio reference gain := by
  cases c with
  | ratio reference gain => exact ⟨reference, gain, rfl⟩
  | _ => cases h

theorem referenceStep_missing {h : HeldReading} {s : State} {reference : ChannelId} {gain : Word}
    (conversion : h.entry.conversion = .ratio reference gain)
    (missing : findChannel s.tables.activeBank.directory reference = none) : referenceStep h s = .fault .referenceMissing := by
  unfold referenceStep
  rw [conversion]
  dsimp only
  rw [missing]

theorem referenceStep_ratio {h : HeldReading} {s : State} {reference : ChannelId} {gain : Word} {f : Entry}
    (conversion : h.entry.conversion = .ratio reference gain)
    (found : findChannel s.tables.activeBank.directory reference = some f) :
    referenceStep h s =
      if s.claimedByOther .engine f.slot then .next { s with engine := .waiting h }
      else
        match s.reconcileSlot f.slot with
        | none => .next { s with engine := .waiting { h with referenceClaim := some f.slot } }
        | some t => catchUpStep { h with referenceClaim := some f.slot } t := by
  unfold referenceStep
  rw [conversion]
  dsimp only
  rw [found] <;> rfl

theorem claimedByOther_reframe (s : State) (i : SlotId) : (s.reframe b g x).claimedByOther .engine i = s.claimedByOther .engine i :=
  claimedByOther_engine_congr i rfl rfl rfl

theorem referenceStep_reframe {s : State} (active : (g s.tables).activeBank = s.tables.activeBank) (h : HeldReading) :
    referenceStep h (s.reframe b g x) = mapNext (State.recast b g) (referenceStep h s) := by
  cases kind : h.entry.conversion.isRatio with
  | false => rw [referenceStep_plain kind, referenceStep_plain kind, catchUpStep_reframe active]
  | true =>
    obtain ⟨reference, gain, conversion⟩ := Conversion.ratio_of_isRatio kind
    have bank : (s.reframe b g x).tables.activeBank = s.tables.activeBank := active
    cases found : findChannel s.tables.activeBank.directory reference with
    | none =>
      rw [referenceStep_missing conversion found, referenceStep_missing conversion (bank ▸ found)]
      rfl
    | some f =>
      rw [referenceStep_ratio conversion found, referenceStep_ratio (s := s.reframe b g x) conversion (bank.symm ▸ found),
        claimedByOther_reframe, reconcileSlot_reframe active]
      cases s.claimedByOther .engine f.slot with
      | true => rfl
      | false =>
        cases reconciled : s.reconcileSlot f.slot with
        | none => rfl
        | some t => exact catchUpStep_reframe (by rw [reconcileSlot_active reconciled]; exact active) _

/-- A reading from its first step on: neither the Ingress Buffer, nor the Engine, nor the Table Store beside its active bank plays a part. -/
theorem prepareStep_reframe {s : State} (active : (g s.tables).activeBank = s.tables.activeBank) (h : HeldReading) :
    prepareStep h (s.reframe b g x) = mapNext (State.recast b g) (prepareStep h s) := by
  cases claimed : s.claimedByOther .engine h.entry.slot with
  | true =>
    rw [prepareStep_claimed claimed, prepareStep_claimed ((claimedByOther_reframe s _).trans claimed)]
    rfl
  | false =>
    rw [prepareStep_unclaimed claimed, prepareStep_unclaimed ((claimedByOther_reframe s _).trans claimed), reconcileSlot_reframe active]
    cases reconciled : s.reconcileSlot h.entry.slot with
    | none => rfl
    | some t => exact referenceStep_reframe (by rw [reconcileSlot_active reconciled]; exact active) _

end

/-! ### The steps of the cursors (R88, R92, R109, R110) -/

section
variable {s : State} {i : SlotId}

theorem reconciliationCursorStep_idle (idle : s.reconciliation.inFlight = false) : exec .reconciliationCursorStep s = .next s := by
  show execReconciliationCursorStep s = _
  unfold execReconciliationCursorStep
  rw [idle]
  rfl

theorem reconciliationCursorStep_claimed (flight : s.reconciliation.inFlight = true) (cursor : s.reconciliation.cursor = i)
    (claimed : s.claimedByOther .cursor i = true) : exec .reconciliationCursorStep s = .next s := by
  show execReconciliationCursorStep s = _
  unfold execReconciliationCursorStep
  dsimp only
  rw [cursor, flight, claimed]
  rfl

theorem reconciliationCursorStep_unclaimed (flight : s.reconciliation.inFlight = true) (cursor : s.reconciliation.cursor = i)
    (unclaimed : s.claimedByOther .cursor i = false) :
    exec .reconciliationCursorStep s =
      .next (match s.reconcileSlot i with
        | none => { s with reconciliation := { s.reconciliation with claim := true } }
        | some t => advanceReconciliation t i) := by
  show execReconciliationCursorStep s = _
  unfold execReconciliationCursorStep
  dsimp only
  rw [cursor, flight, unclaimed]
  cases s.reconcileSlot i <;> rfl

theorem epochSweepStep_idle (idle : s.sweep.inFlight = false) : exec .epochSweepStep s = .next s := by
  show execEpochSweepStep s = _
  unfold execEpochSweepStep
  rw [idle]
  rfl

theorem epochSweepStep_claimed (flight : s.sweep.inFlight = true) (cursor : s.sweep.cursor = i)
    (claimed : s.claimedByOther .sweep i = true) : exec .epochSweepStep s = .next s := by
  show execEpochSweepStep s = _
  unfold execEpochSweepStep
  dsimp only
  rw [cursor, flight, claimed]
  rfl

/-- The sweep at a slot once its reconciliation has been made: the closing of a due window, or the wait for it. -/
def sweepSlot (i : SlotId) (t : State) : State :=
  match t.closeDue i with
  | none => holdSweep t
  | some u => advanceSweep u i

theorem epochSweepStep_unclaimed (flight : s.sweep.inFlight = true) (cursor : s.sweep.cursor = i)
    (unclaimed : s.claimedByOther .sweep i = false) :
    exec .epochSweepStep s =
      .next (match s.reconcileSlot i with
        | none => holdSweep s
        | some t => sweepSlot i t) := by
  show execEpochSweepStep s = _
  unfold execEpochSweepStep
  dsimp only
  rw [cursor, flight, unclaimed]
  cases s.reconcileSlot i with
  | none => rfl
  | some t =>
    dsimp only [sweepSlot]
    cases t.closeDue i <;> rfl

end

/-! ### Shadow edits (R15, R34) -/

theorem beginReading_known {s : State} {cell : Cell} {e : Entry}
    (found : findChannel s.tables.activeBank.directory (readingChannel cell) = some e) :
    beginReading cell s = prepareStep (takenReading s cell e) { s with engine := .converting (takenReading s cell e) } := by
  unfold beginReading
  rw [found]
  rfl

theorem unknownReading_recast (g : TableStore → TableStore) (cell : Cell) (s : State) :
    unknownReading cell (s.recast id g) = (unknownReading cell s).recast id g := by
  unfold unknownReading
  show (match s.mode.unknownPolicy with | .forward => _ | .discard => _) = _
  cases s.mode.unknownPolicy <;> rfl

theorem slotWork_recast {s t : State} {g : TableStore → TableStore} {i : SlotId} {y : Slot} {q : Option Summary}
    (touched : SlotTouched s i y q t) : t.reframe id g s.engine = t.recast id g := by
  rw [touched.eq]
  rfl

section
variable {g : TableStore → TableStore} (active : ∀ t, (g t).activeBank = t.activeBank)
include active

theorem beginReading_recast (generation : ∀ t, (g t).generation = t.generation) (cell : Cell) (s : State) :
    beginReading cell (s.recast id g) = mapNext (State.recast id g) (beginReading cell s) := by
  have bank : (s.recast id g).tables.activeBank = s.tables.activeBank := active _
  cases found : findChannel s.tables.activeBank.directory (readingChannel cell) with
  | none =>
    rw [beginReading_unknown found, beginReading_unknown (s := s.recast id g) (bank.symm ▸ found), unknownReading_recast]
    rfl
  | some e =>
    have latched : takenReading (s.recast id g) cell e = takenReading s cell e := by
      show HeldReading.mk cell (g s.tables).generation e false none .prepare = _
      rw [generation]
      rfl
    rw [beginReading_known found, beginReading_known (s := s.recast id g) (bank.symm ▸ found), latched]
    exact prepareStep_reframe (b := id) (x := .converting (takenReading s cell e))
      (s := { s with engine := .converting (takenReading s cell e) }) (active _) _

theorem takeReading_recast (generation : ∀ t, (g t).generation = t.generation) (shadow : ∀ t, (g t).shadowState = t.shadowState)
    (s : State) : exec .takeReading (s.recast id g) = mapNext (State.recast id g) (exec .takeReading s) := by
  have may : mayTakeReading (s.recast id g) = mayTakeReading s := by
    show (decide _ && s.forwardFree && decide ((g s.tables).shadowState ≠ _)) = _
    rw [shadow]
    rfl
  have buffer : (s.recast id g).ingressBuffer = s.ingressBuffer := rfl
  show execTakeReading _ = mapNext _ (execTakeReading s)
  unfold execTakeReading
  rw [buffer, may]
  cases s.ingressBuffer with
  | nil => rfl
  | cons cell rest =>
    dsimp only
    by_cases taken : cellKind cell = kindReading ∧ mayTakeReading s = true
    · rw [if_pos taken, if_pos taken]
      exact beginReading_recast active generation cell { s with ingressBuffer := rest }
    · rw [if_neg taken, if_neg taken]
      rfl

theorem engineResume_recast (s : State) : exec .engineResume (s.recast id g) = mapNext (State.recast id g) (exec .engineResume s) := by
  have engine : (s.recast id g).engine = s.engine := rfl
  show execEngineResume _ = mapNext _ (execEngineResume s)
  unfold execEngineResume
  rw [engine]
  cases s.engine with
  | idle => rfl
  | converting h => rfl
  | waiting h =>
    dsimp only
    unfold runReading
    cases h.step with
    | prepare => exact prepareStep_reframe (b := id) (x := .converting h) (s := { s with engine := .converting h }) (active _) h
    | count c => exact countStep_reframe (b := id) (g := g) (x := .converting h) h c { s with engine := .converting h }

theorem reconciliationCursorStep_recast (s : State) :
    exec .reconciliationCursorStep (s.recast id g) = mapNext (State.recast id g) (exec .reconciliationCursorStep s) := by
  have claim : (s.recast id g).claimedByOther .cursor s.reconciliation.cursor = s.claimedByOther .cursor s.reconciliation.cursor :=
    claimedByOther_congr _ _ rfl rfl rfl rfl
  cases flight : s.reconciliation.inFlight with
  | false => rw [reconciliationCursorStep_idle flight, reconciliationCursorStep_idle (s := s.recast id g) flight]; rfl
  | true =>
    cases claimed : s.claimedByOther .cursor s.reconciliation.cursor with
    | true =>
      rw [reconciliationCursorStep_claimed flight rfl claimed,
        reconciliationCursorStep_claimed (s := s.recast id g) flight rfl (claim.trans claimed)]
      rfl
    | false =>
      rw [reconciliationCursorStep_unclaimed flight rfl claimed,
        reconciliationCursorStep_unclaimed (s := s.recast id g) flight rfl (claim.trans claimed)]
      have moved : (s.recast id g).reconcileSlot s.reconciliation.cursor =
          (s.reconcileSlot s.reconciliation.cursor).map (State.reframe id g s.engine) := reconcileSlot_reframe (active _) _
      refine congrArg Host.Outcome.next ?_
      show (match (s.recast id g).reconcileSlot s.reconciliation.cursor with
        | none => _
        | some t => advanceReconciliation t s.reconciliation.cursor) = _
      rw [moved]
      cases reconciled : s.reconcileSlot s.reconciliation.cursor with
      | none => rfl
      | some t =>
        obtain ⟨y, q, touched⟩ := State.reconcileSlot_shape reconciled
        dsimp only [Option.map]
        rw [slotWork_recast touched]
        unfold advanceReconciliation
        cases nextSlot s.reconciliation.cursor <;> rfl

omit active in
theorem sweepSlot_recast (i : SlotId) (t : State) : sweepSlot i (t.recast id g) = (sweepSlot i t).recast id g := by
  unfold sweepSlot State.recast
  rw [closeDue_reframe]
  cases closed : t.closeDue i with
  | none => rfl
  | some u =>
    obtain ⟨z, p, closing⟩ := State.closeDue_shape closed
    dsimp only [Option.map]
    rw [slotWork_recast closing]
    unfold advanceSweep
    cases nextSlot i <;> rfl

theorem epochSweepStep_recast (s : State) :
    exec .epochSweepStep (s.recast id g) = mapNext (State.recast id g) (exec .epochSweepStep s) := by
  have claim : (s.recast id g).claimedByOther .sweep s.sweep.cursor = s.claimedByOther .sweep s.sweep.cursor :=
    claimedByOther_congr _ _ rfl rfl rfl rfl
  cases flight : s.sweep.inFlight with
  | false => rw [epochSweepStep_idle flight, epochSweepStep_idle (s := s.recast id g) flight]; rfl
  | true =>
    cases claimed : s.claimedByOther .sweep s.sweep.cursor with
    | true =>
      rw [epochSweepStep_claimed flight rfl claimed, epochSweepStep_claimed (s := s.recast id g) flight rfl (claim.trans claimed)]
      rfl
    | false =>
      rw [epochSweepStep_unclaimed flight rfl claimed, epochSweepStep_unclaimed (s := s.recast id g) flight rfl (claim.trans claimed)]
      have moved : (s.recast id g).reconcileSlot s.sweep.cursor =
          (s.reconcileSlot s.sweep.cursor).map (State.reframe id g s.engine) := reconcileSlot_reframe (active _) _
      refine congrArg Host.Outcome.next ?_
      show (match (s.recast id g).reconcileSlot s.sweep.cursor with
        | none => _
        | some t => sweepSlot s.sweep.cursor t) = _
      rw [moved]
      cases reconciled : s.reconcileSlot s.sweep.cursor with
      | none => rfl
      | some t =>
        obtain ⟨y, q, touched⟩ := State.reconcileSlot_shape reconciled
        dsimp only [Option.map]
        rw [slotWork_recast touched]
        exact sweepSlot_recast _ _

end

theorem takeEpoch_recast {g : TableStore → TableStore} (s : State) :
    exec .takeEpoch (s.recast id g) = mapNext (State.recast id g) (exec .takeEpoch s) := by
  have buffer : (s.recast id g).ingressBuffer = s.ingressBuffer := rfl
  have may : mayForward (s.recast id g) = mayForward s := rfl
  show execTakeEpoch _ = mapNext _ (execTakeEpoch s)
  unfold execTakeEpoch
  rw [buffer, may]
  cases s.ingressBuffer with
  | nil => rfl
  | cons cell rest =>
    dsimp only
    by_cases taken : cellKind cell = kindEpoch ∧ mayForward s = true
    · rw [if_pos taken, if_pos taken]
      rfl
    · rw [if_neg taken, if_neg taken]
      rfl

/-- Settles O60: an edit changes the Table Store beside its active bank, its generation and its shadow state. -/
theorem shadowEditsInvisible : Obligations.ShadowEditsInvisible := by
  refine ⟨fun s b c mem => ?_, fun t b x => ⟨?_, ?_, fun s => rfl, ?_, ?_⟩⟩
  · have recast : exec c (s.recast id (·.putShadow b)) = mapNext (State.recast id (·.putShadow b)) (exec c s) := by
      have active (t : TableStore) : (t.putShadow b).activeBank = t.activeBank := t.putShadow_activeBank b
      simp only [List.mem_cons, List.not_mem_nil, or_false] at mem
      rcases mem with rfl | rfl | rfl | rfl | rfl
      · exact takeReading_recast active (fun t => t.putShadow_generation b) (fun t => t.putShadow_shadowState b) s
      · exact engineResume_recast active s
      · exact reconciliationCursorStep_recast active s
      · exact epochSweepStep_recast active s
      · exact takeEpoch_recast s
    refine Eq.trans recast ?_
    cases exec c s <;> rfl
  · intro role
    unfold TableStore.activeBank TableStore.shadowBank TableStore.putShadow
    rw [role]
    exact ⟨rfl, rfl, rfl⟩
  · intro role
    unfold TableStore.activeBank TableStore.shadowBank TableStore.putShadow
    rw [role]
    exact ⟨rfl, rfl, rfl⟩
  · cases x with
    | mirroring cause => exact ⟨fun _ => ⟨cause, rfl⟩, fun _ => rfl⟩
    | _ => exact ⟨fun h => (by cases h), fun ⟨_, h⟩ => (by cases h)⟩
  · cases x with
    | walking => exact ⟨fun _ => .inl rfl, fun _ => rfl⟩
    | swapPending => exact ⟨fun _ => .inr rfl, fun _ => rfl⟩
    | _ => exact ⟨fun h => (by cases h), fun h => (by rcases h with h | h <;> cases h)⟩

end Sys2Proof.Machine
end

section
/-! PROOFS. Reconciliation of a slot and the closing of a due window, row by row, and the cursors at their slots (R83, R88, R90 to R93, R100, R105,
R107, R109, R110). -/

namespace Sys2Proof.Machine

/-! ### A continuing and a changed owner (R90, R91) -/

theorem Runtime.continueUnder_same {r : Runtime} {e : Entry} (epoch : Word) (same : e.window = r.terms.window) :
    r.continueUnder e epoch =
      ⟨{ r with
          terms := e.terms
          armed := if e.divertPermitted = r.terms.divertPermitted then r.armed else e.divertPermitted }, none⟩ := by
  unfold Runtime.continueUnder
  dsimp only
  rw [if_pos same.symm]
  simp only [eq_comm]

theorem Runtime.continueUnder_counted {r : Runtime} {e : Entry} {w : Window} (epoch : Word) (differs : e.window ≠ r.terms.window)
    (window : r.window = some w) (counted : w.counted ≠ 0) :
    r.continueUnder e epoch =
      ⟨{ r with
          terms := e.terms
          armed := if e.divertPermitted = r.terms.divertPermitted then r.armed else e.divertPermitted
          windowSequence := r.windowSequence + 1
          window := e.window.map (Window.fresh epoch) },
        some (w.summary .truncated epoch r.terms.output r.windowSequence)⟩ := by
  unfold Runtime.continueUnder
  dsimp only
  rw [if_neg (Ne.symm differs), Runtime.close_counted .truncated epoch window counted]
  simp only [eq_comm]
  rfl

theorem Runtime.continueUnder_empty {r : Runtime} {e : Entry} (epoch : Word) (differs : e.window ≠ r.terms.window)
    (empty : ∀ w, r.window = some w → w.counted = 0) :
    r.continueUnder e epoch =
      ⟨{ r with
          terms := e.terms
          armed := if e.divertPermitted = r.terms.divertPermitted then r.armed else e.divertPermitted
          window := e.window.map (Window.fresh epoch) }, none⟩ := by
  unfold Runtime.continueUnder
  dsimp only
  rw [if_neg (Ne.symm differs), Runtime.close_empty .truncated epoch empty]
  simp only [eq_comm]
  rfl

section
variable {x : Slot} {r : Runtime} {e : Option Entry} {f : Entry}

theorem Slot.reconcile_unowned (epoch : Word) (runtime : x.runtime = none) : x.reconcile e epoch = ⟨Slot.reset e epoch, none⟩ := by
  unfold Slot.reconcile
  rw [runtime]

theorem Slot.reconcile_continues (epoch : Word) (runtime : x.runtime = some r) (owner : f.input = r.owner) :
    x.reconcile (some f) epoch = ⟨⟨some (r.continueUnder f epoch).value, false⟩, (r.continueUnder f epoch).summary⟩ := by
  unfold Slot.reconcile
  rw [runtime]
  exact if_pos owner.symm

theorem Slot.reconcile_changes (epoch : Word) (runtime : x.runtime = some r) (changed : ∀ f, e = some f → f.input ≠ r.owner) :
    x.reconcile e epoch = ⟨Slot.reset e epoch, (r.close .truncated epoch).summary⟩ := by
  unfold Slot.reconcile
  rw [runtime]
  cases e with
  | none => rfl
  | some f => exact if_neg (Ne.symm (changed f rfl))

end

/-! ### Closings that take effect (R105) -/

theorem State.reconcileSlot_of_pending {s : State} {i : SlotId} (pending : (s.slot i).pending = true) :
    s.reconcileSlot i = s.takeClosing i ((s.slot i).reconcile (s.ownerEntry i) s.epochCount) := by
  unfold State.reconcileSlot
  exact if_pos pending

/-- What a closing with the summary `q` gives: it takes effect with a free place, and waits without one. -/
theorem State.takeClosing_summary (s : State) (i : SlotId) (x : Slot) (q : Summary) :
    (s.summaryQueue.length < 64 →
      s.takeClosing i ⟨x, some q⟩ = some { s with slots := s.slots.put i x, summaryQueue := s.summaryQueue ++ [q] }) ∧
    (64 ≤ s.summaryQueue.length → s.takeClosing i ⟨x, some q⟩ = none) :=
  ⟨fun room => State.takeClosing_room i _ room, fun full => State.takeClosing_full i (Option.some_ne_none _) full⟩

/-- The reconciliation of one slot, every row of R90 and R91. -/
theorem reconcileSays (s : State) (i : SlotId) : ReconcileSays s i (s.reconcileSlot i) := by
  refine ⟨State.reconcileSlot_of_not_pending, fun pending => ?_⟩
  rw [State.reconcileSlot_of_pending pending]
  refine ⟨fun runtime => ?_, fun r runtime => ⟨fun e owner continues armed ha => ?_, fun changed => ?_⟩⟩
  · rw [Slot.reconcile_unowned s.epochCount runtime]
    exact State.takeClosing_silent i rfl
  · subst ha
    rw [owner, Slot.reconcile_continues s.epochCount runtime continues]
    refine ⟨fun same => ?_, fun differs => ⟨fun w window counted => ?_, fun empty => ?_⟩⟩
    · rw [Runtime.continueUnder_same s.epochCount same]
      exact State.takeClosing_silent i rfl
    · rw [Runtime.continueUnder_counted s.epochCount differs window counted]
      exact State.takeClosing_summary s i _ _
    · rw [Runtime.continueUnder_empty s.epochCount differs empty]
      exact State.takeClosing_silent i rfl
  · rw [Slot.reconcile_changes s.epochCount runtime changed]
    refine ⟨fun w window counted => ?_, fun empty => ?_⟩
    · rw [Runtime.close_counted .truncated s.epochCount window counted]
      exact State.takeClosing_summary s i _ _
    · rw [Runtime.close_empty .truncated s.epochCount empty]
      exact State.takeClosing_silent i rfl

/-! ### The closing of a due window (R100, R107) -/

theorem Window.due_iff (w : Window) (epoch : Word) :
    w.due epoch = true ↔ ∃ span, w.definition = .epoch span ∧ span ≤ (epoch - w.openedAt).toNat := by
  unfold Window.due
  cases w.definition with
  | count length => simp
  | epoch span => simp

theorem Window.due_eq_false {w : Window} {epoch : Word} (h : ∀ span, w.definition = .epoch span → (epoch - w.openedAt).toNat < span) :
    w.due epoch = false := by
  rw [← Bool.not_eq_true, Window.due_iff]
  rintro ⟨span, definition, reached⟩
  have := h span definition
  omega

theorem State.closeDue_of_due {s : State} {i : SlotId} {r : Runtime} {w : Window} (runtime : (s.slot i).runtime = some r)
    (window : r.window = some w) (due : w.due s.epochCount = true) : s.closeDue i = s.closeSlotWindow i r .epoch := by
  unfold State.closeDue
  rw [runtime]
  dsimp only
  rw [window]
  exact if_pos due

theorem State.closeDue_unowned {s : State} {i : SlotId} (unowned : (s.slot i).runtime = none) : s.closeDue i = some s := by
  unfold State.closeDue
  rw [unowned]

/-- The closing of a slot's window where it is due (R107). -/
theorem closeDueSays (s : State) (i : SlotId) : CloseDueSays s i (s.closeDue i) := by
  refine ⟨fun notDue => ?_, fun r w span runtime window definition reached => ?_⟩
  · cases runtime : (s.slot i).runtime with
    | none => exact State.closeDue_unowned runtime
    | some r =>
      exact State.closeDue_of_not_due runtime fun w window => Window.due_eq_false fun span => notDue r w span runtime window
  · rw [State.closeDue_of_due runtime window ((Window.due_iff _ _).2 ⟨span, definition, reached⟩)]
    unfold State.closeSlotWindow
    dsimp only
    refine ⟨fun empty => ?_, ?_⟩
    · rw [Runtime.closeAndReopen_empty .epoch s.epochCount window empty]
      exact State.takeClosing_silent i rfl
    · rw [← forall_and]
      intro counted
      rw [Runtime.closeAndReopen_counted .epoch s.epochCount window counted]
      exact State.takeClosing_summary s i _ _

/-! ### The cursors at their slots (R92, R109, R110) -/

theorem advanceReconciliation_eq {s : State} {i : SlotId} (cursor : s.reconciliation.cursor = i) (t : State) :
    advanceReconciliation t i = { t with reconciliation := cursorMoved s } := by
  subst cursor
  unfold advanceReconciliation nextSlot cursorMoved
  by_cases last : s.reconciliation.cursor.val + 1 < 512
  · rw [dif_pos last, dif_pos last]
  · rw [dif_neg last, dif_neg last]
    rfl

theorem advanceSweep_eq {s : State} {i : SlotId} (cursor : s.sweep.cursor = i) {t : State} (rescan : t.sweep.rescan = s.sweep.rescan) :
    advanceSweep t i = { t with sweep := sweepMoved s } := by
  subst cursor
  unfold advanceSweep nextSlot sweepMoved
  rw [← rescan]
  by_cases last : s.sweep.cursor.val + 1 < 512
  · rw [dif_pos last, dif_pos last]
  · rw [dif_neg last, dif_neg last]
    rfl

section
variable {s : State} {i : SlotId}

/-- The cursor's step where the reconciliation of its slot gives `t`. -/
theorem reconciliationCursorStep_moves (flight : s.reconciliation.inFlight = true) (cursor : s.reconciliation.cursor = i)
    (unclaimed : s.claimedByOther .cursor i = false) {t : State} (reconciled : s.reconcileSlot i = some t) :
    exec .reconciliationCursorStep s = .next { t with reconciliation := cursorMoved s } := by
  rw [reconciliationCursorStep_unclaimed flight cursor unclaimed, reconciled]
  exact congrArg Host.Outcome.next (advanceReconciliation_eq cursor t)

theorem reconciliationCursorStep_waits (flight : s.reconciliation.inFlight = true) (cursor : s.reconciliation.cursor = i)
    (unclaimed : s.claimedByOther .cursor i = false) (waits : s.reconcileSlot i = none) :
    exec .reconciliationCursorStep s = .next { s with reconciliation := { s.reconciliation with claim := true } } := by
  rw [reconciliationCursorStep_unclaimed flight cursor unclaimed, waits]

end

theorem ownerEntry_facts (s : State) (i : SlotId) :
    (s.ownerEntry i = none ↔ ∀ e ∈ s.tables.activeBank.directory, e.slot ≠ i) ∧
      ∀ e, s.ownerEntry i = some e → e ∈ s.tables.activeBank.directory ∧ e.slot = i := by
  unfold State.ownerEntry findSlot
  refine ⟨?_, fun e found => ⟨List.mem_of_find?_eq_some found, ?_⟩⟩
  · simp
  · simpa using List.find?_some found

/-- Settles O49: the rows of the reconciliation carried over to the cursor's step. -/
theorem reconciliationCursorStep : Obligations.ReconciliationCursorStep := by
  refine ⟨⟨fun s idle => reconciliationCursorStep_idle idle, fun s i flight cursor =>
    ⟨fun claimed => reconciliationCursorStep_claimed flight cursor claimed, fun unclaimed => ?_⟩⟩,
    fun _ _ => rfl, fun _ => rfl, fun _ _ => rfl, ownerEntry_facts⟩
  obtain ⟨ready, rows⟩ := reconcileSays s i
  have moves {t : State} (h : s.reconcileSlot i = some t) := reconciliationCursorStep_moves flight cursor unclaimed h
  have waits (h : s.reconcileSlot i = none) := reconciliationCursorStep_waits flight cursor unclaimed h
  refine ⟨fun reconciled => moves (ready reconciled), fun pending => ?_⟩
  obtain ⟨unowned, owned⟩ := rows pending
  refine ⟨fun runtime => moves (unowned runtime), fun r runtime => ?_⟩
  obtain ⟨continuing, changed⟩ := owned r runtime
  refine ⟨fun e owner continues same => moves ((continuing e owner continues _ rfl).1 same),
    fun e owner continues differs => ?_, fun other => ?_⟩
  · obtain ⟨counted, empty⟩ := (continuing e owner continues _ rfl).2 differs
    exact ⟨fun w window nonzero room => moves ((counted w window nonzero).1 room),
      fun w window nonzero full => waits ((counted w window nonzero).2 full), fun zero => moves (empty zero)⟩
  · obtain ⟨counted, empty⟩ := changed other
    exact ⟨fun w window nonzero room => moves ((counted w window nonzero).1 room),
      fun w window nonzero full => waits ((counted w window nonzero).2 full), fun zero => moves (empty zero)⟩

section
variable {s : State} {i : SlotId}

theorem epochSweepStep_moves (flight : s.sweep.inFlight = true) (cursor : s.sweep.cursor = i)
    (unclaimed : s.claimedByOther .sweep i = false) (reconciled : (s.slot i).pending = false) {t : State}
    (closed : s.closeDue i = some t) : exec .epochSweepStep s = .next { t with sweep := sweepMoved s } := by
  rw [epochSweepStep_unclaimed flight cursor unclaimed, State.reconcileSlot_of_not_pending reconciled]
  refine congrArg Host.Outcome.next ?_
  dsimp only [sweepSlot]
  rw [closed]
  obtain ⟨x, q, touched⟩ := State.closeDue_shape closed
  exact advanceSweep_eq cursor (by rw [touched.eq])

theorem epochSweepStep_waits (flight : s.sweep.inFlight = true) (cursor : s.sweep.cursor = i)
    (unclaimed : s.claimedByOther .sweep i = false) (reconciled : (s.slot i).pending = false) (waits : s.closeDue i = none) :
    exec .epochSweepStep s = .next { s with sweep := { s.sweep with claim := true } } := by
  rw [epochSweepStep_unclaimed flight cursor unclaimed, State.reconcileSlot_of_not_pending reconciled]
  dsimp only [sweepSlot]
  rw [waits]
  rfl

/-- A slot once reconciled, the sweep finds it so. -/
theorem epochSweepStep_reconciled (flight : s.sweep.inFlight = true) (cursor : s.sweep.cursor = i)
    (unclaimed : s.claimedByOther .sweep i = false) {t : State} (reconciled : s.reconcileSlot i = some t) :
    exec .epochSweepStep s = exec .epochSweepStep t := by
  have done := State.reconcileSlot_pending reconciled
  rw [epochSweepStep_unclaimed flight cursor unclaimed, reconciled]
  obtain ⟨x, q, touched⟩ := State.reconcileSlot_shape reconciled
  have claims : t.claimedByOther .sweep i = s.claimedByOther .sweep i := by
    rw [touched.eq]
    exact claimedByOther_congr _ _ rfl rfl rfl rfl
  have sweep : t.sweep = s.sweep := by rw [touched.eq]
  rw [epochSweepStep_unclaimed (s := t) (by rw [sweep, flight]) (by rw [sweep, cursor]) (claims.trans unclaimed),
    State.reconcileSlot_of_not_pending done]

end

/-- Settles O50: the reconciliation first, then the rows of the closing of a due window. -/
theorem epochSweepStep : Obligations.EpochSweepStep := by
  refine ⟨fun s i flight cursor => ⟨fun claimed => epochSweepStep_claimed flight cursor claimed, fun unclaimed => ?_⟩, Window.due_iff⟩
  refine ⟨fun waits => ?_, fun t _ reconciled => epochSweepStep_reconciled flight cursor unclaimed reconciled, fun ready => ?_⟩
  · rw [epochSweepStep_unclaimed flight cursor unclaimed, waits]
    rfl
  have moves {t : State} (h : s.closeDue i = some t) := epochSweepStep_moves flight cursor unclaimed ready h
  have waits (h : s.closeDue i = none) := epochSweepStep_waits flight cursor unclaimed ready h
  refine ⟨fun notDue => ?_, fun r w span runtime window definition reached => ?_⟩
  · cases runtime : (s.slot i).runtime with
    | none => exact moves (State.closeDue_unowned runtime)
    | some r => exact moves (State.closeDue_of_not_due runtime fun w window => notDue r w runtime window)
  · obtain ⟨empty, room, full⟩ := (closeDueSays s i).2 r w span runtime window definition reached
    rw [ready] at empty room
    exact ⟨fun zero => moves (empty zero), fun nonzero place => moves (room nonzero place), fun nonzero noRoom => waits (full nonzero noRoom)⟩

end Sys2Proof.Machine
end

section
/-! PROOFS. The slot preparation of a reading: its waits, what it makes ready, and the waiting Engine's resumption (R58 to R60, R88, R93, R126). -/

namespace Sys2Proof.Machine

/-! ### The preparation of a reading, step by step (R58, R59) -/

section
variable {s t : State} {h : HeldReading} {f : Entry} {reference : ChannelId} {gain : Word}

theorem SlotTouched.claimed {i : SlotId} {x : Slot} {q : Option Summary} (touched : SlotTouched s i x q t) (j : SlotId) :
    t.claimedByOther .engine j = s.claimedByOther .engine j := by
  rw [touched.eq]
  exact claimedByOther_engine_congr j rfl rfl rfl

theorem prepareStep_own_waits (own : s.claimedByOther .engine h.entry.slot = false) (waits : s.reconcileSlot h.entry.slot = none) :
    prepareStep h s = .next { s with engine := .waiting { h with ownClaim := true } } := by
  rw [prepareStep_unclaimed own, waits]

theorem prepareStep_own_reconciled (own : s.claimedByOther .engine h.entry.slot = false)
    (reconciled : s.reconcileSlot h.entry.slot = some t) : prepareStep h s = prepareStep h t := by
  obtain ⟨x, q, touched⟩ := State.reconcileSlot_shape reconciled
  rw [prepareStep_unclaimed own, prepareStep_unclaimed (s := t) ((touched.claimed _).trans own), reconciled,
    State.reconcileSlot_of_not_pending (State.reconcileSlot_pending reconciled)]

theorem prepareStep_own_ready (own : s.claimedByOther .engine h.entry.slot = false) (ready : (s.slot h.entry.slot).pending = false) :
    prepareStep h s = referenceStep { h with ownClaim := true } s := by
  rw [prepareStep_unclaimed own, State.reconcileSlot_of_not_pending ready]

theorem referenceStep_claimed (conversion : h.entry.conversion = .ratio reference gain)
    (found : findChannel s.tables.activeBank.directory reference = some f) (claimed : s.claimedByOther .engine f.slot = true) :
    referenceStep h s = .next { s with engine := .waiting h } := by
  rw [referenceStep_ratio conversion found, if_pos claimed]

theorem referenceStep_unclaimed (conversion : h.entry.conversion = .ratio reference gain)
    (found : findChannel s.tables.activeBank.directory reference = some f) (unclaimed : s.claimedByOther .engine f.slot = false) :
    referenceStep h s =
      match s.reconcileSlot f.slot with
      | none => .next { s with engine := .waiting { h with referenceClaim := some f.slot } }
      | some t => catchUpStep { h with referenceClaim := some f.slot } t := by
  rw [referenceStep_ratio conversion found]
  exact if_neg (by rw [unclaimed]; exact Bool.false_ne_true)

theorem referenceStep_ready (conversion : h.entry.conversion = .ratio reference gain)
    (found : findChannel s.tables.activeBank.directory reference = some f) (slot : SlotReady s .engine f.slot) :
    referenceStep h s = catchUpStep { h with referenceClaim := some f.slot } s := by
  rw [referenceStep_unclaimed conversion found slot.unclaimed, State.reconcileSlot_of_not_pending slot.reconciled]

theorem catchUpStep_waits (due : s.closeDue h.entry.slot = none) : catchUpStep h s = .next { s with engine := .waiting h } := by
  unfold catchUpStep
  rw [due]

theorem catchUpStep_closed (closed : s.closeDue h.entry.slot = some t) : catchUpStep h s = convertStep h t := by
  unfold catchUpStep
  rw [closed]

/-! ### What has been made ready stays ready -/

/-- The preparation touches one slot at a time, and leaves a slot that is not pending so. -/
theorem SlotTouched.reconciled {i j : SlotId} {x : Slot} {q : Option Summary} (touched : SlotTouched s i x q t)
    (written : x.pending = false) (ready : (s.slot j).pending = false) : (t.slot j).pending = false := by
  by_cases same : j = i
  · rw [same, touched.slot_same]
    exact written
  · rw [touched.slot_other same]
    exact ready

theorem reconcileSlot_keeps_ready {i j : SlotId} (reconciled : s.reconcileSlot i = some t) (ready : (s.slot j).pending = false) :
    (t.slot j).pending = false := by
  obtain ⟨x, q, touched⟩ := State.reconcileSlot_shape reconciled
  refine touched.reconciled ?_ ready
  rw [← touched.slot_same]
  exact State.reconcileSlot_pending reconciled

theorem prepareStep_reference_reconciled (own : SlotReady s .engine h.entry.slot)
    (conversion : h.entry.conversion = .ratio reference gain)
    (found : findChannel s.tables.activeBank.directory reference = some f) (unclaimed : s.claimedByOther .engine f.slot = false)
    (reconciled : s.reconcileSlot f.slot = some t) : prepareStep h s = prepareStep h t := by
  obtain ⟨x, q, touched⟩ := State.reconcileSlot_shape reconciled
  have bank : findChannel t.tables.activeBank.directory reference = some f := by rw [reconcileSlot_active reconciled, found]
  rw [prepareStep_own_ready own.unclaimed own.reconciled,
    prepareStep_own_ready (s := t) ((touched.claimed _).trans own.unclaimed) (reconcileSlot_keeps_ready reconciled own.reconciled),
    referenceStep_unclaimed (h := { h with ownClaim := true }) conversion found unclaimed, reconciled,
    referenceStep_ready (h := { h with ownClaim := true }) conversion bank
      ⟨(touched.claimed _).trans unclaimed, State.reconcileSlot_pending reconciled⟩]

/-- A window opened at the present epoch is not due: the span of a definition is at least 1 (R95, R107). -/
theorem Window.fresh_not_due {d : WindowDef} (epoch : Word) (positive : ∀ span, d = .epoch span → 1 ≤ span) :
    (Window.fresh epoch d).due epoch = false := by
  refine Window.due_eq_false fun span definition => ?_
  have elapsed : (epoch - (Window.fresh epoch d).openedAt).toNat = 0 := by
    show (epoch - epoch).toNat = 0
    rw [BitVec.sub_self]
    rfl
  have := positive span definition
  omega

theorem Window.wf_span {w : Window} {span : Nat} (wf : w.wf) (definition : w.definition = .epoch span) : 1 ≤ span := by
  obtain ⟨range, -⟩ := wf
  rw [definition] at range
  exact range.1

theorem closeDue_closed {i : SlotId} (windows : WindowsWellFormed s) (closed : s.closeDue i = some t) : t.closeDue i = some t := by
  rcases State.closeDue_touched closed with same | ⟨r, w, runtime, window, -, touched⟩
  · rw [same] at closed ⊢
    exact closed
  · obtain ⟨terms, wf⟩ := windows i r runtime
    have written : (t.slot i).runtime = some (r.closeAndReopen .epoch s.epochCount).value := by rw [touched.slot_same]
    have epoch : t.epochCount = s.epochCount := by rw [touched.eq]
    refine State.closeDue_of_not_due written fun v hv => ?_
    rw [Runtime.closeAndReopen_window, ← terms, window] at hv
    obtain rfl : Window.fresh s.epochCount w.definition = v := Option.some.inj hv
    rw [epoch]
    exact Window.fresh_not_due _ fun span definition => Window.wf_span (wf w window) definition

theorem catchUpStep_again (windows : WindowsWellFormed s) (closed : s.closeDue h.entry.slot = some t) :
    catchUpStep h s = catchUpStep h t := by
  rw [catchUpStep_closed closed, catchUpStep_closed (closeDue_closed windows closed)]

/-- The closing of a due window leaves which slots are pending. -/
theorem closeDue_pending {i : SlotId} (closed : s.closeDue i = some t) (j : SlotId) : (t.slot j).pending = (s.slot j).pending := by
  rcases State.closeDue_touched closed with same | ⟨r, w, runtime, window, -, touched⟩
  · rw [same]
  · by_cases here : j = i
    · rw [here, touched.slot_same]
    · rw [touched.slot_other here]

theorem SlotReady.closed {i j : SlotId} (ready : SlotReady s .engine j) (closed : s.closeDue i = some t) :
    SlotReady t .engine j := by
  obtain ⟨x, q, touched⟩ := State.closeDue_shape closed
  exact ⟨(touched.claimed j).trans ready.unclaimed, (closeDue_pending closed j).trans ready.reconciled⟩

/-- The preparation up to the catch-up of the own slot, whose window is to be closed. -/
theorem prepareStep_plain_closed (own : SlotReady s .engine h.entry.slot) (plain : h.entry.conversion.isRatio = false)
    (windows : WindowsWellFormed s) (closed : s.closeDue h.entry.slot = some t) : prepareStep h s = prepareStep h t := by
  have later := own.closed closed
  rw [prepareStep_own_ready own.unclaimed own.reconciled, prepareStep_own_ready later.unclaimed later.reconciled,
    referenceStep_plain (h := { h with ownClaim := true }) plain, referenceStep_plain (h := { h with ownClaim := true }) plain]
  exact catchUpStep_again windows closed

theorem prepareStep_ratio_closed (own : SlotReady s .engine h.entry.slot) (conversion : h.entry.conversion = .ratio reference gain)
    (found : findChannel s.tables.activeBank.directory reference = some f) (slot : SlotReady s .engine f.slot)
    (windows : WindowsWellFormed s) (closed : s.closeDue h.entry.slot = some t) : prepareStep h s = prepareStep h t := by
  have later := own.closed closed
  have bank : findChannel t.tables.activeBank.directory reference = some f := by
    obtain ⟨x, q, touched⟩ := State.closeDue_shape closed
    rw [touched.eq]
    exact found
  rw [prepareStep_own_ready own.unclaimed own.reconciled, prepareStep_own_ready later.unclaimed later.reconciled,
    referenceStep_ready (h := { h with ownClaim := true }) conversion found slot,
    referenceStep_ready (h := { h with ownClaim := true }) conversion bank (slot.closed closed)]
  exact catchUpStep_again windows closed

/-! ### The waits of a preparation (R60) -/

theorem prepareStep_ratio_claimed (own : SlotReady s .engine h.entry.slot) (conversion : h.entry.conversion = .ratio reference gain)
    (found : findChannel s.tables.activeBank.directory reference = some f) (claimed : s.claimedByOther .engine f.slot = true) :
    prepareStep h s = .next { s with engine := .waiting { h with ownClaim := true } } := by
  rw [prepareStep_own_ready own.unclaimed own.reconciled]
  exact referenceStep_claimed (h := { h with ownClaim := true }) conversion found claimed

theorem prepareStep_ratio_waits (own : SlotReady s .engine h.entry.slot) (conversion : h.entry.conversion = .ratio reference gain)
    (found : findChannel s.tables.activeBank.directory reference = some f) (unclaimed : s.claimedByOther .engine f.slot = false)
    (waits : s.reconcileSlot f.slot = none ∨ ((s.slot f.slot).pending = false ∧ s.closeDue h.entry.slot = none)) :
    prepareStep h s = .next { s with engine := .waiting { h with ownClaim := true, referenceClaim := some f.slot } } := by
  rw [prepareStep_own_ready own.unclaimed own.reconciled,
    referenceStep_unclaimed (h := { h with ownClaim := true }) conversion found unclaimed]
  rcases waits with place | ⟨ready, due⟩
  · rw [place]
  · rw [State.reconcileSlot_of_not_pending ready]
    exact catchUpStep_waits due

theorem prepareStep_plain_waits (own : SlotReady s .engine h.entry.slot) (plain : h.entry.conversion.isRatio = false)
    (due : s.closeDue h.entry.slot = none) : prepareStep h s = .next { s with engine := .waiting { h with ownClaim := true } } := by
  rw [prepareStep_own_ready own.unclaimed own.reconciled, referenceStep_plain (h := { h with ownClaim := true }) plain]
  exact catchUpStep_waits due

end

/-! ### A reading taken, from the state before it -/

theorem takeReading_prepared {s : State} {cell : Cell} {rest : List Cell} {e : Entry} (ready : CellReady s cell rest)
    (kind : cellKind cell = 0x01) (noSwap : s.tables.shadowState ≠ .swapPending)
    (found : findChannel s.tables.activeBank.directory (readingChannel cell) = some e) :
    exec .takeReading s = mapNext (State.recast (fun _ => rest) id) (prepareStep (takenReading s cell e) s) := by
  rw [takeReading_prepares ready kind noSwap found]
  exact prepareStep_reframe (b := fun _ => rest) (g := id) (x := .converting (takenReading s cell e)) rfl _

/-- Where the preparation is that of a slot made ready, the reading is that of the state with this slot. -/
theorem takeReading_again {s t : State} {cell : Cell} {rest : List Cell} {e : Entry} {i : SlotId} (ready : CellReady s cell rest)
    (kind : cellKind cell = 0x01) (noSwap : s.tables.shadowState ≠ .swapPending)
    (found : findChannel s.tables.activeBank.directory (readingChannel cell) = some e) {x : Slot} {q : Option Summary}
    (touched : SlotTouched s i x q t) (again : prepareStep (takenReading s cell e) s = prepareStep (takenReading s cell e) t) :
    exec .takeReading s = exec .takeReading t := by
  have tables : t.tables = s.tables := by rw [touched.eq]
  have later : CellReady t cell rest := ⟨by rw [touched.eq]; exact ready.buffer, by rw [touched.eq]; exact ready.engine,
    by rw [touched.eq]; exact ready.place⟩
  have same : takenReading t cell e = takenReading s cell e := by
    unfold takenReading
    rw [tables]
  rw [takeReading_prepared ready kind noSwap found, again,
    takeReading_prepared later kind (by rw [tables]; exact noSwap) (by rw [tables]; exact found), same]

/-- Settles O20: the waits of the preparation, on the taken reading's state. -/
theorem readingWaitsForSlot : Obligations.ReadingWaitsForSlot := by
  intro s cell rest e ready kind noSwap found
  rw [takeReading_prepared ready kind noSwap found]
  have waits {x : HeldReading} (h : prepareStep (takenReading s cell e) s = .next { s with engine := .waiting x }) :
      mapNext (State.recast (fun _ => rest) id) (prepareStep (takenReading s cell e) s) =
        .next { s with ingressBuffer := rest, engine := .waiting x } := by
    rw [h]
    rfl
  refine ⟨fun claimed => waits (prepareStep_claimed claimed), fun unclaimed => ⟨fun place => ?_, fun reconciled => ?_⟩⟩
  · rcases place with pending | ⟨reconciled, plain, due⟩
    · exact waits (prepareStep_own_waits unclaimed pending)
    · exact waits (prepareStep_plain_waits ⟨unclaimed, reconciled⟩ plain due)
  · intro reference gain f conversion channel
    exact ⟨fun claimed => waits (prepareStep_ratio_claimed ⟨unclaimed, reconciled⟩ conversion channel claimed),
      fun free place => waits (prepareStep_ratio_waits ⟨unclaimed, reconciled⟩ conversion channel free place)⟩

/-- Settles O19: each part of the preparation gives the reading of the state it leaves. -/
theorem slotPreparedBeforeReading : Obligations.SlotPreparedBeforeReading := by
  refine ⟨fun s t cell rest e ready kind noSwap found unclaimed => ⟨fun pending => ?_, fun reconciled => ⟨?_, ?_⟩⟩,
    fun s i => ⟨reconcileSays s i, closeDueSays s i⟩⟩
  · obtain ⟨x, q, touched⟩ := State.reconcileSlot_shape pending
    exact takeReading_again ready kind noSwap found touched (prepareStep_own_reconciled unclaimed pending)
  · intro reference gain f conversion channel free
    refine ⟨fun pending => ?_, fun referenceReady windows closed => ?_⟩
    · obtain ⟨x, q, touched⟩ := State.reconcileSlot_shape pending
      exact takeReading_again ready kind noSwap found touched
        (prepareStep_reference_reconciled ⟨unclaimed, reconciled⟩ conversion channel free pending)
    · obtain ⟨x, q, touched⟩ := State.closeDue_shape closed
      exact takeReading_again ready kind noSwap found touched
        (prepareStep_ratio_closed ⟨unclaimed, reconciled⟩ conversion channel ⟨free, referenceReady⟩ windows closed)
  · intro plain windows closed
    obtain ⟨x, q, touched⟩ := State.closeDue_shape closed
    exact takeReading_again ready kind noSwap found touched (prepareStep_plain_closed ⟨unclaimed, reconciled⟩ plain windows closed)

/-! ### The waiting Engine (R60, R88, R126) -/

section
variable {s t : State} {h : HeldReading}

theorem mapNext_recast_id (o : Host.Outcome State Fault Refusal) : mapNext (State.recast id id) o = o := by cases o <;> rfl

theorem engineResume_prepared (waiting : s.engine = .waiting h) (step : h.step = .prepare) :
    exec .engineResume s = prepareStep h s := by
  have run : exec .engineResume s = prepareStep h (s.reframe id id (.converting h)) := by
    show execEngineResume s = _
    unfold execEngineResume
    rw [waiting]
    dsimp only
    unfold runReading
    rw [step]
    rfl
  rw [run, prepareStep_reframe rfl, mapNext_recast_id]

theorem engineResume_again {i : SlotId} {x : Slot} {q : Option Summary} (waiting : s.engine = .waiting h) (step : h.step = .prepare)
    (touched : SlotTouched s i x q t) (again : prepareStep h s = prepareStep h t) : exec .engineResume s = exec .engineResume t := by
  rw [engineResume_prepared waiting step, again,
    engineResume_prepared (s := t) (by rw [touched.eq]; exact waiting) step]

/-- From its conversion on a reading's claims play no part but for the reference slot of a RATIO entry. -/
theorem convertStep_claims {i j : Option SlotId} (same : ∀ reference gain, h.entry.conversion = .ratio reference gain → i = j) :
    convertStep { h with ownClaim := true, referenceClaim := i } s =
      convertStep { h with ownClaim := true, referenceClaim := j } s := by
  have converted (r : Runtime) :
      convertRaw s.tables.activeBank.pool h.entry (readingRaw h.cell) (sequenceCheck r (readingSequence h.cell)).runtime.lastGood
          (referenceValue s i) =
        convertRaw s.tables.activeBank.pool h.entry (readingRaw h.cell) (sequenceCheck r (readingSequence h.cell)).runtime.lastGood
          (referenceValue s j) :=
    convertRaw_reference fun reference gain conversion => by rw [same reference gain conversion]
  unfold convertStep
  cases (s.slot h.entry.slot).runtime with
  | none => rfl
  | some r =>
    dsimp only
    rw [converted r]
    rfl

/-- A reading whose slots are ready runs the same with whatever claims it holds already. -/
theorem prepareStep_claims {r : Runtime} (own : SlotReady s .engine h.entry.slot) (runtime : (s.slot h.entry.slot).runtime = some r)
    (notDue : ∀ w, r.window = some w → w.due s.epochCount = false)
    (references : ∀ reference gain, h.entry.conversion = .ratio reference gain →
      ∃ f, findChannel s.tables.activeBank.directory reference = some f ∧ SlotReady s .engine f.slot)
    (c : Bool) (k : Option SlotId) : prepareStep h s = prepareStep { h with ownClaim := c, referenceClaim := k } s := by
  obtain ⟨i, run, ratio⟩ := prepareStep_ready own runtime notDue references
  obtain ⟨j, run', ratio'⟩ := prepareStep_ready (h := { h with ownClaim := c, referenceClaim := k }) own runtime notDue references
  rw [run, run']
  refine convertStep_claims fun reference gain conversion => ?_
  obtain ⟨f, found, claim⟩ := ratio reference gain conversion
  obtain ⟨f', found', claim'⟩ := ratio' reference gain conversion
  rw [found] at found'
  rw [claim, claim', Option.some.inj found']

/-- A waiting reading whose slots are ready, in the state in which the Engine would take its cell. -/
theorem prepareStep_waiting {rest : List Cell} {r : Runtime} (step : h.step = .prepare) (generation : h.generation = s.tables.generation)
    (ready : ReadingReady s h.cell rest h.entry r) : prepareStep h s = prepareStep (takenReading s h.cell h.entry) s := by
  have taken : takenReading s h.cell h.entry = { h with ownClaim := false, referenceClaim := none } := by
    unfold takenReading
    rw [← generation, ← step]
  rw [taken]
  exact prepareStep_claims ready.slot ready.runtime ready.notDue ready.reference false none

end

/-- Settles O17: the preparation begins again with its first step, on the state as the wait found it. -/
theorem resumeRunsAsTaken : Obligations.ResumeRunsAsTaken := by
  refine ⟨fun s h r waiting step generation ready => ?_, fun s h r waiting step generation pending ready t taken => ?_,
    fun s h waiting step => ?_⟩
  · have before : exec .engineResume s = mapNext (State.recast (fun _ => s.ingressBuffer) id)
        (prepareStep h { s with engine := .idle, ingressBuffer := h.cell :: s.ingressBuffer }) := by
      rw [engineResume_prepared waiting step]
      exact prepareStep_reframe (b := fun _ => s.ingressBuffer) (g := id) (x := s.engine)
        (s := { s with engine := .idle, ingressBuffer := h.cell :: s.ingressBuffer }) rfl h
    rw [before, takeReading_prepared ready.ready ready.kind ready.noSwap ready.entry,
      prepareStep_waiting (s := { s with engine := .idle, ingressBuffer := h.cell :: s.ingressBuffer }) step generation ready]
  · have resume := prepareStep_reframe (b := fun _ => s.ingressBuffer) (g := fun x => { x with shadowState := .swapPending })
      (x := s.engine) (s := { setShadowState s .editable with engine := .idle, ingressBuffer := h.cell :: s.ingressBuffer }) rfl h
    have back : State.reframe (fun _ => s.ingressBuffer) (fun x => { x with shadowState := .swapPending }) s.engine
        { setShadowState s .editable with engine := .idle, ingressBuffer := h.cell :: s.ingressBuffer } = s := by
      show ({ s with tables := { s.tables with shadowState := .swapPending } } : State) = s
      rw [← pending]
    rw [back] at resume
    rw [engineResume_prepared waiting step, resume, prepareStep_waiting
      (s := { setShadowState s .editable with engine := .idle, ingressBuffer := h.cell :: s.ingressBuffer }) step generation ready]
    rw [takeReading_prepared ready.ready ready.kind ready.noSwap ready.entry] at taken
    generalize prepareStep _ _ = outcome at taken ⊢
    cases outcome with
    | next u =>
      obtain rfl : u.recast (fun _ => s.ingressBuffer) id = t := Host.Outcome.next.inj taken
      rfl
    | fault => cases taken
    | refused => cases taken
  · have run := engineResume_prepared waiting step
    refine ⟨fun claimed => ?_, fun unclaimed => ⟨fun t reconciled => ?_, fun waits => ?_, fun ready => ⟨?_, fun plain => ⟨?_, ?_⟩⟩⟩⟩
    · rw [run, prepareStep_claimed claimed, ← waiting]
    · obtain ⟨x, q, touched⟩ := State.reconcileSlot_shape reconciled
      exact engineResume_again waiting step touched (prepareStep_own_reconciled unclaimed reconciled)
    · rw [run, prepareStep_own_waits unclaimed waits]
    · intro reference gain f conversion found
      refine ⟨fun claimed => ?_, fun free => ⟨fun t reconciled => ?_, fun waits => ?_, fun reconciled => ⟨?_, fun due => ?_⟩⟩⟩
      · rw [run, prepareStep_ratio_claimed ⟨unclaimed, ready⟩ conversion found claimed]
      · obtain ⟨x, q, touched⟩ := State.reconcileSlot_shape reconciled
        exact engineResume_again waiting step touched
          (prepareStep_reference_reconciled ⟨unclaimed, ready⟩ conversion found free reconciled)
      · rw [run, prepareStep_ratio_waits ⟨unclaimed, ready⟩ conversion found free (.inl waits)]
      · intro t windows closed
        obtain ⟨x, q, touched⟩ := State.closeDue_shape closed
        exact engineResume_again waiting step touched
          (prepareStep_ratio_closed ⟨unclaimed, ready⟩ conversion found ⟨free, reconciled⟩ windows closed)
      · rw [run, prepareStep_ratio_waits ⟨unclaimed, ready⟩ conversion found free (.inr ⟨reconciled, due⟩)]
    · intro t windows closed
      obtain ⟨x, q, touched⟩ := State.closeDue_shape closed
      exact engineResume_again waiting step touched (prepareStep_plain_closed ⟨unclaimed, ready⟩ plain windows closed)
    · intro due
      rw [run, prepareStep_plain_waits ⟨unclaimed, ready⟩ plain due]

end Sys2Proof.Machine
end

section
/-! PROOFS. Fix to integer, the RATIO conversion, the lookup at one table, and the counting of a window (R19 to R29, R48, R53, R66, R97 to R102). -/

namespace Sys2Proof.Machine

/-! ### Fix to integer (R48) -/

section
variable {y : Word} {k : Int}

theorem fixToInteger_zero (zero : (unpack y).fraction = 0) : fixToInteger y k = ⟨0, FaultSet.none⟩ := by
  unfold fixToInteger
  exact if_pos zero

theorem fixToInteger_overflow (nonzero : (unpack y).fraction ≠ 0) (overflows : truncated (unpack y) k = none) :
    fixToInteger y k = ⟨if y.getLsbD 31 then -8388608 else 8388607, FaultSet.ofMof⟩ := by
  unfold fixToInteger
  dsimp only
  rw [if_neg nonzero, overflows]
  rfl

theorem fixToInteger_truncated (nonzero : (unpack y).fraction ≠ 0) {m : Nat} (cut : truncated (unpack y) k = some m) :
    fixToInteger y k =
      if y.getLsbD 31 then (if m ≤ 8388608 then ⟨-(m : Int), FaultSet.none⟩ else ⟨-8388608, FaultSet.ofMof⟩)
      else if m ≤ 8388607 then ⟨(m : Int), FaultSet.none⟩
      else ⟨8388607, FaultSet.ofMof⟩ := by
  unfold fixToInteger
  dsimp only
  rw [if_neg nonzero, cut]
  show (if y.getLsbD 31 then (if 8388608 < m then _ else _) else if 8388607 < m then _ else _) = _
  simp only [← Nat.not_le, ite_not]

end

theorem truncated_low {u : Unpacked} {k : Int} (low : u.exponent + k ≤ 0) : truncated u k = some 0 := if_pos low

theorem truncated_high {u : Unpacked} {k : Int} (high : 7 ≤ u.exponent + k) : truncated u k = none := by
  unfold truncated
  rw [if_neg (by omega), if_neg (by omega)]

theorem truncated_digits {u : Unpacked} {k : Int} {n : Nat} (one : 1 ≤ n) (six : n ≤ 6) (place : u.exponent + k = n) :
    truncated u k = some (u.fraction / 16 ^ (6 - n)) := by
  unfold truncated
  rw [place, if_neg (by omega), if_pos (by omega)]
  have digits : ((6 : Int) - n).toNat = 6 - n := by omega
  rw [digits]

/-- An integer of at most six digits, taken apart (R38). -/
theorem unpack_ofInteger {n : Int} {d : Nat} (one : 1 ≤ d) (six : d ≤ 6) (low : 16 ^ (d - 1) ≤ n.natAbs) (high : n.natAbs < 16 ^ d) :
    ofInteger n = pack ⟨decide (n < 0), d, n.natAbs * 16 ^ (6 - d)⟩ ∧
      unpack (ofInteger n) = ⟨decide (n < 0), d, n.natAbs * 16 ^ (6 - d)⟩ := by
  have formed : ofInteger n = pack ⟨decide (n < 0), d, n.natAbs * 16 ^ (6 - d)⟩ := by
    unfold ofInteger
    dsimp only
    rw [hexDigits_eq one low high]
  have positive : 0 < 16 ^ (d - 1) := by positivity
  have shifted : n.natAbs * 16 ^ (6 - d) < 16 ^ 6 := by
    calc n.natAbs * 16 ^ (6 - d) < 16 ^ d * 16 ^ (6 - d) := Nat.mul_lt_mul_of_pos_right high (by positivity)
      _ = 16 ^ 6 := by rw [← pow_add]; congr 1; omega
  refine ⟨formed, ?_⟩
  rw [formed]
  exact unpack_pack _ (Nat.mul_ne_zero (by omega) (by positivity)) shifted (by show (-64 : Int) ≤ d; omega) (by show (d : Int) ≤ 63; omega)

theorem ofInteger_zero : ofInteger 0 = 0 := rfl

/-- Every integer of the output range comes back as itself (R48). -/
theorem fixToInteger_ofInteger {n : Int} (low : -8388608 ≤ n) (high : n ≤ 8388607) : fixToInteger (ofInteger n) 0 = ⟨n, FaultSet.none⟩ := by
  by_cases zero : n = 0
  · rw [zero, ofInteger_zero]
    exact fixToInteger_zero rfl
  · obtain ⟨least, below, one⟩ := hexDigits_spec n.natAbs (by omega)
    obtain ⟨six, -, -⟩ := hexDigits_shift n.natAbs (by omega) (by omega)
    obtain ⟨-, fields⟩ := unpack_ofInteger one six least below
    have nonzero : (unpack (ofInteger n)).fraction ≠ 0 := by
      rw [fields]
      exact Nat.mul_ne_zero (by omega) (by positivity)
    have cut : truncated (unpack (ofInteger n)) 0 = some n.natAbs := by
      rw [fields, truncated_digits one six (Int.add_zero _)]
      exact congrArg some (Nat.mul_div_cancel _ (by positivity))
    have sign : (ofInteger n).getLsbD 31 = decide (n < 0) := congrArg Unpacked.negative fields
    rw [fixToInteger_truncated nonzero cut, sign]
    by_cases negative : n < 0
    · rw [decide_eq_true negative, if_pos rfl, if_pos (by omega)]
      exact congrArg (Formed.mk · _) (by omega)
    · rw [decide_eq_false negative, if_neg Bool.false_ne_true, if_pos (by omega)]
      exact congrArg (Formed.mk · _) (by omega)

/-- Settles O29: from the truncation's three ranges. -/
theorem fixToIntegerRows : Obligations.FixToIntegerRows := by
  refine ⟨fun y k zero => fixToInteger_zero ((isZeroFloat_iff y).1 zero), fun y k normalized => ?_,
    fun n low high => fixToInteger_ofInteger low high⟩
  have nonzero := unpack_fraction_ne_zero normalized
  refine ⟨fun low => ?_, fun high => fixToInteger_overflow nonzero (truncated_high high), fun n one six place m hm => ?_⟩
  · rw [fixToInteger_truncated nonzero (truncated_low low)]
    cases y.getLsbD 31 <;> rfl
  · rw [hm]
    exact fixToInteger_truncated nonzero (truncated_digits one six place)

/-! ### The RATIO conversion (R66) -/

theorem convertRaw_ratio (pool : Memory) {e : Entry} (raw : Word) (lastGood reference : Option Word) {channel : ChannelId} {gain : Word}
    (conversion : e.conversion = .ratio channel gain) :
    convertRaw pool e raw lastGood reference = .ok (ratioResult (inputValue raw e.inputForm) gain reference) := by
  unfold convertRaw
  rw [conversion]

/-- A divide by true zero (R47). -/
theorem divideFloat_zero_divisor (a : Word) {b : Word} (h : isZeroFloat b = true) : divideFloat a b = ⟨0, FaultSet.ofDvz⟩ := by
  unfold divideFloat divideDigits
  rw [if_pos ((isZeroFloat_iff b).1 h)]
  rfl

theorem ratioResult_zero_divisor (x : Formed Word) (gain : Word) {v : Word} (h : isZeroFloat v = true) :
    ratioResult x gain (some v) = plainResult 0 (x.faults.union FaultSet.ofDvz) := by
  unfold ratioResult
  dsimp only
  rw [divideFloat_zero_divisor x.value h, multiplyFloat_zero (.inl isZeroFloat_zero), FaultSet.union_none]

theorem FaultSet.union_noref (f : FaultSet) : (f.union FaultSet.ofNoref).noref = true := Bool.or_true _

theorem FaultSet.union_dvz (f : FaultSet) : (f.union FaultSet.ofDvz).dvz = true := Bool.or_true _

/-- Settles O23: no last good value, a zero one, and another. -/
theorem ratioRows : Obligations.RatioRows := by
  intro pool e raw lastGood channel gain conversion
  refine ⟨⟨_, convertRaw_ratio pool raw lastGood none conversion, rfl, rfl, ?_⟩, fun v => ⟨fun zero => ?_, fun nonzero => ?_⟩⟩
  · exact (zeroedMark_iff _).2 (.inr ⟨rfl, .inr (.inr (FaultSet.union_noref _))⟩)
  · rw [convertRaw_ratio pool raw lastGood (some v) conversion, ratioResult_zero_divisor _ gain zero]
    exact ⟨_, rfl, rfl, rfl, (zeroedMark_iff _).2 (.inr ⟨rfl, .inr (.inl (FaultSet.union_dvz _))⟩)⟩
  · exact convertRaw_ratio pool raw lastGood (some v) conversion

/-! ### A lookup at one table (R19 to R29) -/

theorem missOfCode_mem (c : BitVec 2) :
    (c, missOfCode c) ∈ [((0 : BitVec 2), MissAction.passRaw), (1, .holdLast), (2, .drop), (3, .zero)] := by
  revert c
  decide

theorem wordKindOfCode_mem (c : BitVec 2) :
    (c, wordKindOfCode c) ∈ [((0 : BitVec 2), WordKind.empty), (1, .segment), (2, .link), (3, .constant)] := by
  revert c
  decide

/-- The bucket index is the floor of the quotient (R23). -/
theorem bucketIndex_eq (h : Header) (r : Int) : bucketIndex h r = (if h.symmetric then (r.natAbs : Int) else r).fdiv (2 ^ h.shift) := by
  unfold bucketIndex
  rw [Int.fdiv_eq_ediv_of_nonneg _ (by positivity), Nat.cast_pow]
  rfl

section
variable {pool : Memory} {r b : Int} {lastGood : Option Word} {tables address : Nat} {h : Header} {e : EntryWord}

theorem segmentLookup_outside (header : h = headerOfWord (Memory.read pool address)) (bucket : b = bucketIndex h r)
    (outside : b < h.low ∨ h.high < b) : segmentLookup pool r lastGood (tables + 1) address = .ok (missResult h r lastGood) := by
  subst bucket header
  rw [segmentLookup]
  exact if_pos outside

theorem segmentLookup_inside (header : h = headerOfWord (Memory.read pool address)) (bucket : b = bucketIndex h r)
    (low : h.low ≤ b) (high : b ≤ h.high) (inPool : address + 1 + (b - h.low).toNat ≤ 4095)
    (entry : e = entryOfWord (Memory.read pool (address + 1 + (b - h.low).toNat))) :
    segmentLookup pool r lastGood (tables + 1) address =
      match e.kind with
      | .empty => .ok (missResult h r lastGood)
      | .segment => if 4095 < e.target + 1 then .error .poolAddressOutside else .ok (segmentResult pool h e r)
      | .link => segmentLookup pool r lastGood tables e.target
      | .constant => .ok (constantResult pool h e r) := by
  subst entry bucket header
  rw [segmentLookup]
  dsimp only
  rw [if_neg (by omega)]
  exact if_neg (Nat.not_lt.2 inPool)

end

theorem missResult_rows (h : Header) (r : Int) (lastGood : Option Word) :
    (h.miss = .passRaw → missResult h r lastGood = ⟨some (ofInteger r), FaultSet.ofRng, false, false, 0, 0⟩) ∧
    (h.miss = .holdLast →
      missResult h r lastGood = ⟨some (lastGood.getD 0), FaultSet.ofRng, lastGood.isSome, lastGood.isNone, 0, 0⟩) ∧
    (h.miss = .drop → missResult h r lastGood = ⟨none, FaultSet.ofRng, false, false, 0, 0⟩) ∧
    (h.miss = .zero → missResult h r lastGood = ⟨some 0, FaultSet.ofRng, false, true, 0, 0⟩) := by
  unfold missResult
  refine ⟨fun miss => ?_, fun miss => ?_, fun miss => ?_, fun miss => ?_⟩
  · rw [miss]
  · rw [miss]
    cases lastGood <;> rfl
  · rw [miss]
  · rw [miss]
    rfl

theorem convertRaw_segmented (pool : Memory) {e : Entry} (raw : Word) (lastGood reference : Option Word) {table : BitVec 12}
    (conversion : e.conversion = .segmented table) {n : Int} (integer : rawInteger raw e.inputForm = some n) :
    convertRaw pool e raw lastGood reference = segmentLookup pool n lastGood 4 table.toNat := by
  unfold convertRaw
  rw [conversion]
  dsimp only
  rw [integer]

/-- Settles O24: the miss rows at once, then the kinds of the entry word. -/
theorem segmentLookupAtOneTable : Obligations.SegmentLookupAtOneTable := by
  refine ⟨fun pool r lastGood tables address h b e header bucket entry => ?_,
    fun pool e raw lastGood reference table conversion => ⟨fun form => ?_, fun form => ?_, fun form => ?_⟩,
    fun w => ⟨⟨_, missOfCode_mem _, rfl⟩, ⟨_, wordKindOfCode_mem _, rfl⟩⟩⟩
  · rw [← bucketIndex_eq] at bucket
    refine ⟨fun missed => ?_, fun low high inPool => ?_⟩
    · have miss : segmentLookup pool r lastGood (tables + 1) address = .ok (missResult h r lastGood) := by
        by_cases outside : b < h.low ∨ h.high < b
        · exact segmentLookup_outside header bucket outside
        · obtain ⟨inPool, empty⟩ := missed.resolve_left outside
          rw [segmentLookup_inside header bucket (by omega) (by omega) inPool entry, empty]
      rw [miss]
      obtain ⟨passRaw, holdLast, drop, zero⟩ := missResult_rows h r lastGood
      exact ⟨fun m => congrArg _ (passRaw m), fun m => congrArg _ (holdLast m), fun m => congrArg _ (drop m), fun m => congrArg _ (zero m)⟩
    · rw [segmentLookup_inside header bucket low high inPool entry]
      refine ⟨fun kind => ?_, fun kind => ?_, fun gain offset x product sum hg ho hx hp hs kind target => ?_⟩
      · rw [kind]
      · rw [kind]
        rfl
      · subst hs hp hx ho hg
        rw [kind]
        exact if_neg (Nat.not_lt.2 target)
  · exact convertRaw_segmented pool raw lastGood reference conversion (by rw [form]; rfl)
  · exact convertRaw_segmented pool raw lastGood reference conversion (by rw [form]; rfl)
  · exact convertRaw_segmented pool raw lastGood reference conversion (by rw [form]; rfl)

/-! ### Counting into a window and its SUMMARY cell (R97 to R102) -/

theorem Window.atCapacity_eq_false {w : Window} (h : ∀ span, w.definition = .epoch span → w.counted < 4096) : w.atCapacity = false := by
  unfold Window.atCapacity
  cases definition : w.definition with
  | count length => rfl
  | epoch span => exact decide_eq_false (Nat.not_le.2 (h span definition))

theorem Window.atCapacity_epoch {w : Window} {span : Nat} (definition : w.definition = .epoch span) (full : 4096 ≤ w.counted) :
    w.atCapacity = true := by
  unfold Window.atCapacity
  rw [definition]
  exact decide_eq_true full

theorem Extremes.add_eq (y : Word) (x : Option Extremes) :
    some (Extremes.add y x) =
      match x with
      | none => some ⟨y, y⟩
      | some x => some ⟨if isBelow y x.minimum then y else x.minimum, if isBelow x.maximum y then y else x.maximum⟩ := by
  cases x <;> rfl

theorem Window.count_open {w : Window} (room : w.atCapacity = false) (y : Word) (missed : Nat) :
    w.count y missed =
      { w with
        counted := w.counted + 1
        missed := satAdd w.missed missed
        sum := (wideAdd w.sum y).value
        faults := w.faults.union (wideAdd w.sum y).faults
        extremes := some (Extremes.add y w.extremes) } := by
  unfold Window.count
  exact if_neg (by rw [room]; exact Bool.false_ne_true)

theorem Window.count_full {w : Window} (full : w.atCapacity = true) (y : Word) (missed : Nat) :
    w.count y missed = { w with missed := satAdd w.missed (missed + 1) } := by
  unfold Window.count
  exact if_pos full

/-- The reported span saturates at 255 (R101). -/
theorem Window.span_epoch {w : Window} {span : Nat} (definition : w.definition = .epoch span) (epoch : Word) :
    (w.span epoch).toNat = min 255 (epoch - w.openedAt).toNat := by
  unfold Window.span
  rw [definition]
  dsimp only
  rw [BitVec.toNat_ofNat]
  omega

/-! ### The window mean (R53) -/

theorem wideCount_eq {c digits : Nat} (one : 1 ≤ digits) (low : 16 ^ (digits - 1) ≤ c) (high : c < 16 ^ digits) :
    wideCount c = ⟨false, digits, c * 16 ^ (10 - digits)⟩ := by
  unfold wideCount
  rw [hexDigits_eq one low high]

theorem divideDigits_zero_dividend (n : Nat) {a b : Unpacked} (zero : a.fraction = 0) (nonzero : b.fraction ≠ 0) :
    divideDigits n a b = ⟨Unpacked.zero, FaultSet.none⟩ := by
  unfold divideDigits
  rw [if_neg nonzero, if_pos zero]

/-- The pre-shift of a divide makes its quotient a fraction (R47). -/
theorem divideDigits_nonzero {n : Nat} (one : 1 ≤ n) {a b : Unpacked} (dividend : a.fraction ≠ 0) (divisor : b.fraction ≠ 0) {shift : Nat}
    (hs : shift = if b.fraction ≤ a.fraction then 1 else 0) :
    divideDigits n a b =
      rangeTest n ⟨a.negative != b.negative, a.exponent + shift - b.exponent, a.fraction * 16 ^ (n - shift) / b.fraction⟩ := by
  unfold divideDigits
  rw [if_neg divisor, if_neg dividend, hs]
  by_cases carries : b.fraction ≤ a.fraction
  · have digits : a.fraction * 16 ^ n / (b.fraction * 16) = a.fraction * 16 ^ (n - 1) / b.fraction := by
      obtain ⟨m, rfl⟩ := Nat.exists_eq_add_of_le one
      rw [Nat.add_sub_cancel_left, Nat.add_comm 1 m, pow_succ, ← Nat.mul_assoc, Nat.mul_div_mul_right _ _ (by decide)]
    rw [if_pos carries, if_pos carries, digits]
    exact congrArg (rangeTest n) (Unpacked.eq_of_fields rfl (by simp) rfl)
  · rw [if_neg carries, if_neg carries, Nat.sub_zero, Nat.cast_zero, Int.add_zero]

/-- Settles O21: the two ways of counting, the cell's fields, and the divide by the count. -/
theorem windowCountsReading : Obligations.WindowCountsReading := by
  refine ⟨fun w y missed => ⟨fun room => ?_, fun span definition full => ?_⟩, ?_, ?_⟩
  · rw [Window.count_open (Window.atCapacity_eq_false room), Extremes.add_eq]
    rfl
  · rw [Window.count_full (Window.atCapacity_epoch definition full)]
    rfl
  · rintro w cause epoch output sequence c rfl
    refine ⟨rfl, rfl, rfl, rfl, rfl, rfl, rfl, fun x extremes => ?_, fun length definition => ?_,
      fun span definition => Window.span_epoch definition epoch⟩
    · unfold Window.summary
      rw [extremes]
      exact ⟨rfl, rfl⟩
    · show w.span epoch = 0
      unfold Window.span
      rw [definition]
  · rintro sum c digits f g one - two low high rfl rfl
    have count := wideCount_eq two low high
    have divisor : (wideCount c).fraction ≠ 0 := by
      rw [count]
      exact Nat.mul_ne_zero (by omega) (by positivity)
    refine ⟨fun zero => ?_, fun shift quotient exponent nonzero hs hq he => ?_⟩
    · unfold windowMean
      rw [divideDigits_zero_dividend 10 (a := sum.unpack) zero divisor]
      rfl
    · have quotientOf : divideDigits 10 sum.unpack (wideCount c) = rangeTest 10 ⟨sum.negative, exponent, quotient⟩ := by
        have preShift : shift = if (wideCount c).fraction ≤ sum.unpack.fraction then 1 else 0 := by rw [count]; exact hs
        rw [divideDigits_nonzero (by decide) (a := sum.unpack) nonzero divisor preShift, count, hq, he]
        exact congrArg (rangeTest 10) (Unpacked.eq_of_fields (Bool.xor_false _) rfl rfl)
      have bound : exponent ≤ 63 := by
        have := sum.exponent.isLt
        split at hs <;> omega
      obtain ⟨-, below, within⟩ := rangeTest_ranged 10 ⟨sum.negative, exponent, quotient⟩
      unfold windowMean
      rw [quotientOf]
      by_cases small : exponent < -64
      · rw [below small, if_pos small]
        rfl
      · rw [within (Int.not_lt.1 small) bound, if_neg small]
        rfl

end Sys2Proof.Machine
end

section
/-! PROOFS. The value arithmetic, digit by digit: every result normalized or true zero, fields, entry, add, multiply, divide and the wide add
(R35 to R44, R46, R47, R50, R51, R53, R175). -/

namespace Sys2Proof.Machine

/-! ### Results are normalized or true zero (R36, R51, R53) -/

theorem addFloat_formed {a b : Word} (ha : isNormalized a = true ∨ isZeroFloat a = true)
    (hb : isNormalized b = true ∨ isZeroFloat b = true) : isNormalized (addFloat a b).value = true ∨ (addFloat a b).value = 0 :=
  (addDigits_formed (by decide) (Unpacked.formable_unpack ha) (Unpacked.formable_unpack hb)).pack_cases

theorem divideFloat_formed {a b : Word} (ha : isNormalized a = true ∨ isZeroFloat a = true)
    (hb : isNormalized b = true ∨ isZeroFloat b = true) : isNormalized (divideFloat a b).value = true ∨ (divideFloat a b).value = 0 :=
  (divideDigits_formed (by decide) (Unpacked.formable_unpack ha) (Unpacked.formable_unpack hb)).pack_cases

theorem operations_formed {a b : Word} (ha : isNormalized a = true ∨ isZeroFloat a = true)
    (hb : isNormalized b = true ∨ isZeroFloat b = true) :
    ∀ f ∈ [addFloat a b, subtractFloat a b, multiplyFloat a b, divideFloat a b], isNormalized f.value = true ∨ f.value = 0 := by
  intro f mem
  simp only [List.mem_cons, List.not_mem_nil, or_false] at mem
  rcases mem with rfl | rfl | rfl | rfl
  · exact addFloat_formed ha hb
  · exact addFloat_formed ha (negate_acceptable hb)
  · exact multiplyFloat_formed ha hb
  · exact divideFloat_formed ha hb

theorem isNormalized_magnitude {w : Word} (h : isNormalized w = true) : isNormalized (magnitude w) = true := by
  rw [isNormalized_iff, unpack_magnitude h]
  exact (isNormalized_iff w).1 h

theorem magnitude_of_isZeroFloat {w : Word} (h : isZeroFloat w = true) : magnitude w = 0 := by
  unfold magnitude
  rw [if_pos h]
  rfl

theorem wideAdd_formed {sum : WideFloat} (hs : sum.fraction.extractLsb' 36 4 ≠ 0 ∨ sum = WideFloat.zero) {y : Word}
    (hy : isNormalized y = true ∨ isZeroFloat y = true) :
    (wideAdd sum y).value.fraction.extractLsb' 36 4 ≠ 0 ∨ (wideAdd sum y).value = WideFloat.zero :=
  (addDigits_formed (by decide) (WideFloat.formable_unpack hs) (extendFloat_formable hy)).widePack_cases

/-- A count of readings as a wide float is normalized (R53). -/
theorem wideCount_inRange {c : Nat} (one : 1 ≤ c) (bound : c ≤ 4096) : (wideCount c).InRange 10 := by
  obtain ⟨low, high, positive⟩ := hexDigits_spec c (by omega)
  obtain ⟨six, -, -⟩ := hexDigits_shift c (by omega) (by omega)
  refine ⟨?_, ?_, ?_, ?_⟩
  · show 16 ^ 9 ≤ c * 16 ^ (10 - hexDigits c)
    calc 16 ^ 9 = 16 ^ (hexDigits c - 1) * 16 ^ (10 - hexDigits c) := by rw [← pow_add]; congr 1; omega
      _ ≤ c * 16 ^ (10 - hexDigits c) := Nat.mul_le_mul_right _ low
  · show c * 16 ^ (10 - hexDigits c) < 16 ^ 10
    calc c * 16 ^ (10 - hexDigits c) < 16 ^ hexDigits c * 16 ^ (10 - hexDigits c) := Nat.mul_lt_mul_of_pos_right high (by positivity)
      _ = 16 ^ 10 := by rw [← pow_add]; congr 1; omega
  · show (-64 : Int) ≤ hexDigits c
    omega
  · show (hexDigits c : Int) ≤ 63
    omega

theorem windowMean_formed {sum : WideFloat} (hs : sum.fraction.extractLsb' 36 4 ≠ 0 ∨ sum = WideFloat.zero) {c : Nat} (one : 1 ≤ c)
    (bound : c ≤ 4096) : isNormalized (windowMean sum c).value = true ∨ (windowMean sum c).value = 0 :=
  (divideDigits_formed (by decide) (WideFloat.formable_unpack hs) (.inl (wideCount_inRange one bound))).narrow_cases

/-! ### Entry of a word (R39) -/

theorem normalizeOnEntry_zero {w : Word} (zero : (unpack w).fraction = 0) : normalizeOnEntry w = ⟨0, FaultSet.none⟩ := by
  unfold normalizeOnEntry
  exact if_pos zero

/-- A word of at least `k` leading zero digits enters shifted left by them. -/
theorem normalizeOnEntry_shifted {w : Word} {k : Nat} (five : k ≤ 5) (low : 16 ^ (5 - k) ≤ (unpack w).fraction)
    (high : (unpack w).fraction < 16 ^ (6 - k)) :
    normalizeOnEntry w =
      if k = 0 then ⟨w, FaultSet.none⟩
      else if (unpack w).exponent - k < -64 then ⟨0, FaultSet.ofUnf⟩
      else ⟨pack ⟨(unpack w).negative, (unpack w).exponent - k, (unpack w).fraction * 16 ^ k⟩, FaultSet.none⟩ := by
  have positive : 0 < 16 ^ (5 - k) := by positivity
  have digits : hexDigits (unpack w).fraction = 6 - k :=
    hexDigits_eq (by omega) (by rw [show 6 - k - 1 = 5 - k by omega]; exact low) high
  have lead : 6 - hexDigits (unpack w).fraction = k := by omega
  unfold normalizeOnEntry
  dsimp only
  rw [if_neg (by omega), lead]
  rfl

theorem normalizeOnEntry_rows (w : Word) (u : Unpacked) (hu : u = unpack w) :
    (u.fraction = 0 → normalizeOnEntry w = ⟨0, FaultSet.none⟩) ∧
    (16 ^ 5 ≤ u.fraction → normalizeOnEntry w = ⟨w, FaultSet.none⟩) ∧
    ∀ k : Nat, 1 ≤ k → k ≤ 5 → 16 ^ (5 - k) ≤ u.fraction → u.fraction < 16 ^ (6 - k) →
      (-64 ≤ u.exponent - k →
        normalizeOnEntry w = ⟨pack ⟨u.negative, u.exponent - k, u.fraction * 16 ^ k⟩, FaultSet.none⟩) ∧
      (u.exponent - k < -64 → normalizeOnEntry w = ⟨0, FaultSet.ofUnf⟩) := by
  subst hu
  refine ⟨normalizeOnEntry_zero, fun normalized => ?_, fun k one five low high => ?_⟩
  · rw [normalizeOnEntry_shifted (k := 0) (by decide) normalized (unpack_fraction_lt w), if_pos rfl]
  · rw [normalizeOnEntry_shifted five low high, if_neg (by omega)]
    exact ⟨fun within => if_neg (by omega), fun below => if_pos below⟩

/-! ### Add (R41 to R43) -/

theorem addFloat_leading {a b : Word} (ha : isNormalized a = true) (hb : isNormalized b = true)
    (h : (unpack b).exponent ≤ (unpack a).exponent) :
    ∃ r, Added 6 (unpack a) (unpack b) r ∧ addFloat a b = ⟨pack r.value, r.faults⟩ ∧ addFloat b a = ⟨pack r.value, r.faults⟩ := by
  obtain ⟨forward, backward⟩ := addDigits_leading 6 (unpack a) (unpack b) (unpack_fraction_ne_zero ha) (unpack_fraction_ne_zero hb) h
  refine ⟨_, alignAdd_added 6 _ _ h, ?_, ?_⟩
  · unfold addFloat
    rw [forward]
  · unfold addFloat
    rw [backward]

/-! ### Multiply and divide (R46, R47) -/

section
variable {a b : Word}

theorem multiplyFloat_nonzero (ha : isNormalized a = true) (hb : isNormalized b = true) {p : Nat}
    (hp : p = (unpack a).fraction * (unpack b).fraction) :
    (16 ^ 11 ≤ p →
      ∃ r, Ranged 6 ⟨(unpack a).negative != (unpack b).negative, (unpack a).exponent + (unpack b).exponent, p / 16 ^ 6⟩ r ∧
        multiplyFloat a b = ⟨pack r.value, r.faults⟩) ∧
    (p < 16 ^ 11 →
      ∃ r, Ranged 6 ⟨(unpack a).negative != (unpack b).negative, (unpack a).exponent + (unpack b).exponent - 1, p / 16 ^ 5⟩ r ∧
        multiplyFloat a b = ⟨pack r.value, r.faults⟩) := by
  have nonzero : ¬ ((unpack a).fraction = 0 ∨ (unpack b).fraction = 0) :=
    not_or.2 ⟨unpack_fraction_ne_zero ha, unpack_fraction_ne_zero hb⟩
  have halves : p / 16 ^ 5 / 16 = p / 16 ^ 6 := Nat.div_div_eq_div_mul _ _ _
  subst hp
  refine ⟨fun large => ⟨_, rangeTest_ranged 6 _, ?_⟩, fun small => ⟨_, rangeTest_ranged 6 _, ?_⟩⟩
  · unfold multiplyFloat
    dsimp only
    rw [if_neg nonzero, if_neg (by omega), halves]
  · unfold multiplyFloat
    dsimp only
    rw [if_neg nonzero, if_pos (by omega), Nat.mul_div_cancel _ (by decide)]

theorem divideFloat_zero_dividend (ha : isZeroFloat a = true) (hb : isNormalized b = true) : divideFloat a b = ⟨0, FaultSet.none⟩ := by
  unfold divideFloat
  rw [divideDigits_zero_dividend 6 ((isZeroFloat_iff a).1 ha) (unpack_fraction_ne_zero hb)]
  rfl

theorem divideFloat_nonzero (ha : isNormalized a = true) (hb : isNormalized b = true) :
    ((unpack b).fraction ≤ (unpack a).fraction →
      ∃ r, Ranged 6 ⟨(unpack a).negative != (unpack b).negative, (unpack a).exponent + 1 - (unpack b).exponent,
          (unpack a).fraction * 16 ^ 5 / (unpack b).fraction⟩ r ∧ divideFloat a b = ⟨pack r.value, r.faults⟩) ∧
    ((unpack a).fraction < (unpack b).fraction →
      ∃ r, Ranged 6 ⟨(unpack a).negative != (unpack b).negative, (unpack a).exponent - (unpack b).exponent,
          (unpack a).fraction * 16 ^ 6 / (unpack b).fraction⟩ r ∧ divideFloat a b = ⟨pack r.value, r.faults⟩) := by
  have shifted {shift : Nat} (hs : shift = if (unpack b).fraction ≤ (unpack a).fraction then 1 else 0) :=
    divideDigits_nonzero (n := 6) (by decide) (unpack_fraction_ne_zero ha) (unpack_fraction_ne_zero hb) hs
  refine ⟨fun carries => ⟨_, rangeTest_ranged 6 _, ?_⟩, fun less => ⟨_, rangeTest_ranged 6 _, ?_⟩⟩
  · unfold divideFloat
    rw [shifted (if_pos carries).symm]
    rfl
  · unfold divideFloat
    rw [shifted (if_neg (Nat.not_le.2 less)).symm, Nat.cast_zero, Int.add_zero]

end

theorem multiplyDivideRows (a b : Word) (u v : Unpacked) (negative : Bool) (hu : u = unpack a) (hv : v = unpack b)
    (hn : negative = (u.negative != v.negative)) :
    (isZeroFloat a = true ∨ isZeroFloat b = true → multiplyFloat a b = ⟨0, FaultSet.none⟩) ∧
    (isZeroFloat b = true → divideFloat a b = ⟨0, FaultSet.ofDvz⟩) ∧
    (isZeroFloat a = true → isNormalized b = true → divideFloat a b = ⟨0, FaultSet.none⟩) ∧
    (isNormalized a = true → isNormalized b = true →
      (∀ p : Nat, p = u.fraction * v.fraction →
        (16 ^ 11 ≤ p →
          ∃ r, Ranged 6 ⟨negative, u.exponent + v.exponent, p / 16 ^ 6⟩ r ∧ multiplyFloat a b = ⟨pack r.value, r.faults⟩) ∧
        (p < 16 ^ 11 →
          ∃ r, Ranged 6 ⟨negative, u.exponent + v.exponent - 1, p / 16 ^ 5⟩ r ∧ multiplyFloat a b = ⟨pack r.value, r.faults⟩)) ∧
      (v.fraction ≤ u.fraction →
        ∃ r, Ranged 6 ⟨negative, u.exponent + 1 - v.exponent, u.fraction * 16 ^ 5 / v.fraction⟩ r ∧
          divideFloat a b = ⟨pack r.value, r.faults⟩) ∧
      (u.fraction < v.fraction →
        ∃ r, Ranged 6 ⟨negative, u.exponent - v.exponent, u.fraction * 16 ^ 6 / v.fraction⟩ r ∧
          divideFloat a b = ⟨pack r.value, r.faults⟩)) := by
  subst hu hv hn
  exact ⟨multiplyFloat_zero, divideFloat_zero_divisor a, divideFloat_zero_dividend,
    fun ha hb => ⟨fun p hp => multiplyFloat_nonzero ha hb hp, divideFloat_nonzero ha hb⟩⟩

/-! ### The wide add (R51) -/

theorem extendFloat_zero {y : Word} (h : isZeroFloat y = true) : extendFloat y = Unpacked.zero := by
  unfold extendFloat
  exact if_pos ((isZeroFloat_iff y).1 h)

theorem extendFloat_normalized {y : Word} (h : isNormalized y = true) :
    extendFloat y = ⟨(unpack y).negative, (unpack y).exponent, (unpack y).fraction * 16 ^ 4⟩ := by
  unfold extendFloat
  exact if_neg (unpack_fraction_ne_zero h)

theorem addDigits_zero_right {n : Nat} {a b : Unpacked} (ha : a.fraction ≠ 0) (hb : b.fraction = 0) :
    addDigits n a b = ⟨a, FaultSet.none⟩ := by
  unfold addDigits
  rw [if_neg ha, if_pos hb]

theorem addDigits_zero_left {n : Nat} {a b : Unpacked} (ha : a.fraction = 0) (hb : b.fraction ≠ 0) :
    addDigits n a b = ⟨b, FaultSet.none⟩ := by
  unfold addDigits
  rw [if_pos ha, if_neg hb]

theorem addDigits_zeros {n : Nat} {a b : Unpacked} (ha : a.fraction = 0) (hb : b.fraction = 0) :
    addDigits n a b = ⟨Unpacked.zero, FaultSet.none⟩ := by
  unfold addDigits
  rw [if_pos ha, if_pos hb]

theorem WideFloat.unpack_fraction_eq_zero {sum : WideFloat} : sum.unpack.fraction = 0 ↔ sum.fraction = 0 :=
  ⟨fun h => BitVec.eq_of_toNat_eq h, fun h => congrArg BitVec.toNat h⟩

theorem wideAdd_of {sum : WideFloat} {y : Word} {v : Unpacked} {r : Formed Unpacked} (extended : extendFloat y = v)
    (added : addDigits 10 sum.unpack v = r) : wideAdd sum y = ⟨WideFloat.pack r.value, r.faults⟩ := by
  unfold wideAdd
  rw [extended, added]

theorem wideAddRows (sum : WideFloat) (y : Word) (u v : Unpacked) (hu : u = sum.unpack)
    (hv : v = ⟨(unpack y).negative, (unpack y).exponent, (unpack y).fraction * 16 ^ 4⟩) :
    (sum.fraction = 0 → isZeroFloat y = true → wideAdd sum y = ⟨⟨false, 0, 0⟩, FaultSet.none⟩) ∧
    (sum.fraction ≠ 0 → isZeroFloat y = true → wideAdd sum y = ⟨sum, FaultSet.none⟩) ∧
    (sum.fraction = 0 → isNormalized y = true → wideAdd sum y = ⟨WideFloat.pack v, FaultSet.none⟩) ∧
    (sum.fraction.extractLsb' 36 4 ≠ 0 → isNormalized y = true →
      (v.exponent ≤ u.exponent → ∃ r, Added 10 u v r ∧ wideAdd sum y = ⟨WideFloat.pack r.value, r.faults⟩) ∧
      (u.exponent ≤ v.exponent → ∃ r, Added 10 v u r ∧ wideAdd sum y = ⟨WideFloat.pack r.value, r.faults⟩)) := by
  have extended (normalized : isNormalized y = true) : extendFloat y = v := hv ▸ extendFloat_normalized normalized
  have digits (normalized : isNormalized y = true) : v.fraction ≠ 0 := by
    rw [hv]
    exact Nat.mul_ne_zero (unpack_fraction_ne_zero normalized) (by decide)
  subst hu
  refine ⟨fun empty zero => ?_, fun held zero => ?_, fun empty normalized => ?_, fun first normalized => ?_⟩
  · exact wideAdd_of (extendFloat_zero zero) (addDigits_zeros (WideFloat.unpack_fraction_eq_zero.2 empty) rfl)
  · rw [wideAdd_of (extendFloat_zero zero) (addDigits_zero_right (mt WideFloat.unpack_fraction_eq_zero.1 held) rfl),
      WideFloat.pack_unpack sum held]
  · exact wideAdd_of (extended normalized) (addDigits_zero_left (WideFloat.unpack_fraction_eq_zero.2 empty) (digits normalized))
  · have nonzero : sum.unpack.fraction ≠ 0 := by
      have := (wide_first_digit sum).1 first
      show sum.fraction.toNat ≠ 0
      omega
    exact ⟨fun leads => ⟨_, alignAdd_added 10 _ _ leads,
        wideAdd_of (extended normalized) (addDigits_leading 10 _ _ nonzero (digits normalized) leads).1⟩,
      fun leads => ⟨_, alignAdd_added 10 _ _ leads,
        wideAdd_of (extended normalized) (addDigits_leading 10 _ _ (digits normalized) nonzero leads).2⟩⟩

/-! ### Fields (R35, R50, R175) -/

theorem pack_rows (u : Unpacked) :
    (u.fraction = 0 → pack u = 0 ∧ WideFloat.pack u = ⟨false, 0, 0⟩) ∧
    (-64 ≤ u.exponent → u.exponent ≤ 63 → u.fraction ≠ 0 →
      (u.fraction < 16 ^ 6 → unpack (pack u) = u) ∧ (u.fraction < 16 ^ 10 → (WideFloat.pack u).unpack = u)) :=
  ⟨fun zero => ⟨pack_zero u zero, if_pos zero⟩, fun low high nonzero =>
    ⟨fun six => unpack_pack u nonzero six low high, fun ten => WideFloat.unpack_pack u nonzero ten low high⟩⟩

/-- Settles O28: part by part. -/
theorem arithmeticResultsNormalized : Obligations.ArithmeticResultsNormalized := by
  refine ⟨⟨fun a b ha hb => operations_formed ha hb, normalizeOnEntry_formed, fun n => ofInteger_formed, fun w => ⟨fun normalized => ?_,
    fun zero => ⟨negate_of_isZeroFloat zero, magnitude_of_isZeroFloat zero⟩⟩, fun sum hs => ⟨fun y hy => wideAdd_formed hs hy,
    fun c one bound => windowMean_formed hs one bound⟩⟩,
    ⟨rfl, rfl, rfl, rfl, rfl, rfl, rfl, fun f g => ⟨rfl, FaultSet.any_eq_false_iff f⟩⟩,
    ⟨fun w => ⟨rfl, decide_eq_true_iff, decide_eq_true_iff⟩, fun sum => rfl, pack_rows⟩,
    ⟨ofInteger_zero, fun n d one six low high => (unpack_ofInteger one six low high).1, fun raw => ⟨rfl, rfl, rfl, rfl⟩,
      normalizeOnEntry_rows⟩,
    fun a b u v hu hv => ⟨addFloat_zeros, fun ha hb => ⟨addFloat_zero_right ha hb, addFloat_zero_left hb ha⟩, fun ha hb leads => ?_⟩,
    multiplyDivideRows, wideAddRows⟩
  · exact ⟨isNormalized_negate normalized, unpack_negate normalized, isNormalized_magnitude normalized, unpack_magnitude normalized⟩
  · subst hu hv
    exact addFloat_leading ha hb leads

end Sys2Proof.Machine
end

section
/-! PROOFS. Commands on status, mode and the banks: their answers and their refusals (R9 to R14, R32, R33, R119 to R121, R140, R143, R144, R149). -/

namespace Sys2Proof.Machine

/-! ### Status, mode and undefined codes (R140, R143, R144) -/

theorem commandOfCode_undefined {code : Byte}
    (h : code ∉ [0x01, 0x02, 0x03, 0x10, 0x11, 0x12, 0x13, 0x14, 0x18, 0x19, 0x20, 0x21, 0x30, 0x31, 0x32, 0x33, 0x3F]) :
    commandOfCode code = none := by
  unfold commandOfCode
  rw [List.find?_eq_none]
  intro n _ same
  refine h (of_decide_eq_true same ▸ ?_)
  cases n <;> decide

theorem ShadowState.code_eq (x : ShadowState) :
    x.code = if x = .editable then 0 else if x = .walking then 1 else if x = .swapPending then 2 else 3 := by
  cases x <;> rfl

/-- Settles O33: the status as it stands, and the refusal of a code that names no command. -/
theorem statusAndUndefined : Obligations.StatusAndUndefined := by
  refine fun s cell rest => ⟨fun ready => ?_, fun ready undefined => ?_⟩
  · rw [← ShadowState.code_eq]
    exact withCommand_answered (n := .readStatus) ready (run := runReadStatus) rfl
  · show withCommand s (fun code => (commandOfCode code).isNone) runBadCommand = _
    rw [withCommand_ready ready _ _ (by rw [commandOfCode_undefined undefined]; rfl)]
    exact congrArg Host.Outcome.next (answer_taken ready .badCommand [])

theorem policyOfCode_eq (b : Byte) : policyOfCode b = if b.toNat ≤ 1 then some (if b = 0 then .forward else .discard) else none := by
  revert b
  decide

theorem boolOfCode_eq (b : Byte) : boolOfCode b = if b.toNat ≤ 1 then some (decide (b = 1)) else none := by
  revert b
  decide

theorem modeOperands_eq (cell : Cell) :
    modeOperands cell =
      if (payloadByte cell 0).toNat ≤ 1 ∧ (payloadByte cell 1).toNat ≤ 1 ∧ 1 ≤ (payloadByte cell 2).toNat ∧ (payloadByte cell 2).toNat ≤ 15
      then some ⟨if payloadByte cell 0 = 0 then .forward else .discard, decide (payloadByte cell 1 = 1), (payloadByte cell 2).setWidth 4⟩
      else none := by
  unfold modeOperands
  rw [policyOfCode_eq, boolOfCode_eq]
  by_cases policy : (payloadByte cell 0).toNat ≤ 1
  · by_cases enable : (payloadByte cell 1).toNat ≤ 1
    · simp [policy, enable]
    · simp [policy, enable]
  · simp [policy]

/-- The three settings are reported as they were sent (R144). -/
theorem modeBytes_sent {policy enable limit : Byte} (hp : policy.toNat ≤ 1) (he : enable.toNat ≤ 1) (hl : limit.toNat ≤ 15) :
    modeBytes ⟨if policy = 0 then .forward else .discard, decide (enable = 1), limit.setWidth 4⟩ = [policy, enable, limit] := by
  have codes (b : Byte) : b.toNat ≤ 1 →
      UnknownPolicy.code (if b = 0 then .forward else .discard) = b ∧ boolByte (decide (b = 1)) = b := by
    revert b
    decide
  have limits (b : Byte) : b.toNat ≤ 15 → (0 : BitVec 4) ++ b.setWidth 4 = b := by
    revert b
    decide
  unfold modeBytes
  dsimp only
  rw [(codes policy hp).1, (codes enable he).2, limits limit hl]

/-- Settles O34: all three operands in range, or none taken. -/
theorem setMode : Obligations.SetMode := by
  intro s cell rest policy enable limit ready hp he hl
  have operands := modeOperands_eq cell
  rw [← hp, ← he, ← hl] at operands
  have run : exec .setMode s = .next (runSetMode cell (commandTaken s cell rest)) := withCommand_ready ready _ _ (isCommand_code .setMode)
  rw [run]
  unfold runSetMode
  split
  · next inRange =>
    obtain ⟨onePolicy, oneEnable, low, high⟩ := inRange
    rw [operands, if_pos ⟨onePolicy, oneEnable, low, high⟩]
    dsimp only
    rw [modeBytes_sent onePolicy oneEnable high, ← answer_taken ready]
    rfl
  · next outside =>
    rw [operands, if_neg outside]
    exact congrArg Host.Outcome.next (answer_taken ready .badOperand [])

/-! ### The shadow state and notices -/

/-- Neither a notice handed over nor a replaced shadow state reads what the other writes. -/
theorem setShadowState_handNotice (s : State) (n : NoticeBody) (x : ShadowState) :
    setShadowState (s.handNotice n) x = (setShadowState s x).handNotice n := by
  have moved := handNotice_reframe (b := id) (g := fun t => { t with shadowState := x }) (x := s.engine) s n
  refine Eq.trans ?_ moved.symm
  show _ = State.reframe id (fun t => { t with shadowState := x }) s.engine (s.handNotice n)
  rw [← State.handNotice_engine s n]
  rfl

/-- A verify in flight is no mirror in flight (R117). -/
theorem ShadowState.isMirroring_of_isVerifying {x : ShadowState} (h : x.isVerifying = true) : x.isMirroring = false := by
  cases x with
  | mirroring cause => cases h
  | _ => rfl

/-! ### COMMIT, ABANDON and RESET PART (R120, R121, R149) -/

/-- Settles O40: by the shadow state each finds. -/
theorem acceptedCommands : Obligations.AcceptedCommands := by
  refine fun s cell rest => ⟨fun ready => ?_, fun ready => ?_, fun ready => ?_⟩
  · have run : exec .commit s = .next (runCommit cell (commandTaken s cell rest)) := withCommand_ready ready _ _ (isCommand_code .commit)
    rw [run]
    refine ⟨fun editable => ?_, fun other => ?_⟩
    · have accepted : runCommit cell (commandTaken s cell rest) =
          setShadowState (answer (commandTaken s cell rest) cell .accepted []) .walking := if_pos editable
      rw [accepted, answer_taken ready]
      rfl
    · have busy : runCommit cell (commandTaken s cell rest) = answer (commandTaken s cell rest) cell .busy [] := if_neg other
      rw [busy, answer_taken ready]
  · have run : exec .abandon s = .next (runAbandon cell (commandTaken s cell rest)) := withCommand_ready ready _ _ (isCommand_code .abandon)
    have proceeds (h : s.tables.shadowState.isMirroring = false) : runAbandon cell (commandTaken s cell rest) =
        answer (setShadowState (cancelVerify (commandTaken s cell rest) .abandon cell) (.mirroring .abandon)) cell .accepted [] := by
      unfold runAbandon
      exact if_neg (by show ¬ s.tables.shadowState.isMirroring = true; rw [h]; exact Bool.false_ne_true)
    rw [run]
    refine ⟨fun editable => ?_, fun verifying => ?_, fun mirroring => ?_⟩
    · rw [proceeds (by rw [editable]; rfl),
        cancelVerify_quiet (s := commandTaken s cell rest) .abandon cell (by show s.tables.shadowState.isVerifying = false; rw [editable]; rfl),
        ← answer_taken ready]
      rfl
    · rw [proceeds (ShadowState.isMirroring_of_isVerifying verifying),
        cancelVerify_verifying (s := commandTaken s cell rest) .abandon cell verifying, setShadowState_handNotice,
        answer_handNotice, ← answer_taken ready]
      rfl
    · have busy : runAbandon cell (commandTaken s cell rest) = answer (commandTaken s cell rest) cell .busy [] := if_pos mirroring
      rw [busy, answer_taken ready]
  · have run : exec .resetPart s = .next (runResetPart cell (commandTaken s cell rest)) :=
      withCommand_ready ready _ _ (isCommand_code .resetPart)
    rw [run, ← answer_taken ready]
    rfl

/-! ### Shadow writes of an EDITABLE shadow (R9, R118) -/

theorem shadowWrite_open {s : State} (h : s.tables.shadowState = .editable) (cell : Cell) (run : State → State) :
    shadowWrite s cell run = run s := by
  unfold shadowWrite
  exact if_neg (by rw [h]; exact Bool.false_ne_true)

/-- A write applied to an EDITABLE shadow replaces the shadow bank and nothing else. -/
theorem answer_applyWrite {s : State} {cell : Cell} {rest : List Cell} {code : Byte} (ready : CommandReady s cell rest code)
    (editable : s.tables.shadowState = .editable) (b : Bank) (contents : List Byte) :
    answer (applyWrite (commandTaken s cell rest) cell b) cell .done contents =
      { answered s cell rest .done contents with tables := s.tables.putShadow b } := by
  have state : (s.tables.putShadow b).shadowState = .editable := by rw [TableStore.putShadow_shadowState, editable]
  have quiet : cancelVerify { commandTaken s cell rest with tables := s.tables.putShadow b } .edit cell =
      { commandTaken s cell rest with tables := s.tables.putShadow b } :=
    cancelVerify_quiet (s := { commandTaken s cell rest with tables := s.tables.putShadow b }) .edit cell (by rw [state]; rfl)
  have kept : ({ s.tables.putShadow b with shadowState := .editable } : TableStore) = s.tables.putShadow b := by rw [← state]
  have generation := s.tables.putShadow_generation b
  have written : applyWrite (commandTaken s cell rest) cell b = { commandTaken s cell rest with tables := s.tables.putShadow b } := by
    show setShadowState (cancelVerify { commandTaken s cell rest with tables := s.tables.putShadow b } .edit cell) .editable = _
    rw [quiet]
    unfold setShadowState
    dsimp only
    rw [kept]
  rw [written, ← answer_taken ready]
  unfold answer addResponse responseTo
  dsimp only
  rw [generation]
  rfl

section
variable {s : State} {cell : Cell} {rest : List Cell}

/-- The two cases of a lookup by channel (R7). -/
theorem findChannel_absent {d : List Entry} {c : ChannelId} (h : ∀ x ∈ d, x.input ≠ c) : findChannel d c = none := findChannel_none.2 h

theorem entryInsert_taken (ready : CommandReady s cell rest 0x10) (editable : s.tables.shadowState = .editable) :
    (insertOperands cell = none → exec .entryInsert s = .next (answered s cell rest .badOperand [])) ∧
    ∀ e, insertOperands cell = some e →
      ((findChannel s.tables.shadowBank.directory e.input).isSome = true →
        exec .entryInsert s = .next (answered s cell rest .duplicate [])) ∧
      (findChannel s.tables.shadowBank.directory e.input = none →
        (512 ≤ s.tables.shadowBank.directory.length → exec .entryInsert s = .next (answered s cell rest .full [])) ∧
        (s.tables.shadowBank.directory.length < 512 →
          exec .entryInsert s = .next
            { answered s cell rest .done
                (positionBytes (positionOf s.tables.shadowBank.directory e.input) (s.tables.shadowBank.directory.length + 1)) with
              tables := s.tables.putShadow
                { s.tables.shadowBank with directory := insertEntry e s.tables.shadowBank.directory } })) := by
  have run : exec .entryInsert s = .next (runEntryInsert cell (commandTaken s cell rest)) :=
    withCommand_ready ready _ _ (isCommand_code .entryInsert)
  rw [run]
  unfold runEntryInsert
  rw [shadowWrite_open (s := commandTaken s cell rest) editable]
  dsimp only
  refine ⟨fun bad => ?_, fun e spelled => ⟨fun duplicate => ?_, fun absent => ⟨fun full => ?_, fun room => ?_⟩⟩⟩
  · rw [bad]
    exact congrArg Host.Outcome.next (answer_taken ready .badOperand [])
  · rw [spelled]
    dsimp only
    exact congrArg Host.Outcome.next ((if_pos duplicate).trans (answer_taken ready .duplicate []))
  · rw [spelled]
    dsimp only
    have new : ¬ (findChannel s.tables.shadowBank.directory e.input).isSome = true := by rw [absent]; exact Bool.false_ne_true
    exact congrArg Host.Outcome.next ((if_neg new).trans ((if_pos full).trans (answer_taken ready .full [])))
  · rw [spelled]
    dsimp only
    have new : ¬ (findChannel s.tables.shadowBank.directory e.input).isSome = true := by rw [absent]; exact Bool.false_ne_true
    exact congrArg Host.Outcome.next
      ((if_neg new).trans ((if_neg (Nat.not_le.2 room)).trans (answer_applyWrite ready editable _ _)))

end

/-- Settles O35: the new entry's place splits the directory by channel. -/
theorem entryInsert : Obligations.EntryInsert := by
  refine ⟨fun s cell rest d ready editable hd ordered => ?_, directoryWf_iff⟩
  obtain ⟨bad, spells⟩ := entryInsert_taken ready editable
  refine ⟨fun nothing => bad (none_of_iff (insertOperands_iff cell) nothing), fun e spelled => ?_⟩
  have key : e.input = commandKey cell := spelled.1
  obtain ⟨duplicate, new⟩ := spells e ((insertOperands_iff cell e).2 spelled)
  rw [← key, hd]
  rw [hd] at ordered
  refine ⟨fun present => duplicate ?_, fun absent full => (new (findChannel_absent absent)).1 full.ge, fun absent room => ?_⟩
  · obtain ⟨x, found⟩ := findChannel_isSome present
    rw [found]
    rfl
  · obtain ⟨before, after, split, smaller, larger, inserted, position⟩ :=
      insertEntry_split e _ ((directoryWf_iff _).1 ordered).2 absent
    refine ⟨before, after, split, smaller, larger, ?_⟩
    rw [(new (findChannel_absent absent)).2 room, position, inserted]
    rfl

end Sys2Proof.Machine
end

section
/-! PROOFS. Edits and reads of the banks, and shadow writes by shadow state (R9 to R14, R17, R32, R33, R118, R119, R125). -/

namespace Sys2Proof.Machine

/-! ### ENTRY CONVERT, ENTRY WINDOW and ENTRY REMOVE (R11, R12, R13) -/

section
variable {s : State} {cell : Cell} {rest : List Cell}

/-- An edit of an entry: refused where no entry has the channel, and applied where one has. -/
theorem answer_edit {code : Byte} (ready : CommandReady s cell rest code) (editable : s.tables.shadowState = .editable)
    (d : List Entry) (contents : List Byte) :
    ((∀ x ∈ s.tables.shadowBank.directory, x.input ≠ commandKey cell) →
      (if (findChannel s.tables.shadowBank.directory (commandKey cell)).isNone then refuse (commandTaken s cell rest) cell .notFound
        else answer (applyDirectory (commandTaken s cell rest) cell d) cell .done contents) = answered s cell rest .notFound []) ∧
    ((∃ x ∈ s.tables.shadowBank.directory, x.input = commandKey cell) →
      (if (findChannel s.tables.shadowBank.directory (commandKey cell)).isNone then refuse (commandTaken s cell rest) cell .notFound
        else answer (applyDirectory (commandTaken s cell rest) cell d) cell .done contents) =
      { answered s cell rest .done contents with tables := s.tables.putShadow { s.tables.shadowBank with directory := d } }) := by
  refine ⟨fun absent => ?_, fun present => ?_⟩
  · rw [findChannel_absent absent]
    exact answer_taken ready .notFound []
  · obtain ⟨x, found⟩ := findChannel_isSome present
    rw [found]
    exact answer_applyWrite ready editable _ _

theorem entryConvert_taken (ready : CommandReady s cell rest 0x11) (editable : s.tables.shadowState = .editable) :
    ((∀ c, ¬ ConvertSays cell c) → exec .entryConvert s = .next (answered s cell rest .badOperand [])) ∧
    ∀ c, ConvertSays cell c →
      exec .entryConvert s = .next
        (if (findChannel s.tables.shadowBank.directory (commandKey cell)).isNone then refuse (commandTaken s cell rest) cell .notFound
          else answer (applyDirectory (commandTaken s cell rest) cell
            (updateEntry (commandKey cell) (fun e => { e with conversion := c }) s.tables.shadowBank.directory)) cell .done []) := by
  have run : exec .entryConvert s = .next (runEntryConvert cell (commandTaken s cell rest)) :=
    withCommand_ready ready _ _ (isCommand_code .entryConvert)
  rw [run]
  unfold runEntryConvert
  rw [shadowWrite_open (s := commandTaken s cell rest) editable]
  dsimp only
  refine ⟨fun nothing => ?_, fun c spelled => ?_⟩
  · rw [none_of_iff (convertOperands_iff cell) nothing]
    exact congrArg Host.Outcome.next (answer_taken ready .badOperand [])
  · rw [(convertOperands_iff cell c).2 spelled]
    rfl

theorem entryWindow_taken (ready : CommandReady s cell rest 0x12) (editable : s.tables.shadowState = .editable) :
    ((∀ w p, ¬ WindowSays cell w p) → exec .entryWindow s = .next (answered s cell rest .badOperand [])) ∧
    ∀ w p, WindowSays cell w p →
      exec .entryWindow s = .next
        (if (findChannel s.tables.shadowBank.directory (commandKey cell)).isNone then refuse (commandTaken s cell rest) cell .notFound
          else answer (applyDirectory (commandTaken s cell rest) cell
            (updateEntry (commandKey cell) (fun e => { e with window := w, divertPermitted := p }) s.tables.shadowBank.directory))
            cell .done []) := by
  have run : exec .entryWindow s = .next (runEntryWindow cell (commandTaken s cell rest)) :=
    withCommand_ready ready _ _ (isCommand_code .entryWindow)
  rw [run]
  unfold runEntryWindow
  rw [shadowWrite_open (s := commandTaken s cell rest) editable]
  dsimp only
  refine ⟨fun nothing => ?_, fun w p spelled => ?_⟩
  · have bad : windowOperands cell = none :=
      none_of_iff (spells := fun a => WindowSays cell a.1 a.2) (fun a => windowOperands_iff cell a.1 a.2) fun a => nothing a.1 a.2
    rw [bad]
    exact congrArg Host.Outcome.next (answer_taken ready .badOperand [])
  · rw [(windowOperands_iff cell w p).2 spelled]
    rfl

theorem entryRemove_taken (ready : CommandReady s cell rest 0x13) (editable : s.tables.shadowState = .editable) :
    exec .entryRemove s = .next
      (if (findChannel s.tables.shadowBank.directory (commandKey cell)).isNone then refuse (commandTaken s cell rest) cell .notFound
        else answer (applyDirectory (commandTaken s cell rest) cell (removeEntry (commandKey cell) s.tables.shadowBank.directory)) cell .done
          (positionBytes (positionOf s.tables.shadowBank.directory (commandKey cell)) (s.tables.shadowBank.directory.length - 1))) := by
  have run : exec .entryRemove s = .next (runEntryRemove cell (commandTaken s cell rest)) :=
    withCommand_ready ready _ _ (isCommand_code .entryRemove)
  rw [run]
  unfold runEntryRemove
  rw [shadowWrite_open (s := commandTaken s cell rest) editable]
  rfl

end

/-- Settles O36: each edit's operands, then the lookup of its channel. -/
theorem entryEdits : Obligations.EntryEdits := by
  intro s cell rest d editable hd
  subst hd
  refine ⟨fun ready => ?_, fun ready => ?_, fun ready => ?_⟩
  · obtain ⟨bad, edits⟩ := entryConvert_taken ready editable
    refine ⟨bad, fun c spelled => ?_⟩
    rw [edits c spelled]
    obtain ⟨absent, present⟩ := answer_edit ready editable
      (updateEntry (commandKey cell) (fun e => { e with conversion := c }) s.tables.shadowBank.directory) []
    exact ⟨fun h => congrArg _ (absent h), fun h => congrArg _ (present h)⟩
  · obtain ⟨bad, edits⟩ := entryWindow_taken ready editable
    refine ⟨bad, fun w p spelled => ?_⟩
    rw [edits w p spelled]
    obtain ⟨absent, present⟩ := answer_edit ready editable
      (updateEntry (commandKey cell) (fun e => { e with window := w, divertPermitted := p }) s.tables.shadowBank.directory) []
    exact ⟨fun h => congrArg _ (absent h), fun h => congrArg _ (present h)⟩
  · rw [entryRemove_taken ready editable]
    obtain ⟨absent, present⟩ := answer_edit ready editable (removeEntry (commandKey cell) s.tables.shadowBank.directory)
      (positionBytes (positionOf s.tables.shadowBank.directory (commandKey cell)) (s.tables.shadowBank.directory.length - 1))
    refine ⟨fun h => congrArg _ (absent h), fun before x after ordered split key => ?_⟩
    obtain ⟨-, position, removed⟩ := entry_split ((directoryWf_iff _).1 ordered).2 split
    rw [key] at position removed
    rw [present ⟨x, by rw [split]; simp, key⟩, position, removed]
    rfl

/-! ### ENTRY READ and POOL READ (R14, R33, R119) -/

theorem readBusy_shadow {s : State} (mirroring : s.tables.shadowState.isMirroring = true) : readBusy s .shadow = true := mirroring

theorem readBusy_free {s : State} {selector : Selector} (h : selector = .active ∨ s.tables.shadowState.isMirroring = false) :
    readBusy s selector = false := by
  cases selector with
  | active => rfl
  | shadow => exact h.resolve_left fun same => (by cases same)

theorem selectedBank_eq (s : State) (selector : Selector) :
    selectedBank s selector = if selector = Selector.active then s.tables.activeBank else s.tables.shadowBank := by
  cases selector <;> rfl

theorem ofBool_eq_ite (b : Bool) : BitVec.ofBool b = if b then (1 : BitVec 1) else 0 := by cases b <;> rfl

section
variable {s : State} {cell : Cell} {rest : List Cell} {selector : Selector}

theorem entryRead_taken {part : Part} (ready : CommandReady s cell rest 0x14) (spelled : EntryReadSays cell selector part) :
    (readBusy s selector = true → exec .entryRead s = .next (answered s cell rest .busy [])) ∧
    (readBusy s selector = false →
      (findChannel (selectedBank s selector).directory (commandKey cell) = none →
        exec .entryRead s = .next (answered s cell rest .notFound [])) ∧
      ∀ e, findChannel (selectedBank s selector).directory (commandKey cell) = some e →
        exec .entryRead s = .next (answered s cell rest .done
          (match part with
            | .a => entryPartA e (positionOf (selectedBank s selector).directory e.input) (selectedBank s selector).directory.length
            | .b => entryPartB e.conversion))) := by
  have run : exec .entryRead s = .next (runEntryRead cell (commandTaken s cell rest)) :=
    withCommand_ready ready _ _ (isCommand_code .entryRead)
  have bank : selectedBank (commandTaken s cell rest) selector = selectedBank s selector := by cases selector <;> rfl
  have busy : readBusy (commandTaken s cell rest) selector = readBusy s selector := by cases selector <;> rfl
  rw [run]
  unfold runEntryRead
  rw [(entryReadOperands_iff cell selector part).2 spelled]
  dsimp only
  rw [bank, busy]
  refine ⟨fun taken => ?_, fun free => ⟨fun absent => ?_, fun e found => ?_⟩⟩
  · rw [taken]
    exact congrArg Host.Outcome.next (answer_taken ready .busy [])
  · rw [free, absent]
    exact congrArg Host.Outcome.next (answer_taken ready .notFound [])
  · rw [free, found]
    cases part <;> exact congrArg Host.Outcome.next (answer_taken ready .done _)

theorem poolRead_taken (ready : CommandReady s cell rest 0x19) (spelled : PoolReadSays cell selector) :
    (readBusy s selector = true → exec .poolRead s = .next (answered s cell rest .busy [])) ∧
    (readBusy s selector = false →
      exec .poolRead s = .next (answered s cell rest .done
        ([(commandKey cell).toNat, (commandKey cell).toNat + 1, (commandKey cell).toNat + 2, (commandKey cell).toNat + 3].flatMap
          fun i => wordBytes (Memory.read (selectedBank s selector).pool i)))) := by
  have run : exec .poolRead s = .next (runPoolRead cell (commandTaken s cell rest)) :=
    withCommand_ready ready _ _ (isCommand_code .poolRead)
  have bank : selectedBank (commandTaken s cell rest) selector = selectedBank s selector := by cases selector <;> rfl
  have busy : readBusy (commandTaken s cell rest) selector = readBusy s selector := by cases selector <;> rfl
  rw [run]
  unfold runPoolRead
  rw [(poolReadOperands_iff cell selector).2 spelled]
  dsimp only
  rw [bank, busy]
  refine ⟨fun taken => ?_, fun free => ?_⟩
  · rw [taken]
    exact congrArg Host.Outcome.next (answer_taken ready .busy [])
  · rw [free]
    exact congrArg Host.Outcome.next (answer_taken ready .done _)

theorem entryRead_refused (ready : CommandReady s cell rest 0x14) (nothing : ∀ selector part, ¬ EntryReadSays cell selector part) :
    exec .entryRead s = .next (answered s cell rest .badOperand []) := by
  have run : exec .entryRead s = .next (runEntryRead cell (commandTaken s cell rest)) :=
    withCommand_ready ready _ _ (isCommand_code .entryRead)
  have bad : entryReadOperands cell = none :=
    none_of_iff (spells := fun a => EntryReadSays cell a.1 a.2) (fun a => entryReadOperands_iff cell a.1 a.2) fun a => nothing a.1 a.2
  rw [run]
  unfold runEntryRead
  rw [bad]
  exact congrArg Host.Outcome.next (answer_taken ready .badOperand [])

theorem poolRead_refused (ready : CommandReady s cell rest 0x19) (nothing : ∀ selector, ¬ PoolReadSays cell selector) :
    exec .poolRead s = .next (answered s cell rest .badOperand []) := by
  have run : exec .poolRead s = .next (runPoolRead cell (commandTaken s cell rest)) :=
    withCommand_ready ready _ _ (isCommand_code .poolRead)
  rw [run]
  unfold runPoolRead
  rw [none_of_iff (poolReadOperands_iff cell) nothing]
  exact congrArg Host.Outcome.next (answer_taken ready .badOperand [])

end

/-- Settles O37: operands, then the busy test, then the bank's contents. -/
theorem bankReads : Obligations.BankReads := by
  refine fun s cell rest => ⟨fun ready => ⟨entryRead_refused ready, fun selector part spelled => ?_⟩,
    fun ready => ⟨poolRead_refused ready, fun selector spelled => ?_⟩⟩
  · obtain ⟨busy, free⟩ := entryRead_taken ready spelled
    refine ⟨fun shadow mirroring => busy (shadow ▸ readBusy_shadow mirroring), fun d hd free' => ?_⟩
    obtain ⟨absent, found⟩ := free (readBusy_free free')
    have directory : (selectedBank s selector).directory = d := by rw [hd, selectedBank_eq]
    rw [directory] at absent found
    refine ⟨fun h => absent (findChannel_absent h), fun before e after ordered split key => ?_⟩
    obtain ⟨found', position, -⟩ := entry_split ((directoryWf_iff _).1 ordered).2 split
    rw [found e (key ▸ found'), position]
    refine congrArg (fun l => Host.Outcome.next (answered s cell rest .done l)) ?_
    obtain ⟨input, output, slot, inputForm, outputForm, emit, conversion, window, divert⟩ := e
    cases part with
    | a =>
      dsimp only
      rw [← ofBool_eq_ite, ← ofBool_eq_ite]
      cases window with
      | none => rfl
      | some definition => cases definition <;> rfl
    | b =>
      cases conversion with
      | segmented table =>
        dsimp only
        rw [BitVec.ofNat_toNat]
        rfl
      | _ => rfl
  · obtain ⟨busy, free⟩ := poolRead_taken ready spelled
    refine ⟨fun shadow mirroring => busy (shadow ▸ readBusy_shadow mirroring), fun pool a hp ha free' => ?_⟩
    have contents : (selectedBank s selector).pool = pool := by rw [hp, selectedBank_eq]
    rw [free (readBusy_free free'), contents, ha]
    simp only [List.flatMap_cons, List.flatMap_nil, List.append_nil, List.append_assoc]

/-! ### POOL WRITE (R17, R32) -/

theorem poolWriteOperands_eq (cell : Cell) :
    poolWriteOperands cell =
      if 1 ≤ (payloadByte cell 0).toNat ∧ (payloadByte cell 0).toNat ≤ 3 ∧ (commandKey cell).toNat + (payloadByte cell 0).toNat - 1 ≤ 4095
      then some ([payloadWord cell 4, payloadWord cell 8, payloadWord cell 12].take (payloadByte cell 0).toNat)
      else none := rfl

/-- The words of a POOL WRITE, one by one (R32, R177). -/
theorem poolWords_getD (cell : Cell) {n k : Nat} (three : n ≤ 3) (below : k < n) (default : Word) :
    ([payloadWord cell 4, payloadWord cell 8, payloadWord cell 12].take n).getD k default = payloadWord cell (4 + 4 * k) := by
  have place : k = 0 ∨ k = 1 ∨ k = 2 := by omega
  rw [List.getD_eq_getElem?_getD, List.getElem?_take_of_lt below]
  rcases place with rfl | rfl | rfl <;> rfl

theorem Memory.wfAbove_iff (bound : Nat) (m : Memory) :
    Memory.wfAbove bound m = true ↔
      (m.Pairwise fun x y => x.1 < y.1) ∧ ∀ x ∈ m, bound ≤ x.1 ∧ x.1 ≤ 4095 ∧ x.2 ≠ 0 := by
  induction m generalizing bound with
  | nil => simp [Memory.wfAbove]
  | cons x m ih =>
    obtain ⟨k, v⟩ := x
    rw [Memory.wfAbove_cons, ih, List.pairwise_cons]
    constructor
    · rintro ⟨low, high, listed, ordered, later⟩
      refine ⟨⟨fun y mem => (later y mem).1, ordered⟩, fun y mem => ?_⟩
      rcases List.mem_cons.1 mem with rfl | mem
      · exact ⟨low, high, listed⟩
      · obtain ⟨above, last, nonzero⟩ := later y mem
        exact ⟨by omega, last, nonzero⟩
    · rintro ⟨⟨first, ordered⟩, each⟩
      obtain ⟨low, high, listed⟩ := each (k, v) List.mem_cons_self
      refine ⟨low, high, listed, ordered, fun y mem => ?_⟩
      obtain ⟨-, last, nonzero⟩ := each y (List.mem_cons_of_mem _ mem)
      exact ⟨first y mem, last, nonzero⟩

theorem Memory.wf_iff (m : Memory) : Memory.wf m = true ↔ (m.Pairwise fun x y => x.1 < y.1) ∧ ∀ x ∈ m, x.1 ≤ 4095 ∧ x.2 ≠ 0 := by
  unfold Memory.wf
  rw [Memory.wfAbove_iff]
  simp

theorem poolWrite_taken {s : State} {cell : Cell} {rest : List Cell} (ready : CommandReady s cell rest 0x18)
    (editable : s.tables.shadowState = .editable) :
    (poolWriteOperands cell = none → exec .poolWrite s = .next (answered s cell rest .badOperand [])) ∧
    ∀ words, poolWriteOperands cell = some words →
      exec .poolWrite s = .next
        { answered s cell rest .done (halfBytes (commandKey cell) ++ [payloadByte cell 0]) with
          tables := s.tables.putShadow
            { s.tables.shadowBank with pool := Memory.writeList s.tables.shadowBank.pool (commandKey cell).toNat words } } := by
  have run : exec .poolWrite s = .next (runPoolWrite cell (commandTaken s cell rest)) :=
    withCommand_ready ready _ _ (isCommand_code .poolWrite)
  rw [run]
  unfold runPoolWrite
  rw [shadowWrite_open (s := commandTaken s cell rest) editable]
  dsimp only
  refine ⟨fun bad => ?_, fun words spelled => ?_⟩
  · rw [bad]
    exact congrArg Host.Outcome.next (answer_taken ready .badOperand [])
  · rw [spelled]
    exact congrArg Host.Outcome.next (answer_applyWrite ready editable _ _)

/-- Settles O38: what the words' write reads as. -/
theorem poolWrite : Obligations.PoolWrite := by
  refine ⟨fun s cell rest a n ready editable ha hn => ?_, Memory.wf_iff⟩
  obtain ⟨bad, write⟩ := poolWrite_taken ready editable
  have operands := poolWriteOperands_eq cell
  rw [← ha, ← hn] at operands
  refine ⟨fun outside => bad (by rw [operands, if_neg outside]), fun one three last wf => ?_⟩
  rw [if_pos ⟨one, three, last⟩] at operands
  have count : ([payloadWord cell 4, payloadWord cell 8, payloadWord cell 12].take n).length = n := by
    rw [List.length_take]
    exact Nat.min_eq_left three
  have fits : a + ([payloadWord cell 4, payloadWord cell 8, payloadWord cell 12].take n).length ≤ 4096 := by omega
  refine ⟨_, Memory.wf_writeList _ wf fits, fun k below => ?_, fun b outside => ?_, by rw [write _ operands, ha]⟩
  · rw [Memory.read_writeList a _ wf fits, if_pos (by omega), Nat.add_sub_cancel_left]
    exact poolWords_getD cell three below _
  · rw [Memory.read_writeList a _ wf fits]
    rcases outside with before | after
    · exact if_neg (by omega)
    · rw [if_pos (by omega), List.getD_eq_default _ _ (by omega)]

/-! ### Shadow writes by shadow state (R118, R125) -/

/-- A shadow write that is not BUSY decides by its cell and the shadow bank alone: it refuses with one status, or applies one new bank. -/
def DecidesByBank (cell : Cell) (run : State → State) : Prop :=
  ∀ b : Bank,
    (∃ status, status ≠ .done ∧ ∀ s : State, s.tables.shadowState.isMirroring = false → s.tables.shadowBank = b →
      run s = refuse s cell status) ∨
    ∃ new contents, ∀ s : State, s.tables.shadowState.isMirroring = false → s.tables.shadowBank = b →
      run s = answer (applyWrite s cell new) cell .done contents

theorem shadowWrite_free {s : State} (h : s.tables.shadowState.isMirroring = false) (cell : Cell) (run : State → State) :
    shadowWrite s cell run = run s := by
  unfold shadowWrite
  exact if_neg (by rw [h]; exact Bool.false_ne_true)

theorem shadowWrite_busy {s : State} (h : s.tables.shadowState.isMirroring = true) (cell : Cell) (run : State → State) :
    shadowWrite s cell run = refuse s cell .busy := if_pos h

theorem runEntryInsert_decides (cell : Cell) : DecidesByBank cell (runEntryInsert cell) := by
  intro b
  have body {s : State} (free : s.tables.shadowState.isMirroring = false) := shadowWrite_free free cell
  cases operands : insertOperands cell with
  | none =>
    refine .inl ⟨.badOperand, by decide, fun s free _ => ?_⟩
    unfold runEntryInsert
    rw [body free, operands]
  | some e =>
    by_cases duplicate : (findChannel b.directory e.input).isSome = true
    · refine .inl ⟨.duplicate, by decide, fun s free bank => ?_⟩
      unfold runEntryInsert
      rw [body free, operands, bank]
      exact if_pos duplicate
    · by_cases full : Config.directoryCapacity ≤ b.directory.length
      · refine .inl ⟨.full, by decide, fun s free bank => ?_⟩
        unfold runEntryInsert
        rw [body free, operands, bank]
        exact (if_neg duplicate).trans (if_pos full)
      · refine .inr ⟨{ b with directory := insertEntry e b.directory },
          positionBytes (positionOf b.directory e.input) (b.directory.length + 1), fun s free bank => ?_⟩
        unfold runEntryInsert applyDirectory
        rw [body free, operands, bank]
        exact (if_neg duplicate).trans (if_neg full)

/-- The edits of an entry have one shape: NOT FOUND, or the directory changed. -/
theorem edit_decides (cell : Cell) {run : State → State} (edited : Bank → List Entry) (contents : Bank → List Byte)
    (runs : ∀ s : State, s.tables.shadowState.isMirroring = false →
      run s =
        if (findChannel s.tables.shadowBank.directory (commandKey cell)).isNone then refuse s cell .notFound
        else answer (applyDirectory s cell (edited s.tables.shadowBank)) cell .done (contents s.tables.shadowBank)) :
    DecidesByBank cell run := by
  intro b
  by_cases absent : (findChannel b.directory (commandKey cell)).isNone = true
  · refine .inl ⟨.notFound, by decide, fun s free bank => ?_⟩
    rw [runs s free, bank, if_pos absent]
  · refine .inr ⟨{ b with directory := edited b }, contents b, fun s free bank => ?_⟩
    rw [runs s free, bank, if_neg absent]
    unfold applyDirectory
    rw [bank]

theorem runEntryConvert_decides (cell : Cell) : DecidesByBank cell (runEntryConvert cell) := by
  cases operands : convertOperands cell with
  | none =>
    refine fun b => .inl ⟨.badOperand, by decide, fun s free _ => ?_⟩
    unfold runEntryConvert
    rw [shadowWrite_free free, operands]
  | some c =>
    refine edit_decides cell (fun b => updateEntry (commandKey cell) (fun e => { e with conversion := c }) b.directory) (fun _ => [])
      fun s free => ?_
    unfold runEntryConvert
    rw [shadowWrite_free free, operands]

theorem runEntryWindow_decides (cell : Cell) : DecidesByBank cell (runEntryWindow cell) := by
  cases operands : windowOperands cell with
  | none =>
    refine fun b => .inl ⟨.badOperand, by decide, fun s free _ => ?_⟩
    unfold runEntryWindow
    rw [shadowWrite_free free, operands]
  | some w =>
    refine edit_decides cell
      (fun b => updateEntry (commandKey cell) (fun e => { e with window := w.1, divertPermitted := w.2 }) b.directory) (fun _ => [])
      fun s free => ?_
    unfold runEntryWindow
    rw [shadowWrite_free free, operands]

theorem runEntryRemove_decides (cell : Cell) : DecidesByBank cell (runEntryRemove cell) := by
  refine edit_decides cell (fun b => removeEntry (commandKey cell) b.directory)
    (fun b => positionBytes (positionOf b.directory (commandKey cell)) (b.directory.length - 1)) fun s free => ?_
  unfold runEntryRemove
  rw [shadowWrite_free free]

theorem runPoolWrite_decides (cell : Cell) : DecidesByBank cell (runPoolWrite cell) := by
  intro b
  cases operands : poolWriteOperands cell with
  | none =>
    refine .inl ⟨.badOperand, by decide, fun s free _ => ?_⟩
    unfold runPoolWrite
    rw [shadowWrite_free free, operands]
  | some words =>
    refine .inr ⟨{ b with pool := Memory.writeList b.pool (commandKey cell).toNat words },
      halfBytes (commandKey cell) ++ [payloadByte cell 0], fun s free bank => ?_⟩
    unfold runPoolWrite
    rw [shadowWrite_free free, operands, bank]

/-- The shadow bank does not depend on the shadow state. -/
theorem setShadowState_shadowBank (s : State) (x : ShadowState) : (setShadowState s x).tables.shadowBank = s.tables.shadowBank := rfl

theorem TableStore.putShadow_withState (t : TableStore) (b : Bank) (x : ShadowState) :
    ({ t with shadowState := x } : TableStore).putShadow b = { t.putShadow b with shadowState := x } := by
  obtain ⟨u, v, active, g, state⟩ := t
  cases active <;> rfl

/-- The write of an EDITABLE shadow, whatever state stood there before. -/
theorem applyWrite_editable (s : State) (cell : Cell) (b : Bank) :
    applyWrite (setShadowState s .editable) cell b = setShadowState { s with tables := s.tables.putShadow b } .editable := by
  have state : (s.tables.putShadow b).shadowState = s.tables.shadowState := s.tables.putShadow_shadowState b
  have put : ({ setShadowState s .editable with tables := (setShadowState s .editable).tables.putShadow b } : State) =
      setShadowState { s with tables := s.tables.putShadow b } .editable :=
    congrArg (fun t => ({ s with tables := t } : State)) (TableStore.putShadow_withState s.tables b .editable)
  unfold applyWrite
  rw [put, cancelVerify_quiet (s := setShadowState { s with tables := s.tables.putShadow b } .editable) .edit cell rfl]
  rfl

/-- An applied write under a verify in flight: the write of an EDITABLE shadow, with the notice of the cancellation (R118, R125). -/
theorem applyWrite_verifying {s : State} (verifying : s.tables.shadowState.isVerifying = true) (cell : Cell) (b : Bank)
    (contents : List Byte) :
    answer (applyWrite s cell b) cell .done contents =
      (answer (applyWrite (setShadowState s .editable) cell b) cell .done contents).handNotice
        (.commitCancelled .edit (commandCode cell) (commandTag cell) s.tables.generation) := by
  have generation : (s.tables.putShadow b).generation = s.tables.generation := s.tables.putShadow_generation b
  rw [applyWrite_editable, ← answer_handNotice, ← setShadowState_handNotice]
  unfold applyWrite
  rw [cancelVerify_verifying (s := { s with tables := s.tables.putShadow b }) .edit cell
    (by rw [TableStore.putShadow_shadowState, verifying]), generation]

/-- What a shadow write that decides by its bank does in each shadow state. -/
theorem shadowWrite_states {s : State} {cell : Cell} {rest : List Cell} {c : Instr} {code : Byte} {run : State → State}
    (ready : CommandReady s cell rest code)
    (runs : ∀ u : State, CommandReady u cell rest code → exec c u = .next (run (commandTaken u cell rest)))
    (busy : ∀ u : State, u.tables.shadowState.isMirroring = true → run u = refuse u cell .busy) (decides : DecidesByBank cell run) :
    (s.tables.shadowState.isMirroring = true → exec c s = .next (answered s cell rest .busy [])) ∧
    (s.tables.shadowState.isVerifying = true →
      ∀ t r, exec c (setShadowState s .editable) = .next t → t.responseQueue = s.responseQueue ++ [r] →
        (r.status = .done →
          exec c s = .next (t.handNotice (.commitCancelled .edit (commandCode cell) (commandTag cell) s.tables.generation))) ∧
        (r.status ≠ .done → exec c s = .next (setShadowState t s.tables.shadowState))) := by
  refine ⟨fun mirroring => ?_, fun verifying t r edit responded => ?_⟩
  · rw [runs s ready, busy (commandTaken s cell rest) mirroring]
    exact congrArg Host.Outcome.next (answer_taken ready .busy [])
  · have free := ShadowState.isMirroring_of_isVerifying verifying
    have ready' : CommandReady (setShadowState s .editable) cell rest code := ⟨ready.idle, ready.place, ready.queue, ready.isCode⟩
    rw [runs (setShadowState s .editable) ready'] at edit
    obtain rfl := Host.Outcome.next.inj edit
    rw [runs s ready]
    rcases decides s.tables.shadowBank with ⟨status, notDone, refuses⟩ | ⟨new, contents, applies⟩
    · have editable := refuses (commandTaken (setShadowState s .editable) cell rest) rfl rfl
      rw [editable] at responded ⊢
      have answered' : r = responseTo (commandTaken (setShadowState s .editable) cell rest) cell status [] :=
        (List.singleton_inj.1 (List.append_cancel_left responded)).symm
      subst answered'
      rw [refuses (commandTaken s cell rest) free rfl]
      exact ⟨fun done => absurd done notDone, fun _ => rfl⟩
    · have editable := applies (commandTaken (setShadowState s .editable) cell rest) rfl rfl
      rw [editable] at responded ⊢
      have grown : s.responseQueue ++ [responseTo (applyWrite (commandTaken (setShadowState s .editable) cell rest) cell new) cell .done
          contents] = s.responseQueue ++ [r] := by
        have queue : (applyWrite (commandTaken (setShadowState s .editable) cell rest) cell new).responseQueue = s.responseQueue := by
          show (applyWrite (setShadowState (commandTaken s cell rest) .editable) cell new).responseQueue = _
          rw [applyWrite_editable]
          rfl
        rw [← responded, answer_responseQueue, queue]
      have answered' := List.singleton_inj.1 (List.append_cancel_left grown)
      subst answered'
      rw [applies (commandTaken s cell rest) free rfl]
      exact ⟨fun _ => congrArg _ (applyWrite_verifying (s := commandTaken s cell rest) verifying cell new contents),
        fun notDone => absurd rfl notDone⟩

/-- Settles O39: the five writes decide by the shadow bank. -/
theorem shadowWritesByState : Obligations.ShadowWritesByState := by
  intro s cell rest c code mem ready
  simp only [List.mem_cons, Prod.mk.injEq, List.not_mem_nil, or_false] at mem
  rcases mem with ⟨rfl, rfl⟩ | ⟨rfl, rfl⟩ | ⟨rfl, rfl⟩ | ⟨rfl, rfl⟩ | ⟨rfl, rfl⟩
  · exact shadowWrite_states ready (fun u h => withCommand_ready h _ _ (isCommand_code .entryInsert))
      (fun u h => shadowWrite_busy h cell _) (runEntryInsert_decides cell)
  · exact shadowWrite_states ready (fun u h => withCommand_ready h _ _ (isCommand_code .entryConvert))
      (fun u h => shadowWrite_busy h cell _) (runEntryConvert_decides cell)
  · exact shadowWrite_states ready (fun u h => withCommand_ready h _ _ (isCommand_code .entryWindow))
      (fun u h => shadowWrite_busy h cell _) (runEntryWindow_decides cell)
  · exact shadowWrite_states ready (fun u h => withCommand_ready h _ _ (isCommand_code .entryRemove))
      (fun u h => shadowWrite_busy h cell _) (runEntryRemove_decides cell)
  · exact shadowWrite_states ready (fun u h => withCommand_ready h _ _ (isCommand_code .poolWrite))
      (fun u h => shadowWrite_busy h cell _) (runPoolWrite_decides cell)

end Sys2Proof.Machine
end

section
/-! PROOFS. The slot commands at a slot that is ready, and where they wait and go on (R79, R86, R87, R93, R103, R141, R145 to R148). -/

namespace Sys2Proof.Machine

/-! ### SLOT READ (R145, R146) -/

theorem partOfCode_none {b : Byte} (h : 1 < b.toNat) : partOfCode b = none := by
  revert b
  decide

theorem partOfCode_eq (b : Byte) : partOfCode b = if b.toNat ≤ 1 then some (if b = 0 then .a else .b) else none := by
  revert b
  decide

section
variable {s : State} {cell : Cell} {rest : List Cell} {i : SlotId}

theorem slotRead_refused (ready : CommandReady s cell rest 0x30) (bad : 512 ≤ (commandKey cell).toNat ∨ 1 < (payloadByte cell 0).toNat) :
    exec .slotRead s = .next (answered s cell rest .badOperand []) := by
  have run : exec .slotRead s = .next (runSlotRead cell (commandTaken s cell rest)) :=
    withCommand_ready ready _ _ (isCommand_code .slotRead)
  rw [run, ← answer_taken ready]
  unfold runSlotRead
  rcases bad with key | part
  · rw [slotOfHalf_none key]
    rfl
  · rw [partOfCode_none part]
    cases slotOfHalf (commandKey cell) <;> rfl

theorem slotRead_ready (ready : CommandReady s cell rest 0x30) (key : i.val = (commandKey cell).toNat) (slot : SlotReady s .command i)
    {part : Part} (selected : partOfCode (payloadByte cell 0) = some part) :
    exec .slotRead s = .next (slotReadOutcome cell i part (commandTaken s cell rest)) := by
  have run : exec .slotRead s = .next (runSlotRead cell (commandTaken s cell rest)) :=
    withCommand_ready ready _ _ (isCommand_code .slotRead)
  rw [run]
  unfold runSlotRead
  rw [slotOfHalf_some key, selected]
  exact congrArg Host.Outcome.next (withSlot_ready (slotReady_taken slot))

theorem slotReadOutcome_a_owned {r : Runtime} (runtime : (s.slot i).runtime = some r) :
    slotReadOutcome cell i .a s = answer s cell .done (slotPartA (s.slot i) 0) := by
  unfold slotReadOutcome
  rw [runtime]
  rfl

theorem slotReadOutcome_a_unowned (runtime : (s.slot i).runtime = none) :
    slotReadOutcome cell i .a s =
      { answer s cell .done (slotPartA (s.slot i) (Config.freeHalf s.freeCount)) with freeCount := s.freeCount + 1 } := by
  unfold slotReadOutcome
  rw [runtime]
  rfl

end

theorem slotPartA_owned {x : Slot} {r : Runtime} (runtime : x.runtime = some r) (owner : Half) :
    slotPartA x owner =
      halfBytes r.owner ++
        [(0 : BitVec 1) ++ (if r.live then (2 : BitVec 2) else 1) ++ BitVec.ofBool r.armed ++ (0 : BitVec 4), r.sticky.byte] ++
        halfBytes r.dropCount ++ halfBytes r.lastSequence := by
  have phase : x.phaseCode = if r.live then (2 : BitVec 2) else 1 := by
    unfold Slot.phaseCode
    rw [runtime]
  unfold slotPartA
  rw [runtime]
  dsimp only
  rw [phase]
  rfl

theorem slotPartB_owned {x : Slot} {r : Runtime} (runtime : x.runtime = some r) :
    slotPartB x =
      wordBytes (r.lastGood.getD 0) ++ [if r.lastGood.isSome then 1 else 0] ++
        halfBytes (BitVec.ofNat 16 ((r.window.map Window.counted).getD 0)) ++ [(r.window.map Window.missed).getD 0] ++
        wordBytes ((r.window.map Window.openedAt).getD 0) ++ [r.windowSequence] := by
  unfold slotPartB
  rw [runtime]
  dsimp only
  cases r.window <;> rfl

/-- Settles O41: the two parts, of an owned slot and of an UNOWNED one. -/
theorem slotReadReports : Obligations.SlotReadReports := by
  refine ⟨fun s cell rest ready => ⟨slotRead_refused ready, fun i key slot => ?_⟩, faultSet_byte⟩
  have partA (code : payloadByte cell 0 = 0) := slotRead_ready ready key slot (part := .a) (by rw [code]; rfl)
  have partB (code : payloadByte cell 0 = 1) := slotRead_ready ready key slot (part := .b) (by rw [code]; rfl)
  refine ⟨fun r runtime => ⟨fun code => ?_, fun code => ?_⟩, fun runtime => ⟨fun code => ?_, fun code => ?_⟩⟩
  · rw [partA code, slotReadOutcome_a_owned (s := commandTaken s cell rest) runtime, answer_taken ready,
      slotPartA_owned (x := (commandTaken s cell rest).slot i) runtime]
  · rw [partB code, ← slotPartB_owned runtime]
    exact congrArg Host.Outcome.next (answer_taken ready .done _)
  · refine ⟨Config.freeHalf s.freeCount, ?_⟩
    have contents : slotPartA ((commandTaken s cell rest).slot i) (Config.freeHalf s.freeCount) =
        halfBytes (Config.freeHalf s.freeCount) ++ [0x80, 0, 0, 0, 0, 0] := by
      unfold slotPartA
      rw [show ((commandTaken s cell rest).slot i).runtime = none from runtime]
    rw [partA code, slotReadOutcome_a_unowned (s := commandTaken s cell rest) runtime, ← contents, ← answer_taken ready]
    rfl
  · have contents : slotPartB (s.slot i) = [] := by
      unfold slotPartB
      rw [runtime]
    rw [partB code, ← contents]
    exact congrArg Host.Outcome.next (answer_taken ready .done _)

/-! ### SLOT CLEAR (R79, R86, R147) -/

theorem slotClearKey_one {cell : Cell} {i : SlotId} (key : i.val = (commandKey cell).toNat) : slotClearKey cell = some (.one i) := by
  have := i.isLt
  unfold slotClearKey
  rw [if_neg (by omega), slotOfHalf_some key]
  rfl

theorem slotClearKey_all {cell : Cell} (key : (commandKey cell).toNat = 512) : slotClearKey cell = some .all := if_pos key

theorem slotClearKey_none {cell : Cell} (key : 512 < (commandKey cell).toNat) : slotClearKey cell = none := by
  unfold slotClearKey
  rw [if_neg (by omega), slotOfHalf_none (by omega)]
  rfl

/-- The Slot Store with its last `n` slots cleared. -/
def clearedLast (n : Nat) (t : Table Slot 512) : Table Slot 512 :=
  Table.tabulate 512 fun i => if 512 - n ≤ i.val then clearedSlot (t.get i) else t.get i

theorem clearedLast_zero (t : Table Slot 512) : clearedLast 0 t = t := by
  refine Table.ext_get fun i => ?_
  unfold clearedLast
  rw [Table.get_tabulate]
  exact if_neg (by have := i.isLt; omega)

theorem clearedLast_all (t : Table Slot 512) : clearedLast 512 t = t.map clearedSlot := by
  refine Table.ext_get fun i => ?_
  unfold clearedLast
  rw [Table.get_tabulate, Table.get_map]
  exact if_pos (by omega)

theorem clearedLast_succ (t : Table Slot 512) {n : Nat} {k : SlotId} (place : k.val + n = 511) :
    clearedLast n (t.put k (clearedSlot (t.get k))) = clearedLast (n + 1) t := by
  refine Table.ext_get fun i => ?_
  unfold clearedLast
  rw [Table.get_tabulate, Table.get_tabulate, Table.get_put]
  by_cases here : i = k
  · rw [if_pos here, if_neg (by rw [here]; omega), if_pos (by rw [here]; omega), here]
  · have apart : i.val ≠ k.val := fun same => here (Fin.ext same)
    rw [if_neg here]
    by_cases last : 512 - n ≤ i.val
    · rw [if_pos last, if_pos (by omega)]
    · rw [if_neg last, if_neg (by omega)]

theorem slotReady_clear {s : State} {i : SlotId} (k : SlotId) (h : SlotReady s .command i) : SlotReady (clearSlot s k) .command i := by
  rw [clearSlot_eq]
  refine ⟨(claimedByOther_command_congr i rfl rfl rfl).trans h.unclaimed, ?_⟩
  rw [State.slot_putSlot]
  split
  · next same => rw [← same]; exact h.reconciled
  · exact h.reconciled

/-- SLOT CLEAR goes through the last `n` slots at once where all of them are ready (R147). -/
theorem clearFrom_ready (cell : Cell) {n : Nat} (bound : n ≤ 512) {s : State} (slots : ∀ i, SlotReady s .command i) :
    clearFrom cell n s = clearAnswer cell { s with slots := clearedLast n s.slots } := by
  induction n generalizing s with
  | zero => rw [clearedLast_zero]; rfl
  | succ n ih =>
    have step : clearFrom cell (n + 1) s = clearFrom cell n (clearSlot s ⟨511 - n, by omega⟩) := withSlot_ready (slots _)
    rw [step, ih (by omega) fun i => slotReady_clear _ (slots i), clearSlot_eq]
    unfold State.putSlot State.slot
    dsimp only
    rw [clearedLast_succ _ (by dsimp only; omega)]

theorem clearAll_ready (cell : Cell) {s : State} (slots : ∀ i, SlotReady s .command i) :
    clearFrom cell 512 s = { answer s cell .done (halfBytes (commandKey cell)) with slots := clearedLast 512 s.slots } := by
  rw [clearFrom_ready cell le_rfl slots]
  generalize clearedLast 512 s.slots = cleared
  rfl

/-- Settles O42: one slot, every slot, and the Slot Store's laws. -/
theorem slotClear : Obligations.SlotClear := by
  refine ⟨fun s cell rest ready => ?_, fun s i j x f => ⟨?_, Table.get_put_same _ _ _, Table.get_put_other _ _, Table.get_map _ _ _⟩⟩
  · have run : exec .slotClear s = .next (runSlotClear cell (commandTaken s cell rest)) :=
      withCommand_ready ready _ _ (isCommand_code .slotClear)
    rw [run]
    unfold runSlotClear
    refine ⟨fun above => ?_, fun i key slot => ?_, fun key slots => ?_⟩
    · rw [slotClearKey_none above]
      exact congrArg Host.Outcome.next (answer_taken ready .badOperand [])
    · rw [slotClearKey_one key, ← answer_taken ready]
      refine congrArg Host.Outcome.next ((withSlot_ready (slotReady_taken slot)).trans ?_)
      rw [clearSlot_eq]
      rfl
    · rw [slotClearKey_all key, ← answer_taken ready, ← clearedLast_all]
      exact congrArg Host.Outcome.next (clearAll_ready cell fun i => slotReady_taken (slots i))
  · unfold State.slot Table.get
    exact List.getElem?_eq_getElem _

/-! ### ARM DIVERT and FLUSH WINDOW (R87, R103, R148) -/

/-- Settles O43: the slot's permission, or why there is none. -/
theorem armDivert : Obligations.ArmDivert := by
  intro s cell rest ready
  have run : exec .armDivert s = .next (runArmDivert cell (commandTaken s cell rest)) :=
    withCommand_ready ready _ _ (isCommand_code .armDivert)
  rw [run]
  unfold runArmDivert
  refine ⟨fun above => ?_, fun i key slot => ?_⟩
  · rw [slotOfHalf_none above]
    exact congrArg Host.Outcome.next (answer_taken ready .badOperand [])
  · rw [slotOfHalf_some key]
    dsimp only
    unfold armDivertAt
    rw [withSlot_ready (slotReady_taken slot)]
    unfold armDivertOutcome
    refine ⟨fun unowned => ?_, fun r runtime => ⟨fun refused => ?_, fun permitted => ?_⟩⟩
    · rw [show ((commandTaken s cell rest).slot i).runtime = none from unowned]
      exact congrArg Host.Outcome.next (answer_taken ready .notFound [])
    · rw [show ((commandTaken s cell rest).slot i).runtime = some r from runtime]
      dsimp only
      rw [refused]
      exact congrArg Host.Outcome.next (answer_taken ready .badOperand [])
    · rw [show ((commandTaken s cell rest).slot i).runtime = some r from runtime]
      dsimp only
      rw [permitted, slotHalf_key key, ← answer_taken ready, ← slot.reconciled]
      rfl

section
variable {s : State} {cell : Cell} {rest : List Cell} {i : SlotId} {r : Runtime} {w : Window}

theorem flushOutcome_closes (runtime : (s.slot i).runtime = some r) (window : r.window = some w) :
    flushOutcome cell i s =
      match s.closeSlotWindow i r .flush with
      | none => waitAt s cell i true
      | some t => answer t cell .done (halfBytes (slotHalf i) ++ halfBytes (BitVec.ofNat 16 w.counted) ++ [r.windowSequence]) := by
  unfold flushOutcome
  rw [runtime]
  dsimp only
  rw [window] <;> rfl

theorem flushOutcome_empty (runtime : (s.slot i).runtime = some r) (window : r.window = some w) (empty : w.counted = 0) :
    flushOutcome cell i s =
      answer (s.putSlot i ⟨some { r with window := r.terms.window.map (Window.fresh s.epochCount) }, (s.slot i).pending⟩) cell .done
        (halfBytes (slotHalf i) ++ halfBytes 0 ++ [r.windowSequence]) := by
  rw [flushOutcome_closes runtime window]
  unfold State.closeSlotWindow
  dsimp only
  rw [Runtime.closeAndReopen_empty .flush s.epochCount window empty, State.takeClosing_silent i rfl, empty]
  rfl

theorem flushOutcome_counted (runtime : (s.slot i).runtime = some r) (window : r.window = some w) (counted : w.counted ≠ 0) :
    (s.summaryQueue.length < 64 →
      flushOutcome cell i s =
        answer
          { s with
            slots := s.slots.put i
              ⟨some
                { r with
                  windowSequence := r.windowSequence + 1
                  window := r.terms.window.map (Window.fresh s.epochCount) }, (s.slot i).pending⟩
            summaryQueue := s.summaryQueue ++ [w.summary .flush s.epochCount r.terms.output r.windowSequence] } cell .done
          (halfBytes (slotHalf i) ++ halfBytes (BitVec.ofNat 16 w.counted) ++ [r.windowSequence])) ∧
    (64 ≤ s.summaryQueue.length → flushOutcome cell i s = waitAt s cell i true) := by
  rw [flushOutcome_closes runtime window]
  unfold State.closeSlotWindow
  dsimp only
  rw [Runtime.closeAndReopen_counted .flush s.epochCount window counted]
  obtain ⟨room, full⟩ := State.takeClosing_summary s i
    ⟨some { r with windowSequence := r.windowSequence + 1, window := r.terms.window.map (Window.fresh s.epochCount) }, (s.slot i).pending⟩
    (w.summary .flush s.epochCount r.terms.output r.windowSequence)
  refine ⟨fun place => ?_, fun noRoom => ?_⟩
  · rw [room place]
  · rw [full noRoom]

end

/-- Settles O44: the outcomes of the flush at its slot. -/
theorem flushWindow : Obligations.FlushWindow := by
  intro s cell rest ready
  have run : exec .flushWindow s = .next (runFlushWindow cell (commandTaken s cell rest)) :=
    withCommand_ready ready _ _ (isCommand_code .flushWindow)
  rw [run]
  unfold runFlushWindow
  refine ⟨fun above => ?_, fun i key slot => ?_⟩
  · rw [slotOfHalf_none above]
    exact congrArg Host.Outcome.next (answer_taken ready .badOperand [])
  · rw [slotOfHalf_some key]
    dsimp only
    unfold flushWindowAt
    rw [withSlot_ready (slotReady_taken slot), ← slotHalf_key key, ← slot.reconciled]
    refine ⟨fun unowned => ?_, fun r runtime => ⟨fun absent => ?_, fun w window => ⟨fun empty => ?_, fun counted room => ?_,
      fun counted full => ?_⟩⟩⟩
    · unfold flushOutcome
      rw [show ((commandTaken s cell rest).slot i).runtime = none from unowned]
      exact congrArg Host.Outcome.next (answer_taken ready .notFound [])
    · unfold flushOutcome
      rw [show ((commandTaken s cell rest).slot i).runtime = some r from runtime]
      dsimp only
      rw [absent]
      exact congrArg Host.Outcome.next (answer_taken ready .noWindow [])
    · rw [flushOutcome_empty (s := commandTaken s cell rest) runtime window empty, ← answer_taken ready]
      rfl
    · rw [(flushOutcome_counted (s := commandTaken s cell rest) runtime window counted).1 room, ← answer_taken ready]
      rfl
    · rw [(flushOutcome_counted (s := commandTaken s cell rest) runtime window counted).2 full]
      rfl

end Sys2Proof.Machine
end

section
/-! PROOFS. Slot commands that wait: what each try of a waiting command finds (R86, R93, R141, R145, R147). -/

namespace Sys2Proof.Machine

/-! ### Work on a slot and the Command Unit -/

/-- A state with another Command Queue and another Command Unit: fields that work on slots neither reads nor writes. -/
def State.recommand (q : List Cell) (u : CommandUnit) (s : State) : State := { s with commandQueue := q, commandUnit := u }

section
variable {q : List Cell} {u : CommandUnit}

theorem takeClosing_recommand (s : State) (i : SlotId) (c : Closed Slot) :
    (s.recommand q u).takeClosing i c = (s.takeClosing i c).map (State.recommand q u) := by
  unfold State.takeClosing
  cases c.summary with
  | none => rfl
  | some summary =>
    show (if s.summaryFree then _ else _) = Option.map _ (if s.summaryFree then _ else _)
    cases s.summaryFree <;> rfl

theorem reconcileSlot_recommand (s : State) (i : SlotId) :
    (s.recommand q u).reconcileSlot i = (s.reconcileSlot i).map (State.recommand q u) := by
  unfold State.reconcileSlot
  show (if (s.slot i).pending then _ else _) = Option.map _ (if (s.slot i).pending then _ else _)
  cases (s.slot i).pending with
  | false => rfl
  | true => exact takeClosing_recommand s i _

theorem claimedByOther_recommand (s : State) (i : SlotId) : (s.recommand q u).claimedByOther .command i = s.claimedByOther .command i :=
  claimedByOther_command_congr i rfl rfl rfl

end

/-! ### The steps of a slot command at its slot (R145) -/

section
variable {s t : State} {cell : Cell} {i : SlotId} {run : State → State} {q : List Cell} {u : CommandUnit}

theorem withSlot_claimed (claimed : s.claimedByOther .command i = true) : withSlot s cell i run = waitAt s cell i false := if_pos claimed

theorem withSlot_waits (unclaimed : s.claimedByOther .command i = false) (waits : s.reconcileSlot i = none) :
    withSlot s cell i run = waitAt s cell i true := by
  unfold withSlot
  rw [unclaimed, waits]
  rfl

theorem withSlot_reconciled (unclaimed : s.claimedByOther .command i = false) (reconciled : s.reconcileSlot i = some t) :
    withSlot s cell i run = run t := by
  unfold withSlot
  rw [unclaimed, reconciled]
  rfl

/-- The three ways of a slot command at its slot, on the state in which the Command Unit executes it. -/
theorem withSlot_recommand :
    (s.claimedByOther .command i = true →
      withSlot (s.recommand q u) cell i run = { s with commandQueue := q, commandUnit := .waiting ⟨cell, i, false⟩ }) ∧
    (s.claimedByOther .command i = false →
      (s.reconcileSlot i = none →
        withSlot (s.recommand q u) cell i run = { s with commandQueue := q, commandUnit := .waiting ⟨cell, i, true⟩ }) ∧
      ∀ t, s.reconcileSlot i = some t → withSlot (s.recommand q u) cell i run = run (t.recommand q u)) := by
  refine ⟨fun claimed => withSlot_claimed ((claimedByOther_recommand s i).trans claimed), fun unclaimed => ⟨fun waits => ?_,
    fun t reconciled => ?_⟩⟩
  · exact withSlot_waits ((claimedByOther_recommand s i).trans unclaimed) (by rw [reconcileSlot_recommand, waits]; rfl)
  · exact withSlot_reconciled ((claimedByOther_recommand s i).trans unclaimed) (by rw [reconcileSlot_recommand, reconciled]; rfl)

theorem SlotTouched.command_claimed {x : Slot} {c : Option Summary} (touched : SlotTouched s i x c t) (j : SlotId) :
    t.claimedByOther .command j = s.claimedByOther .command j := by
  rw [touched.eq]
  exact claimedByOther_command_congr j rfl rfl rfl

end

/-! ### The four slot commands at one slot -/

/-- A run of a command that is its own outcome at the slot `i`, after the slot's steps (R145). -/
def RunsAt (cell : Cell) (i : SlotId) (run : State → State) : Prop := ∃ outcome, ∀ s, run s = withSlot s cell i outcome

section
variable {cell : Cell} {i : SlotId}

theorem runSlotRead_at (key : i.val = (commandKey cell).toNat) (part : (payloadByte cell 0).toNat ≤ 1) :
    RunsAt cell i (runSlotRead cell) := by
  refine ⟨slotReadOutcome cell i (if payloadByte cell 0 = 0 then .a else .b), fun s => ?_⟩
  unfold runSlotRead
  rw [slotOfHalf_some key, partOfCode_eq, if_pos part]
  rfl

theorem runSlotClear_at (key : i.val = (commandKey cell).toNat) : RunsAt cell i (runSlotClear cell) := by
  refine ⟨fun t => clearAnswer cell (clearSlot t i), fun s => ?_⟩
  unfold runSlotClear
  rw [slotClearKey_one key]
  rfl

theorem runArmDivert_at (key : i.val = (commandKey cell).toNat) : RunsAt cell i (runArmDivert cell) := by
  refine ⟨armDivertOutcome cell i, fun s => ?_⟩
  unfold runArmDivert
  rw [slotOfHalf_some key]
  rfl

theorem runFlushWindow_at (key : i.val = (commandKey cell).toNat) : RunsAt cell i (runFlushWindow cell) := by
  refine ⟨flushOutcome cell i, fun s => ?_⟩
  unfold runFlushWindow
  rw [slotOfHalf_some key]
  rfl

/-- A command taken at a slot that is not ready waits, or acts on the slot reconciled (R93, R145). -/
theorem slotCommand_states {s : State} {rest : List Cell} {c : Instr} {code : Byte} {run : State → State} (located : RunsAt cell i run)
    (ready : CommandReady s cell rest code)
    (runs : ∀ u : State, CommandReady u cell rest code → exec c u = .next (run (commandTaken u cell rest))) :
    (s.claimedByOther .command i = true →
      exec c s = .next { s with commandQueue := rest, commandUnit := .waiting ⟨cell, i, false⟩ }) ∧
    (s.claimedByOther .command i = false →
      (s.reconcileSlot i = none →
        exec c s = .next { s with commandQueue := rest, commandUnit := .waiting ⟨cell, i, true⟩ }) ∧
      ∀ t, s.reconcileSlot i = some t → exec c s = exec c t) := by
  obtain ⟨outcome, atSlot⟩ := located
  obtain ⟨claims, free⟩ := withSlot_recommand (s := s) (cell := cell) (i := i) (run := outcome) (q := rest) (u := .executing cell)
  rw [runs s ready, atSlot]
  refine ⟨fun claimed => congrArg _ (claims claimed), fun unclaimed => ⟨fun waits => congrArg _ ((free unclaimed).1 waits),
    fun t reconciled => ?_⟩⟩
  obtain ⟨x, q, touched⟩ := State.reconcileSlot_shape reconciled
  have later : CommandReady t cell rest code :=
    ⟨by rw [touched.eq]; exact ready.idle, by rw [touched.eq]; exact ready.place, by rw [touched.eq]; exact ready.queue, ready.isCode⟩
  have done : SlotReady t .command i := ⟨(touched.command_claimed i).trans unclaimed, State.reconcileSlot_pending reconciled⟩
  rw [runs t later, atSlot, withSlot_ready (slotReady_taken done)]
  exact congrArg Host.Outcome.next ((free unclaimed).2 t reconciled)

end

/-! ### COMMAND_RESUME (R141) -/

section
variable {s : State} {cell : Cell} {i : SlotId} {claim : Bool}

theorem commandResume_waiting (waiting : s.commandUnit = .waiting ⟨cell, i, claim⟩) :
    exec .commandResume s = .next (resumeCommand ⟨cell, i, claim⟩ { s with commandUnit := .executing cell }) := by
  show execCommandResume s = _
  unfold execCommandResume
  rw [waiting]

theorem resumeCommand_slotRead (code : commandCode cell = 0x30) (key : i.val = (commandKey cell).toNat) (u : State) :
    resumeCommand ⟨cell, i, claim⟩ u = runSlotRead cell u := by
  unfold resumeCommand runSlotRead
  dsimp only
  rw [code, slotOfHalf_some key]
  cases partOfCode (payloadByte cell 0) <;> rfl

theorem resumeCommand_slotClear (code : commandCode cell = 0x31) (key : i.val = (commandKey cell).toNat) (u : State) :
    resumeCommand ⟨cell, i, claim⟩ u = runSlotClear cell u := by
  unfold resumeCommand runSlotClear
  dsimp only
  rw [code, slotClearKey_one key]
  rfl

theorem resumeCommand_slotClear_all (code : commandCode cell = 0x31) (key : (commandKey cell).toNat = 512) (u : State) :
    resumeCommand ⟨cell, i, claim⟩ u = clearFrom cell (512 - i.val) u := by
  unfold resumeCommand
  dsimp only
  rw [code, slotClearKey_all key]
  rfl

theorem resumeCommand_armDivert (code : commandCode cell = 0x32) (key : i.val = (commandKey cell).toNat) (u : State) :
    resumeCommand ⟨cell, i, claim⟩ u = runArmDivert cell u := by
  unfold resumeCommand runArmDivert
  dsimp only
  rw [code, slotOfHalf_some key]
  rfl

theorem resumeCommand_flushWindow (code : commandCode cell = 0x33) (u : State) :
    resumeCommand ⟨cell, i, claim⟩ u = flushWindowAt cell i u := by
  unfold resumeCommand
  dsimp only
  rw [code]
  rfl

theorem resumeCommand_flushWindow_key (code : commandCode cell = 0x33) (key : i.val = (commandKey cell).toNat) (u : State) :
    resumeCommand ⟨cell, i, claim⟩ u = runFlushWindow cell u := by
  rw [resumeCommand_flushWindow code]
  unfold runFlushWindow
  rw [slotOfHalf_some key]

/-- A waiting command goes on as the command taken now from the head of the queue would. -/
theorem commandResume_as_taken {c : Instr} {code : Byte} {run : State → State} (waiting : s.commandUnit = .waiting ⟨cell, i, claim⟩)
    (isCode : commandCode cell = code) (place : s.responseQueue.length < 8)
    (resumes : ∀ u, resumeCommand ⟨cell, i, claim⟩ u = run u)
    (runs : ∀ (u : State) (rest : List Cell), CommandReady u cell rest code → exec c u = .next (run (commandTaken u cell rest))) :
    exec .commandResume s = exec c { s with commandUnit := .idle, commandQueue := cell :: s.commandQueue } ∧
      ∃ t, exec .commandResume s = .next t := by
  have ready : CommandReady { s with commandUnit := .idle, commandQueue := cell :: s.commandQueue } cell s.commandQueue code :=
    ⟨rfl, place, rfl, isCode⟩
  rw [commandResume_waiting waiting, resumes, runs _ _ ready]
  exact ⟨rfl, _, rfl⟩

end

/-! ### SLOT CLEAR of every slot (R86, R147) -/

section
variable {s : State} {cell : Cell} {i : SlotId} {claim : Bool}

/-- One step of a SLOT CLEAR that goes from slot to slot. -/
theorem clearFrom_slot (cell : Cell) (i : SlotId) (u : State) :
    clearFrom cell (512 - i.val) u = withSlot u cell i fun t => clearFrom cell (511 - i.val) (clearSlot t i) := by
  have bound := i.isLt
  have left : 512 - i.val = (511 - i.val) + 1 := by omega
  have here : (⟨511 - (511 - i.val), by omega⟩ : SlotId) = i := Fin.ext (by dsimp only; omega)
  rw [left, clearFrom, here]

theorem commandResume_clears (waiting : s.commandUnit = .waiting ⟨cell, i, claim⟩) (code : commandCode cell = 0x31)
    (key : (commandKey cell).toNat = 512) :
    (s.claimedByOther .command i = true → exec .commandResume s = .next { s with commandUnit := .waiting ⟨cell, i, false⟩ }) ∧
    (s.claimedByOther .command i = false →
      (s.reconcileSlot i = none → exec .commandResume s = .next { s with commandUnit := .waiting ⟨cell, i, true⟩ }) ∧
      ∀ t, s.reconcileSlot i = some t →
        exec .commandResume s =
          .next (clearFrom cell (511 - i.val) (clearSlot { t with commandUnit := .executing cell } i))) := by
  obtain ⟨claims, free⟩ := withSlot_recommand (s := s) (cell := cell) (i := i)
    (run := fun t => clearFrom cell (511 - i.val) (clearSlot t i)) (q := s.commandQueue) (u := .executing cell)
  rw [commandResume_waiting waiting, resumeCommand_slotClear_all code key, clearFrom_slot]
  refine ⟨fun claimed => congrArg _ (claims claimed), fun unclaimed => ⟨fun waits => congrArg _ ((free unclaimed).1 waits),
    fun t reconciled => ?_⟩⟩
  obtain ⟨x, q, touched⟩ := State.reconcileSlot_shape reconciled
  have queue : t.recommand s.commandQueue (.executing cell) = { t with commandUnit := .executing cell } := by
    rw [touched.eq]
    rfl
  rw [← queue]
  exact congrArg Host.Outcome.next ((free unclaimed).2 t reconciled)

end

/-- Settles O45: every wait is a step of `withSlot`, and each try is the command's own run. -/
theorem commandResumes : Obligations.CommandResumes := by
  refine ⟨?_, ?_, ?_, ?_, ?_⟩
  · intro s cell i claim r w waiting code slot runtime window counted room
    have ready : SlotReady { s with commandUnit := .executing cell } .command i :=
      ⟨(claimedByOther_command_congr i rfl rfl rfl).trans slot.unclaimed, slot.reconciled⟩
    rw [commandResume_waiting waiting, resumeCommand_flushWindow code]
    unfold flushWindowAt
    rw [withSlot_ready ready,
      (flushOutcome_counted (s := { s with commandUnit := .executing cell }) runtime window counted).1 room, ← code, ← slot.reconciled]
    rfl
  · intro s cell i claim c code mem waiting isCode key place
    simp only [List.mem_cons, Prod.mk.injEq, List.not_mem_nil, or_false] at mem
    rcases mem with ⟨rfl, rfl⟩ | ⟨rfl, rfl⟩ | ⟨rfl, rfl⟩ | ⟨rfl, rfl⟩
    · exact commandResume_as_taken waiting isCode place (resumeCommand_slotRead isCode key.symm)
        fun u rest h => withCommand_ready h _ _ (isCommand_code .slotRead)
    · exact commandResume_as_taken waiting isCode place (resumeCommand_slotClear isCode key.symm)
        fun u rest h => withCommand_ready h _ _ (isCommand_code .slotClear)
    · exact commandResume_as_taken waiting isCode place (resumeCommand_armDivert isCode key.symm)
        fun u rest h => withCommand_ready h _ _ (isCommand_code .armDivert)
    · exact commandResume_as_taken waiting isCode place (resumeCommand_flushWindow_key isCode key.symm)
        fun u rest h => withCommand_ready h _ _ (isCommand_code .flushWindow)
  · intro s cell rest i c code mem ready key part
    simp only [List.mem_cons, Prod.mk.injEq, List.not_mem_nil, or_false] at mem
    rcases mem with ⟨rfl, rfl⟩ | ⟨rfl, rfl⟩ | ⟨rfl, rfl⟩ | ⟨rfl, rfl⟩
    · exact slotCommand_states (runSlotRead_at key (part rfl)) ready fun u h => withCommand_ready h _ _ (isCommand_code .slotRead)
    · exact slotCommand_states (runSlotClear_at key) ready fun u h => withCommand_ready h _ _ (isCommand_code .slotClear)
    · exact slotCommand_states (runArmDivert_at key) ready fun u h => withCommand_ready h _ _ (isCommand_code .armDivert)
    · exact slotCommand_states (runFlushWindow_at key) ready fun u h => withCommand_ready h _ _ (isCommand_code .flushWindow)
  · intro s cell rest ready key
    have run : exec .slotClear s = .next (runSlotClear cell (commandTaken s cell rest)) :=
      withCommand_ready ready _ _ (isCommand_code .slotClear)
    have all : runSlotClear cell (commandTaken s cell rest) = clearFrom cell 512 (commandTaken s cell rest) := by
      unfold runSlotClear
      rw [slotClearKey_all key]
    rw [run, all, commandResume_waiting (s := { s with commandQueue := rest, commandUnit := .waiting ⟨cell, ⟨0, by decide⟩, false⟩ }) rfl,
      resumeCommand_slotClear_all ready.isCode key]
    rfl
  · intro s cell i claim waiting code key
    obtain ⟨claims, free⟩ := commandResume_clears waiting code key
    refine ⟨claims, fun unclaimed => ⟨(free unclaimed).1, fun t reconciled => ⟨fun j next => ?_, fun last => ?_⟩⟩⟩
    · have left : 512 - j.val = 511 - i.val := by omega
      rw [(free unclaimed).2 t reconciled, clearSlot_eq,
        commandResume_waiting
          (s := { t with slots := t.slots.put i (clearedSlot (t.slot i)), commandUnit := .waiting ⟨cell, j, false⟩ }) rfl,
        resumeCommand_slotClear_all code key, left]
      rfl
    · obtain ⟨x, q, touched⟩ := State.reconcileSlot_shape reconciled
      have strap : t.strap = s.strap := by rw [touched.eq]
      have tables := reconcileSlot_active reconciled
      have finished : 511 - i.val = 0 := by omega
      rw [(free unclaimed).2 t reconciled, clearSlot_eq, finished, ← strap, ← tables, ← code]
      rfl

end Sys2Proof.Machine
end

section
/-! PROOFS. The Table Store's events and the verify of a bank, check by check (R31, R122 to R124, R126 to R129). -/

namespace Sys2Proof.Machine

/-! ### The end of a verify, the swap and the end of a mirror (R122 to R129) -/

/-- Settles O46: the walk's answer. -/
theorem verifyCompletes : Obligations.VerifyCompletes := by
  intro s walking
  refine ⟨fun passes => ?_, fun f fails => ?_⟩
  · show execVerifyComplete s = _
    unfold execVerifyComplete
    rw [if_pos walking, passes]
    rfl
  · show execVerifyComplete s = _
    unfold execVerifyComplete
    rw [if_pos walking, fails]
    rfl

/-- A mirrored shadow bank is the active bank (R128). -/
theorem TableStore.putShadow_active_eq (t : TableStore) :
    ({ t.putShadow t.activeBank with shadowState := .editable } : TableStore) =
      ⟨t.activeBank, t.activeBank, t.active, t.generation, .editable⟩ := by
  obtain ⟨a, b, active, generation, state⟩ := t
  cases active <;> rfl

theorem mirrorComplete_mirroring {s : State} {cause : MirrorCause} (mirroring : s.tables.shadowState = .mirroring cause)
    (running : s.commandUnit ≠ .resetting) :
    exec .mirrorComplete s = .next
      (State.handNotice { s with tables := { s.tables.putShadow s.tables.activeBank with shadowState := .editable } }
        (.mirrorDone s.tables.generation cause)) := by
  show execMirrorComplete s = _
  unfold execMirrorComplete
  rw [mirroring]
  exact if_neg running

/-- Settles O48: the two conditions of a swap, and the mirror's end. -/
theorem swapAndMirror : Obligations.SwapAndMirror := by
  refine fun s => ⟨fun pending idle settled => ?_, fun blocked => ?_, fun cause mirroring running => ?_⟩
  · show execSwap s = _
    unfold execSwap
    rw [if_pos ((maySwap_iff s).2 ⟨pending, idle, settled⟩)]
    rfl
  · show execSwap s = _
    unfold execSwap
    refine if_neg fun may => ?_
    obtain ⟨pending, idle, settled⟩ := (maySwap_iff s).1 may
    rcases blocked with busy | flight | other
    · exact busy idle
    · exact Bool.noConfusion (settled.symm.trans flight)
    · exact other pending
  · rw [mirrorComplete_mirroring mirroring running, TableStore.putShadow_active_eq]

/-! ### The walk of a bank (R122, R124) -/

section
variable {b : Bank} {before after : List Entry} {e : Entry}

/-- The walk reaches an entry when every entry before it has passed. -/
theorem verifyBank_reaches (split : b.directory = before ++ e :: after) (passed : ∀ p x q, before = p ++ x :: q → EntryPasses b p x) :
    verifyBank b = verifyWalk b before (e :: after) := by
  unfold verifyBank
  rw [split]
  exact verifyWalk_append b before [] (e :: after) passed

theorem verifyBank_fails (split : b.directory = before ++ e :: after) (passed : ∀ p x q, before = p ++ x :: q → EntryPasses b p x)
    {reason : VerifyReason} {a : Nat} (fails : verifyEntry b before e = some (reason, a)) :
    verifyBank b = some ⟨reason, e.input, BitVec.ofNat 16 a⟩ := by
  rw [verifyBank_reaches split passed, verifyWalk, fails]

theorem verifyBank_passes (passed : ∀ before e after, b.directory = before ++ e :: after → EntryPasses b before e) : verifyBank b = none := by
  have walked : verifyWalk b [] (b.directory ++ []) = verifyWalk b ([] ++ b.directory) [] :=
    verifyWalk_append b b.directory [] [] fun p x q split => passed p x q split
  rw [List.append_nil] at walked
  exact walked

theorem verifyEntry_slotShared (shared : ∃ x ∈ before, x.slot = e.slot) : verifyEntry b before e = some (.slotShared, 0) := by
  obtain ⟨x, mem, same⟩ := shared
  exact if_pos (List.any_eq_true.2 ⟨x, mem, decide_eq_true same⟩)

theorem verifyEntry_outShared (slots : ∀ x ∈ before, x.slot ≠ e.slot) (shared : ∃ x ∈ before, x.output = e.output) :
    verifyEntry b before e = some (.outShared, 0) := by
  obtain ⟨x, mem, same⟩ := shared
  unfold verifyEntry
  rw [if_neg (by simpa using slots)]
  exact if_pos (List.any_eq_true.2 ⟨x, mem, decide_eq_true same⟩)

theorem verifyEntry_unshared (slots : ∀ x ∈ before, x.slot ≠ e.slot) (outputs : ∀ x ∈ before, x.output ≠ e.output) :
    verifyEntry b before e = verifyConversion b e := by
  unfold verifyEntry
  rw [if_neg (by simpa using slots), if_neg (by simpa using outputs)]

theorem verifyConversion_form {table : BitVec 12} (conversion : e.conversion = .segmented table) (form : e.inputForm = .float) :
    verifyConversion b e = some (.form, 0) := by
  unfold verifyConversion
  rw [conversion]
  exact if_pos form

theorem verifyConversion_table {table : BitVec 12} (conversion : e.conversion = .segmented table) (form : e.inputForm ≠ .float) :
    verifyConversion b e = verifyTable b.pool 3 table.toNat := by
  unfold verifyConversion
  rw [conversion]
  exact if_neg form

theorem verifyConversion_refMissing {reference : ChannelId} {gain : Word} (conversion : e.conversion = .ratio reference gain)
    (missing : ∀ f ∈ b.directory, f.input ≠ reference) : verifyConversion b e = some (.refMissing, 0) := by
  unfold verifyConversion
  rw [conversion]
  dsimp only
  rw [findChannel_none.2 missing]

theorem verifyConversion_refRatio {reference : ChannelId} {gain : Word} (conversion : e.conversion = .ratio reference gain)
    (present : ∃ f ∈ b.directory, f.input = reference)
    (ratio : ∀ f ∈ b.directory, f.input = reference → ∃ channel g, f.conversion = .ratio channel g) :
    verifyConversion b e = some (.refRatio, 0) := by
  obtain ⟨f, found⟩ := findChannel_isSome present
  obtain ⟨mem, input⟩ := findChannel_some found
  obtain ⟨channel, g, kind⟩ := ratio f mem input
  unfold verifyConversion
  rw [conversion]
  dsimp only
  rw [found]
  dsimp only
  rw [kind]
  rfl

end

/-! ### The checks of a table (R31) -/

section
variable {pool : Memory} {deeper address : Nat} {f : Nat → Nat → Option (VerifyReason × Nat)} {h : Header}

theorem verifyHeader_bounds (header : h = headerOfWord (Memory.read pool address)) (ordered : h.low ≤ h.high)
    (outside : 4095 < (address : Int) + (h.high - h.low + 1)) : verifyHeader pool f address = some (.poolBounds, address) := by
  subst header
  exact if_pos ⟨ordered, outside⟩

theorem verifyHeader_limits (header : h = headerOfWord (Memory.read pool address)) (crossed : h.high < h.low) :
    verifyHeader pool f address = some (.limits, address) := by
  subst header
  unfold verifyHeader
  dsimp only
  rw [if_neg (by omega), if_pos crossed]

theorem verifyHeader_shift (header : h = headerOfWord (Memory.read pool address)) (ordered : h.low ≤ h.high)
    (inside : (address : Int) + (h.high - h.low + 1) ≤ 4095) (shift : 23 < h.shift) :
    verifyHeader pool f address = some (.shift, address) := by
  subst header
  unfold verifyHeader
  dsimp only
  rw [if_neg (fun bad => absurd bad.2 (Int.not_lt.2 inside)), if_neg (by omega), if_pos shift]

theorem verifyHeader_buckets (header : h = headerOfWord (Memory.read pool address)) (ordered : h.low ≤ h.high)
    (inside : (address : Int) + (h.high - h.low + 1) ≤ 4095) (shift : h.shift ≤ 23) :
    verifyHeader pool f address =
      (List.range (h.high - h.low + 1).toNat).findSome? fun i => verifyBucket pool f (address + 1 + i) := by
  subst header
  unfold verifyHeader
  dsimp only
  rw [if_neg (fun bad => absurd bad.2 (Int.not_lt.2 inside)), if_neg (by omega), if_neg (by omega)]

theorem verifyBucket_bounds {a : Nat} {e : EntryWord} (entry : e = entryOfWord (Memory.read pool a)) (kind : e.kind = .segment)
    (last : e.target = 4095) : verifyBucket pool f a = some (.poolBounds, a) := by
  subst entry
  unfold verifyBucket
  dsimp only
  rw [kind, last]
  rfl

theorem verifyBucket_onLink {a : Nat} {e : EntryWord} (entry : e = entryOfWord (Memory.read pool a)) (kind : e.kind = .link) :
    verifyBucket pool f a = f a e.target := by
  subst entry
  unfold verifyBucket
  dsimp only
  rw [kind]

/-- A table whose header passes: no failure where every bucket passes, and otherwise the first bucket's that fails. -/
theorem verifyTable_buckets (header : h = headerOfWord (Memory.read pool address)) (ordered : h.low ≤ h.high)
    (inside : (address : Int) + (h.high - h.low + 1) ≤ 4095) (shift : h.shift ≤ 23) :
    ((∀ n : Nat, (n : Int) ≤ h.high - h.low → BucketPasses pool deeper (address + 1 + n)) → verifyTable pool deeper address = none) ∧
    ∀ (n : Nat) (e : EntryWord), (n : Int) ≤ h.high - h.low → (∀ m, m < n → BucketPasses pool deeper (address + 1 + m)) →
      e = entryOfWord (Memory.read pool (address + 1 + n)) →
      (e.kind = .segment → e.target = 4095 → verifyTable pool deeper address = some (.poolBounds, address + 1 + n)) ∧
      (e.kind = .link → deeper = 0 → verifyTable pool deeper address = some (.linkDepth, address + 1 + n)) ∧
      ∀ d failure, e.kind = .link → deeper = d + 1 → verifyTable pool d e.target = some failure →
        verifyTable pool deeper address = some failure := by
  obtain ⟨f, links, walk⟩ := verifyTable_header pool deeper address
  rw [walk, verifyHeader_buckets header ordered inside shift]
  refine ⟨fun passes => ?_, fun n e place earlier entry => ?_⟩
  · refine List.findSome?_eq_none_iff.2 fun n mem => BucketPasses.noFailure pool deeper _ (passes n ?_) f links
    have := List.mem_range.1 mem
    omega
  · have first {failure : VerifyReason × Nat} (fails : verifyBucket pool f (address + 1 + n) = some failure) :=
      findSome_range (fun i => verifyBucket pool f (address + 1 + i)) (h.high - h.low + 1).toNat n (by omega)
        (fun m below => BucketPasses.noFailure pool deeper _ (earlier m below) f links) failure fails
    refine ⟨fun kind last => first (verifyBucket_bounds entry kind last), fun kind level => first ?_,
      fun d failure kind level below => first ?_⟩
    · rw [verifyBucket_onLink entry kind, links, level]
      rfl
    · rw [verifyBucket_onLink entry kind, links, level]
      exact below

end

/-- Settles O47: the pass, the first failure of the walk, and the checks of a table. -/
theorem verifyPassMeans : Obligations.VerifyPassMeans := by
  refine ⟨fun b passed => ⟨verifyBank_none_pairwise passed, fun e mem => ⟨fun reference gain conversion =>
    verifyConversion_ratio (verifyBank_none_conversion passed mem) conversion, fun table conversion =>
    (verifyConversion_segmented (verifyBank_none_conversion passed mem) conversion).1⟩⟩, fun b passed => verifyBank_passes passed,
    fun b before e after split passed => ?_, fun pool deeper address h header => ?_⟩
  · have fails {reason : VerifyReason} {a : Nat} (h : verifyEntry b before e = some (reason, a)) := verifyBank_fails split passed h
    refine ⟨fun shared => fails (verifyEntry_slotShared shared), fun slots shared => fails (verifyEntry_outShared slots shared),
      fun slots outputs => ?_⟩
    rw [verifyEntry_unshared slots outputs] at fails
    refine ⟨fun table conversion => ⟨fun form => fails (verifyConversion_form conversion form), fun form reason a failure => fails ?_⟩,
      fun reference gain conversion => ⟨fun missing => fails (verifyConversion_refMissing conversion missing),
        fun present ratio => fails (verifyConversion_refRatio conversion present ratio)⟩⟩
    rw [verifyConversion_table conversion form, failure]
  · obtain ⟨f, -, walk⟩ := verifyTable_header pool deeper address
    refine ⟨fun ordered outside => ?_, fun crossed => ?_, fun ordered inside => ⟨fun shift => ?_, fun shift => ?_⟩⟩
    · rw [walk, verifyHeader_bounds header ordered outside]
    · rw [walk, verifyHeader_limits header crossed]
    · rw [walk, verifyHeader_shift header ordered inside shift]
    · exact verifyTable_buckets header ordered inside shift

end Sys2Proof.Machine
end
